-- ==== Sys2Proof/Word.lean ====
section
/-! DEFINITION. The word types of the two blocks: 32-bit register values and bytes (00_scope.md section 5). -/

namespace Sys2Proof

/-- A byte on the SPI wire, in the flash array or in a buffer. -/
abbrev Byte := BitVec 8

/-- A 32-bit register value: bit 31 is the most significant bit. -/
abbrev Word := BitVec 32

/-- `bit(n)`: the 32-bit word `1 << n`. -/
def bit (n : Nat) : Word := 1#32 <<< n

end Sys2Proof
end

