-- ==== Sys2Proof/Syntax.lean ====
section
/-! DEFINITION. The operations of the three tiers (R4): one constructor of `Instr` per row of the opcode table, the
types of their operands, and the forms in which an operation reaches the machine (R28, R46). -/

namespace Sys2Proof

/-- The two SoC families (R1, C14). -/
inductive Family where
  | rtl838x
  | rtl839x
deriving DecidableEq, Repr

/-- A chip-select of the SPI controller. -/
inductive ChipSel where
  | cs0
  | cs1
deriving DecidableEq, Repr

/-- The addressing mode fixed at attach (R25): 3-byte or 4-byte addresses. -/
inductive AddrMode where
  | three
  | four
deriving DecidableEq, Repr

/-- The strap and PLL read-out sampled once at attach (R37). The spec leaves the record opaque; three 32-bit register
values (DESIGN CHOICE, row 30). -/
structure Straps where
  w0 : Word
  w1 : Word
  w2 : Word
deriving DecidableEq, Repr

/-- Direction of a register access. -/
inductive Dir where
  | read
  | write
deriving DecidableEq, Repr

/-- The two blocks. -/
inductive Block where
  | router
  | spi
deriving DecidableEq, Repr

/-- The ten memory-mapped registers (R10). -/
inductive Reg where
  | gimr
  | gisr
  | irr (n : Fin 4)
  | sfcr
  | sfcr2
  | sfcsr
  | sfdr
deriving DecidableEq, Repr

/-- The registers a gated write `w32` may name (R99). -/
inductive GatedReg where
  | sfcsr
  | sfdr
deriving DecidableEq, Repr

/-- The three formats (R46). -/
inductive Format where
  | mmio32
  | call
  | norframe
deriving DecidableEq, Repr

/-- An encoded operation: its format and its bytes. The leading bytes are the number the opcode table gives it (two
bytes, low byte first, for MMIO32; one byte for CALL and NORFRAME); the layout of the operand bytes after them is this
model's (DESIGN CHOICE, row 17). -/
structure Code where
  format : Format
  bytes : List Byte
deriving DecidableEq, Repr

/-- A host bus transaction (R28): direction, bus address, width in bits, and the value of a write. The spec gives a bus
address no width; that it has 32 bits is a DESIGN CHOICE (row 43). -/
structure BusAccess where
  dir : Dir
  addr : Word
  width : Nat
  value : Word
deriving DecidableEq, Repr

/-- Why a code or a bus transaction names no operation. -/
inductive DecodeError where
  /-- The MMIO32 code is none of the twenty of R47. -/
  | unknownCode
  /-- The call number is none of the twenty-one of R59. -/
  | unknownCall
  /-- The command byte is none of the nine of R62: no operation of the table. `step` runs it as a frame that the device
  ignores (R129). -/
  | unknownCommand
  /-- Too few or too many operand bytes. -/
  | badLength
  /-- A CPU line operand above 7 (R59). -/
  | badLine
  /-- A family outside the two (R111: refused). -/
  | badFamily
  /-- A register operand of `w32` other than SFCSR, SFDR (R99). -/
  | badRegister
  /-- A chip-select of a frame other than 0, 1. -/
  | badChipSelect
  /-- The address flag of `issue_cmd` is neither 0 nor 1, or there is an address without the flag. -/
  | badFlag
  /-- The operation read is not well formed (WellFormed.lean). -/
  | illFormed
  /-- A bus access that is not 32 bits wide (R33). -/
  | badWidth
  /-- A bus access that is not aligned to 4 bytes (R33). -/
  | misaligned
  /-- A bus access outside both blocks (R30). -/
  | outsideBlocks
deriving DecidableEq, Repr

/-- The operations, one constructor per row of the opcode table. A NORFRAME operation carries the chip-select of the
device, the bytes sent after the command byte, and the number of bytes read (R57). -/
inductive Instr where
  -- T1, MMIO32, router (40_irq_router.md section 2)
  | gimrR
  | gimrW (v : Word)
  | gisrR
  | gisrW (v : Word)
  | irr0R
  | irr0W (v : Word)
  | irr1R
  | irr1W (v : Word)
  | irr2R
  | irr2W (v : Word)
  | irr3R
  | irr3W (v : Word)
  -- T1, MMIO32, SPI controller (41_spi_controller.md section 2)
  | sfcrR
  | sfcrW (v : Word)
  | sfcr2R
  | sfcr2W (v : Word)
  | sfcsrR
  | sfcsrW (v : Word)
  | sfdrR
  | sfdrW (v : Word)
  -- T2, CALL, router (40_irq_router.md section 3)
  | routeInit
  | enable (src : Nat)
  | disable (src : Nat)
  | dispatch (line : Fin 8)
  | irqEntry (pending : Byte)
  | registerHandler (src : Nat) (h : Word)
  | handlerReturn (line : Fin 8)
  -- T2, CALL, SPI (42_spi_primitives.md)
  /-- `attach` (R111). R59 and R111 give `cs` no width; that it has 8 bits is a DESIGN CHOICE (row 47). -/
  | attach (family : Family) (cs : Byte) (straps : Straps)
  | spiPrep
  | waitReady
  | w32 (reg : GatedReg) (v : Word)
  | r32
  | readStatus
  | waitWip
  | writeEnable
  | readReg (op : Byte) (len : Nat)
  | writeReg (op : Byte) (buf : List Byte) (len : Nat)
  | read (offset : Nat) (len : Nat)
  | write (offset : Nat) (buf : List Byte) (len : Nat)
  | erase (offset : Nat)
  | issueCmd (base : Word) (op : Byte) (addr : Option Word)
  -- T3, NORFRAME (43_flash_device.md section 2)
  | wrsr (c : ChipSel) (sent : List Byte) (reads : Nat)
  | pp (c : ChipSel) (sent : List Byte) (reads : Nat)
  | rdsr (c : ChipSel) (sent : List Byte) (reads : Nat)
  | wren (c : ChipSel) (sent : List Byte) (reads : Nat)
  | fastRead (c : ChipSel) (sent : List Byte) (reads : Nat)
  | fastRead4b (c : ChipSel) (sent : List Byte) (reads : Nat)
  | pp4b (c : ChipSel) (sent : List Byte) (reads : Nat)
  | se (c : ChipSel) (sent : List Byte) (reads : Nat)
  | se4b (c : ChipSel) (sent : List Byte) (reads : Nat)
deriving DecidableEq, Repr

end Sys2Proof
end

