-- ==== Sys2Proof/Config.lean ====
section
/-! DEFINITION. The configuration (R6): the rows fixed by the source, which may not be varied, as constants; the decided
rows, the inputs and the OPEN parameters as the record `Cfg` (a field of State, row 1), with the decided values and the
reference values in `Cfg.reference`; the constraints of R7; and the free values. -/

namespace Sys2Proof

namespace Config

/-! Fixed by the source (R6). -/

def numSources : Nat := 32
def numRouting : Nat := 4
def nibblesPerRouting : Nat := 8
def nibbleWidth : Nat := 4
def numLevels : Nat := 5
def numCpuLines : Nat := 8
def chunk : Nat := 256
/-- DATA_W: the type `Lanes` of a data-register value has as many lanes. -/
def dataBytes : Nat := 4

/-! Given by other rules. -/

/-- Bytes of register space of the router block, `[INTC_BASE, INTC_BASE + 0x18)` (R30). -/
def routerSpan : Nat := 0x18
/-- Bytes of register space of the SPI block, `[SPI_BASE, SPI_BASE + 0x10)` (R30). -/
def spiSpan : Nat := 0x10

/-- What a flash byte that is not listed reads as: the erased byte of R118 (DESIGN CHOICE, row 8). -/
def erasedByte : Byte := 0xFF#8

/-- Device page size of R125. -/
def page : Nat := 256

/-- The number of `ok` (R116, D33). -/
def success : Int := 0

/-! Free values: nothing constrains them (the spec's `draw`). -/

/-- `draw(byte)`: the n-th unconstrained byte of a run (U6, U7, U15; row 9). -/
opaque drawByte : Nat → Byte

/-- The n-th unconstrained choice among several pending CPU lines (R74, U23; row 10). -/
opaque pickLine : Nat → Nat

end Config

/-- A byte that `write_reg` with two payload bytes sends: the command, or a byte of the buffer (R56). -/
inductive PayloadByte where
  | command
  | first
  | second
deriving DecidableEq, Repr

/-- The configuration record of R6: its inputs, its decided fields and its OPEN fields. -/
structure Cfg where
  /-- `FAMILY`; none when the boot record is missing (R139, U28). -/
  family : Option Family
  /-- `FAMILY_ID(RTL838X)`: no rule uses it (D42). -/
  familyId838x : Nat
  /-- `FAMILY_ID(RTL839X)`: no rule uses it (D42). -/
  familyId839x : Nat
  /-- `INTC_BASE`; none when the base is not mapped (R139). That a base has 32 bits is a DESIGN CHOICE (row 43). -/
  intcBase : Option Word
  /-- `SPI_BASE`; none when the base is not mapped (R139). That a base has 32 bits is a DESIGN CHOICE (row 43). -/
  spiBase : Option Word
  /-- `OFF_GIMR` (D2). -/
  offGimr : Byte
  /-- `OFF_GISR` (D2). -/
  offGisr : Byte
  /-- `OFF_IRR0` (D2). -/
  offIrr0 : Byte
  /-- `OFF_IRR1` (D2). -/
  offIrr1 : Byte
  /-- `OFF_IRR2` (D2). -/
  offIrr2 : Byte
  /-- `OFF_IRR3` (D2). -/
  offIrr3 : Byte
  /-- `OFF_SFCR` (D3). -/
  offSfcr : Byte
  /-- `OFF_SFCR2` (D3). -/
  offSfcr2 : Byte
  /-- `OFF_SFCSR` (D3). -/
  offSfcsr : Byte
  /-- `OFF_SFDR` (D3). -/
  offSfdr : Byte
  /-- `(irr_index(s), irr_shift(s))` for s = 0, 1, ..., 31 (D5). -/
  nibblePlaces : List (Fin 4 × Nat)
  /-- `line_of_level(l)` for l = 1, 2, ..., 5 (D6). -/
  levelLines : List Nat
  /-- `ROUTE_TABLE(RTL838X, s)` for s = 0, 1, ..., 31. -/
  route838x : List Nat
  /-- `ROUTE_TABLE(RTL839X, s)` for s = 0, 1, ..., 31. -/
  route839x : List Nat
  srcTimer : Nat
  srcUart0 : Nat
  /-- `BIT_CSB0` (D14). -/
  bitCsb0 : Nat
  /-- `BIT_CSB1` (D14). -/
  bitCsb1 : Nat
  /-- `LEN_HI` (D14). -/
  lenHi : Nat
  /-- `LEN_LO` (D14). -/
  lenLo : Nat
  /-- `BIT_RDY` (D14). -/
  bitRdy : Nat
  /-- `BIT_BO` (D15). -/
  bitBo : Nat
  /-- `OP_RDSR` (D29). -/
  opRdsr : Byte
  /-- `OP_WREN` (D29). -/
  opWren : Byte
  /-- `OP_WRSR` (D29). -/
  opWrsr : Byte
  /-- `OP_READ(3)` (D29). -/
  opRead3 : Byte
  /-- `OP_READ(4)` (D29). -/
  opRead4 : Byte
  /-- `OP_PP(3)` (D29). -/
  opPp3 : Byte
  /-- `OP_PP(4)` (D29). -/
  opPp4 : Byte
  /-- `OP_SE(3)` (D29). -/
  opSe3 : Byte
  /-- `OP_SE(4)` (D29). -/
  opSe4 : Byte
  /-- `SR_WIP` (D29). -/
  srWip : Nat
  /-- `SR_WEL` (D29). -/
  srWel : Nat
  /-- `NDUMMY` (D25). -/
  numDummy : Nat
  /-- `ERASE_SIZE`, in bytes. -/
  eraseSize : Nat
  /-- `FLASH_SIZE(0)`, in bytes. -/
  flashSize0 : Nat
  /-- `FLASH_SIZE(1)`, in bytes. -/
  flashSize1 : Nat
  /-- `POLL_BUDGET`; none stands for `inf`. -/
  pollBudget : Option Nat
  /-- `ADDR4`: the pairs (family, straps) for which the strap decision is 4-byte (row 30). -/
  addr4 : List (Family × Straps)
  /-- `CS`, the chip-select of the controller that is attached. R111 gives `attach` an operand `cs` as well; that the operand
  decides, and CS is not compared with it, is a DESIGN CHOICE (row 46). -/
  cs : Nat
  /-- `E_INVAL` (D33). -/
  eInval : Int
  /-- `E_TIMEDOUT` (D33). -/
  eTimedOut : Int
  /-- The word of `write_reg` with two payload bytes, a parameter (R56, R167, U8; row 24): the bytes and the bit positions
  they are shifted to. -/
  writeReg2 : List (PayloadByte × Nat)
deriving DecidableEq, Repr

/-- `OP_READ(mode)`: fast read and 4-byte fast read. -/
def Cfg.opRead (c : Cfg) : AddrMode → Byte
  | .three => c.opRead3
  | .four => c.opRead4

/-- `OP_PP(mode)`: page program and 4-byte page program. -/
def Cfg.opPp (c : Cfg) : AddrMode → Byte
  | .three => c.opPp3
  | .four => c.opPp4

/-- `OP_SE(mode)`: sector erase and 4-byte sector erase. -/
def Cfg.opSe (c : Cfg) : AddrMode → Byte
  | .three => c.opSe3
  | .four => c.opSe4

/-- The nine NOR command bytes (R7, R62). -/
def Cfg.commandBytes (c : Cfg) : List Byte :=
  [c.opWrsr, c.opPp3, c.opRdsr, c.opWren, c.opRead3, c.opRead4, c.opPp4, c.opSe3, c.opSe4]

/-- The five bit positions of SFCSR that are a field's; every other bit is reserved (R7, R52). -/
def Cfg.sfcsrBits (c : Cfg) : List Nat := [c.bitCsb0, c.bitCsb1, c.lenHi, c.lenLo, c.bitRdy]

/-- Where the nibble of a source stands. -/
def Cfg.nibblePlace (c : Cfg) (src : Nat) : Fin 4 × Nat := c.nibblePlaces.getD src (0, 0)

/-- `irr_index(s)`. -/
def Cfg.irrIndex (c : Cfg) (src : Nat) : Fin 4 := (c.nibblePlace src).1

/-- `irr_shift(s)`. -/
def Cfg.irrShift (c : Cfg) (src : Nat) : Nat := (c.nibblePlace src).2

/-- `line_of_level(l)`; none for a number that is no level. -/
def Cfg.lineOfLevel (c : Cfg) : Nat → Option Nat
  | 0 => none
  | l + 1 => c.levelLines[l]?

/-- `ROUTE_TABLE(f, s)`. -/
def Cfg.routeLevel (c : Cfg) : Family → Nat → Nat
  | .rtl838x, src => c.route838x.getD src 0
  | .rtl839x, src => c.route839x.getD src 0

/-- `FLASH_SIZE(cs)`. -/
def Cfg.flashSize (c : Cfg) : ChipSel → Nat
  | .cs0 => c.flashSize0
  | .cs1 => c.flashSize1

/-- `ADDR4(family, straps)`: true for 4-byte addresses (R112). -/
def Cfg.wants4 (c : Cfg) (f : Family) (straps : Straps) : Bool := c.addr4.contains (f, straps)

/-- A routing table gives each of the 32 sources a level in 1..5 (R7). -/
def Cfg.tableOk (table : List Nat) : Bool :=
  table.length == Config.numSources && table.all fun l => decide (1 ≤ l) && decide (l ≤ Config.numLevels)

/-- A power of two (R7, ERASE_SIZE). -/
def Cfg.powerOfTwo (n : Nat) : Bool := decide (2 ^ Nat.log2 n = n)

/-- The routing tables, the bootstrap sources, the flash sizes, the erase size and CS meet R7; `POLL_BUDGET = 0` is not
allowed (R98). -/
def Cfg.inputsOk (c : Cfg) : Bool :=
  [Cfg.tableOk c.route838x, Cfg.tableOk c.route839x, c.srcTimer != c.srcUart0, decide (c.srcTimer < Config.numSources),
    decide (c.srcUart0 < Config.numSources), decide (c.flashSize0 ≤ 2 ^ 32), decide (c.flashSize1 ≤ 2 ^ 32),
    Cfg.powerOfTwo c.eraseSize, decide (c.cs ≤ 1), c.pollBudget != some 0].all id

/-- `irr_index` and `irr_shift` place the 32 sources on the 32 nibble positions, no two on one (R7). -/
def Cfg.placesOk (c : Cfg) : Bool :=
  c.nibblePlaces.length == Config.numSources && decide c.nibblePlaces.Nodup
    && c.nibblePlaces.all fun p =>
      p.2 % Config.nibbleWidth == 0 && decide (p.2 < Config.nibbleWidth * Config.nibblesPerRouting)

/-- `line_of_level` is injective into 0..7 (R7). -/
def Cfg.linesOk (c : Cfg) : Bool :=
  c.levelLines.length == Config.numLevels && decide c.levelLines.Nodup
    && c.levelLines.all fun k => decide (k < Config.numCpuLines)

/-- The five SFCSR positions are distinct and LEN is two adjacent bits (R7); that all of them, and BIT_BO, lie in a 32-bit
register is DEDUCED from R20 and R22 (row 1). -/
def Cfg.bitsOk (c : Cfg) : Bool :=
  decide c.sfcsrBits.Nodup && c.lenHi == c.lenLo + 1 && c.sfcsrBits.all (fun n => decide (n < 32)) && decide (c.bitBo < 32)

/-- The nine command bytes are pairwise distinct (R7); that WIP and WEL are two bits of one byte is DEDUCED from R118
(row 1). -/
def Cfg.commandsOk (c : Cfg) : Bool :=
  decide c.commandBytes.Nodup && c.srWip != c.srWel && decide (c.srWip < 8) && decide (c.srWel < 8)

/-- The offsets of a block are the multiples of 4 in its range, each once: DEDUCED from R30, "every multiple of 4 in the
range is a register" (row 1). -/
def Cfg.offsetsOk (c : Cfg) : Bool :=
  let router := [c.offGimr, c.offGisr, c.offIrr0, c.offIrr1, c.offIrr2, c.offIrr3]
  let spi := [c.offSfcr, c.offSfcr2, c.offSfcsr, c.offSfdr]
  decide router.Nodup && router.all (fun o => o.toNat % 4 == 0 && decide (o.toNat < Config.routerSpan))
    && decide spi.Nodup && spi.all (fun o => o.toNat % 4 == 0 && decide (o.toNat < Config.spiSpan))

/-- The result codes are negative, and a timeout has its own: DEDUCED from R116 and R133 (row 1). -/
def Cfg.codesOk (c : Cfg) : Bool := decide (c.eInval < 0) && decide (c.eTimedOut < 0) && c.eInval != c.eTimedOut

/-- The constraints of R7, with those that other rules imply. R7 says nothing of the bases; that one which is no multiple of
4, or whose register range passes 2^32, is accepted is a DESIGN CHOICE (row 43). -/
def Cfg.ok (c : Cfg) : Bool :=
  [c.inputsOk, c.placesOk, c.linesOk, c.bitsOk, c.commandsOk, c.offsetsOk, c.codesOk].all id

/-- The synthetic routing table of the vectors, `TEST_TABLE(s) = (s mod 5) + 1` (R6). -/
def Cfg.testTable : List Nat := (List.range 32).map fun src => src % 5 + 1

/-- The decided placement of the nibbles: `irr_index(s) = 3 - (s div 8)`, `irr_shift(s) = 4 * (s mod 8)` (R6, D5). -/
def Cfg.decidedPlaces : List (Fin 4 × Nat) :=
  (List.range 32).map fun src => (⟨3 - src / 8, by omega⟩, 4 * (src % 8))

/-- The decided map of levels to lines: `line_of_level(l) = l + 1` (R6, D6). -/
def Cfg.decidedLines : List Nat := [2, 3, 4, 5, 6]

/-- The default word of `write_reg` with two payload bytes (R56): command, first byte, second byte from the top. -/
def Cfg.writeReg2Default : List (PayloadByte × Nat) := [(.command, 24), (.first, 16), (.second, 8)]

/-- The values of R6: each decided field at its decided value, each OPEN field at the value the vectors use (row 2). CS is
0, as in 95_test_vectors.md. FAMILY has no value: R6 gives "`RTL838X` or `RTL839X`", and that the record has `rtl838x` is the
model's own DESIGN CHOICE (row 2). -/
def Cfg.reference : Cfg where
  family := some .rtl838x
  familyId838x := 0x8380
  familyId839x := 0x8390
  intcBase := some 0xB8003000#32
  spiBase := some 0xB8001200#32
  offGimr := 0x00#8
  offGisr := 0x04#8
  offIrr0 := 0x08#8
  offIrr1 := 0x0C#8
  offIrr2 := 0x10#8
  offIrr3 := 0x14#8
  offSfcr := 0x00#8
  offSfcr2 := 0x04#8
  offSfcsr := 0x08#8
  offSfdr := 0x0C#8
  nibblePlaces := Cfg.decidedPlaces
  levelLines := Cfg.decidedLines
  route838x := Cfg.testTable
  route839x := Cfg.testTable
  srcTimer := 29
  srcUart0 := 31
  bitCsb0 := 31
  bitCsb1 := 30
  lenHi := 29
  lenLo := 28
  bitRdy := 27
  bitBo := 28
  opRdsr := 0x05#8
  opWren := 0x06#8
  opWrsr := 0x01#8
  opRead3 := 0x0B#8
  opRead4 := 0x0C#8
  opPp3 := 0x02#8
  opPp4 := 0x12#8
  opSe3 := 0xD8#8
  opSe4 := 0xDC#8
  srWip := 0
  srWel := 1
  numDummy := 1
  eraseSize := 0x10000
  flashSize0 := 0x1000000
  flashSize1 := 0x1000000
  pollBudget := some 1000
  addr4 := [(.rtl838x, ⟨1#32, 0#32, 0#32⟩), (.rtl839x, ⟨1#32, 0#32, 0#32⟩)]
  cs := 0
  eInval := -22
  eTimedOut := -110
  writeReg2 := Cfg.writeReg2Default

end Sys2Proof
end

