-- ==== Sys2Proof/WellFormed.lean ====
section
/-! DEFINITION. Which operations are well formed: their operands fit the types of the call syntax (R59) and the operand
bytes of the encoding (row 17), and a buffer holds at least the bytes its length operand counts (R107, R109). Operands
that the spec answers with a condition (a source above 31, a length that is not supported) are well formed. -/

namespace Sys2Proof

/-- A natural operand of a CALL that the encoding holds in four bytes. -/
def fits32 (n : Nat) : Bool := decide (n < 2 ^ 32)

/-- A natural operand below 2^64 (R59: `offset : natural < 2^64`). -/
def fits64 (n : Nat) : Bool := decide (n < 2 ^ 64)

/-- A read count of a frame that the encoding holds in two bytes. -/
def fits16 (n : Nat) : Bool := decide (n < 2 ^ 16)

/-- The operands of an operation fit their types. -/
def WellFormed : Instr → Bool
  | .gimrR | .gimrW _ | .gisrR | .gisrW _ => true
  | .irr0R | .irr0W _ | .irr1R | .irr1W _ | .irr2R | .irr2W _ | .irr3R | .irr3W _ => true
  | .sfcrR | .sfcrW _ | .sfcr2R | .sfcr2W _ | .sfcsrR | .sfcsrW _ | .sfdrR | .sfdrW _ => true
  | .routeInit | .dispatch _ | .irqEntry _ | .handlerReturn _ => true
  | .enable src | .disable src => fits32 src
  | .registerHandler src _ => fits32 src
  | .attach _ _ _ | .spiPrep | .waitReady | .w32 _ _ | .r32 | .readStatus | .waitWip | .writeEnable => true
  | .readReg _ len => fits64 len
  | .writeReg _ buf len => fits64 len && (decide (2 < len) || decide (len ≤ buf.length))
  | .read offset len => fits64 offset && fits64 len
  | .write offset buf len => fits64 offset && fits64 len && decide (len ≤ buf.length)
  | .erase offset => fits64 offset
  | .issueCmd _ _ _ => true
  | .wrsr _ _ reads | .pp _ _ reads | .rdsr _ _ reads | .wren _ _ reads => fits16 reads
  | .fastRead _ _ reads | .fastRead4b _ _ reads | .pp4b _ _ reads | .se _ _ reads | .se4b _ _ reads => fits16 reads

end Sys2Proof
end

