-- ==== Sys2Proof/Decode.lean ====
section
/-! DEFINITION. Decoding and encoding: the MMIO32 code of R47, the call numbers of R59, the command bytes of R62, and the
operand bytes (row 17). The decoder is total and rejects by name; the encoder is written from the same tables. -/

namespace Sys2Proof

/-! Byte strings of operands: low byte first. -/

/-- The `k` low bytes of a natural number, low byte first. -/
def natBytes : Nat → Nat → List Byte
  | 0, _ => []
  | k + 1, n => BitVec.ofNat 8 n :: natBytes k (n / 256)

/-- The natural number of a byte string, low byte first. -/
def bytesNat : List Byte → Nat
  | [] => 0
  | b :: bs => b.toNat + 256 * bytesNat bs

/-- The four bytes of a word, low byte first. -/
def wordBytes (w : Word) : List Byte := natBytes 4 w.toNat

/-- The word of four bytes, low byte first. -/
def bytesWord (bs : List Byte) : Word := BitVec.ofNat 32 (bytesNat bs)

/-! MMIO32 (R47). -/

/-- The block a register belongs to (R10). -/
def Reg.block : Reg → Block
  | .gimr | .gisr | .irr _ => .router
  | .sfcr | .sfcr2 | .sfcsr | .sfdr => .spi

/-- The offset of a register within its block (R30). -/
def Reg.offset (cfg : Cfg) : Reg → Byte
  | .gimr => cfg.offGimr
  | .gisr => cfg.offGisr
  | .irr 0 => cfg.offIrr0
  | .irr 1 => cfg.offIrr1
  | .irr 2 => cfg.offIrr2
  | .irr 3 => cfg.offIrr3
  | .sfcr => cfg.offSfcr
  | .sfcr2 => cfg.offSfcr2
  | .sfcsr => cfg.offSfcsr
  | .sfdr => cfg.offSfdr

/-- The block number of R47: 0 for the router, 1 for the SPI controller. -/
def Block.number : Block → BitVec 4
  | .router => 0#4
  | .spi => 1#4

/-- The direction bit of R47: 0 for a read, 1 for a write. -/
def Dir.bitOf : Dir → BitVec 1
  | .read => 0#1
  | .write => 1#1

/-- The code `{block[3:0], 0b000, dir, off[7:0]}` of R47. -/
def mmioCode (b : Block) (d : Dir) (off : Byte) : BitVec 16 := b.number ++ 0#3 ++ d.bitOf ++ off

/-- The ten registers, in the order of R47. -/
def allRegs : List Reg :=
  [.gimr, .gisr, .irr 0, .irr 1, .irr 2, .irr 3, .sfcr, .sfcr2, .sfcsr, .sfdr]

/-- The register and direction whose code is `code`, found with mask 0xFFFF (R47). -/
def regOfCode (cfg : Cfg) (code : BitVec 16) : Option (Dir × Reg) :=
  match allRegs.find? fun r => mmioCode r.block .read (r.offset cfg) == code with
  | some r => some (.read, r)
  | none =>
    match allRegs.find? fun r => mmioCode r.block .write (r.offset cfg) == code with
    | some r => some (.write, r)
    | none => none

/-- The read operation of a register. -/
def readInstr : Reg → Instr
  | .gimr => .gimrR
  | .gisr => .gisrR
  | .irr 0 => .irr0R
  | .irr 1 => .irr1R
  | .irr 2 => .irr2R
  | .irr 3 => .irr3R
  | .sfcr => .sfcrR
  | .sfcr2 => .sfcr2R
  | .sfcsr => .sfcsrR
  | .sfdr => .sfdrR

/-- The write operation of a register. -/
def writeInstr (v : Word) : Reg → Instr
  | .gimr => .gimrW v
  | .gisr => .gisrW v
  | .irr 0 => .irr0W v
  | .irr 1 => .irr1W v
  | .irr 2 => .irr2W v
  | .irr 3 => .irr3W v
  | .sfcr => .sfcrW v
  | .sfcr2 => .sfcr2W v
  | .sfcsr => .sfcsrW v
  | .sfdr => .sfdrW v

/-- The operation of an MMIO32 code and its operand word (R47). The word is `v` of a write; that a read ignores whatever
word stands there is a DESIGN CHOICE (row 17): R46 selects by the code and does not say what the word of a read is. -/
def decodeMmio (cfg : Cfg) (code : BitVec 16) (v : Word) : Except DecodeError Instr :=
  match regOfCode cfg code with
  | none => .error .unknownCode
  | some (.read, r) => .ok (readInstr r)
  | some (.write, r) => .ok (writeInstr v r)

/-! CALL (R59). -/

/-- An operation without operands. -/
def noOperands (i : Instr) (args : List Byte) : Except DecodeError Instr :=
  match args with
  | [] => .ok i
  | _ => .error .badLength

/-- Decodes operands that take exactly `k` bytes. -/
def exactly (k : Nat) (args : List Byte) (f : List Byte → Except DecodeError Instr) : Except DecodeError Instr :=
  if args.length = k then f args else .error .badLength

/-- Decodes operands that take at least `k` bytes: the rest is the buffer. -/
def atLeast (k : Nat) (args : List Byte) (f : List Byte → List Byte → Except DecodeError Instr) :
    Except DecodeError Instr :=
  if k ≤ args.length then f (args.take k) (args.drop k) else .error .badLength

/-- The natural number in `k` operand bytes from position `pos`. -/
def natAt (args : List Byte) (pos k : Nat) : Nat := bytesNat ((args.drop pos).take k)

/-- The word in the four operand bytes from position `pos`. -/
def wordAt (args : List Byte) (pos : Nat) : Word := bytesWord ((args.drop pos).take 4)

/-- The operand byte at position `pos`. -/
def byteAt (args : List Byte) (pos : Nat) : Byte := args.getD pos 0#8

/-- A CPU line operand: 0..7 (R59). -/
def decodeLine (b : Byte) (f : Fin 8 → Instr) : Except DecodeError Instr :=
  if h : b.toNat < 8 then .ok (f ⟨b.toNat, h⟩) else .error .badLine

/-- The operands of `attach`: family (0 for RTL838X, 1 for RTL839X), chip-select, three strap words. The chip-select is one
byte, a width that R59, R111 and R135 do not give (DESIGN CHOICE, row 47). -/
def decodeAttach (args : List Byte) : Except DecodeError Instr :=
  let straps : Straps := ⟨wordAt args 2, wordAt args 6, wordAt args 10⟩
  match (byteAt args 0).toNat with
  | 0 => .ok (.attach .rtl838x (byteAt args 1) straps)
  | 1 => .ok (.attach .rtl839x (byteAt args 1) straps)
  | _ => .error .badFamily

/-- The operands of `w32`: the register (0 for SFCSR, 1 for SFDR) and the value. -/
def decodeW32 (args : List Byte) : Except DecodeError Instr :=
  match (byteAt args 0).toNat with
  | 0 => .ok (.w32 .sfcsr (wordAt args 1))
  | 1 => .ok (.w32 .sfdr (wordAt args 1))
  | _ => .error .badRegister

/-- The operands of `issue_cmd`: base word, command byte, a flag (0 for no address, 1 for an address), address word. -/
def decodeIssueCmd (args : List Byte) : Except DecodeError Instr :=
  match (byteAt args 5).toNat with
  | 0 => if wordAt args 6 = 0#32 then .ok (.issueCmd (wordAt args 0) (byteAt args 4) none) else .error .badFlag
  | 1 => .ok (.issueCmd (wordAt args 0) (byteAt args 4) (some (wordAt args 6)))
  | _ => .error .badFlag

/-- The operation of a call number and its operand bytes. -/
def decodeCall (callno : Byte) (args : List Byte) : Except DecodeError Instr :=
  match callno.toNat with
  | 0x00 => noOperands .routeInit args
  | 0x01 => exactly 4 args fun a => .ok (.enable (natAt a 0 4))
  | 0x02 => exactly 4 args fun a => .ok (.disable (natAt a 0 4))
  | 0x03 => exactly 1 args fun a => decodeLine (byteAt a 0) .dispatch
  | 0x04 => exactly 1 args fun a => .ok (.irqEntry (byteAt a 0))
  | 0x05 => exactly 8 args fun a => .ok (.registerHandler (natAt a 0 4) (wordAt a 4))
  | 0x06 => exactly 1 args fun a => decodeLine (byteAt a 0) .handlerReturn
  | 0x10 => exactly 14 args decodeAttach
  | 0x11 => noOperands .spiPrep args
  | 0x12 => noOperands .waitReady args
  | 0x13 => exactly 5 args decodeW32
  | 0x14 => noOperands .r32 args
  | 0x15 => noOperands .readStatus args
  | 0x16 => noOperands .waitWip args
  | 0x17 => noOperands .writeEnable args
  | 0x18 => exactly 9 args fun a => .ok (.readReg (byteAt a 0) (natAt a 1 8))
  | 0x19 => atLeast 9 args fun a buf => .ok (.writeReg (byteAt a 0) buf (natAt a 1 8))
  | 0x1A => exactly 16 args fun a => .ok (.read (natAt a 0 8) (natAt a 8 8))
  | 0x1B => atLeast 16 args fun a buf => .ok (.write (natAt a 0 8) buf (natAt a 8 8))
  | 0x1C => exactly 8 args fun a => .ok (.erase (natAt a 0 8))
  | 0x1D => exactly 10 args decodeIssueCmd
  | _ => .error .unknownCall

/-- How many operand bytes a call has when its buffer, if it has one, is empty; none for a number that is no call. -/
def callOperandBytes (callno : Byte) : Option Nat :=
  match callno.toNat with
  | 0x00 | 0x11 | 0x12 | 0x14 | 0x15 | 0x16 | 0x17 => some 0
  | 0x03 | 0x04 | 0x06 => some 1
  | 0x01 | 0x02 => some 4
  | 0x13 => some 5
  | 0x05 | 0x1C => some 8
  | 0x18 | 0x19 => some 9
  | 0x1D => some 10
  | 0x10 => some 14
  | 0x1A | 0x1B => some 16
  | _ => none

/-! NORFRAME (R62). -/

/-- The frame operation a command byte selects. -/
def frameInstr (cfg : Cfg) (op : Byte) (c : ChipSel) (sent : List Byte) (reads : Nat) : Except DecodeError Instr :=
  if op = cfg.opWrsr then .ok (.wrsr c sent reads)
  else if op = cfg.opPp3 then .ok (.pp c sent reads)
  else if op = cfg.opRdsr then .ok (.rdsr c sent reads)
  else if op = cfg.opWren then .ok (.wren c sent reads)
  else if op = cfg.opRead3 then .ok (.fastRead c sent reads)
  else if op = cfg.opRead4 then .ok (.fastRead4b c sent reads)
  else if op = cfg.opPp4 then .ok (.pp4b c sent reads)
  else if op = cfg.opSe3 then .ok (.se c sent reads)
  else if op = cfg.opSe4 then .ok (.se4b c sent reads)
  else .error .unknownCommand

/-- The frame operation of a command byte and the bytes after it: the chip-select, the number of bytes read (two bytes,
low byte first), then the bytes sent after the command byte. -/
def decodeFrame (cfg : Cfg) (op : Byte) (args : List Byte) : Except DecodeError Instr :=
  atLeast 3 args fun a sent =>
    match (byteAt a 0).toNat with
    | 0 => frameInstr cfg op .cs0 sent (natAt a 1 2)
    | 1 => frameInstr cfg op .cs1 sent (natAt a 1 2)
    | _ => .error .badChipSelect

/-! The decoder. -/

/-- The operation the bytes of a format spell, before the check of its operands. -/
def parse (cfg : Cfg) : Format → List Byte → Except DecodeError Instr
  | .mmio32, bytes =>
    if bytes.length = 6 then decodeMmio cfg (BitVec.ofNat 16 (natAt bytes 0 2)) (wordAt bytes 2) else .error .badLength
  | .call, callno :: args => decodeCall callno args
  | .call, [] => .error .badLength
  | .norframe, op :: args => decodeFrame cfg op args
  | .norframe, [] => .error .badLength

/-- The well-formed operation an encoded operation spells. The offsets in the codes of R47, and the command bytes of R62, are
those of the configuration (R6). -/
def decode (cfg : Cfg) (c : Code) : Except DecodeError Instr :=
  match parse cfg c.format c.bytes with
  | .ok i => if WellFormed i then .ok i else .error .illFormed
  | .error e => .error e

/-- Where a bus address lies: the block whose register space contains it, and the offset (R30, R47). Where the two ranges
overlap, which R7 does not exclude, the router answers (DESIGN CHOICE, row 41); a range that would pass 2^32 is cut off there
(DESIGN CHOICE, row 43). -/
def locate (intcBase spiBase : Option Word) (addr : Word) : Option (Block × Nat) :=
  let within (base : Option Word) (span : Nat) : Option Nat :=
    match base with
    | none => none
    | some b => if b.toNat ≤ addr.toNat ∧ addr.toNat < b.toNat + span then some (addr.toNat - b.toNat) else none
  match within intcBase Config.routerSpan with
  | some off => some (.router, off)
  | none =>
    match within spiBase Config.spiSpan with
    | some off => some (.spi, off)
    | none => none

/-- The decoder for bus transactions (R28, R30, R33, R47): aligned 32-bit accesses inside the two blocks. In a block whose
base is no multiple of 4 every one is refused: its offset is no register's (DESIGN CHOICE, row 43). -/
def decodeBus (cfg : Cfg) (t : BusAccess) : Except DecodeError Instr :=
  if t.width ≠ 32 then .error .badWidth
  else if t.addr.toNat % 4 ≠ 0 then .error .misaligned
  else
    match locate cfg.intcBase cfg.spiBase t.addr with
    | none => .error .outsideBlocks
    | some (b, off) =>
      decodeMmio cfg (mmioCode b t.dir (BitVec.ofNat 8 off)) (match t.dir with | .read => 0#32 | .write => t.value)

/-! The encoder. -/

/-- The bytes of an MMIO32 operation. -/
def mmioBytes (cfg : Cfg) (d : Dir) (r : Reg) (v : Word) : Code :=
  ⟨.mmio32, natBytes 2 (mmioCode r.block d (r.offset cfg)).toNat ++ wordBytes v⟩

/-- The bytes of a CALL operation. -/
def callBytes (callno : Byte) (args : List Byte) : Code := ⟨.call, callno :: args⟩

/-- The number a family operand is encoded as. -/
def familyByte : Family → Byte
  | .rtl838x => 0#8
  | .rtl839x => 1#8

/-- The number a gated register is encoded as. -/
def gatedByte : GatedReg → Byte
  | .sfcsr => 0#8
  | .sfdr => 1#8

/-- The number a chip-select is encoded as. -/
def chipSelByte : ChipSel → Byte
  | .cs0 => 0#8
  | .cs1 => 1#8

/-- The bytes of a CPU line operand. -/
def lineBytes (line : Fin 8) : List Byte := [BitVec.ofNat 8 line.val]

/-- The bytes of the address operand of `issue_cmd`. -/
def addrBytes : Option Word → List Byte
  | none => 0#8 :: wordBytes 0#32
  | some a => 1#8 :: wordBytes a

/-- The bytes of a NORFRAME operation. -/
def frameBytes (op : Byte) (c : ChipSel) (sent : List Byte) (reads : Nat) : Code :=
  ⟨.norframe, op :: chipSelByte c :: (natBytes 2 reads ++ sent)⟩

/-- The encoding of an operation, with the offsets and command bytes of the configuration. -/
def encode (cfg : Cfg) : Instr → Code
  | .gimrR => mmioBytes cfg .read .gimr 0#32
  | .gimrW v => mmioBytes cfg .write .gimr v
  | .gisrR => mmioBytes cfg .read .gisr 0#32
  | .gisrW v => mmioBytes cfg .write .gisr v
  | .irr0R => mmioBytes cfg .read (.irr 0) 0#32
  | .irr0W v => mmioBytes cfg .write (.irr 0) v
  | .irr1R => mmioBytes cfg .read (.irr 1) 0#32
  | .irr1W v => mmioBytes cfg .write (.irr 1) v
  | .irr2R => mmioBytes cfg .read (.irr 2) 0#32
  | .irr2W v => mmioBytes cfg .write (.irr 2) v
  | .irr3R => mmioBytes cfg .read (.irr 3) 0#32
  | .irr3W v => mmioBytes cfg .write (.irr 3) v
  | .sfcrR => mmioBytes cfg .read .sfcr 0#32
  | .sfcrW v => mmioBytes cfg .write .sfcr v
  | .sfcr2R => mmioBytes cfg .read .sfcr2 0#32
  | .sfcr2W v => mmioBytes cfg .write .sfcr2 v
  | .sfcsrR => mmioBytes cfg .read .sfcsr 0#32
  | .sfcsrW v => mmioBytes cfg .write .sfcsr v
  | .sfdrR => mmioBytes cfg .read .sfdr 0#32
  | .sfdrW v => mmioBytes cfg .write .sfdr v
  | .routeInit => callBytes 0x00#8 []
  | .enable src => callBytes 0x01#8 (natBytes 4 src)
  | .disable src => callBytes 0x02#8 (natBytes 4 src)
  | .dispatch line => callBytes 0x03#8 (lineBytes line)
  | .irqEntry pending => callBytes 0x04#8 [pending]
  | .registerHandler src h => callBytes 0x05#8 (natBytes 4 src ++ wordBytes h)
  | .handlerReturn line => callBytes 0x06#8 (lineBytes line)
  | .attach f cs straps =>
    callBytes 0x10#8 (familyByte f :: cs :: (wordBytes straps.w0 ++ wordBytes straps.w1 ++ wordBytes straps.w2))
  | .spiPrep => callBytes 0x11#8 []
  | .waitReady => callBytes 0x12#8 []
  | .w32 reg v => callBytes 0x13#8 (gatedByte reg :: wordBytes v)
  | .r32 => callBytes 0x14#8 []
  | .readStatus => callBytes 0x15#8 []
  | .waitWip => callBytes 0x16#8 []
  | .writeEnable => callBytes 0x17#8 []
  | .readReg op len => callBytes 0x18#8 (op :: natBytes 8 len)
  | .writeReg op buf len => callBytes 0x19#8 (op :: (natBytes 8 len ++ buf))
  | .read offset len => callBytes 0x1A#8 (natBytes 8 offset ++ natBytes 8 len)
  | .write offset buf len => callBytes 0x1B#8 (natBytes 8 offset ++ natBytes 8 len ++ buf)
  | .erase offset => callBytes 0x1C#8 (natBytes 8 offset)
  | .issueCmd base op addr => callBytes 0x1D#8 (wordBytes base ++ op :: addrBytes addr)
  | .wrsr c sent reads => frameBytes cfg.opWrsr c sent reads
  | .pp c sent reads => frameBytes cfg.opPp3 c sent reads
  | .rdsr c sent reads => frameBytes cfg.opRdsr c sent reads
  | .wren c sent reads => frameBytes cfg.opWren c sent reads
  | .fastRead c sent reads => frameBytes cfg.opRead3 c sent reads
  | .fastRead4b c sent reads => frameBytes cfg.opRead4 c sent reads
  | .pp4b c sent reads => frameBytes cfg.opPp4 c sent reads
  | .se c sent reads => frameBytes cfg.opSe3 c sent reads
  | .se4b c sent reads => frameBytes cfg.opSe4 c sent reads

/-! The opcode table's numbers. -/

/-- The encoded operation whose number in the opcode table is `w` and whose operand bytes are all zero: 16 bits are an
MMIO32 code; 8 bits are a call number, or else a command byte (five numbers are both, row 18). -/
def tableCode (nbits w : Nat) : Code :=
  if nbits = 16 then ⟨.mmio32, natBytes 2 w ++ natBytes 4 0⟩
  else
    match callOperandBytes (BitVec.ofNat 8 w) with
    | some k => ⟨.call, BitVec.ofNat 8 w :: natBytes k 0⟩
    | none => ⟨.norframe, BitVec.ofNat 8 w :: natBytes 3 0⟩

/-- The operation the decoder reads from a number of the opcode table with zero operands. The table's numbers are those of
the decided values (R47, R62), which `Cfg.reference` has. -/
def decodeTableWord (nbits w : Nat) : Option Instr :=
  if (nbits = 16 ∧ w < 2 ^ 16) ∨ (nbits = 8 ∧ w < 2 ^ 8) then
    match decode Cfg.reference (tableCode nbits w) with
    | .ok i => some i
    | .error _ => none
  else none

end Sys2Proof
end

