-- ==== Sys2Proof/Machine/State.lean ====
section
/-! DEFINITION. The state of the machine: every piece of state of 10_state.md and 43_flash_device.md, the configuration
record, the model's own fields; the conditions, faults and refusals of 60_exceptions.md; the reset state. -/

namespace Sys2Proof.Machine

/-! The router. -/

/-- `line_state[k]` (R16, R77). -/
inductive LineState where
  | idle
  | routing
  | dispatched
deriving DecidableEq, Repr

/-- A lock: `free` or `held(ctx)` (R18, R26). -/
inductive Lock where
  | free
  | held (ctx : Nat)
deriving DecidableEq, Repr

/-! The SPI controller. -/

/-- `sel`, which devices the chip-selects select (R24). -/
inductive Sel where
  | none
  | cs0
  | cs1
  | both
deriving DecidableEq, Repr

/-- The record of an attached controller (R25). -/
structure FlashController where
  base : Word
  cs : ChipSel
  addrMode : AddrMode
  attached : Bool
deriving DecidableEq, Repr

/-! The flash devices (43_flash_device.md). -/

/-- A flash array: the listed bytes, addresses strictly rising, none of them the erased byte; an address that is not
listed reads as the erased byte (row 8). -/
abbrev Memory := List Host.Cell

/-- The reference SPI-NOR device (R118). -/
structure RefNor where
  wip : Bool
  wel : Bool
  mem : Memory
  /-- The bytes received in the current frame, oldest first. -/
  rx : List Byte
  /-- How many bytes the current frame has returned. -/
  rdcount : Nat
  /-- `open`: a frame is in progress. -/
  frameOpen : Bool
  /-- Fault injection: the device never finishes (R130). -/
  stuck : Bool
deriving DecidableEq, Repr

/-- The simulated register device (R131). -/
structure SimRegDev where
  /-- `reg`: command byte and register bytes, command bytes strictly rising. -/
  regs : List (Byte × List Byte)
  rx : List Byte
  rdcount : Nat
deriving DecidableEq, Repr

/-- The device on a chip-select (R117): one of the three models the spec defines. -/
inductive Device where
  | refNor (d : RefNor)
  | simReg (d : SimRegDev)
  | absent
deriving DecidableEq, Repr

/-! Results and conditions. -/

/-- The poll loops (R136). -/
inductive Poll where
  | ready
  | wip
  | wel
deriving DecidableEq, Repr

/-- The conditions an operation raises and returns to its caller (R133). -/
inductive Condition where
  /-- `InvalidArgument`, with the offending arguments (R135). -/
  | invalidArgument (args : List Nat)
  /-- `Timeout`, with the poll that ran out (R136). -/
  | timeout (poll : Poll)
deriving DecidableEq, Repr

/-- What an operation returned (R59, R116). -/
inductive Result where
  /-- No operation has returned, or the last one that was issued is still in progress. -/
  | nothing
  | ok
  /-- A register value, or the base word of `spi_prep`. -/
  | value (v : Word)
  /-- The status byte of `read_status`. -/
  | status (b : Byte)
  /-- `ok(bytes)` of `read_reg`; the bytes a frame returned. -/
  | bytes (bs : List Byte)
  /-- `count(n)`, with the bytes of a `read`. -/
  | count (n : Nat) (bs : List Byte)
  /-- `selected(s)`. -/
  | selected (src : Nat)
  | spurious
  /-- A condition is returned: the negative number the caller receives (R116, R133), and what is recorded of it. -/
  | raised (code : Int) (c : Condition)
deriving DecidableEq, Repr

/-- An entry of the transaction log (R27). -/
structure LogEntry where
  dir : Dir
  reg : Reg
  value : Word
deriving DecidableEq, Repr

/-- The block of a log entry (R27). -/
def LogEntry.block (e : LogEntry) : Block := e.reg.block

/-! Operations in progress and the other agents (R8). -/

/-- What a host context can be running: one of the fifty operations, or a frame whose command byte is none of the nine of
R62, which the device ignores (R61, R129). -/
inductive Op where
  | instr (i : Instr)
  | frame (cmd : Byte) (c : ChipSel) (sent : List Byte) (reads : Nat)
deriving DecidableEq, Repr

/-- An operation in progress: the context that runs it, the operation, and what its steps have answered so far, oldest
first, which fixes where it stands (R8, R40; row 13). -/
structure Call where
  ctx : Nat
  op : Op
  got : List Word
deriving DecidableEq, Repr

/-- One step of an agent other than the running host context (rows 11, 12). A step that is not enabled in the state it
finds changes nothing. -/
inductive AgentStep where
  /-- Source device `src` raises or lowers its line (R14). -/
  | setSource (src : Fin 32) (level : Bool)
  /-- The SPI controller's own step (R91). -/
  | spiComplete
  /-- A flash device's own step (R130). -/
  | finish (c : ChipSel)
  /-- Another host context calls an operation: any of the fifty, of either block (R40). -/
  | start (ctx : Nat) (op : Op)
  /-- A host context takes one step of its operation in progress: one register access, or one move of the lock, of the
  dispatch path, of the driver's records (R40). -/
  | go (ctx : Nat)
  /-- The flash-subsystem collaborator takes the SPI mutex for another context (R43). -/
  | takeMutex (ctx : Nat)
  /-- It releases the SPI mutex of another context (R43). -/
  | releaseMutex (ctx : Nat)
deriving DecidableEq, Repr

/-- An item of the program: what host context `ctx` issues next (row 16). -/
inductive Issue where
  /-- An encoded operation. -/
  | op (ctx : Nat) (code : Code)
  /-- A bus transaction (R28). -/
  | bus (ctx : Nat) (t : BusAccess)
  /-- The flash-subsystem collaborator takes the SPI mutex for `ctx` (R43). -/
  | takeMutex (ctx : Nat)
  /-- It releases the SPI mutex (R43). -/
  | releaseMutex (ctx : Nat)
deriving DecidableEq, Repr

/-! How a step stops. -/

/-- The resources whose absence is `FatalBoot` (R133, R139). -/
inductive Resource where
  /-- The family record of the boot environment (U28). -/
  | familyRecord
  /-- `INTC_BASE`, the mapping of the router's registers. -/
  | intcBase
  /-- `SPI_BASE`, the mapping of the SPI controller's registers. -/
  | spiBase
deriving DecidableEq, Repr

/-- Model faults (R138): the chip's behaviour is undefined by the source. -/
inductive Fault where
  /-- `AccessWhileBusy` (R93): raised by SFCSR.W, SFDR.R and SFDR.W while the controller is busy; names the access.
  Safe: the source does not say what the hardware does, and the model claims nothing. -/
  | accessWhileBusy (dir : Dir) (reg : Reg)
deriving DecidableEq, Repr

/-- Refusals (R138): the spec gives the state, access or call no meaning. Each is safe: nothing is claimed of it. -/
inductive Refusal where
  /-- Raised by an arm of `exec` that has no meaning yet. -/
  | notModelled (mnemonic : String)
  /-- Raised by `step`: the configuration fails its constraints (R7). -/
  | badConfig
  /-- Raised by `route_init` and `attach`: an unmapped base or no family record; names what is missing (R133, R139, R157,
  U28). -/
  | fatalBoot (missing : Resource)
  /-- Raised by `step`: a bus transaction outside both blocks, of another width or not aligned (R30, R33, U17), or an item
  of the program that spells no operation of R47, R59, R61. A frame with another command byte is no such item (R129). -/
  | undecodable (e : DecodeError)
  /-- Raised by IRRn.W and `route_init`: a routing nibble above 5 (R69, U3). -/
  | reservedNibble
  /-- Raised by SFCSR.W: a reserved bit set (R87, U4). -/
  | reservedBits
  /-- Raised by SFCSR.W for a value with both chip-selects asserted (R94, U2), and by SFDR accesses in a state that has
  both asserted (row 23). -/
  | bothSelected
  /-- Raised by SFDR.R and SFDR.W while the byte-ordering bit is clear (R96, U5). -/
  | byteOrderOff
  /-- Raised by the SPI primitives before `attach` (R97, U25). -/
  | notAttached
  /-- Raised by a second `attach` (R111, U25). -/
  | alreadyAttached
  /-- Raised when a host context calls an SPI primitive or a frame while another is inside one (R43, R160, U25). -/
  | twoInPrimitives
  /-- Raised by the SPI primitives and `attach` when the caller does not hold the mutex (R43, R97, U25), and by a
  release of a mutex that the context does not hold. -/
  | mutexNotHeld
  /-- Raised by `dispatch` on a line no level drives (R73, D11). -/
  | unmonitoredLine
  /-- Raised by `dispatch` on a line that is dispatched (R73, R77). -/
  | lineDispatched
  /-- Raised by `write_reg` and `write` whose buffer is shorter than the length (R107, R109, row 22). -/
  | bufferTooShort
  /-- Raised when a program frame that crosses a device page or exceeds the device is closed (R125, U16). -/
  | programOutsidePage
deriving DecidableEq, Repr

/-! The state. -/

/-- The state of the machine. The docstring of a field names the rule that gives it. -/
structure State where
  /-- The configuration record (R6); it never changes. -/
  cfg : Cfg
  /-- GIMR, the mask register (R11). -/
  gimr : Word
  /-- IRR0..IRR3, the routing registers (R13). -/
  irr : Vector Word 4
  /-- The source input lines, which GISR reads (R12, R14). -/
  src : Word
  /-- `line_state[k]` of each CPU line (R16). -/
  lineState : Vector LineState 8
  /-- `handler[s]` of each source: none, or a handler identity (R17). -/
  handler : Vector (Option Word) 32
  /-- `irq_lock` (R18). -/
  irqLock : Lock
  /-- `spurious_count` (R19). -/
  spuriousCount : Nat
  /-- SFCR (R20). -/
  sfcr : Word
  /-- SFCR2 (R21). -/
  sfcr2 : Word
  /-- SFCSR.CSB0: true is 1, deasserted (R22). -/
  csb0 : Bool
  /-- SFCSR.CSB1: true is 1, deasserted (R22). -/
  csb1 : Bool
  /-- SFCSR.LEN: bytes per SFDR access, minus one (R22). -/
  len : BitVec 2
  /-- `busy`, the negation of RDY (R24). -/
  busy : Bool
  /-- `wedged`, a fault-injection input (R24, R92). -/
  wedged : Bool
  /-- The attached controller's record (R25). -/
  ctrl : FlashController
  /-- `spi_mutex` (R26). -/
  spiMutex : Lock
  /-- The model's: the host context inside an SPI primitive, from its call until it has returned (R43, row 42). -/
  spiCaller : Option Nat
  /-- `Dev(0)` (R26). -/
  dev0 : Device
  /-- `Dev(1)` (R26). -/
  dev1 : Device
  /-- `log`, oldest first (R27). -/
  log : List LogEntry
  /-- The model's: the host context whose operation runs (R8). -/
  ctx : Nat
  /-- The model's: what host contexts issue next (row 16). -/
  program : List Issue
  /-- The model's: the steps of the other agents at each interleaving point to come (row 11). -/
  schedule : List (List AgentStep)
  /-- The model's: how many more times a loop without a bound polls within one step of the machine (row 14). -/
  patience : Nat
  /-- The model's: index of the next free byte (row 9). -/
  draws : Nat
  /-- The model's: index of the next free choice of a line (row 10). -/
  picks : Nat
  /-- The model's: what the last operation returned. -/
  result : Result
  /-- The model's: the operations in progress, of the other host contexts and of a context that waits (R8, R137, rows 13,
  14). -/
  calls : List Call
  /-- The model's: what the operations that the other agents' steps completed have returned, oldest first (row 13). -/
  returned : List (Nat × Result)
  /-- The model's: the sources handed to the framework's dispatch entry point, with their handlers (R73). -/
  frameworkCalls : List (Nat × Option Word)
deriving DecidableEq, Repr

/-- What an operation, or a part of one, answers: it returns a value, it raises a condition, it has not returned yet, or
the model stops. -/
inductive Res (α : Type) where
  | ok (a : α) (s : State)
  | raised (c : Condition) (s : State)
  | pending (s : State)
  | refused (r : Refusal)
  | fault (f : Fault)
deriving Repr

/-- `RefNor` at the start of a run with an erased array (R118). -/
def RefNor.initial : RefNor where
  wip := false
  wel := false
  mem := []
  rx := []
  rdcount := 0
  frameOpen := false
  stuck := false

/-- `SimRegDev` at the start of a run (R131). -/
def SimRegDev.initial : SimRegDev where
  regs := []
  rx := []
  rdcount := 0

/-- The reset state (R154, 10_state.md section 5). The values the spec leaves unspecified are named in rows 2 to 8, the
model's own fields in rows 9 to 16, 29, 34 and 42. -/
def State.reset : State where
  cfg := Cfg.reference
  gimr := 0#32
  irr := #v[0#32, 0#32, 0#32, 0#32]
  src := 0#32
  lineState := Vector.replicate 8 .idle
  handler := Vector.replicate 32 none
  irqLock := .free
  spuriousCount := 0
  sfcr := 0#32
  sfcr2 := 0#32
  csb0 := true
  csb1 := true
  len := 0#2
  busy := false
  wedged := false
  ctrl := ⟨0#32, .cs0, .three, false⟩
  spiMutex := .free
  spiCaller := none
  dev0 := .refNor RefNor.initial
  dev1 := .absent
  log := []
  ctx := 0
  program := []
  schedule := []
  patience := 0
  draws := 0
  picks := 0
  result := .nothing
  calls := []
  returned := []
  frameworkCalls := []

end Sys2Proof.Machine
end

