-- ==== Sys2Proof/Machine/Operands.lean ====
section
/-! DEFINITION. How operands are assembled into register values and taken apart again (30_encoding.md sections 2 and 3):
nibbles, byte lanes, the length field, the base word, command and address words, the `write_reg` payload word. -/

namespace Sys2Proof.Machine

/-! Routing nibbles (R49). -/

/-- `nib(v, k)`: bits 4k+3 : 4k. -/
def nibble (v : Word) (k : Nat) : BitVec 4 := v.extractLsb' (4 * k) 4

/-- No nibble of a routing word is reserved: each is a level 1..5 or 0 (R69). -/
def legalNibbles (v : Word) : Bool := [0, 1, 2, 3, 4, 5, 6, 7].all fun k => decide ((nibble v k).toNat ≤ Config.numLevels)

/-- `pack(r)`: the routing word of register `r`, the OR of the level of each of its sources at its shift (R49). -/
def packRouting (c : Cfg) (f : Family) (r : Fin 4) : Word :=
  ((List.range Config.numSources).filter fun src => c.irrIndex src == r).foldl
    (fun acc src => acc ||| (BitVec.ofNat 32 (c.routeLevel f src) <<< c.irrShift src)) 0#32

/-! Byte lanes of SFDR with BO = 1 (R32, R53). -/

/-- `byte(v, k)`: lane `k`, the k-th byte on the wire. -/
def byteLane (v : Word) (k : Nat) : Byte := v.extractLsb' (24 - 8 * k) 8

/-- The four lanes of a data-register value, in wire order. -/
structure Lanes where
  b0 : Byte
  b1 : Byte
  b2 : Byte
  b3 : Byte
deriving DecidableEq, Repr

/-- `{b[0], b[1], b[2], b[3]}`: the value whose lanes these are. -/
def Lanes.word (l : Lanes) : Word := l.b0 ++ l.b1 ++ l.b2 ++ l.b3

/-- The four lanes of a data-register value (R32). -/
def wordLanes (v : Word) : Lanes := ⟨byteLane v 0, byteLane v 1, byteLane v 2, byteLane v 3⟩

/-- The first `n` lanes of a value, the bytes a primitive takes from it (R106, R108). -/
def Lanes.firsts (l : Lanes) (n : Nat) : List Byte := [l.b0, l.b1, l.b2, l.b3].take n

/-- A value of which only the first `n` lanes are kept. -/
def Lanes.keep (l : Lanes) (n : Nat) : Word :=
  (Lanes.mk (if 0 < n then l.b0 else 0#8) (if 1 < n then l.b1 else 0#8) (if 2 < n then l.b2 else 0#8)
    (if 3 < n then l.b3 else 0#8)).word

/-- The word of four payload bytes, the first in the top byte (R109). -/
def payloadWord (b0 b1 b2 b3 : Byte) : Word := b0 ++ b1 ++ b2 ++ b3

/-! SFCSR words (R54). -/

/-- `LEN(n)`: the length field for `n` bytes. -/
def lenField (cfg : Cfg) (n : Nat) : Word := BitVec.ofNat 32 (n - 1) <<< cfg.lenLo

/-- `CSB0`. -/
def csb0Word (cfg : Cfg) : Word := bit cfg.bitCsb0

/-- `CSB1`. -/
def csb1Word (cfg : Cfg) : Word := bit cfg.bitCsb1

/-- The word that deasserts both chip-selects, width 1 (R54, R101). -/
def deselectWord (cfg : Cfg) : Word := csb0Word cfg ||| csb1Word cfg ||| lenField cfg 1

/-- The base word of the active chip-select: its own bit clear, the other set, width 1 (R54, R101). -/
def baseWord (cfg : Cfg) : ChipSel → Word
  | .cs0 => csb1Word cfg ||| lenField cfg 1
  | .cs1 => csb0Word cfg ||| lenField cfg 1

/-- A reserved bit of SFCSR is set: one at none of the five positions (R52, R61). -/
def reservedSet (cfg : Cfg) (v : Word) : Bool := (List.range 32).any fun n => !cfg.sfcsrBits.contains n && v.getLsbD n

/-! Command and address words (R55). -/

/-- A command byte, or a single payload byte, in the top lane: `op << 24`. -/
def commandWord (op : Byte) : Word := op.setWidth 32 <<< 24

/-- How many address bytes a mode sends. -/
def addrBytesOf : AddrMode → Nat
  | .three => 3
  | .four => 4

/-- The word that sends a flash address: shifted left by 8 in 3-byte mode, as it is in 4-byte mode (R36, R55). -/
def addrWord : AddrMode → Word → Word
  | .three, a => a <<< 8
  | .four, a => a

/-- The natural number a byte string spells, most significant byte first (R57). -/
def bigEndian (bs : List Byte) : Nat := bs.foldl (fun acc b => acc * 256 + b.toNat) 0

/-! The `write_reg` payload word (R56). -/

/-- A byte of a `write_reg` with two payload bytes. -/
def payloadByte (op b0 b1 : Byte) : PayloadByte → Byte
  | .command => op
  | .first => b0
  | .second => b1

/-- The word for two payload bytes: a parameter of the configuration, since the original's packing is unknown and the
spec's is not verified against hardware (R56, R167, U8; row 24). -/
def writeRegWord2 (c : Cfg) (op b0 b1 : Byte) : Word :=
  c.writeReg2.foldl (fun acc p => acc ||| ((payloadByte op b0 b1 p.1).setWidth 32 <<< p.2)) 0#32

/-- The word of `write_reg(op, buf, len)` for `len` 0, 1 or 2 (R56). -/
def writeRegWord (c : Cfg) (op : Byte) (buf : List Byte) : Nat → Word
  | 0 => commandWord op
  | 1 => commandWord op ||| ((buf.getD 0 0#8).setWidth 32 <<< 16)
  | _ => writeRegWord2 c op (buf.getD 0 0#8) (buf.getD 1 0#8)

/-! Addresses, ranges, chunks (R113 to R115). -/

/-- `trunc32` of a flash address. -/
def trunc32 (a : Nat) : Word := BitVec.ofNat 32 a

/-- The limit of `check_range`: the device's size, and what the address width reaches (R115). -/
def rangeLimit (c : Cfg) (ctrl : FlashController) : Nat :=
  min (c.flashSize ctrl.cs) (2 ^ (8 * addrBytesOf ctrl.addrMode))

/-- How many chunks of at most 256 bytes a transfer of `len` bytes has (R114). -/
def chunkCount (len : Nat) : Nat := (len + (Config.chunk - 1)) / Config.chunk

/-- The lengths `read_reg` supports (R106). -/
def readRegLengthOk (len : Nat) : Bool := len == 0 || len == 1 || len == 2 || len == 4

/-! Result codes (R116, R133). -/

/-- The code a raised condition is returned as (R133). -/
def conditionCode (cfg : Cfg) : Condition → Int
  | .invalidArgument _ => cfg.eInval
  | .timeout _ => cfg.eTimedOut

/-- What the caller of an operation that raises a condition gets: its code, with what is recorded (R116, R133). -/
def raisedResult (cfg : Cfg) (c : Condition) : Result := .raised (conditionCode cfg c) c

/-- The number a caller receives: 0 for `ok` and for `ok(bytes)`, the byte count, the negative code of a condition (R116,
D33). A register value, a status byte, a selected source, `spurious` and a call that has not returned are no such number.
The bytes of a frame, which is no primitive and of which R116 does not speak, count as `ok(bytes)` (row 39). -/
def Result.code : Result → Option Int
  | .ok => some Config.success
  | .bytes _ => some Config.success
  | .count n _ => some n
  | .raised code _ => some code
  | .nothing => none
  | .value _ => none
  | .status _ => none
  | .selected _ => none
  | .spurious => none

end Sys2Proof.Machine
end

