-- ==== Sys2Proof/Machine/Flags.lean ====
section
/-! DEFINITION. Every value the hardware computes from its state: the control/status word and the selection (R24, R86),
the NOR status byte (R118), the routing and output function of the router (R63), the dispatch selection (R73). -/

namespace Sys2Proof.Machine

/-! SPI controller. -/

/-- `sel`, from CSB0 and CSB1, which are active low (R24). -/
def selOf (csb0 csb1 : Bool) : Sel :=
  match csb0, csb1 with
  | true, true => .none
  | false, true => .cs0
  | true, false => .cs1
  | false, false => .both

/-- The present selection. -/
def State.sel (s : State) : Sel := selOf s.csb0 s.csb1

/-- A one-bit field at a position. -/
def flagAt (pos : Nat) (b : Bool) : Word := if b then bit pos else 0#32

/-- The value SFCSR reads as: CSB0, CSB1, LEN and RDY at their positions, and zeros (R52, R86). -/
def State.sfcsr (s : State) : Word :=
  flagAt s.cfg.bitCsb0 s.csb0 ||| flagAt s.cfg.bitCsb1 s.csb1 ||| (s.len.setWidth 32 <<< s.cfg.lenLo) |||
    flagAt s.cfg.bitRdy (!s.busy)

/-- The byte-ordering bit of SFCR (R50). -/
def State.bigEndianLanes (s : State) : Bool := s.sfcr.getLsbD s.cfg.bitBo

/-! Flash device. -/

/-- The status byte of the reference device: WEL and WIP at their positions, all other bits 0 (R118). -/
def RefNor.statusByte (cfg : Cfg) (d : RefNor) : Byte :=
  ((BitVec.ofBool d.wel).setWidth 8 <<< cfg.srWel) ||| ((BitVec.ofBool d.wip).setWidth 8 <<< cfg.srWip)

/-! Router. -/

/-- `route(s)`: the routing nibble of a source (R13). -/
def State.route (s : State) (src : Nat) : BitVec 4 :=
  s.irr[s.cfg.irrIndex src].extractLsb' (s.cfg.irrShift src) 4

/-- `active(s) = src[s] AND R[GIMR][s]` (R63). -/
def State.active (s : State) (src : Nat) : Bool := s.src.getLsbD src && s.gimr.getLsbD src

/-- Some source routed to a level is active (R63). -/
def State.levelActive (s : State) (level : Nat) : Bool :=
  (List.range Config.numSources).any fun src => (s.route src).toNat == level && s.active src

/-- `cpu_line[k]`: the OR over the levels that drive line `k` (R63). -/
def State.lineLevel (s : State) (k : Nat) : Bool :=
  [1, 2, 3, 4, 5].any fun level => s.cfg.lineOfLevel level == some k && s.levelActive level

/-- `cpu_line[7:0]`, bit `k` for line `k` (R15). -/
def State.cpuLines (s : State) : Byte :=
  [0, 1, 2, 3, 4, 5, 6, 7].foldl (fun acc k => if s.lineLevel k then acc ||| (1#8 <<< k) else acc) 0#8

/-- A monitored CPU line: one that some cascade level drives (R74, D11). -/
def monitored (cfg : Cfg) (k : Fin 8) : Bool := [1, 2, 3, 4, 5].any fun level => cfg.lineOfLevel level == some k.val

/-- `ctz32(v)`: the least number of a bit that is 1; 32 for the zero word. -/
def ctz32 (v : Word) : Nat := ((List.range 32).find? fun n => v.getLsbD n).getD 32

/-- The lines `irq_entry` may choose: pending, monitored and idle (R74). -/
def State.entryLines (s : State) (pending : Byte) : List (Fin 8) :=
  ([0, 1, 2, 3, 4, 5, 6, 7] : List (Fin 8)).filter fun k =>
    pending.getLsbD k.val && monitored s.cfg k && s.lineState[k] == .idle

end Sys2Proof.Machine
end

