-- ==== Sys2Proof/Machine/Memory.lean ====
section
/-! DEFINITION. The flash array as a list in canonical form (row 8), and the register map of the simulated register
device (R131): reads, writes, the erase of a range, and the canonical forms. -/

namespace Sys2Proof.Machine

/-- The byte at an address; an address that is not listed reads as the erased byte (row 8). -/
def Memory.read (m : Memory) (a : Nat) : Byte :=
  match m with
  | [] => Config.erasedByte
  | (x, b) :: rest => if x = a then b else Memory.read rest a

/-- Writes one byte, keeping the canonical form. -/
def Memory.write (m : Memory) (a : Nat) (b : Byte) : Memory :=
  match m with
  | [] => if b = Config.erasedByte then [] else [(a, b)]
  | (x, c) :: rest =>
    if a < x then (if b = Config.erasedByte then (x, c) :: rest else (a, b) :: (x, c) :: rest)
    else if a = x then (if b = Config.erasedByte then rest else (a, b) :: rest)
    else (x, c) :: Memory.write rest a b

/-- Sets `n` bytes from `lo` to the erased byte (R127). -/
def Memory.eraseRange (m : Memory) (lo n : Nat) : Memory :=
  m.filter fun c => !(decide (lo ≤ c.1) && decide (c.1 < lo + n))

/-- Canonical from an address on: addresses strictly rising from `lo`, no erased byte listed. -/
def Memory.wfFrom (lo : Nat) : Memory → Bool
  | [] => true
  | (a, b) :: rest => decide (lo ≤ a) && b != Config.erasedByte && Memory.wfFrom (a + 1) rest

/-- The canonical form of a flash array. -/
def Memory.wf (m : Memory) : Bool := Memory.wfFrom 0 m

/-- The register bytes a command byte has in the simulated register device; none when it has none (R131). -/
def regsLookup (regs : List (Byte × List Byte)) (op : Byte) : List Byte :=
  match regs with
  | [] => []
  | (x, bs) :: rest => if x = op then bs else regsLookup rest op

/-- Stores the register bytes of a command byte, keeping the command bytes rising. -/
def regsStore (regs : List (Byte × List Byte)) (op : Byte) (bs : List Byte) : List (Byte × List Byte) :=
  match regs with
  | [] => [(op, bs)]
  | (x, cs) :: rest =>
    if op.toNat < x.toNat then (op, bs) :: (x, cs) :: rest
    else if op = x then (op, bs) :: rest
    else (x, cs) :: regsStore rest op bs

/-- Canonical from a command byte on: command bytes strictly rising, each with one or two register bytes (R131). -/
def regsWfFrom (lo : Nat) : List (Byte × List Byte) → Bool
  | [] => true
  | (op, bs) :: rest =>
    decide (lo ≤ op.toNat) && decide (1 ≤ bs.length) && decide (bs.length ≤ 2) && regsWfFrom (op.toNat + 1) rest

/-- The canonical form of the register map. -/
def regsWf (regs : List (Byte × List Byte)) : Bool := regsWfFrom 0 regs

end Sys2Proof.Machine
end

