-- ==== Sys2Proof/Machine/Flash.lean ====
section
/-! DEFINITION. The flash devices (43_flash_device.md): what `select`, `put`, `get`, `deselect` and `finish` do in the
reference SPI-NOR device, one definition per command, in the simulated register device and in the absent device. -/

namespace Sys2Proof.Machine

/-! RefNor: the answers to `get` (R119, R121, R123, R124). A byte that no rule gives is answered by none. -/

/-- `RDSR`: the status byte, repeated, when the frame holds the command byte alone (R121). -/
def RefNor.answerRdsr (d : RefNor) (cfg : Cfg) (args : List Byte) : Option Byte :=
  if args = [] then some (d.statusByte cfg) else none

/-- The array byte of a fast read with `n` address bytes: once the header is complete, byte `(a + k) mod FLASH_SIZE` for
the k-th byte returned (R123). -/
def RefNor.answerArray (d : RefNor) (cfg : Cfg) (size n : Nat) (args : List Byte) : Option Byte :=
  if n + cfg.numDummy ≤ args.length then some (d.mem.read ((bigEndian (args.take n) + d.rdcount) % size)) else none

/-- `FAST_READ` (R123). -/
def RefNor.answerFastRead (d : RefNor) (cfg : Cfg) (size : Nat) (args : List Byte) : Option Byte :=
  d.answerArray cfg size 3 args

/-- `FAST_READ_4B` (R124). -/
def RefNor.answerFastRead4b (d : RefNor) (cfg : Cfg) (size : Nat) (args : List Byte) : Option Byte :=
  d.answerArray cfg size 4 args

/-- What the reference device answers to `get`: the command rule selected by `rx[0]`; nothing for an empty frame, for
every other command, and for every command but read-status while WIP (R119, R129). -/
def RefNor.answer (d : RefNor) (cfg : Cfg) (size : Nat) : Option Byte :=
  match d.rx with
  | [] => none
  | op :: args =>
    if op = cfg.opRdsr then d.answerRdsr cfg args
    else if d.wip then none
    else if op = cfg.opRead3 then d.answerFastRead cfg size args
    else if op = cfg.opRead4 then d.answerFastRead4b cfg size args
    else none

/-! RefNor: the commands that commit at `deselect` (R120, R122, R125 to R128). They run only while WIP is 0. -/

/-- `WREN`: sets WEL when the frame is the command byte alone (R120). -/
def RefNor.commitWren (d : RefNor) (args : List Byte) : RefNor :=
  if args = [] then { d with wel := true } else d

/-- `WRSR`: with WEL set and one or two data bytes, starts an operation; the data is discarded (R122). -/
def RefNor.commitWrsr (d : RefNor) (args : List Byte) : RefNor :=
  if d.wel && (args.length == 1 || args.length == 2) then { d with wip := true } else d

/-- Programs bytes from an address on: an erased byte takes the data byte, any other takes a free byte (R125, U15).
Answers the array and the index of the next free byte. -/
def programBytes (mem : Memory) (a : Nat) (data : List Byte) (draws : Nat) : Memory × Nat :=
  match data with
  | [] => (mem, draws)
  | b :: rest =>
    if mem.read a = Config.erasedByte then programBytes (mem.write a b) (a + 1) rest draws
    else programBytes (mem.write a (Config.drawByte draws)) (a + 1) rest (draws + 1)

/-- A program frame stays within one page of the device and within the device (R125). -/
def programFits (size a n : Nat) : Bool :=
  decide (n ≤ Config.page) && decide (a % Config.page + n ≤ Config.page) && decide (a + n ≤ size)

/-- Page program with `n` address bytes: ignored without WEL or without data, refused outside a page or the device,
otherwise it programs the data and starts an operation (R125). -/
def RefNor.commitProgram (d : RefNor) (size n : Nat) (args : List Byte) (draws : Nat) : Except Refusal (RefNor × Nat) :=
  if d.wel = false ∨ args.length ≤ n then .ok (d, draws)
  else if programFits size (bigEndian (args.take n)) (args.drop n).length then
    let (mem, draws) := programBytes d.mem (bigEndian (args.take n)) (args.drop n) draws
    .ok ({ d with mem := mem, wip := true }, draws)
  else .error .programOutsidePage

/-- `PP` (R125). -/
def RefNor.commitPp (d : RefNor) (size : Nat) (args : List Byte) (draws : Nat) : Except Refusal (RefNor × Nat) :=
  d.commitProgram size 3 args draws

/-- `PP_4B` (R126). -/
def RefNor.commitPp4b (d : RefNor) (size : Nat) (args : List Byte) (draws : Nat) : Except Refusal (RefNor × Nat) :=
  d.commitProgram size 4 args draws

/-- Sector erase with `n` address bytes: ignored without WEL, for a frame of another length, or beyond the device;
otherwise the sector of the address is erased and an operation starts (R127). -/
def RefNor.commitErase (d : RefNor) (size sector n : Nat) (args : List Byte) : RefNor :=
  if d.wel = false ∨ args.length ≠ n ∨ size ≤ bigEndian args then d
  else
    { d with mem := d.mem.eraseRange (bigEndian args - bigEndian args % sector) sector, wip := true }

/-- `SE` (R127). -/
def RefNor.commitSe (d : RefNor) (size sector : Nat) (args : List Byte) : RefNor := d.commitErase size sector 3 args

/-- `SE_4B` (R128). -/
def RefNor.commitSe4b (d : RefNor) (size sector : Nat) (args : List Byte) : RefNor := d.commitErase size sector 4 args

/-- What a frame commits when it closes, while no operation runs: the command rule selected by `rx[0]`; nothing for an
empty frame, for reads and for an unknown command (R119, R129). -/
def RefNor.commit (d : RefNor) (cfg : Cfg) (size sector draws : Nat) : Except Refusal (RefNor × Nat) :=
  match d.rx with
  | [] => .ok (d, draws)
  | op :: args =>
    if op = cfg.opWren then .ok (d.commitWren args, draws)
    else if op = cfg.opWrsr then .ok (d.commitWrsr args, draws)
    else if op = cfg.opPp3 then d.commitPp size args draws
    else if op = cfg.opPp4 then d.commitPp4b size args draws
    else if op = cfg.opSe3 then .ok (d.commitSe size sector args, draws)
    else if op = cfg.opSe4 then .ok (d.commitSe4b size sector args, draws)
    else .ok (d, draws)

/-! RefNor: frame mechanics (R119) and its own step (R130). -/

/-- `select()`: a frame begins. -/
def RefNor.select (d : RefNor) : RefNor := { d with rx := [], rdcount := 0, frameOpen := true }

/-- `put(b)`: received unless the device has started answering. -/
def RefNor.put (d : RefNor) (b : Byte) : RefNor := if d.rdcount = 0 then { d with rx := d.rx ++ [b] } else d

/-- The read position advances at every `get`. -/
def RefNor.advance (d : RefNor) : RefNor := { d with rdcount := d.rdcount + 1 }

/-- `deselect()`: the frame ends and its command commits; while WIP every command is ignored. -/
def RefNor.deselect (d : RefNor) (cfg : Cfg) (size sector draws : Nat) : Except Refusal (RefNor × Nat) :=
  if d.wip then .ok ({ d with frameOpen := false }, draws)
  else RefNor.commit { d with frameOpen := false } cfg size sector draws

/-- `finish` is enabled when WIP is 1 and the device is not stuck (R130). -/
def RefNor.finish (d : RefNor) : RefNor := if d.wip && !d.stuck then { d with wip := false, wel := false } else d

/-! SimRegDev (R131). -/

/-- `select()`. -/
def SimRegDev.select (d : SimRegDev) : SimRegDev := { d with rx := [], rdcount := 0 }

/-- `put(b)`. -/
def SimRegDev.put (d : SimRegDev) (b : Byte) : SimRegDev := if d.rdcount = 0 then { d with rx := d.rx ++ [b] } else d

/-- The answer to `get`: byte `rdcount` of the register of the one byte received. -/
def SimRegDev.answer (d : SimRegDev) : Option Byte :=
  match d.rx with
  | [op] => (regsLookup d.regs op)[d.rdcount]?
  | _ => none

/-- The read position advances at every `get`. -/
def SimRegDev.advance (d : SimRegDev) : SimRegDev := { d with rdcount := d.rdcount + 1 }

/-- `deselect()`: a frame of two or three bytes that returned nothing stores its bytes. -/
def SimRegDev.deselect (d : SimRegDev) : SimRegDev :=
  match d.rx with
  | op :: args =>
    if d.rdcount = 0 ∧ (args.length = 1 ∨ args.length = 2) then { d with regs := regsStore d.regs op args } else d
  | [] => d

/-! Any device (R117, R132). -/

/-- `select()`. -/
def Device.select : Device → Device
  | .refNor d => .refNor d.select
  | .simReg d => .simReg d.select
  | .absent => .absent

/-- `put(b)`. -/
def Device.put (b : Byte) : Device → Device
  | .refNor d => .refNor (d.put b)
  | .simReg d => .simReg (d.put b)
  | .absent => .absent

/-- The byte `get()` answers, where a rule gives one; otherwise the byte is free. -/
def Device.answer (cfg : Cfg) (size : Nat) : Device → Option Byte
  | .refNor d => d.answer cfg size
  | .simReg d => d.answer
  | .absent => none

/-- The device after a `get()`. -/
def Device.advance : Device → Device
  | .refNor d => .refNor d.advance
  | .simReg d => .simReg d.advance
  | .absent => .absent

/-- `deselect()`, with the index of the next free byte. -/
def Device.deselect (cfg : Cfg) (size sector draws : Nat) : Device → Except Refusal (Device × Nat)
  | .refNor d =>
    match d.deselect cfg size sector draws with
    | .ok (d, draws) => .ok (.refNor d, draws)
    | .error r => .error r
  | .simReg d => .ok (.simReg d.deselect, draws)
  | .absent => .ok (.absent, draws)

/-- `finish`, the device's own step. -/
def Device.finish : Device → Device
  | .refNor d => .refNor d.finish
  | .simReg d => .simReg d
  | .absent => .absent

end Sys2Proof.Machine
end

