-- ==== Sys2Proof/Machine/Ops.lean ====
section
/-! DEFINITION. The named operations over the state: sequencing, the transaction log, free bytes, the devices on the two
chip-selects, the twenty register accesses (T1), the moves of the dispatch path, the completion steps. -/

namespace Sys2Proof.Machine

/-! Sequencing. A condition, a wait or a stop in a part ends the whole with the same (R140). -/

/-- Runs the continuation on an answer; anything else ends the enclosing operation unchanged. -/
def Res.bind {α β : Type} (r : Res α) (f : α → State → Res β) : Res β :=
  match r with
  | .ok a s => f a s
  | .raised c s => .raised c s
  | .pending s => .pending s
  | .refused r => .refused r
  | .fault f => .fault f

/-- An access's outcome as the outcome of a step: a result or a raised condition is returned to the caller (R116). -/
def Res.toOutcome : Res Result → Host.Outcome State Fault Refusal
  | .ok r s => .next { s with result := r }
  | .raised c s => .next { s with result := raisedResult s.cfg c }
  | .pending s => .next { s with result := .nothing }
  | .refused r => .refused r
  | .fault f => .fault f

/-- The outcome of an access that returns a register value. -/
def Res.returnValue (r : Res Word) : Host.Outcome State Fault Refusal := (r.bind fun v s => .ok (.value v) s).toOutcome

/-- The outcome of an operation that returns `ok`. -/
def Res.returnOk (r : Res Unit) : Host.Outcome State Fault Refusal := (r.bind fun _ s => .ok .ok s).toOutcome

/-! Log, free bytes, devices. -/

/-- Appends an entry to the transaction log (R27). -/
def State.logged (s : State) (dir : Dir) (reg : Reg) (v : Word) : State :=
  { s with log := s.log ++ [⟨dir, reg, v⟩] }

/-- `draw(byte)`: a fresh free byte. -/
def State.draw (s : State) : Byte × State := (Config.drawByte s.draws, { s with draws := s.draws + 1 })

/-- Sets the index of the next free byte (row 9). -/
def State.withDraws (s : State) (draws : Nat) : State := { s with draws := draws }

/-- The device on a chip-select. -/
def State.dev (s : State) : ChipSel → Device
  | .cs0 => s.dev0
  | .cs1 => s.dev1

/-- Replaces the device on a chip-select. -/
def State.setDev (s : State) (c : ChipSel) (d : Device) : State :=
  match c with
  | .cs0 => { s with dev0 := d }
  | .cs1 => { s with dev1 := d }

/-- `Dev(c).select()`. -/
def devSelect (c : ChipSel) (s : State) : State := s.setDev c (s.dev c).select

/-- `Dev(c).put(b)`. -/
def devPut (c : ChipSel) (b : Byte) (s : State) : State := s.setDev c ((s.dev c).put b)

/-- `Dev(c).get()`: the byte a rule of the device gives, or a free one. -/
def devGet (c : ChipSel) (s : State) : Byte × State :=
  match (s.dev c).answer s.cfg (s.cfg.flashSize c) with
  | some b => (b, s.setDev c (s.dev c).advance)
  | none => (s.setDev c (s.dev c).advance).draw

/-- `Dev(c).deselect()`. -/
def devDeselect (c : ChipSel) (s : State) : Res Unit :=
  match (s.dev c).deselect s.cfg (s.cfg.flashSize c) s.cfg.eraseSize s.draws with
  | .ok (d, draws) => .ok () ((s.setDev c d).withDraws draws)
  | .error r => .refused r

/-- `finish` of the device on a chip-select (R130). -/
def devFinish (c : ChipSel) (s : State) : State := s.setDev c (s.dev c).finish

/-! T1: the router's registers (R64 to R69). -/

/-- GIMR.R (R64). -/
def gimrRead (s : State) : Res Word := .ok s.gimr (s.logged .read .gimr s.gimr)

/-- GIMR.W (R65). -/
def gimrWrite (v : Word) (s : State) : Res Unit := .ok () ({ s with gimr := v }.logged .write .gimr v)

/-- GISR.R: the live source levels, whatever the mask (R66). -/
def gisrRead (s : State) : Res Word := .ok s.src (s.logged .read .gisr s.src)

/-- GISR.W: ignored (R67). -/
def gisrWrite (v : Word) (s : State) : Res Unit := .ok () (s.logged .write .gisr v)

/-- IRRn.R (R68). -/
def irrRead (n : Fin 4) (s : State) : Res Word := .ok s.irr[n] (s.logged .read (.irr n) s.irr[n])

/-- IRRn.W: refused for a reserved nibble (R69). -/
def irrWrite (n : Fin 4) (v : Word) (s : State) : Res Unit :=
  if legalNibbles v then .ok () ({ s with irr := s.irr.set n v }.logged .write (.irr n) v) else .refused .reservedNibble

/-! T1: the SPI controller's registers (R82 to R90). -/

/-- SFCR.R (R82). -/
def sfcrRead (s : State) : Res Word := .ok s.sfcr (s.logged .read .sfcr s.sfcr)

/-- SFCR.W (R83). -/
def sfcrWrite (v : Word) (s : State) : Res Unit := .ok () ({ s with sfcr := v }.logged .write .sfcr v)

/-- SFCR2.R (R84). -/
def sfcr2Read (s : State) : Res Word := .ok s.sfcr2 (s.logged .read .sfcr2 s.sfcr2)

/-- SFCR2.W (R85). -/
def sfcr2Write (v : Word) (s : State) : Res Unit := .ok () ({ s with sfcr2 := v }.logged .write .sfcr2 v)

/-- SFCSR.R: always allowed, it is the poll (R86). -/
def sfcsrRead (s : State) : Res Word := .ok s.sfcsr (s.logged .read .sfcsr s.sfcsr)

/-- Closes the frame of the device that was selected, if any (R87). -/
def closeFrame (old : Sel) (s : State) : Res Unit :=
  match old with
  | .cs0 => devDeselect .cs0 s
  | .cs1 => devDeselect .cs1 s
  | .none => .ok () s
  | .both => .ok () s

/-- Opens a frame on the device that becomes selected, if any (R87). -/
def openFrame (new : Sel) (s : State) : State :=
  match new with
  | .cs0 => devSelect .cs0 s
  | .cs1 => devSelect .cs1 s
  | .none => s
  | .both => s

/-- Writes the chip-select fields (R22). -/
def State.withSelects (s : State) (csb0 csb1 : Bool) : State := { s with csb0 := csb0, csb1 := csb1 }

/-- Writes the width field; every SFCSR write makes the controller busy (R87). -/
def State.withWidth (s : State) (len : BitVec 2) : State := { s with len := len, busy := true }

/-- A transfer makes the controller busy (R89, R90). -/
def State.markBusy (s : State) : State := { s with busy := true }

/-- Sets the chip-selects: a change of the selection closes the open frame and then opens the new one (R87, R88). -/
def setSelects (csb0 csb1 : Bool) (s : State) : Res Unit :=
  if s.sel = selOf csb0 csb1 then .ok () (s.withSelects csb0 csb1)
  else
    (closeFrame s.sel (s.withSelects csb0 csb1)).bind fun _ s => .ok () (openFrame (selOf csb0 csb1) s)

/-- SFCSR.W (R87): a fault while busy (R93), refused for a reserved bit or both chip-selects (R94). -/
def sfcsrWrite (v : Word) (s : State) : Res Unit :=
  if s.busy then .fault (.accessWhileBusy .write .sfcsr)
  else if reservedSet s.cfg v then .refused .reservedBits
  else if v.getLsbD s.cfg.bitCsb0 = false ∧ v.getLsbD s.cfg.bitCsb1 = false then .refused .bothSelected
  else
    (setSelects (v.getLsbD s.cfg.bitCsb0) (v.getLsbD s.cfg.bitCsb1) s).bind fun _ t =>
      .ok () ((t.withWidth (v.extractLsb' s.cfg.lenLo 2)).logged .write .sfcsr v)

/-- The device SFDR moves bytes to and from; refused when both are selected (row 23). -/
def sfdrTarget (s : State) : Except Refusal (Option ChipSel) :=
  match s.sel with
  | .none => .ok none
  | .cs0 => .ok (some .cs0)
  | .cs1 => .ok (some .cs1)
  | .both => .error .bothSelected

/-- Shifts one byte out: to the selected device, or nowhere (R89). -/
def shiftOut (target : Option ChipSel) (b : Byte) (s : State) : State :=
  match target with
  | some c => devPut c b s
  | none => s

/-- Shifts bytes out in order. -/
def shiftOutAll (target : Option ChipSel) (bs : List Byte) (s : State) : State :=
  bs.foldl (fun s b => shiftOut target b s) s

/-- Shifts one byte in: from the selected device, or free when nothing drives the input (R90). -/
def shiftIn (target : Option ChipSel) (s : State) : Byte × State :=
  match target with
  | some c => devGet c s
  | none => s.draw

/-- Lane `k` of a read: shifted in when `k <= LEN`, otherwise free (R90). -/
def readLane (target : Option ChipSel) (k : Nat) (s : State) : Byte × State :=
  if k ≤ s.len.toNat then shiftIn target s else s.draw

/-- The four lanes of a read, in wire order (R90). -/
def readLanes (target : Option ChipSel) (s : State) : Lanes × State :=
  let (b0, s) := readLane target 0 s
  let (b1, s) := readLane target 1 s
  let (b2, s) := readLane target 2 s
  let (b3, s) := readLane target 3 s
  (⟨b0, b1, b2, b3⟩, s)

/-- The bytes a write shifts out: the first `LEN + 1` lanes (R89). -/
def writeLanes (len : BitVec 2) (v : Word) : List Byte :=
  ([0, 1, 2, 3].take (len.toNat + 1)).map fun k => byteLane v k

/-- SFDR.W (R89): a fault while busy (R93), refused while BO = 0 (R96). -/
def sfdrWrite (v : Word) (s : State) : Res Unit :=
  if s.busy then .fault (.accessWhileBusy .write .sfdr)
  else if s.bigEndianLanes = false then .refused .byteOrderOff
  else
    match sfdrTarget s with
    | .error r => .refused r
    | .ok target =>
      .ok () ((shiftOutAll target (writeLanes s.len v) s).markBusy.logged .write .sfdr v)

/-- SFDR.R (R90): a fault while busy (R93), refused while BO = 0 (R96). -/
def sfdrRead (s : State) : Res Lanes :=
  if s.busy then .fault (.accessWhileBusy .read .sfdr)
  else if s.bigEndianLanes = false then .refused .byteOrderOff
  else
    match sfdrTarget s with
    | .error r => .refused r
    | .ok target =>
      let (lanes, s) := readLanes target s
      .ok lanes (s.markBusy.logged .read .sfdr lanes.word)

/-- `spi_complete`, the controller's own step: enabled when busy and not wedged (R91, R92). -/
def spiComplete (s : State) : State := if s.busy && !s.wedged then { s with busy := false } else s

/-! Any register (R10). -/

/-- The read of a register. -/
def regRead (r : Reg) (s : State) : Res Word :=
  match r with
  | .gimr => gimrRead s
  | .gisr => gisrRead s
  | .irr n => irrRead n s
  | .sfcr => sfcrRead s
  | .sfcr2 => sfcr2Read s
  | .sfcsr => sfcsrRead s
  | .sfdr => (sfdrRead s).bind fun lanes s => .ok lanes.word s

/-- The write of a register. -/
def regWrite (r : Reg) (v : Word) (s : State) : Res Unit :=
  match r with
  | .gimr => gimrWrite v s
  | .gisr => gisrWrite v s
  | .irr n => irrWrite n v s
  | .sfcr => sfcrWrite v s
  | .sfcr2 => sfcr2Write v s
  | .sfcsr => sfcsrWrite v s
  | .sfdr => sfdrWrite v s

/-! The dispatch path: entry, end and return (R73, R74, R76, R77, R144, R145). -/

/-- Moves a line to a state (R77). -/
def State.setLine (s : State) (k : Fin 8) (l : LineState) : State := { s with lineState := s.lineState.set k l }

/-- Sets the index of the next free choice of a line (row 10). -/
def State.withPicks (s : State) (picks : Nat) : State := { s with picks := picks }

/-- The handler registered for a source (R17). -/
def State.handlerOf (s : State) (src : Nat) : Option Word := if h : src < 32 then s.handler[src] else none

/-- Registers a handler for a source (R75). -/
def State.setHandler (s : State) (src : Nat) (h : Word) : State :=
  if hs : src < 32 then { s with handler := s.handler.set src (some h) } else s

/-- Calls the framework's dispatch entry point with a resolved source (R73, C10, row 29). -/
def State.frameworkDispatch (s : State) (src : Nat) : State :=
  { s with frameworkCalls := s.frameworkCalls ++ [(src, s.handlerOf src)] }

/-- Reports a spurious interrupt (R134). -/
def State.countSpurious (s : State) : State := { s with spuriousCount := s.spuriousCount + 1 }

/-- The entry of `dispatch`: the line must be monitored and not dispatched (R73, R77). -/
def enterLine (k : Fin 8) (s : State) : Res Unit :=
  if monitored s.cfg k = false then .refused .unmonitoredLine
  else if s.lineState[k] = .dispatched then .refused .lineDispatched
  else .ok () (s.setLine k .routing)

/-- The end of `dispatch`, once mask AND status is known: the spurious return, or the lowest-numbered source (R73). A line
that no level drives has no dispatch path. -/
def endRoute (k : Fin 8) (p : Word) (s : State) : State :=
  if monitored s.cfg k = false then s
  else if p = 0#32 then s.countSpurious.setLine k .idle
  else (s.setLine k .dispatched).frameworkDispatch (ctz32 p)

/-- The choice of `irq_entry` among the monitored, idle lines that are pending, with the entry of the line chosen; without
any, a spurious interrupt. The choice among several is free (R74, U23). Answers one more than the line's number, or 0. -/
def chooseLine (pending : Byte) (s : State) : Word × State :=
  match s.entryLines pending with
  | [] => (0#32, s.countSpurious)
  | [k] => (BitVec.ofNat 32 (k.val + 1), s.setLine k .routing)
  | k :: ks =>
    let line := (k :: ks).getD (Config.pickLine s.picks % (k :: ks).length) k
    (BitVec.ofNat 32 (line.val + 1), (s.withPicks (s.picks + 1)).setLine line .routing)

/-- The return of a consumer handler: the line becomes idle (R76); any other line stays as it is (row 21). -/
def endHandler (k : Fin 8) (s : State) : State := if s.lineState[k] = .dispatched then s.setLine k .idle else s

/-! The router lock (R42) and the record of the controller (R25, R111). -/

/-- `lock(irq_lock)` by the running context; whoever waits for the lock does so before (row 15). -/
def takeLock (s : State) : State := { s with irqLock := .held s.ctx }

/-- `unlock(irq_lock)`. -/
def dropLock (s : State) : State := { s with irqLock := .free }

/-- Fixes the record of the controller at `attach` (R111): once only (R97, U25). -/
def fixController (base : Word) (cs : ChipSel) (mode : AddrMode) (s : State) : Res Unit :=
  if s.ctrl.attached then .refused .alreadyAttached else .ok () { s with ctrl := ⟨base, cs, mode, true⟩ }

/-- The running context holds the SPI mutex (R43). -/
def checkMutex (s : State) : Res Unit := if s.spiMutex = .held s.ctx then .ok () s else .refused .mutexNotHeld

/-- The common preconditions of the primitives: attached, and the caller holds the mutex (R97). -/
def checkController (s : State) : Res Unit := if s.ctrl.attached then checkMutex s else .refused .notAttached

/-- The preconditions of `attach`: not attached yet, and the caller holds the mutex (R97, R111). -/
def checkDetached (s : State) : Res Unit := if s.ctrl.attached then .refused .alreadyAttached else checkMutex s

/-! Who is inside an SPI primitive (R43). -/

/-- The driver primitives of the SPI controller (R4) and `issue_cmd` (R102), each of which R43 lets one host context at a
time be inside; and the frames, which a host makes of `w32` and `r32` (rows 19, 42). -/
def isSpiPrimitive : Instr → Bool
  | .attach _ _ _ | .spiPrep | .waitReady | .w32 _ _ | .r32 | .readStatus | .waitWip | .writeEnable => true
  | .readReg _ _ | .writeReg _ _ _ | .read _ _ | .write _ _ _ | .erase _ | .issueCmd _ _ _ => true
  | .wrsr _ _ _ | .pp _ _ _ | .rdsr _ _ _ | .wren _ _ _ | .fastRead _ _ _ | .fastRead4b _ _ _ => true
  | .pp4b _ _ _ | .se _ _ _ | .se4b _ _ _ => true
  | .gimrR | .gimrW _ | .gisrR | .gisrW _ | .irr0R | .irr0W _ | .irr1R | .irr1W _ => false
  | .irr2R | .irr2W _ | .irr3R | .irr3W _ => false
  | .sfcrR | .sfcrW _ | .sfcr2R | .sfcr2W _ | .sfcsrR | .sfcsrW _ | .sfdrR | .sfdrW _ => false
  | .routeInit | .enable _ | .disable _ | .dispatch _ | .irqEntry _ | .registerHandler _ _ | .handlerReturn _ => false

/-- Whether what a context runs is inside the SPI primitives. -/
def Op.usesSpi : Op → Bool
  | .instr i => isSpiPrimitive i
  | .frame _ _ _ _ => true

/-- Records who is inside an SPI primitive. -/
def State.withCaller (s : State) (caller : Option Nat) : State := { s with spiCaller := caller }

/-- A context calls an operation: an SPI primitive is refused while another is in progress (R43, R138, U25). -/
def enterOp (op : Op) (ctx : Nat) (s : State) : Res Unit :=
  if op.usesSpi = false then .ok () s
  else if s.spiCaller = none then .ok () (s.withCaller (some ctx)) else .refused .twoInPrimitives

/-- An operation has returned: whoever was inside an SPI primitive with it is not any more. -/
def State.leaveOp (s : State) (op : Op) : State := if op.usesSpi then s.withCaller none else s

/-! Source lines and completion steps (R14, R91, R130). -/

/-- A source device raises or lowers its line (R14). -/
def setSource (src : Nat) (level : Bool) (s : State) : State :=
  { s with src := if level then s.src ||| bit src else s.src &&& ~~~ bit src }

/-- Every completion step that is enabled: the eager schedule of the vectors, taken once the schedule is used up
(R170, row 11). -/
def eagerStep (s : State) : State := devFinish .cs1 (devFinish .cs0 (spiComplete s))

end Sys2Proof.Machine
end

