-- ==== Sys2Proof/Machine/Program.lean ====
section
/-! DEFINITION. Operations as programs: what a host context does next, given what its steps have answered. A program is run
whole by the context that issued it (Run.lean) and step by step by the other contexts (Agents.lean), so that register
accesses of any two operations may interleave (R40). -/

namespace Sys2Proof.Machine

/-- One step of an operation. -/
inductive Act where
  /-- A register read; answers the value. -/
  | rd (r : Reg)
  /-- A register write. -/
  | wr (r : Reg) (v : Word)
  /-- A read of SFDR of whose value the driver takes the first `n` bytes (R106, R108); answers those, the other lanes 0. -/
  | take (n : Nat)
  /-- `lock(irq_lock)` (R42). -/
  | lock
  /-- `unlock(irq_lock)` (R42). -/
  | unlock
  /-- The entry of the dispatch path on a line (R73). -/
  | enter (k : Fin 8)
  /-- The end of the dispatch path, with mask AND status (R73). -/
  | leave (k : Fin 8) (p : Word)
  /-- The choice of `irq_entry`, with the entry of the line chosen; answers one more than its number, or 0 (R74). -/
  | choose (pending : Byte)
  /-- The return of a handler (R76). -/
  | handled (k : Fin 8)
  /-- The store of `register_handler` (R75). -/
  | register (src : Nat) (h : Word)
  /-- The preconditions of the primitives (R97). -/
  | needController
  /-- The preconditions of `attach` (R97, R111). -/
  | needDetached
  /-- The record of `attach` (R111). -/
  | record (base : Word) (cs : ChipSel) (mode : AddrMode)
deriving DecidableEq, Repr

/-- A program: its result, a raised condition, a refusal, the point up to which a loop without a bound is unrolled, or a
step and what follows for each answer. -/
inductive Prog (α : Type) where
  | ret (a : α)
  | raise (c : Condition)
  | refuse (r : Refusal)
  | more
  | act (a : Act) (next : Word → Prog α)

/-- Sequencing: a condition or a refusal in a part ends the whole (R140). -/
def Prog.bind {α β : Type} (p : Prog α) (f : α → Prog β) : Prog β :=
  match p with
  | .ret a => f a
  | .raise c => .raise c
  | .refuse r => .refuse r
  | .more => .more
  | .act a next => .act a fun w => (next w).bind f

/-- A step whose answer is not used. -/
def Prog.doing (a : Act) : Prog Unit := .act a fun _ => .ret ()

/-- A register read. -/
def Prog.reading (r : Reg) : Prog Word := .act (.rd r) .ret

/-- A register write. -/
def Prog.writing (r : Reg) (v : Word) : Prog Unit := .doing (.wr r v)

/-- A read of SFDR for its first `n` bytes. -/
def Prog.taking (n : Nat) : Prog (List Byte) := .act (.take n) fun w => .ret ((wordLanes w).firsts n)

/-- What is left of a program once its steps have answered the given words. -/
def Prog.after {α : Type} : Prog α → List Word → Prog α
  | p, [] => p
  | .act _ next, w :: ws => (next w).after ws
  | .ret a, _ :: _ => .ret a
  | .raise c, _ :: _ => .raise c
  | .refuse r, _ :: _ => .refuse r
  | .more, _ :: _ => .more

/-- What a step does, once it is its turn, and what it answers. -/
def Act.perform (a : Act) (s : State) : Res Word :=
  match a with
  | .rd r => regRead r s
  | .wr r v => (regWrite r v s).bind fun _ s => .ok 0#32 s
  | .take n => (sfdrRead s).bind fun lanes s => .ok (lanes.keep n) s
  | .lock => .ok 0#32 (takeLock s)
  | .unlock => .ok 0#32 (dropLock s)
  | .enter k => (enterLine k s).bind fun _ s => .ok 0#32 s
  | .leave k p => .ok 0#32 (endRoute k p s)
  | .choose pending => .ok (chooseLine pending s).1 (chooseLine pending s).2
  | .handled k => .ok 0#32 (endHandler k s)
  | .register src h => .ok 0#32 (s.setHandler src h)
  | .needController => (checkController s).bind fun _ s => .ok 0#32 s
  | .needDetached => (checkDetached s).bind fun _ s => .ok 0#32 s
  | .record base cs mode => (fixController base cs mode s).bind fun _ s => .ok 0#32 s

/-- An operation in progress that may be on the dispatch path of a line: its `dispatch`, or an `irq_entry`. -/
def Call.routes (k : Fin 8) (c : Call) : Bool :=
  match c.op with
  | .instr (.dispatch l) => l == k
  | .instr (.irqEntry _) => true
  | _ => false

/-- Whether the running context can take a step now: `lock` waits while the lock is held (R42), the entry of a line waits
while another context is on its dispatch path, which is not re-entered (R73, R77, row 21). -/
def Act.mayRun (a : Act) (s : State) : Bool :=
  match a with
  | .lock => s.irqLock == .free
  | .enter k => !(s.lineState[k] == .routing && s.calls.any (·.routes k))
  | _ => true

/-- Whether another context can take a step now: a line that is routing is on the dispatch path of some context, of the
running one perhaps (row 21). -/
def Act.mayGo (a : Act) (s : State) : Bool :=
  match a with
  | .lock => s.irqLock == .free
  | .enter k => s.lineState[k] != .routing
  | _ => true

/-- What a program takes from the machine and does not read by a step: the configuration, the record of the attached
controller, and how far a loop without a bound is unrolled (row 14). -/
structure Env where
  cfg : Cfg
  ctrl : FlashController
  fuel : Nat

/-- How many iterations a poll loop makes: `POLL_BUDGET`; a loop without a bound is unrolled by `fuel`. -/
def Env.pollLimit (e : Env) : Nat :=
  match e.cfg.pollBudget with
  | some b => b
  | none => e.fuel

/-- A poll loop at the end of its iterations: `Timeout` with a finite budget (R136); without one it goes on (R137). -/
def Env.exhausted {α : Type} (e : Env) (p : Poll) : Prog α :=
  match e.cfg.pollBudget with
  | some _ => .raise (.timeout p)
  | none => .more

/-- The environment of a program that has taken `n` steps: a loop without a bound is unrolled beyond them, by all that the
schedule holds and `patience` more (row 14). -/
def State.env (s : State) (n : Nat) : Env := ⟨s.cfg, s.ctrl, n + s.schedule.length + 1 + s.patience⟩

end Sys2Proof.Machine
end

