-- ==== Sys2Proof/Machine/Cascade.lean ====
section
/-! DEFINITION. The driver-level operations of the router (40_irq_router.md section 3) as programs. -/

namespace Sys2Proof.Machine

/-! The mask's read-modify-write (R71, R72) and the handler table (R75). -/

/-- A source number above 31 raises `InvalidArgument` before any access (R135, D12). -/
def checkSource (src : Nat) : Prog Unit := if 31 < src then .raise (.invalidArgument [src]) else .ret ()

/-- The mask with a source enabled. -/
def maskSet (src : Nat) (v : Word) : Word := v ||| bit src

/-- The mask with a source disabled. -/
def maskClear (src : Nat) (v : Word) : Word := v &&& ~~~ bit src

/-- `enable` and `disable`: the source is checked, then the mask is read and written under the lock (R42, R71, R72). -/
def changeMask (src : Nat) (f : Word → Word) : Prog Result :=
  (checkSource src).bind fun _ =>
    (Prog.doing .lock).bind fun _ =>
      (Prog.reading .gimr).bind fun v =>
        (Prog.writing .gimr (f v)).bind fun _ => (Prog.doing .unlock).bind fun _ => .ret .ok

/-- `register_handler(s, h)` (R75). -/
def registerHandler (src : Nat) (h : Word) : Prog Result :=
  (checkSource src).bind fun _ => (Prog.doing (.register src h)).bind fun _ => .ret .ok

/-! The dispatch path (R73, R74, R76). -/

/-- `dispatch` once the line is routing: mask read first, then status; no filter by line, no lock (R73). -/
def routeLine (k : Fin 8) : Prog Result :=
  (Prog.reading .gimr).bind fun m =>
    (Prog.reading .gisr).bind fun st =>
      (Prog.doing (.leave k (m &&& st))).bind fun _ =>
        if m &&& st = 0#32 then .ret .spurious else .ret (.selected (ctz32 (m &&& st)))

/-- `dispatch(cpu_line)` (R73). -/
def dispatchLine (k : Fin 8) : Prog Result := (Prog.doing (.enter k)).bind fun _ => routeLine k

/-- The line that `Act.choose` answered; none for the answer 0. -/
def lineOf (w : Word) : Option (Fin 8) :=
  ([0, 1, 2, 3, 4, 5, 6, 7] : List (Fin 8)).find? fun k => BitVec.ofNat 32 (k.val + 1) == w

/-- `irq_entry(pending)` (R74): spurious when no monitored pending line is idle; otherwise any such line is dispatched. -/
def enterIrq (pending : Byte) : Prog Result :=
  .act (.choose pending) fun w =>
    match lineOf w with
    | none => .ret .spurious
    | some k => routeLine k

/-- `handler_return(cpu_line)` (R76). -/
def handlerReturn (k : Fin 8) : Prog Result := (Prog.doing (.handled k)).bind fun _ => .ret .ok

/-! Routing-table initialisation (R70). -/

/-- The routing words of registers `rs`, written in that order. -/
def writeRouting (c : Cfg) (f : Family) : List (Fin 4) → Prog Unit
  | [] => .ret ()
  | r :: rs => (Prog.writing (.irr r) (packRouting c f r)).bind fun _ => writeRouting c f rs

/-- The mask that enables the two bootstrap sources and nothing else (R70). -/
def bootstrapMask (c : Cfg) : Word := bit c.srcTimer ||| bit c.srcUart0

/-- The five writes of `route_init` (R70). -/
def initRouting (c : Cfg) (f : Family) : Prog Result :=
  (writeRouting c f [0, 1, 2, 3]).bind fun _ => (Prog.writing .gimr (bootstrapMask c)).bind fun _ => .ret .ok

/-! The operations of tier T2, one program each. -/

/-- `route_init()` (R70): needs the family record and the mapped base (R139, R157). -/
def progRouteInit (e : Env) : Prog Result :=
  match e.cfg.family, e.cfg.intcBase with
  | none, _ => .refuse (.fatalBoot .familyRecord)
  | some _, none => .refuse (.fatalBoot .intcBase)
  | some f, some _ => initRouting e.cfg f

/-- `enable(s)` (R71). -/
def progEnable (src : Nat) : Prog Result := changeMask src (maskSet src)

/-- `disable(s)`, which is also the acknowledge (R72). -/
def progDisable (src : Nat) : Prog Result := changeMask src (maskClear src)

/-- `dispatch(cpu_line)` (R73). -/
def progDispatch (line : Fin 8) : Prog Result := dispatchLine line

/-- `irq_entry(pending)` (R74). -/
def progIrqEntry (pending : Byte) : Prog Result := enterIrq pending

/-- `register_handler(s, h)` (R75). -/
def progRegisterHandler (src : Nat) (h : Word) : Prog Result := registerHandler src h

/-- `handler_return(cpu_line)` (R76). -/
def progHandlerReturn (line : Fin 8) : Prog Result := handlerReturn line

end Sys2Proof.Machine
end

