-- ==== Sys2Proof/Machine/Engine.lean ====
section
/-! DEFINITION. The SPI-NOR protocol engine (42_spi_primitives.md) as programs: sequences of register accesses, each with
its poll, and the frame of tier T3 as a host produces it. -/

namespace Sys2Proof.Machine

/-! Gated accesses (R98 to R100). -/

/-- At most `n` reads of SFCSR, until one shows RDY (R98). -/
def pollReady (e : Env) : Nat → Prog Unit
  | 0 => e.exhausted .ready
  | n + 1 => (Prog.reading .sfcsr).bind fun v => if v.getLsbD e.cfg.bitRdy then .ret () else pollReady e n

/-- `wait_ready()` (R98). -/
def waitReady (e : Env) : Prog Unit := pollReady e e.pollLimit

/-- The register a gated write names. -/
def gatedReg : GatedReg → Reg
  | .sfcsr => .sfcsr
  | .sfdr => .sfdr

/-- `w32(REG, v)` (R99). -/
def gated32 (e : Env) (reg : GatedReg) (v : Word) : Prog Unit :=
  (waitReady e).bind fun _ => .writing (gatedReg reg) v

/-- `r32(SFDR)` (R100). -/
def readGated (e : Env) : Prog Word := (waitReady e).bind fun _ => .reading .sfdr

/-- `r32(SFDR)` of which the first `n` bytes are taken (R106, R108). -/
def takeGated (e : Env) (n : Nat) : Prog (List Byte) := (waitReady e).bind fun _ => .taking n

/-! Framing (R101, R102). -/

/-- `spi_prep()`: deselects both devices and returns the base word (R101). -/
def prep (e : Env) : Prog Word := (gated32 e .sfcsr (deselectWord e.cfg)).bind fun _ => .ret (baseWord e.cfg e.ctrl.cs)

/-- Sets the width of the next data-register access (R54). -/
def setWidth (e : Env) (base : Word) (n : Nat) : Prog Unit := gated32 e .sfcsr (base ||| lenField e.cfg n)

/-- Sends the address of a command with the width of the mode (R102). -/
def sendAddr (e : Env) (base a : Word) : Prog Unit :=
  (setWidth e base (addrBytesOf e.ctrl.addrMode)).bind fun _ => gated32 e .sfdr (addrWord e.ctrl.addrMode a)

/-- `issue_cmd(base, op, addr)` (R102). R102 gives `base` as the word of `spi_prep`; any other word is run too, as it stands
(DESIGN CHOICE, row 45). -/
def issue (e : Env) (base : Word) (op : Byte) (addr : Option Word) : Prog Unit :=
  (setWidth e base 1).bind fun _ =>
    (gated32 e .sfdr (commandWord op)).bind fun _ =>
      match addr with
      | none => .ret ()
      | some a => sendAddr e base a

/-! Device registers (R103, R106, R107). -/

/-- The accesses of `read_reg(op, len)`, for a supported length (R106). -/
def readRegBytes (e : Env) (op : Byte) (len : Nat) : Prog (List Byte) :=
  (prep e).bind fun base =>
    (issue e base op none).bind fun _ =>
      if len = 0 then .ret []
      else (setWidth e base len).bind fun _ => takeGated e len

/-- `read_reg(op, len)` (R106): the length, then the accesses. -/
def readReg (e : Env) (op : Byte) (len : Nat) : Prog Result :=
  if readRegLengthOk len then (readRegBytes e op len).bind fun bs => .ret (.bytes bs)
  else .raise (.invalidArgument [len])

/-- `read_status()`: `read_reg(OP_RDSR, 1)` and its one byte (R103). -/
def status (e : Env) : Prog Byte := (readRegBytes e e.cfg.opRdsr 1).bind fun bs => .ret (bs.headD 0#8)

/-- The accesses of `write_reg(op, buf, len)`, for a supported length (R107). -/
def writeRegWords (e : Env) (op : Byte) (buf : List Byte) (len : Nat) : Prog Unit :=
  (prep e).bind fun base =>
    (setWidth e base (len + 1)).bind fun _ => gated32 e .sfdr (writeRegWord e.cfg op buf len)

/-- `write_reg(op, buf, len)` (R107): the length, then the accesses. -/
def writeReg (e : Env) (op : Byte) (buf : List Byte) (len : Nat) : Prog Result :=
  if 2 < len then .raise (.invalidArgument [len])
  else if buf.length < len then .refuse .bufferTooShort
  else (writeRegWords e op buf len).bind fun _ => .ret .ok

/-! The write-enable handshake (R104, R105). -/

/-- At most `n` status reads, until one shows WIP clear (R104). -/
def pollWip (e : Env) : Nat → Prog Unit
  | 0 => e.exhausted .wip
  | n + 1 => (status e).bind fun b => if b.getLsbD e.cfg.srWip then pollWip e n else .ret ()

/-- `wait_wip()` (R104). -/
def waitIdle (e : Env) : Prog Unit := pollWip e e.pollLimit

/-- At most `n` status reads, until one shows WEL set (R105). -/
def pollWel (e : Env) : Nat → Prog Unit
  | 0 => e.exhausted .wel
  | n + 1 => (status e).bind fun b => if b.getLsbD e.cfg.srWel then .ret () else pollWel e n

/-- `write_enable()` (R105): the command is issued once. -/
def handshake (e : Env) : Prog Unit :=
  (waitIdle e).bind fun _ =>
    (prep e).bind fun base => (issue e base e.cfg.opWren none).bind fun _ => pollWel e e.pollLimit

/-! `read` (R108). -/

/-- The dummy bytes after the address of a fast read: `NDUMMY` one-byte transfers of zero (R55). -/
def sendDummies (e : Env) (base : Word) : Nat → Prog Unit
  | 0 => .ret ()
  | n + 1 =>
    (setWidth e base 1).bind fun _ => (gated32 e .sfdr 0#32).bind fun _ => sendDummies e base n

/-- Reads `n` times, taking the first `k` bytes of each value. -/
def readTimes (e : Env) (k : Nat) : Nat → Prog (List Byte)
  | 0 => .ret []
  | n + 1 =>
    (takeGated e k).bind fun b => (readTimes e k n).bind fun bs => .ret (b ++ bs)

/-- Reads `n` full words, four bytes each. -/
def readWords (e : Env) (n : Nat) : Prog (List Byte) := readTimes e 4 n

/-- Reads `n` single bytes, each from the high byte. -/
def readTail (e : Env) (n : Nat) : Prog (List Byte) := readTimes e 1 n

/-- Sets the width for a phase of a chunk, if the phase has any transfer. -/
def setWidthIf (e : Env) (needed : Bool) (base : Word) (n : Nat) : Prog Unit :=
  if needed then setWidth e base n else .ret ()

/-- The data phase of a chunk of `n` bytes: full words with width 4, then the tail with width 1 (R108). -/
def readData (e : Env) (base : Word) (n : Nat) : Prog (List Byte) :=
  (setWidthIf e (4 ≤ n) base 4).bind fun _ =>
    (readWords e (n / 4)).bind fun words =>
      (setWidthIf e (n % 4 != 0) base 1).bind fun _ =>
        (readTail e (n % 4)).bind fun tail => .ret (words ++ tail)

/-- One chunk of `read`: a fresh frame of `n` bytes at flash address `a` (R108, R114). -/
def readChunk (e : Env) (a n : Nat) : Prog (List Byte) :=
  (prep e).bind fun base =>
    (issue e base (e.cfg.opRead e.ctrl.addrMode) (some (trunc32 a))).bind fun _ =>
      (sendDummies e base e.cfg.numDummy).bind fun _ => readData e base n

/-- `k` chunks from flash address `a`, `left` bytes to go (R108, R114). -/
def readChunks (e : Env) : Nat → Nat → Nat → Prog (List Byte)
  | 0, _, _ => .ret []
  | k + 1, a, left =>
    (readChunk e a (min Config.chunk left)).bind fun bs =>
      (readChunks e k (a + min Config.chunk left) (left - min Config.chunk left)).bind fun rest => .ret (bs ++ rest)

/-- `check_range(offset, len)`: before any access (R115). -/
def checkRange (e : Env) (offset len : Nat) : Prog Unit :=
  if rangeLimit e.cfg e.ctrl < offset + len then .raise (.invalidArgument [offset, len]) else .ret ()

/-- `read(offset, len)`: the range, the handshake once, the chunks (R108). -/
def readFlash (e : Env) (offset len : Nat) : Prog Result :=
  (checkRange e offset len).bind fun _ =>
    (handshake e).bind fun _ =>
      (readChunks e (chunkCount len) offset len).bind fun bs => .ret (.count len bs)

/-! `write` (R109). -/

/-- Sends payload words, four bytes each. -/
def sendWords (e : Env) : List Byte → Prog Unit
  | b0 :: b1 :: b2 :: b3 :: rest =>
    (gated32 e .sfdr (payloadWord b0 b1 b2 b3)).bind fun _ => sendWords e rest
  | _ => .ret ()

/-- Sends single bytes, each in the high byte. -/
def sendTail (e : Env) : List Byte → Prog Unit
  | [] => .ret ()
  | b :: rest => (gated32 e .sfdr (commandWord b)).bind fun _ => sendTail e rest

/-- The payload of a chunk: full words with width 4, then the remainder with width 1 (R109, C12). -/
def sendData (e : Env) (base : Word) (data : List Byte) : Prog Unit :=
  (setWidthIf e (4 ≤ data.length) base 4).bind fun _ =>
    (sendWords e (data.take (data.length / 4 * 4))).bind fun _ =>
      (setWidthIf e (data.length % 4 != 0) base 1).bind fun _ =>
        sendTail e (data.drop (data.length / 4 * 4))

/-- One chunk of `write`: the handshake, then a frame with the payload (R109). -/
def writeChunk (e : Env) (a : Nat) (data : List Byte) : Prog Unit :=
  (handshake e).bind fun _ =>
    (prep e).bind fun base =>
      (issue e base (e.cfg.opPp e.ctrl.addrMode) (some (trunc32 a))).bind fun _ => sendData e base data

/-- `k` chunks of payload from flash address `a` (R109, R114). -/
def writeChunks (e : Env) : Nat → Nat → List Byte → Prog Unit
  | 0, _, _ => .ret ()
  | k + 1, a, data =>
    (writeChunk e a (data.take Config.chunk)).bind fun _ =>
      writeChunks e k (a + (data.take Config.chunk).length) (data.drop Config.chunk)

/-- `write(offset, buf, len)`: the range, then the chunks, each with its handshake (R109). -/
def writeFlash (e : Env) (offset : Nat) (buf : List Byte) (len : Nat) : Prog Result :=
  (checkRange e offset len).bind fun _ =>
    if buf.length < len then .refuse .bufferTooShort
    else (writeChunks e (chunkCount len) offset (buf.take len)).bind fun _ => .ret (.count len [])

/-! `erase` and `attach` (R110, R111). -/

/-- `erase(offset)`: the range, the handshake, the command with its address (R110). -/
def eraseFlash (e : Env) (offset : Nat) : Prog Result :=
  (checkRange e offset 1).bind fun _ =>
    (handshake e).bind fun _ =>
      (prep e).bind fun base =>
        (issue e base (e.cfg.opSe e.ctrl.addrMode) (some (trunc32 offset))).bind fun _ => .ret .ok

/-- The chip-select an `attach` operand names; none outside 0, 1 (R111). It is not compared with CS of R6
(DESIGN CHOICE, row 46). -/
def chipSelOf (cs : Byte) : Option ChipSel :=
  if cs = 0#8 then some .cs0 else if cs = 1#8 then some .cs1 else none

/-- The addressing mode the strap decision selects for the family that `attach` was given (R111, R112); that it is not
compared with the parameter FAMILY is a DESIGN CHOICE (row 44). -/
def modeOf (c : Cfg) (f : Family) (straps : Straps) : AddrMode := if c.wants4 f straps then .four else .three

/-- `attach(family, cs, straps)` once its preconditions hold: the chip-select is checked, the byte-ordering bit set, the
record fixed (R111). -/
def attachController (c : Cfg) (base : Word) (f : Family) (cs : Byte) (straps : Straps) : Prog Result :=
  match chipSelOf cs with
  | none => .raise (.invalidArgument [cs.toNat])
  | some sel =>
    (Prog.reading .sfcr).bind fun v =>
      (Prog.writing .sfcr (v ||| bit c.bitBo)).bind fun _ =>
        (Prog.doing (.record base sel (modeOf c f straps))).bind fun _ => .ret .ok

/-! Preconditions (R97, R43; row 20). -/

/-- The common preconditions of the primitives, then the operation (R97). -/
def withController {α : Type} (p : Prog α) : Prog α := (Prog.doing .needController).bind fun _ => p

/-! Frames as operations (tier T3, row 19). -/

/-- A whole frame on a device as a host produces it, by gated accesses (R46, R57, R81, R88): a frame still open is closed;
the chip-select is asserted with width 1; the bytes are sent, then `reads` bytes are taken, one by one; the chip-select is
deasserted, which closes the frame. -/
def runFrame (e : Env) (c : ChipSel) (op : Byte) (sent : List Byte) (reads : Nat) : Prog Result :=
  (gated32 e .sfcsr (deselectWord e.cfg)).bind fun _ =>
    (setWidth e (baseWord e.cfg c) 1).bind fun _ =>
      (sendTail e (op :: sent)).bind fun _ =>
        (readTail e reads).bind fun bs =>
          (gated32 e .sfcsr (deselectWord e.cfg)).bind fun _ => .ret (.bytes bs)

/-! The operations of tier T2 and T3, one program each. Each takes the environment first. -/

/-- `attach(family, cs, straps)` (R111): needs the family record and the mapped base (R139, R157), then the mutex; a second
one is refused. The operand `family` may differ from the record's (DESIGN CHOICE, row 44). -/
def progAttach (e : Env) (family : Family) (cs : Byte) (straps : Straps) : Prog Result :=
  match e.cfg.family, e.cfg.spiBase with
  | none, _ => .refuse (.fatalBoot .familyRecord)
  | some _, none => .refuse (.fatalBoot .spiBase)
  | some _, some base =>
    (Prog.doing .needDetached).bind fun _ => attachController e.cfg base family cs straps

/-- `spi_prep()` (R101). -/
def progSpiPrep (e : Env) : Prog Result := withController ((prep e).bind fun base => .ret (.value base))

/-- `wait_ready()` (R98). -/
def progWaitReady (e : Env) : Prog Result := (waitReady e).bind fun _ => .ret .ok

/-- `w32(REG, v)` (R99). -/
def progW32 (e : Env) (reg : GatedReg) (v : Word) : Prog Result := (gated32 e reg v).bind fun _ => .ret .ok

/-- `r32(SFDR)` (R100). -/
def progR32 (e : Env) : Prog Result := (readGated e).bind fun v => .ret (.value v)

/-- `read_status()` (R103). -/
def progReadStatus (e : Env) : Prog Result := withController ((status e).bind fun b => .ret (.status b))

/-- `wait_wip()` (R104). -/
def progWaitWip (e : Env) : Prog Result := withController ((waitIdle e).bind fun _ => .ret .ok)

/-- `write_enable()` (R105). -/
def progWriteEnable (e : Env) : Prog Result := withController ((handshake e).bind fun _ => .ret .ok)

/-- `read_reg(op, len)` (R106). -/
def progReadReg (e : Env) (op : Byte) (len : Nat) : Prog Result := withController (readReg e op len)

/-- `write_reg(op, buf, len)` (R107). -/
def progWriteReg (e : Env) (op : Byte) (buf : List Byte) (len : Nat) : Prog Result :=
  withController (writeReg e op buf len)

/-- `read(offset, len)` (R108). -/
def progRead (e : Env) (offset len : Nat) : Prog Result := withController (readFlash e offset len)

/-- `write(offset, buf, len)` (R109). -/
def progWrite (e : Env) (offset : Nat) (buf : List Byte) (len : Nat) : Prog Result :=
  withController (writeFlash e offset buf len)

/-- `erase(offset)` (R110). -/
def progErase (e : Env) (offset : Nat) : Prog Result := withController (eraseFlash e offset)

/-- `issue_cmd(base, op, addr)` (R102), with whatever word the caller gives as `base` (DESIGN CHOICE, row 45). -/
def progIssueCmd (e : Env) (base : Word) (op : Byte) (addr : Option Word) : Prog Result :=
  withController ((issue e base op addr).bind fun _ => .ret .ok)

/-- WRSR, write status register (R122). -/
def progWrsr (e : Env) (c : ChipSel) (sent : List Byte) (reads : Nat) : Prog Result :=
  runFrame e c e.cfg.opWrsr sent reads

/-- PP, page program with 3 address bytes (R125). -/
def progPp (e : Env) (c : ChipSel) (sent : List Byte) (reads : Nat) : Prog Result :=
  runFrame e c e.cfg.opPp3 sent reads

/-- RDSR, read status (R121). -/
def progRdsr (e : Env) (c : ChipSel) (sent : List Byte) (reads : Nat) : Prog Result :=
  runFrame e c e.cfg.opRdsr sent reads

/-- WREN, write enable (R120). -/
def progWren (e : Env) (c : ChipSel) (sent : List Byte) (reads : Nat) : Prog Result :=
  runFrame e c e.cfg.opWren sent reads

/-- FAST_READ, read with 3 address bytes (R123). -/
def progFastRead (e : Env) (c : ChipSel) (sent : List Byte) (reads : Nat) : Prog Result :=
  runFrame e c e.cfg.opRead3 sent reads

/-- FAST_READ_4B, read with 4 address bytes (R124). -/
def progFastRead4b (e : Env) (c : ChipSel) (sent : List Byte) (reads : Nat) : Prog Result :=
  runFrame e c e.cfg.opRead4 sent reads

/-- PP_4B, page program with 4 address bytes (R126). -/
def progPp4b (e : Env) (c : ChipSel) (sent : List Byte) (reads : Nat) : Prog Result :=
  runFrame e c e.cfg.opPp4 sent reads

/-- SE, sector erase with 3 address bytes (R127). -/
def progSe (e : Env) (c : ChipSel) (sent : List Byte) (reads : Nat) : Prog Result :=
  runFrame e c e.cfg.opSe3 sent reads

/-- SE_4B, sector erase with 4 address bytes (R128). -/
def progSe4b (e : Env) (c : ChipSel) (sent : List Byte) (reads : Nat) : Prog Result :=
  runFrame e c e.cfg.opSe4 sent reads

/-- A frame with another command byte (R61, R129): it goes over the wire as any frame, and the device ignores it. -/
def progUnknown (e : Env) (cmd : Byte) (c : ChipSel) (sent : List Byte) (reads : Nat) : Prog Result :=
  runFrame e c cmd sent reads

end Sys2Proof.Machine
end

