-- ==== Sys2Proof/Machine/Agents.lean ====
section
/-! DEFINITION. The other agents (R8): source devices, the controller's and the devices' own steps, the collaborator that
holds the SPI mutex, and the other host contexts, whose operations advance one step at a time (R40). The interleaving
point. -/

namespace Sys2Proof.Machine

/-! The program of every operation. -/

/-- One register read as an operation (tier T1). -/
def readOnce (r : Reg) : Prog Result := (Prog.reading r).bind fun v => .ret (.value v)

/-- One register write as an operation (tier T1). -/
def writeOnce (r : Reg) (v : Word) : Prog Result := (Prog.writing r v).bind fun _ => .ret .ok

/-- The program of an operation. -/
def progInstr (e : Env) (i : Instr) : Prog Result :=
  match i with
  | .gimrR => readOnce .gimr
  | .gimrW v => writeOnce .gimr v
  | .gisrR => readOnce .gisr
  | .gisrW v => writeOnce .gisr v
  | .irr0R => readOnce (.irr 0)
  | .irr0W v => writeOnce (.irr 0) v
  | .irr1R => readOnce (.irr 1)
  | .irr1W v => writeOnce (.irr 1) v
  | .irr2R => readOnce (.irr 2)
  | .irr2W v => writeOnce (.irr 2) v
  | .irr3R => readOnce (.irr 3)
  | .irr3W v => writeOnce (.irr 3) v
  | .sfcrR => readOnce .sfcr
  | .sfcrW v => writeOnce .sfcr v
  | .sfcr2R => readOnce .sfcr2
  | .sfcr2W v => writeOnce .sfcr2 v
  | .sfcsrR => readOnce .sfcsr
  | .sfcsrW v => writeOnce .sfcsr v
  | .sfdrR => readOnce .sfdr
  | .sfdrW v => writeOnce .sfdr v
  | .routeInit => progRouteInit e
  | .enable src => progEnable src
  | .disable src => progDisable src
  | .dispatch line => progDispatch line
  | .irqEntry pending => progIrqEntry pending
  | .registerHandler src h => progRegisterHandler src h
  | .handlerReturn line => progHandlerReturn line
  | .attach family cs straps => progAttach e family cs straps
  | .spiPrep => progSpiPrep e
  | .waitReady => progWaitReady e
  | .w32 reg v => progW32 e reg v
  | .r32 => progR32 e
  | .readStatus => progReadStatus e
  | .waitWip => progWaitWip e
  | .writeEnable => progWriteEnable e
  | .readReg op len => progReadReg e op len
  | .writeReg op buf len => progWriteReg e op buf len
  | .read offset len => progRead e offset len
  | .write offset buf len => progWrite e offset buf len
  | .erase offset => progErase e offset
  | .issueCmd base op addr => progIssueCmd e base op addr
  | .wrsr c sent reads => progWrsr e c sent reads
  | .pp c sent reads => progPp e c sent reads
  | .rdsr c sent reads => progRdsr e c sent reads
  | .wren c sent reads => progWren e c sent reads
  | .fastRead c sent reads => progFastRead e c sent reads
  | .fastRead4b c sent reads => progFastRead4b e c sent reads
  | .pp4b c sent reads => progPp4b e c sent reads
  | .se c sent reads => progSe e c sent reads
  | .se4b c sent reads => progSe4b e c sent reads

/-- The program of what a context runs. -/
def progOf (e : Env) (op : Op) : Prog Result :=
  match op with
  | .instr i => progInstr e i
  | .frame cmd c sent reads => progUnknown e cmd c sent reads

/-- What a context may call: a well-formed operation, or a frame whose command byte is none of the nine (R129). -/
def Op.wellFormed (cfg : Cfg) (op : Op) : Bool :=
  match op with
  | .instr i => WellFormed i
  | .frame cmd c sent reads => fits16 reads && frameInstr cfg cmd c sent reads == .error .unknownCommand

/-! Operations in progress. -/

/-- The operation in progress of a context. -/
def State.callOf (s : State) (ctx : Nat) : Option Call := s.calls.find? fun c => c.ctx == ctx

/-- Without the operation in progress of a context. -/
def State.dropCall (s : State) (ctx : Nat) : State := { s with calls := s.calls.filter fun c => c.ctx != ctx }

/-- With an operation in progress. -/
def State.keepCall (s : State) (c : Call) : State := { s with calls := s.calls ++ [c] }

/-- An operation of another context returns. -/
def State.returns (s : State) (ctx : Nat) (r : Result) : State := { s with returned := s.returned ++ [(ctx, r)] }

/-- Sets the running context (R8). -/
def State.withCtx (s : State) (ctx : Nat) : State := { s with ctx := ctx }

/-- What is left of an operation in progress. -/
def State.rest (s : State) (c : Call) : Prog Result := (progOf (s.env c.got.length) c.op).after c.got

/-- An operation of another context after one of its steps: it returns, its condition is returned (R116), the model stops,
or it stays in progress. -/
def settle (c : Call) (s : State) : Res Unit :=
  match s.rest c with
  | .ret r => .ok () ((s.leaveOp c.op).returns c.ctx r)
  | .raise cond => .ok () ((s.leaveOp c.op).returns c.ctx (raisedResult s.cfg cond))
  | .refuse r => .refused r
  | .more => .ok () (s.keepCall c)
  | .act _ _ => .ok () (s.keepCall c)

/-- One step of an operation in progress of another context, if it can take it now (R40). -/
def advance (c : Call) (s : State) : Res Unit :=
  match s.rest c with
  | .act a _ =>
    if a.mayGo s then
      (a.perform (s.withCtx c.ctx)).bind fun w t => settle { c with got := c.got ++ [w] } (t.withCtx s.ctx)
    else .ok () (s.keepCall c)
  | .ret _ => settle c s
  | .raise _ => settle c s
  | .refuse _ => settle c s
  | .more => settle c s

/-- The tests of R97, which are no register access: the attached controller, and the mutex of the caller. -/
def Act.isTest : Act → Bool
  | .needController => true
  | .needDetached => true
  | _ => false

/-- What is left of an operation begins with the tests of R97. -/
def Prog.beginsWithTest {α : Type} : Prog α → Bool
  | .act a _ => a.isTest
  | .ret _ => false
  | .raise _ => false
  | .refuse _ => false
  | .more => false

/-- Another context has called an operation: its preconditions are tested at the call (R43, R97), and then it is in progress,
or it has returned. -/
def called (c : Call) (s : State) : Res Unit := if (s.rest c).beginsWithTest then advance c s else settle c s

/-! The interleaving point. -/

/-- One step of another agent; a step that is not enabled changes nothing (row 12). A host context runs one operation at a
time. One that calls an SPI primitive while another is inside one is refused, and so is one that calls a primitive, or
`attach`, without the mutex (R43, R97): both are tested at the call. -/
def agentStep (a : AgentStep) (s : State) : Res Unit :=
  match a with
  | .setSource src level => .ok () (setSource src level s)
  | .spiComplete => .ok () (Machine.spiComplete s)
  | .finish c => .ok () (devFinish c s)
  | .start ctx op =>
    if ctx ≠ s.ctx ∧ s.callOf ctx = none ∧ op.wellFormed s.cfg then
      (enterOp op ctx s).bind fun _ s => called ⟨ctx, op, []⟩ s
    else .ok () s
  | .go ctx =>
    match s.callOf ctx with
    | some c => advance c (s.dropCall ctx)
    | none => .ok () s
  | .takeMutex ctx =>
    if s.spiMutex = .free ∧ ctx ≠ s.ctx then .ok () { s with spiMutex := .held ctx } else .ok () s
  | .releaseMutex ctx =>
    if s.spiMutex = .held ctx ∧ ctx ≠ s.ctx ∧ s.callOf ctx = none then .ok () { s with spiMutex := .free } else .ok () s

/-- The steps of a batch, in order. -/
def runBatch : List AgentStep → State → Res Unit
  | [], s => .ok () s
  | a :: rest, s => (agentStep a s).bind fun _ s => runBatch rest s

/-- The interleaving point: the other agents take the next batch of the schedule (R40, row 11). A fault or a refusal of an
operation of another context stops the machine. -/
def State.point (s : State) : Res Unit :=
  match s.schedule with
  | [] => .ok () (eagerStep s)
  | batch :: rest => runBatch batch { s with schedule := rest }

end Sys2Proof.Machine
end

