-- ==== Sys2Proof/Machine/Run.lean ====
section
/-! DEFINITION. An operation run by the context that issued it: an interleaving point before each register access (R40),
waits for the lock and for the dispatch path, and an operation that has not returned (R137). -/

namespace Sys2Proof.Machine

/-- Waits at interleaving points, at most `n`, until a step can be taken; after that it is still waiting (rows 14, 15). -/
def waitTurn (a : Act) : Nat → State → Res Unit
  | 0, s => if a.mayRun s then .ok () s else .pending s
  | n + 1, s => if a.mayRun s then .ok () s else s.point.bind fun _ s => waitTurn a n s

/-- What comes before a step: the interleaving point of a register access, or the wait until it can be taken. -/
def Act.before (a : Act) (s : State) : Res Unit :=
  match a with
  | .rd _ => s.point
  | .wr _ _ => s.point
  | .take _ => s.point
  | _ => waitTurn a s.schedule.length s

/-- A step of the running context. -/
def Act.step (a : Act) (s : State) : Res Word := (a.before s).bind fun _ s => a.perform s

/-- What a program answers when the running context runs it. -/
def Prog.den {α : Type} (p : Prog α) (s : State) : Res α :=
  match p with
  | .ret a => .ok a s
  | .raise c => .raised c s
  | .refuse r => .refused r
  | .more => .pending s
  | .act a next => (a.step s).bind fun w s => (next w).den s

/-- The running context's operation is still in progress, having got these answers (R137, row 14). -/
def State.suspend (s : State) (op : Op) (got : List Word) : State :=
  { s with result := .nothing, calls := s.calls ++ [⟨s.ctx, op, got⟩] }

/-- The running context's operation has returned, or raised its condition (R116). -/
def State.ended (s : State) (op : Op) (r : Result) : State := { s.leaveOp op with result := r }

/-- Continues with what a part answered; `raise` says what a condition is, `wait` what a wait is. -/
def Res.finish {α : Type} (r : Res α) (raise : Condition → State → Host.Outcome State Fault Refusal)
    (wait : State → Host.Outcome State Fault Refusal) (next : α → State → Host.Outcome State Fault Refusal) :
    Host.Outcome State Fault Refusal :=
  match r with
  | .ok a s => next a s
  | .raised c s => raise c s
  | .pending s => wait s
  | .refused r => .refused r
  | .fault f => .fault f

/-- Runs a program as the operation `op` of the running context: it returns its result or its condition (R116), or it stays
in progress with the answers its steps have got (R137). -/
def Prog.run (p : Prog Result) (op : Op) (got : List Word) (s : State) : Host.Outcome State Fault Refusal :=
  match p with
  | .ret r => .next (s.ended op r)
  | .raise c => .next (s.ended op (raisedResult s.cfg c))
  | .refuse r => .refused r
  | .more => .next (s.suspend op got)
  | .act a next =>
    (a.step s).finish (fun c s => .next (s.ended op (raisedResult s.cfg c))) (fun s => .next (s.suspend op got))
      fun w s => (next w).run op (got ++ [w]) s

/-- The running context calls an operation; an SPI primitive is refused while one is in progress (R43). -/
def call (op : Op) (p : Env → Prog Result) (s : State) : Host.Outcome State Fault Refusal :=
  (enterOp op s.ctx s).finish (fun c t => .next (t.ended op (raisedResult t.cfg c))) .next fun _ t => (p (s.env 0)).run op [] t

/-- An operation in progress goes on as the running context's (R137, row 14). -/
def resume (c : Call) (s : State) : Host.Outcome State Fault Refusal := (s.rest c).run c.op c.got (s.withCtx c.ctx)

end Sys2Proof.Machine
end

