-- ==== Sys2Proof/Machine/Frames.lean ====
section
/-! DEFINITION. The meanings of the SPI-NOR command frames (43_flash_device.md section 2): a whole frame on the device of
a chip-select, by gated accesses (row 19). What the device does with it is in Flash.lean, one definition per command. -/

namespace Sys2Proof.Machine

/-- WRSR, write status register (R122). -/
def execWrsr (c : ChipSel) (sent : List Byte) (reads : Nat) (s : State) : Host.Outcome State Fault Refusal :=
  call (.instr (.wrsr c sent reads)) (fun e => progWrsr e c sent reads) s

/-- PP, page program with 3 address bytes (R125). -/
def execPp (c : ChipSel) (sent : List Byte) (reads : Nat) (s : State) : Host.Outcome State Fault Refusal :=
  call (.instr (.pp c sent reads)) (fun e => progPp e c sent reads) s

/-- RDSR, read status (R121). -/
def execRdsr (c : ChipSel) (sent : List Byte) (reads : Nat) (s : State) : Host.Outcome State Fault Refusal :=
  call (.instr (.rdsr c sent reads)) (fun e => progRdsr e c sent reads) s

/-- WREN, write enable (R120). -/
def execWren (c : ChipSel) (sent : List Byte) (reads : Nat) (s : State) : Host.Outcome State Fault Refusal :=
  call (.instr (.wren c sent reads)) (fun e => progWren e c sent reads) s

/-- FAST_READ, read with 3 address bytes (R123). -/
def execFastRead (c : ChipSel) (sent : List Byte) (reads : Nat) (s : State) : Host.Outcome State Fault Refusal :=
  call (.instr (.fastRead c sent reads)) (fun e => progFastRead e c sent reads) s

/-- FAST_READ_4B, read with 4 address bytes (R124). -/
def execFastRead4b (c : ChipSel) (sent : List Byte) (reads : Nat) (s : State) : Host.Outcome State Fault Refusal :=
  call (.instr (.fastRead4b c sent reads)) (fun e => progFastRead4b e c sent reads) s

/-- PP_4B, page program with 4 address bytes (R126). -/
def execPp4b (c : ChipSel) (sent : List Byte) (reads : Nat) (s : State) : Host.Outcome State Fault Refusal :=
  call (.instr (.pp4b c sent reads)) (fun e => progPp4b e c sent reads) s

/-- SE, sector erase with 3 address bytes (R127). -/
def execSe (c : ChipSel) (sent : List Byte) (reads : Nat) (s : State) : Host.Outcome State Fault Refusal :=
  call (.instr (.se c sent reads)) (fun e => progSe e c sent reads) s

/-- SE_4B, sector erase with 4 address bytes (R128). -/
def execSe4b (c : ChipSel) (sent : List Byte) (reads : Nat) (s : State) : Host.Outcome State Fault Refusal :=
  call (.instr (.se4b c sent reads)) (fun e => progSe4b e c sent reads) s

/-- A frame with another command byte, which the device ignores (R61, R129): what `step` runs for such an item. -/
def runUnknown (cmd : Byte) (c : ChipSel) (sent : List Byte) (reads : Nat) (s : State) :
    Host.Outcome State Fault Refusal :=
  call (.frame cmd c sent reads) (fun e => progUnknown e cmd c sent reads) s

end Sys2Proof.Machine
end

