-- ==== Sys2Proof/Machine/Primitives.lean ====
section
/-! DEFINITION. The meanings of the SPI-NOR driver primitives (42_spi_primitives.md): each is its program of Engine.lean, run
by the context that calls it. -/

namespace Sys2Proof.Machine

/-- `attach(family, cs, straps)` (R111). -/
def execAttach (family : Family) (cs : Byte) (straps : Straps) (s : State) : Host.Outcome State Fault Refusal :=
  call (.instr (.attach family cs straps)) (fun e => progAttach e family cs straps) s

/-- `spi_prep()` (R101). -/
def execSpiPrep (s : State) : Host.Outcome State Fault Refusal := call (.instr .spiPrep) (fun e => progSpiPrep e) s

/-- `wait_ready()` (R98). -/
def execWaitReady (s : State) : Host.Outcome State Fault Refusal :=
  call (.instr .waitReady) (fun e => progWaitReady e) s

/-- `w32(REG, v)` (R99). -/
def execW32 (reg : GatedReg) (v : Word) (s : State) : Host.Outcome State Fault Refusal :=
  call (.instr (.w32 reg v)) (fun e => progW32 e reg v) s

/-- `r32(SFDR)` (R100). -/
def execR32 (s : State) : Host.Outcome State Fault Refusal := call (.instr .r32) (fun e => progR32 e) s

/-- `read_status()` (R103). -/
def execReadStatus (s : State) : Host.Outcome State Fault Refusal :=
  call (.instr .readStatus) (fun e => progReadStatus e) s

/-- `wait_wip()` (R104). -/
def execWaitWip (s : State) : Host.Outcome State Fault Refusal := call (.instr .waitWip) (fun e => progWaitWip e) s

/-- `write_enable()` (R105). -/
def execWriteEnable (s : State) : Host.Outcome State Fault Refusal :=
  call (.instr .writeEnable) (fun e => progWriteEnable e) s

/-- `read_reg(op, len)` (R106). -/
def execReadReg (op : Byte) (len : Nat) (s : State) : Host.Outcome State Fault Refusal :=
  call (.instr (.readReg op len)) (fun e => progReadReg e op len) s

/-- `write_reg(op, buf, len)` (R107). -/
def execWriteReg (op : Byte) (buf : List Byte) (len : Nat) (s : State) : Host.Outcome State Fault Refusal :=
  call (.instr (.writeReg op buf len)) (fun e => progWriteReg e op buf len) s

/-- `read(offset, len)` (R108). -/
def execRead (offset : Nat) (len : Nat) (s : State) : Host.Outcome State Fault Refusal :=
  call (.instr (.read offset len)) (fun e => progRead e offset len) s

/-- `write(offset, buf, len)` (R109). -/
def execWrite (offset : Nat) (buf : List Byte) (len : Nat) (s : State) : Host.Outcome State Fault Refusal :=
  call (.instr (.write offset buf len)) (fun e => progWrite e offset buf len) s

/-- `erase(offset)` (R110). -/
def execErase (offset : Nat) (s : State) : Host.Outcome State Fault Refusal :=
  call (.instr (.erase offset)) (fun e => progErase e offset) s

/-- `issue_cmd(base, op, addr)` (R102). -/
def execIssueCmd (base : Word) (op : Byte) (addr : Option Word) (s : State) : Host.Outcome State Fault Refusal :=
  call (.instr (.issueCmd base op addr)) (fun e => progIssueCmd e base op addr) s

end Sys2Proof.Machine
end

