-- ==== Sys2Proof/Machine/Router.lean ====
section
/-! DEFINITION. The meanings of the router's operations: the register accesses (40_irq_router.md section 2) and the
driver-level operations (section 3). -/

namespace Sys2Proof.Machine

/-- GIMR.R (R64). -/
def execGimrR (s : State) : Host.Outcome State Fault Refusal := (gimrRead s).returnValue

/-- GIMR.W (R65). -/
def execGimrW (v : Word) (s : State) : Host.Outcome State Fault Refusal := (gimrWrite v s).returnOk

/-- GISR.R (R66). -/
def execGisrR (s : State) : Host.Outcome State Fault Refusal := (gisrRead s).returnValue

/-- GISR.W (R67). -/
def execGisrW (v : Word) (s : State) : Host.Outcome State Fault Refusal := (gisrWrite v s).returnOk

/-- IRR0.R (R68). -/
def execIrr0R (s : State) : Host.Outcome State Fault Refusal := (irrRead 0 s).returnValue

/-- IRR0.W (R69). -/
def execIrr0W (v : Word) (s : State) : Host.Outcome State Fault Refusal := (irrWrite 0 v s).returnOk

/-- IRR1.R (R68). -/
def execIrr1R (s : State) : Host.Outcome State Fault Refusal := (irrRead 1 s).returnValue

/-- IRR1.W (R69). -/
def execIrr1W (v : Word) (s : State) : Host.Outcome State Fault Refusal := (irrWrite 1 v s).returnOk

/-- IRR2.R (R68). -/
def execIrr2R (s : State) : Host.Outcome State Fault Refusal := (irrRead 2 s).returnValue

/-- IRR2.W (R69). -/
def execIrr2W (v : Word) (s : State) : Host.Outcome State Fault Refusal := (irrWrite 2 v s).returnOk

/-- IRR3.R (R68). -/
def execIrr3R (s : State) : Host.Outcome State Fault Refusal := (irrRead 3 s).returnValue

/-- IRR3.W (R69). -/
def execIrr3W (v : Word) (s : State) : Host.Outcome State Fault Refusal := (irrWrite 3 v s).returnOk

/-- `route_init()` (R70). -/
def execRouteInit (s : State) : Host.Outcome State Fault Refusal :=
  call (.instr .routeInit) (fun e => progRouteInit e) s

/-- `enable(s)` (R71). -/
def execEnable (src : Nat) (s : State) : Host.Outcome State Fault Refusal :=
  call (.instr (.enable src)) (fun _ => progEnable src) s

/-- `disable(s)`, which is also the acknowledge (R72). -/
def execDisable (src : Nat) (s : State) : Host.Outcome State Fault Refusal :=
  call (.instr (.disable src)) (fun _ => progDisable src) s

/-- `dispatch(cpu_line)` (R73). -/
def execDispatch (line : Fin 8) (s : State) : Host.Outcome State Fault Refusal :=
  call (.instr (.dispatch line)) (fun _ => progDispatch line) s

/-- `irq_entry(pending)` (R74). -/
def execIrqEntry (pending : Byte) (s : State) : Host.Outcome State Fault Refusal :=
  call (.instr (.irqEntry pending)) (fun _ => progIrqEntry pending) s

/-- `register_handler(s, h)` (R75). -/
def execRegisterHandler (src : Nat) (h : Word) (s : State) : Host.Outcome State Fault Refusal :=
  call (.instr (.registerHandler src h)) (fun _ => progRegisterHandler src h) s

/-- `handler_return(cpu_line)` (R76). -/
def execHandlerReturn (line : Fin 8) (s : State) : Host.Outcome State Fault Refusal :=
  call (.instr (.handlerReturn line)) (fun _ => progHandlerReturn line) s

end Sys2Proof.Machine
end

