-- ==== Sys2Proof/Machine/Spi.lean ====
section
/-! DEFINITION. The meanings of the SPI controller's register accesses (41_spi_controller.md section 2). -/

namespace Sys2Proof.Machine

/-- SFCR.R (R82). -/
def execSfcrR (s : State) : Host.Outcome State Fault Refusal := (sfcrRead s).returnValue

/-- SFCR.W (R83). -/
def execSfcrW (v : Word) (s : State) : Host.Outcome State Fault Refusal := (sfcrWrite v s).returnOk

/-- SFCR2.R (R84). -/
def execSfcr2R (s : State) : Host.Outcome State Fault Refusal := (sfcr2Read s).returnValue

/-- SFCR2.W (R85). -/
def execSfcr2W (v : Word) (s : State) : Host.Outcome State Fault Refusal := (sfcr2Write v s).returnOk

/-- SFCSR.R (R86). -/
def execSfcsrR (s : State) : Host.Outcome State Fault Refusal := (sfcsrRead s).returnValue

/-- SFCSR.W (R87). -/
def execSfcsrW (v : Word) (s : State) : Host.Outcome State Fault Refusal := (sfcsrWrite v s).returnOk

/-- SFDR.R (R90). -/
def execSfdrR (s : State) : Host.Outcome State Fault Refusal :=
  ((sfdrRead s).bind fun lanes s => .ok lanes.word s).returnValue

/-- SFDR.W (R89). -/
def execSfdrW (v : Word) (s : State) : Host.Outcome State Fault Refusal := (sfdrWrite v s).returnOk

end Sys2Proof.Machine
end

