-- ==== Sys2Proof/Machine/Dispatch.lean ====
section
/-! DEFINITION. The meaning of every operation, one arm per constructor of `Instr`. -/

namespace Sys2Proof.Machine

def exec (i : Instr) (s : State) : Host.Outcome State Fault Refusal :=
  match i with
  | .gimrR => Sys2Proof.Machine.execGimrR s
  | .gimrW v => Sys2Proof.Machine.execGimrW v s
  | .gisrR => Sys2Proof.Machine.execGisrR s
  | .gisrW v => Sys2Proof.Machine.execGisrW v s
  | .irr0R => Sys2Proof.Machine.execIrr0R s
  | .irr0W v => Sys2Proof.Machine.execIrr0W v s
  | .irr1R => Sys2Proof.Machine.execIrr1R s
  | .irr1W v => Sys2Proof.Machine.execIrr1W v s
  | .irr2R => Sys2Proof.Machine.execIrr2R s
  | .irr2W v => Sys2Proof.Machine.execIrr2W v s
  | .irr3R => Sys2Proof.Machine.execIrr3R s
  | .irr3W v => Sys2Proof.Machine.execIrr3W v s
  | .sfcrR => Sys2Proof.Machine.execSfcrR s
  | .sfcrW v => Sys2Proof.Machine.execSfcrW v s
  | .sfcr2R => Sys2Proof.Machine.execSfcr2R s
  | .sfcr2W v => Sys2Proof.Machine.execSfcr2W v s
  | .sfcsrR => Sys2Proof.Machine.execSfcsrR s
  | .sfcsrW v => Sys2Proof.Machine.execSfcsrW v s
  | .sfdrR => Sys2Proof.Machine.execSfdrR s
  | .sfdrW v => Sys2Proof.Machine.execSfdrW v s
  | .routeInit => Sys2Proof.Machine.execRouteInit s
  | .enable src => Sys2Proof.Machine.execEnable src s
  | .disable src => Sys2Proof.Machine.execDisable src s
  | .dispatch line => Sys2Proof.Machine.execDispatch line s
  | .irqEntry pending => Sys2Proof.Machine.execIrqEntry pending s
  | .registerHandler src h => Sys2Proof.Machine.execRegisterHandler src h s
  | .handlerReturn line => Sys2Proof.Machine.execHandlerReturn line s
  | .attach family cs straps => Sys2Proof.Machine.execAttach family cs straps s
  | .spiPrep => Sys2Proof.Machine.execSpiPrep s
  | .waitReady => Sys2Proof.Machine.execWaitReady s
  | .w32 reg v => Sys2Proof.Machine.execW32 reg v s
  | .r32 => Sys2Proof.Machine.execR32 s
  | .readStatus => Sys2Proof.Machine.execReadStatus s
  | .waitWip => Sys2Proof.Machine.execWaitWip s
  | .writeEnable => Sys2Proof.Machine.execWriteEnable s
  | .readReg op len => Sys2Proof.Machine.execReadReg op len s
  | .writeReg op buf len => Sys2Proof.Machine.execWriteReg op buf len s
  | .read offset len => Sys2Proof.Machine.execRead offset len s
  | .write offset buf len => Sys2Proof.Machine.execWrite offset buf len s
  | .erase offset => Sys2Proof.Machine.execErase offset s
  | .issueCmd base op addr => Sys2Proof.Machine.execIssueCmd base op addr s
  | .wrsr c sent reads => Sys2Proof.Machine.execWrsr c sent reads s
  | .pp c sent reads => Sys2Proof.Machine.execPp c sent reads s
  | .rdsr c sent reads => Sys2Proof.Machine.execRdsr c sent reads s
  | .wren c sent reads => Sys2Proof.Machine.execWren c sent reads s
  | .fastRead c sent reads => Sys2Proof.Machine.execFastRead c sent reads s
  | .fastRead4b c sent reads => Sys2Proof.Machine.execFastRead4b c sent reads s
  | .pp4b c sent reads => Sys2Proof.Machine.execPp4b c sent reads s
  | .se c sent reads => Sys2Proof.Machine.execSe c sent reads s
  | .se4b c sent reads => Sys2Proof.Machine.execSe4b c sent reads s

end Sys2Proof.Machine
end

