-- ==== Sys2Proof/Machine/Fetch.lean ====
section
/-! DEFINITION. Fetching: what an item of the program asks for, which item is next, and the mutex moves of the
flash-subsystem collaborator (R43). -/

namespace Sys2Proof.Machine

/-- The frame that the bytes of a NORFRAME spell when their command byte is none of the nine of R62: the device ignores it
(R61, R129). -/
def unknownFrame (cmd : Byte) (args : List Byte) : Except Refusal Op :=
  if 3 ≤ args.length then
    match (byteAt args 0).toNat with
    | 0 => .ok (.frame cmd .cs0 (args.drop 3) (natAt args 1 2))
    | 1 => .ok (.frame cmd .cs1 (args.drop 3) (natAt args 1 2))
    | _ => .error (.undecodable .badChipSelect)
  else .error (.undecodable .badLength)

/-- What an encoded operation asks for, or the refusal (R47, R59, R61). -/
def fetchCode (cfg : Cfg) (c : Code) : Except Refusal Op :=
  match decode cfg c with
  | .ok i => .ok (.instr i)
  | .error .unknownCommand =>
    match c.bytes with
    | cmd :: args => unknownFrame cmd args
    | [] => .error (.undecodable .badLength)
  | .error e => .error (.undecodable e)

/-- What a bus transaction asks for, or the refusal (R28, R30, R33). -/
def fetchBus (cfg : Cfg) (t : BusAccess) : Except Refusal Op :=
  match decodeBus cfg t with
  | .ok i => .ok (.instr i)
  | .error e => .error (.undecodable e)

/-- The context that issues an item. -/
def issueCtx : Issue → Nat
  | .op ctx _ => ctx
  | .bus ctx _ => ctx
  | .takeMutex ctx => ctx
  | .releaseMutex ctx => ctx

/-- An item asks for the mutex. -/
def asksMutex : Issue → Bool
  | .takeMutex _ => true
  | .op _ _ => false
  | .bus _ _ => false
  | .releaseMutex _ => false

/-- An item waits: its context has an operation in progress, or it asks for a mutex that is held (R43). -/
def State.waits (s : State) (i : Issue) : Bool :=
  s.calls.any (fun c => c.ctx == issueCtx i) || (asksMutex i && s.spiMutex != .free)

/-- The first item that can run, and the program without it. A context whose item waits is passed over, and so are its
later items: each context's items run in order (row 16). -/
def State.pick (s : State) (passed : List Nat) : List Issue → Option (Issue × List Issue)
  | [] => none
  | i :: rest =>
    if passed.contains (issueCtx i) || s.waits i then
      (s.pick (issueCtx i :: passed) rest).map fun p => (p.1, i :: p.2)
    else some (i, rest)

/-- The state in which context `ctx` runs the operation it issued: the item is consumed. -/
def State.issued (s : State) (ctx : Nat) (rest : List Issue) : State := { s with ctx := ctx, program := rest }

/-- The collaborator takes the mutex, which is free, for a context (R43). -/
def moveTakeMutex (ctx : Nat) (rest : List Issue) (s : State) : Host.Outcome State Fault Refusal :=
  .next { s with spiMutex := .held ctx, program := rest }

/-- The collaborator releases the mutex, which the context must hold (R43). -/
def moveReleaseMutex (ctx : Nat) (rest : List Issue) (s : State) : Host.Outcome State Fault Refusal :=
  if s.spiMutex = .held ctx then .next { s with spiMutex := .free, program := rest } else .refused .mutexNotHeld

end Sys2Proof.Machine
end

