-- ==== Sys2Proof/Machine/Step.lean ====
section
/-! DEFINITION. One step of the machine: the other agents take the next batch of the schedule, then the first item of the
program that can run does; with none, an operation in progress goes on. -/

namespace Sys2Proof.Machine

/-- Runs what was fetched, or refuses it. -/
def runFetched (s : State) : Except Refusal Op → Host.Outcome State Fault Refusal
  | .ok (.instr i) => exec i s
  | .ok (.frame cmd c sent reads) => runUnknown cmd c sent reads s
  | .error r => .refused r

/-- Runs an item of the program. -/
def runItem (item : Issue) (rest : List Issue) (s : State) : Host.Outcome State Fault Refusal :=
  match item with
  | .op ctx code => runFetched (s.issued ctx rest) (fetchCode s.cfg code)
  | .bus ctx t => runFetched (s.issued ctx rest) (fetchBus s.cfg t)
  | .takeMutex ctx => moveTakeMutex ctx rest s
  | .releaseMutex ctx => moveReleaseMutex ctx rest s

/-- With no item to run, the operation that has been in progress longest goes on (R137, row 14). -/
def resumeFirst (s : State) : Host.Outcome State Fault Refusal :=
  match s.calls with
  | [] => .next s
  | c :: rest => resume c { s with calls := rest }

/-- What the host contexts do in a step. -/
def runNext (s : State) : Host.Outcome State Fault Refusal :=
  match s.pick [] s.program with
  | some (item, rest) => runItem item rest s
  | none => resumeFirst s

/-- One step: a configuration that fails its constraints is refused (R7). -/
def step (s : State) : Host.Outcome State Fault Refusal :=
  if s.cfg.ok then
    s.point.finish (fun c s => .next { s with result := raisedResult s.cfg c }) .next fun _ s => runNext s
  else .refused .badConfig

/-- Puts the operation of an opcode-table number, operands zero, where `step` fetches its next operation: at the head of
the program, issued by the context that runs (row 16). -/
def State.withFetchWord (s : State) (nbits w : Nat) : State :=
  { s with program := .op s.ctx (tableCode nbits w) :: s.program }

end Sys2Proof.Machine
end

