-- ==== Sys2Proof/Safety.lean ====
section
/-! DEFINITION. What the statements say of states: the machine's invariant, the end of a run (R9), the conditions under
which a primitive runs to its end, the legal lines of the dispatch path. -/

namespace Sys2Proof

/-- The selection of one device. -/
def ChipSel.sel : ChipSel → Machine.Sel
  | .cs0 => .cs0
  | .cs1 => .cs1

/-- The other chip-select. -/
def ChipSel.other : ChipSel → ChipSel
  | .cs0 => .cs1
  | .cs1 => .cs0

end Sys2Proof

namespace Sys2Proof.Machine

/-- The stored data of a device is in its canonical form (row 8, R131). -/
def Device.wf : Device → Bool
  | .refNor d => d.mem.wf
  | .simReg d => regsWf d.regs
  | .absent => true

/-- A reference device has a frame open exactly while its chip-select is asserted (R87, R88, R119). -/
def Device.frameAgrees (selected : Bool) : Device → Bool
  | .refNor d => d.frameOpen == selected
  | .simReg _ => true
  | .absent => true

/-- The invariant of the machine: the flash arrays and register maps are canonical; no routing register holds a reserved
nibble (R69); the two chip-selects are never both asserted (R94); a frame is open exactly on the selected device (R88);
a line that no level drives is idle (R73, R77). -/
structure State.Inv (s : State) : Prop where
  wf0 : s.dev0.wf = true
  wf1 : s.dev1.wf = true
  routing : ∀ n : Fin 4, legalNibbles s.irr[n] = true
  notBoth : s.sel ≠ .both
  frame0 : s.dev0.frameAgrees (s.sel == .cs0) = true
  frame1 : s.dev1.frameAgrees (s.sel == .cs1) = true
  lines : ∀ k : Fin 8, monitored s.cfg k = false → s.lineState[k] = .idle

/-- The mutual exclusion of the SPI primitives (R43): a host context has at most one operation in progress, and the context
recorded as inside an SPI primitive is the one whose operation in progress is one. So at most one of them is in progress,
and with none in progress none is refused. -/
structure State.Exclusive (s : State) : Prop where
  distinct : s.calls.Pairwise fun a b => a.ctx ≠ b.ctx
  inside : ∀ ctx, s.spiCaller = some ctx ↔ ∃ c, c ∈ s.calls ∧ c.ctx = ctx ∧ c.op.usesSpi = true

/-- No device has write-in-progress set. -/
def Device.quiet : Device → Bool
  | .refNor d => !d.wip
  | .simReg _ => true
  | .absent => true

/-- A step that a host context or the collaborator takes, not the environment (R8). -/
def AgentStep.isHost : AgentStep → Bool
  | .setSource _ _ => false
  | .spiComplete => false
  | .finish _ => false
  | .start _ _ => true
  | .go _ => true
  | .takeMutex _ => true
  | .releaseMutex _ => true

/-- No other host context takes a step at the interleaving points to come: the schedule holds only source lines and
completion steps. -/
def State.alone (s : State) : Bool := s.schedule.all fun batch => batch.all fun a => !a.isHost

/-- A run has ended (R9): no host context has anything left to issue, no operation is in progress, every line is idle,
both locks are free, the controller is ready, no device is busy. -/
def State.runEnded (s : State) : Bool :=
  s.program.isEmpty && s.alone && s.calls.isEmpty && s.lineState.toList.all (fun l => l == .idle) && s.irqLock == .free
    && s.spiMutex == .free && !s.busy && s.dev0.quiet && s.dev1.quiet

/-- The dispatch path of a line is free: the line is not routing, or no operation in progress is on its path (R77). -/
def State.pathFree (s : State) (k : Fin 8) : Bool := !(s.lineState[k] == .routing && s.calls.any (·.routes k))

/-- The agents' schedule is used up, so that completion steps are taken as soon as they are enabled (row 11), the
controller is not wedged, and the configuration is one that R7 allows. -/
structure State.Eager (s : State) : Prop where
  schedule : s.schedule = []
  wedged : s.wedged = false
  cfgOk : s.cfg.ok = true

/-- The preconditions of the primitives (R97), the byte order that `attach` sets (R96), and an eager schedule. -/
structure State.Ready (s : State) : Prop where
  eager : s.Eager
  attached : s.ctrl.attached = true
  mutex : s.spiMutex = .held s.ctx
  lanes : s.bigEndianLanes = true

/-- The reference device on a chip-select is idle and will finish what it starts: not busy, not stuck (R118, R130). -/
structure RefNor.Idle (d : RefNor) : Prop where
  wip : d.wip = false
  stuck : d.stuck = false

/-- The operations of tier T2 (R4). -/
def isCall : Instr → Bool
  | .routeInit | .enable _ | .disable _ | .dispatch _ | .irqEntry _ | .registerHandler _ _ | .handlerReturn _ => true
  | .attach _ _ _ | .spiPrep | .waitReady | .w32 _ _ | .r32 | .readStatus | .waitWip | .writeEnable => true
  | .readReg _ _ | .writeReg _ _ _ | .read _ _ | .write _ _ _ | .erase _ | .issueCmd _ _ _ => true
  | .gimrR | .gimrW _ | .gisrR | .gisrW _ | .irr0R | .irr0W _ | .irr1R | .irr1W _ => false
  | .irr2R | .irr2W _ | .irr3R | .irr3W _ => false
  | .sfcrR | .sfcrW _ | .sfcr2R | .sfcr2W _ | .sfcsrR | .sfcsrW _ | .sfdrR | .sfdrW _ => false
  | .wrsr _ _ _ | .pp _ _ _ | .rdsr _ _ _ | .wren _ _ _ | .fastRead _ _ _ | .fastRead4b _ _ _ => false
  | .pp4b _ _ _ | .se _ _ _ | .se4b _ _ _ => false

/-- The operations of the router (R2). -/
def isRouterOp : Instr → Bool
  | .gimrR | .gimrW _ | .gisrR | .gisrW _ | .irr0R | .irr0W _ | .irr1R | .irr1W _ => true
  | .irr2R | .irr2W _ | .irr3R | .irr3W _ => true
  | .routeInit | .enable _ | .disable _ | .dispatch _ | .irqEntry _ | .registerHandler _ _ | .handlerReturn _ => true
  | .sfcrR | .sfcrW _ | .sfcr2R | .sfcr2W _ | .sfcsrR | .sfcsrW _ | .sfdrR | .sfdrW _ => false
  | .attach _ _ _ | .spiPrep | .waitReady | .w32 _ _ | .r32 | .readStatus | .waitWip | .writeEnable => false
  | .readReg _ _ | .writeReg _ _ _ | .read _ _ | .write _ _ _ | .erase _ | .issueCmd _ _ _ => false
  | .wrsr _ _ _ | .pp _ _ _ | .rdsr _ _ _ | .wren _ _ _ | .fastRead _ _ _ | .fastRead4b _ _ _ => false
  | .pp4b _ _ _ | .se _ _ _ | .se4b _ _ _ => false

/-- The state of the router block and of its dispatch path (R11 to R19) is the same. -/
structure State.SameRouter (s t : State) : Prop where
  gimr : t.gimr = s.gimr
  irr : t.irr = s.irr
  src : t.src = s.src
  lineState : t.lineState = s.lineState
  handler : t.handler = s.handler
  irqLock : t.irqLock = s.irqLock
  spuriousCount : t.spuriousCount = s.spuriousCount
  frameworkCalls : t.frameworkCalls = s.frameworkCalls
  picks : t.picks = s.picks

/-- The state of the SPI controller and of its driver (R20 to R26) but for `busy` and the devices is the same. -/
structure State.SameSpi (s t : State) : Prop where
  sfcr : t.sfcr = s.sfcr
  sfcr2 : t.sfcr2 = s.sfcr2
  csb0 : t.csb0 = s.csb0
  csb1 : t.csb1 = s.csb1
  len : t.len = s.len
  wedged : t.wedged = s.wedged
  ctrl : t.ctrl = s.ctrl
  spiMutex : t.spiMutex = s.spiMutex
  draws : t.draws = s.draws

/-- The configuration, the context, the program, the operations in progress, who is inside an SPI primitive and what the
agents still do are the same. -/
structure State.SameRest (s t : State) : Prop where
  cfg : t.cfg = s.cfg
  ctx : t.ctx = s.ctx
  program : t.program = s.program
  schedule : t.schedule = s.schedule
  patience : t.patience = s.patience
  calls : t.calls = s.calls
  returned : t.returned = s.returned
  spiCaller : t.spiCaller = s.spiCaller

/-- What the SPI primitives after `attach` and the frames leave alone: the router, the configuration registers, the
record of the controller, the mutex, and everything that is no state of the two blocks. They may change the
chip-selects, LEN, `busy`, the devices, the log, the index of the next free byte, and `result`. -/
structure State.EngineFrame (s t : State) : Prop where
  router : s.SameRouter t
  rest : s.SameRest t
  sfcr : t.sfcr = s.sfcr
  sfcr2 : t.sfcr2 = s.sfcr2
  wedged : t.wedged = s.wedged
  ctrl : t.ctrl = s.ctrl
  spiMutex : t.spiMutex = s.spiMutex

/-- The state after the first poll of a gated access under an eager schedule: the completion steps that are enabled
have been taken, and one read of SFCSR is in the log (R98, R170). -/
def State.polled (s : State) : State := (eagerStep s).logged .read .sfcsr (eagerStep s).sfcsr

/-- The bytes a flash address is sent as, most significant first (R36). -/
def addressBytes : AddrMode → Nat → List Byte
  | .three, a => [BitVec.ofNat 8 (a / 2 ^ 16), BitVec.ofNat 8 (a / 2 ^ 8), BitVec.ofNat 8 a]
  | .four, a => [BitVec.ofNat 8 (a / 2 ^ 24), BitVec.ofNat 8 (a / 2 ^ 16), BitVec.ofNat 8 (a / 2 ^ 8), BitVec.ofNat 8 a]

/-- The page program frame of an addressing mode (R125, R126). -/
def programFrame : AddrMode → ChipSel → List Byte → Nat → Instr
  | .three => .pp
  | .four => .pp4b

/-- The sector erase frame of an addressing mode (R127, R128). -/
def eraseFrame : AddrMode → ChipSel → List Byte → Nat → Instr
  | .three => .se
  | .four => .se4b

/-- No bit of an SFCSR value but those of its five positions is set (R22, R52). -/
abbrev OnlyFields (cfg : Cfg) (v : Word) : Prop := ∀ n, n < 32 → n ∉ cfg.sfcsrBits → v.getLsbD n = false

/-- A cascade level drives a CPU line (R63, D11). -/
def Driven (cfg : Cfg) (k : Fin 8) : Prop := ∃ level, 1 ≤ level ∧ level ≤ 5 ∧ cfg.lineOfLevel level = some k.val

/-- A device receives bytes in order. -/
def Device.puts (d : Device) (bs : List Byte) : Device := bs.foldl (fun d b => d.put b) d

/-- A device after `n` bytes have been taken from it. -/
def Device.advances : Nat → Device → Device
  | 0, d => d
  | n + 1, d => Device.advances n d.advance

/-! What a sequence of accesses did, without its polls (R27). -/

/-- A register access without the value of a read: what the driver decides. -/
abbrev Touch := Reg × Option Word

/-- The access of a log entry; none for a read of SFCSR, which is a poll. -/
def LogEntry.touch (e : LogEntry) : Option Touch :=
  match e.dir, e.reg with
  | .write, r => some (r, some e.value)
  | .read, .sfcsr => none
  | .read, r => some (r, none)

/-- The accesses of a log, polls left out. -/
def touches (log : List LogEntry) : List Touch := log.filterMap LogEntry.touch

/-- Both chip-selects deasserted (R101). -/
def deselectTouch (cfg : Cfg) : Touch := (.sfcsr, some (deselectWord cfg))

/-- A width of `n` bytes, the chip-select of one device asserted (R54). -/
def widthTouch (cfg : Cfg) (c : ChipSel) (n : Nat) : Touch := (.sfcsr, some (baseWord cfg c ||| lenField cfg n))

/-- A value sent. -/
def sendTouch (v : Word) : Touch := (.sfdr, some v)

/-- A value taken. -/
def takeTouch : Touch := (.sfdr, none)

/-- The accesses of a frame that holds a command byte alone, before its data phase (R101, R102). -/
def commandTouches (cfg : Cfg) (c : ChipSel) (op : Byte) : List Touch :=
  [deselectTouch cfg, widthTouch cfg c 1, sendTouch (commandWord op)]

/-- The accesses of `read_status` (R103, R106). -/
def statusTouches (cfg : Cfg) (c : ChipSel) : List Touch := commandTouches cfg c cfg.opRdsr ++ [widthTouch cfg c 1, takeTouch]

/-- The accesses of `write_enable` when each of its polls ends at its first status read (R105). -/
def handshakeTouches (cfg : Cfg) (c : ChipSel) : List Touch :=
  statusTouches cfg c ++ commandTouches cfg c cfg.opWren ++ statusTouches cfg c

/-- The accesses of one chunk of `read`: one frame, `n` bytes from flash address `a` (R108). -/
def readChunkTouches (cfg : Cfg) (c : ChipSel) (m : AddrMode) (a n : Nat) : List Touch :=
  commandTouches cfg c (cfg.opRead m) ++ [widthTouch cfg c (addrBytesOf m), sendTouch (addrWord m (trunc32 a))] ++
    (List.replicate cfg.numDummy [widthTouch cfg c 1, sendTouch 0#32]).flatten ++
    (if 4 ≤ n then [widthTouch cfg c 4] else []) ++ List.replicate (n / 4) takeTouch ++
    (if n % 4 = 0 then [] else [widthTouch cfg c 1]) ++ List.replicate (n % 4) takeTouch

/-- The accesses of the chunks of a `read` of `len` bytes: one frame for each 256 bytes (R108, R114). -/
def chunkTouches (cfg : Cfg) (c : ChipSel) (m : AddrMode) (offset len : Nat) : List Touch :=
  (List.range (chunkCount len)).flatMap fun i =>
    readChunkTouches cfg c m (offset + Config.chunk * i) (min Config.chunk (len - Config.chunk * i))

/-- The accesses of a frame as an operation (R57, R81, row 19). -/
def frameTouches (cfg : Cfg) (c : ChipSel) (op : Byte) (sent : List Byte) (reads : Nat) : List Touch :=
  [deselectTouch cfg, widthTouch cfg c 1] ++ (op :: sent).map (fun b => sendTouch (commandWord b)) ++
    List.replicate reads takeTouch ++ [deselectTouch cfg]

end Sys2Proof.Machine
end

