-- ==== Sys2Proof/Certificates/Slice0/Obligations.lean ====
section
/-! DEFINITION. The statements for the provers. "Eager" statements are about states whose schedule of other agents is used
up (row 11); where a statement says that the open frame may be closed, `closeFrame s.sel (eagerStep s) = .ok () u`, the
state `u` is the one in which the device that was selected, if any, has had its `deselect` (R87, R119). `s.spiCaller = none`
says that no context is inside an SPI primitive (R43); that the model records it, and counts frames, is row 42. -/

section Statements

open Sys2Proof Sys2Proof.Machine

/-! Reset, the invariant, the step, decoding. -/

/-- The reset values the spec gives (R154, 10_state.md section 5). -/
def Obligations.ResetValues : Prop :=
  State.reset.gimr = 0#32 ∧ (∀ n : Fin 4, State.reset.irr[n] = 0#32) ∧ State.reset.cpuLines = 0#8 ∧
  (∀ k : Fin 8, State.reset.lineState[k] = .idle) ∧ (∀ src : Fin 32, State.reset.handler[src] = none) ∧
  State.reset.irqLock = .free ∧ State.reset.spuriousCount = 0 ∧ State.reset.sfcsr = 0xC8000000#32 ∧
  State.reset.sel = .none ∧ State.reset.busy = false ∧ State.reset.ctrl.attached = false ∧
  State.reset.spiMutex = .free ∧ State.reset.log = [] ∧
  (∀ c d, State.reset.dev c = .refNor d → d.wip = false ∧ d.wel = false ∧ d.rx = [] ∧ d.frameOpen = false)

/-- The reset state meets the invariant and the exclusion of the SPI primitives; no operation is in progress in it, and no
context is recorded as inside an SPI primitive. Its configuration meets R7, and its decided fields have the values of R6; a
configuration with a CS above 1, with two equal command bytes, with two sources at one nibble or with two levels on one line
does not meet R7, and a step of a state that has one is refused. -/
def Obligations.ResetMeetsInvariant : Prop :=
  State.reset.Inv ∧ State.reset.Exclusive ∧ State.reset.calls = [] ∧ State.reset.spiCaller = none ∧
  State.reset.cfg.ok = true ∧
  (∀ src : Fin 32, (State.reset.cfg.irrIndex src).val = 3 - src.val / 8 ∧
    State.reset.cfg.irrShift src = 4 * (src.val % 8)) ∧
  (∀ l, 1 ≤ l → l ≤ 5 → State.reset.cfg.lineOfLevel l = some (l + 1)) ∧
  ([Reg.gimr, .gisr, .irr 0, .irr 1, .irr 2, .irr 3].map fun r => r.offset State.reset.cfg) =
    [0x00#8, 0x04#8, 0x08#8, 0x0C#8, 0x10#8, 0x14#8] ∧
  ([Reg.sfcr, .sfcr2, .sfcsr, .sfdr].map fun r => r.offset State.reset.cfg) = [0x00#8, 0x04#8, 0x08#8, 0x0C#8] ∧
  State.reset.cfg.sfcsrBits = [31, 30, 29, 28, 27] ∧ State.reset.cfg.bitBo = 28 ∧
  State.reset.cfg.commandBytes = [0x01#8, 0x02#8, 0x05#8, 0x06#8, 0x0B#8, 0x0C#8, 0x12#8, 0xD8#8, 0xDC#8] ∧
  State.reset.cfg.srWip = 0 ∧ State.reset.cfg.srWel = 1 ∧ State.reset.cfg.numDummy = 1 ∧
  State.reset.cfg.eInval = -22 ∧ State.reset.cfg.eTimedOut = -110 ∧
  ∀ s : State,
    (1 < s.cfg.cs → step s = .refused .badConfig) ∧
    (¬ s.cfg.commandBytes.Nodup → step s = .refused .badConfig) ∧
    (∀ a b, a < b → b < 32 → s.cfg.irrIndex a = s.cfg.irrIndex b → s.cfg.irrShift a = s.cfg.irrShift b →
      step s = .refused .badConfig) ∧
    (∀ l m k, l < m → s.cfg.lineOfLevel l = some k → s.cfg.lineOfLevel m = some k → step s = .refused .badConfig)

/-- Every step keeps the invariant: the flash arrays and register maps stay canonical (the model's form, row 8), no
routing register ever holds a reserved nibble (R69), the chip-selects are never both asserted (R94), a frame is open
exactly on the selected device (R88), the lines no level drives stay idle (R77). And every step keeps the exclusion of the
SPI primitives: whatever the other contexts do, at most one of them is in progress, the one of the context recorded as
inside (R43; that frames count as such is the model's choice, row 42). -/
def Obligations.StepKeepsInvariant : Prop :=
  ∀ s t : State, step s = .next t → (s.Inv → t.Inv) ∧ (s.Exclusive → t.Exclusive)

/-- The addressing mode and chip-select of an attached controller never change again (R25, R97, R111). The model's choices:
no step changes the configuration record (row 1), nor the fault-injection input `wedged` (row 31: a constant of a run). -/
def Obligations.AttachedControllerIsFixed : Prop :=
  ∀ s t : State, step s = .next t →
    (s.ctrl.attached = true → t.ctrl = s.ctrl) ∧ t.cfg = s.cfg ∧ t.wedged = s.wedged

/-- A step runs the operation that the head of the program spells, in the state in which the other agents have taken their
batch and the item is consumed, when its context has no operation in progress. An encoding of a well-formed operation is
such an item, and so is a bus transaction at a register. The model's choices: the program queue (row 16), the batch that
runs before the item (row 11), the operations in progress of other contexts and of contexts that wait (rows 13, 14). -/
def Obligations.StepRunsDecoded : Prop :=
  ∀ (s p : State) (ctx : Nat) (rest : List Issue), s.cfg.ok = true → s.point = .ok () p →
    (∀ c, c ∈ p.calls → c.ctx ≠ ctx) →
    (∀ (code : Code) (i : Instr), p.program = .op ctx code :: rest → decode p.cfg code = .ok i →
      step s = exec i { p with ctx := ctx, program := rest }) ∧
    (∀ i : Instr, WellFormed i = true → p.program = .op ctx (encode p.cfg i) :: rest →
      step s = exec i { p with ctx := ctx, program := rest }) ∧
    (∀ (a : BusAccess) (i : Instr), p.program = .bus ctx a :: rest →
      decodeBus p.cfg a = .ok i → step s = exec i { p with ctx := ctx, program := rest })

/-- Numbers of the opcode table, and the operations they are with the values of R6. -/
def Obligations.LiteralCodes : Prop :=
  decode Cfg.reference ⟨.mmio32, [0x10#8, 0x01#8, 0x21#8, 0x43#8, 0x65#8, 0x87#8]⟩ = .ok (.irr2W 0x87654321#32) ∧
  decode Cfg.reference ⟨.mmio32, [0x0C#8, 0x10#8, 0x00#8, 0x00#8, 0x00#8, 0x00#8]⟩ = .ok .sfdrR ∧
  decode Cfg.reference ⟨.call, [0x03#8, 0x05#8]⟩ = .ok (.dispatch 5) ∧
  decode Cfg.reference ⟨.call, [0x1C#8, 0x00#8, 0x00#8, 0x01#8, 0x00#8, 0x00#8, 0x00#8, 0x00#8, 0x00#8]⟩ =
    .ok (.erase 0x10000) ∧
  decode Cfg.reference ⟨.norframe, [0xD8#8, 0x01#8, 0x00#8, 0x00#8, 0x01#8, 0x23#8, 0x45#8]⟩ =
    .ok (.se .cs1 [0x01#8, 0x23#8, 0x45#8] 0) ∧
  decode Cfg.reference ⟨.norframe, [0x9F#8, 0x00#8, 0x00#8, 0x00#8]⟩ = .error .unknownCommand

/-- Decoding an encoding of a well-formed operation gives the operation back, for all fifty operations and every value of
their operands, whatever the register offsets and the command bytes of a legal configuration are (R7). -/
def Obligations.DecodeEncode : Prop :=
  ∀ (cfg : Cfg) (i : Instr), cfg.ok = true → WellFormed i = true → decode cfg (encode cfg i) = .ok i

/-- A bus transaction of 32 bits at the address of a register selects that register's operation (R28, R30, R47); any
other width, an address that is not a multiple of 4, and an address outside both blocks are refused (R30, R33). The model's
choices: addresses and bases of 32 bits, and bases that need not be multiples of 4 (row 43). -/
def Obligations.BusSelectsRegister : Prop :=
  (∀ (cfg : Cfg) (b0 b1 : Word) (d : Dir) (r : Reg) (v : Word), cfg.ok = true → cfg.intcBase = some b0 →
    cfg.spiBase = some b1 → b0.toNat % 4 = 0 → b1.toNat % 4 = 0 →
    b0.toNat + 0x18 ≤ 2 ^ 32 → b1.toNat + 0x10 ≤ 2 ^ 32 →
    (b0.toNat + 0x18 ≤ b1.toNat ∨ b1.toNat + 0x10 ≤ b0.toNat) →
    decodeBus cfg ⟨d, (match r.block with | .router => b0 | .spi => b1) + (r.offset cfg).setWidth 32, 32, v⟩ =
      .ok (match d with | .read => readInstr r | .write => writeInstr v r)) ∧
  (∀ (cfg : Cfg) (t : BusAccess),
    t.width ≠ 32 ∨ t.addr.toNat % 4 ≠ 0 ∨
      ((∀ b, cfg.intcBase = some b → t.addr.toNat < b.toNat ∨ b.toNat + 0x18 ≤ t.addr.toNat) ∧
        (∀ b, cfg.spiBase = some b → t.addr.toNat < b.toNat ∨ b.toNat + 0x10 ≤ t.addr.toNat)) →
    ∃ e, decodeBus cfg t = .error e)

/-! Register accesses (tier T1). -/

/-- The reads of the router's registers: their codes, the value, and that nothing but the log changes (R64, R66, R68). -/
def Obligations.RouterReads : Prop :=
  (decodeTableWord 16 0x0000 = some .gimrR ∧ decodeTableWord 16 0x0004 = some .gisrR ∧
    decodeTableWord 16 0x0008 = some .irr0R ∧ decodeTableWord 16 0x000C = some .irr1R ∧
    decodeTableWord 16 0x0010 = some .irr2R ∧ decodeTableWord 16 0x0014 = some .irr3R) ∧
  ∀ s : State,
    exec .gimrR s = .next { s with log := s.log ++ [⟨.read, .gimr, s.gimr⟩], result := .value s.gimr } ∧
    exec .gisrR s = .next { s with log := s.log ++ [⟨.read, .gisr, s.src⟩], result := .value s.src } ∧
    exec .irr0R s = .next { s with log := s.log ++ [⟨.read, .irr 0, s.irr[0]⟩], result := .value s.irr[0] } ∧
    exec .irr1R s = .next { s with log := s.log ++ [⟨.read, .irr 1, s.irr[1]⟩], result := .value s.irr[1] } ∧
    exec .irr2R s = .next { s with log := s.log ++ [⟨.read, .irr 2, s.irr[2]⟩], result := .value s.irr[2] } ∧
    exec .irr3R s = .next { s with log := s.log ++ [⟨.read, .irr 3, s.irr[3]⟩], result := .value s.irr[3] }

/-- A write of the mask register stores all 32 bits and changes nothing else, GISR's inputs included; a write of the
status register changes nothing (R65, R67). -/
def Obligations.MaskAndStatusWrites : Prop :=
  (decodeTableWord 16 0x0100 = some (.gimrW 0#32) ∧ decodeTableWord 16 0x0104 = some (.gisrW 0#32)) ∧
  ∀ (s : State) (v : Word),
    exec (.gimrW v) s = .next { s with gimr := v, log := s.log ++ [⟨.write, .gimr, v⟩], result := .ok } ∧
    exec (.gisrW v) s = .next { s with log := s.log ++ [⟨.write, .gisr, v⟩], result := .ok }

/-- A routing register takes a value whose nibbles are all 0..5 and refuses any other (R69). -/
def Obligations.RoutingWrites : Prop :=
  (decodeTableWord 16 0x0108 = some (.irr0W 0#32) ∧ decodeTableWord 16 0x010C = some (.irr1W 0#32) ∧
    decodeTableWord 16 0x0110 = some (.irr2W 0#32) ∧ decodeTableWord 16 0x0114 = some (.irr3W 0#32)) ∧
  ∀ (s : State) (v : Word),
    ((∀ k, k < 8 → (v.extractLsb' (4 * k) 4).toNat ≤ 5) →
      exec (.irr0W v) s = .next { s with irr := s.irr.set 0 v, log := s.log ++ [⟨.write, .irr 0, v⟩], result := .ok } ∧
      exec (.irr1W v) s = .next { s with irr := s.irr.set 1 v, log := s.log ++ [⟨.write, .irr 1, v⟩], result := .ok } ∧
      exec (.irr2W v) s = .next { s with irr := s.irr.set 2 v, log := s.log ++ [⟨.write, .irr 2, v⟩], result := .ok } ∧
      exec (.irr3W v) s = .next { s with irr := s.irr.set 3 v, log := s.log ++ [⟨.write, .irr 3, v⟩], result := .ok }) ∧
    ((∃ k, k < 8 ∧ 5 < (v.extractLsb' (4 * k) 4).toNat) →
      exec (.irr0W v) s = .refused .reservedNibble ∧ exec (.irr1W v) s = .refused .reservedNibble ∧
      exec (.irr2W v) s = .refused .reservedNibble ∧ exec (.irr3W v) s = .refused .reservedNibble)

/-- The configuration registers are storage, busy or not (R82 to R85). The model's choice: all 32 bits are storage and a
write of SFCR2 is not refused (row 27). -/
def Obligations.ConfigAccesses : Prop :=
  (decodeTableWord 16 0x1000 = some .sfcrR ∧ decodeTableWord 16 0x1100 = some (.sfcrW 0#32) ∧
    decodeTableWord 16 0x1004 = some .sfcr2R ∧ decodeTableWord 16 0x1104 = some (.sfcr2W 0#32)) ∧
  ∀ (s : State) (v : Word),
    exec .sfcrR s = .next { s with log := s.log ++ [⟨.read, .sfcr, s.sfcr⟩], result := .value s.sfcr } ∧
    exec (.sfcrW v) s = .next { s with sfcr := v, log := s.log ++ [⟨.write, .sfcr, v⟩], result := .ok } ∧
    exec .sfcr2R s = .next { s with log := s.log ++ [⟨.read, .sfcr2, s.sfcr2⟩], result := .value s.sfcr2 } ∧
    exec (.sfcr2W v) s = .next { s with sfcr2 := v, log := s.log ++ [⟨.write, .sfcr2, v⟩], result := .ok }

/-- SFCSR reads as its fields and RDY at their positions, and zeros; the read changes nothing but the log, busy or not
(R86). With the positions decided in D14: CSB0 is bit 31, CSB1 bit 30, LEN bits 29:28, RDY bit 27. -/
def Obligations.StatusRead : Prop :=
  decodeTableWord 16 0x1008 = some .sfcsrR ∧
  ∀ s : State, ∃ v : Word,
    exec .sfcsrR s = .next { s with log := s.log ++ [⟨.read, .sfcsr, v⟩], result := .value v } ∧
    (s.cfg.ok = true → v.getLsbD s.cfg.bitCsb0 = s.csb0 ∧ v.getLsbD s.cfg.bitCsb1 = s.csb1 ∧
      v.extractLsb' s.cfg.lenLo 2 = s.len ∧ v.getLsbD s.cfg.bitRdy = !s.busy ∧ OnlyFields s.cfg v) ∧
    (s.cfg.sfcsrBits = [31, 30, 29, 28, 27] → v.getLsbD 31 = s.csb0 ∧ v.getLsbD 30 = s.csb1 ∧
      v.extractLsb' 28 2 = s.len ∧ v.getLsbD 27 = !s.busy ∧ v.extractLsb' 0 27 = 0#27)

/-- A write of SFCSR that leaves the selection changes only LEN and `busy`: its RDY bit is ignored and no device is told
(R87). -/
def Obligations.StatusWriteKeepsFrame : Prop :=
  ∀ (s : State) (v : Word), s.busy = false → OnlyFields s.cfg v → s.sel ≠ .both →
    s.sel = selOf (v.getLsbD s.cfg.bitCsb0) (v.getLsbD s.cfg.bitCsb1) →
    exec (.sfcsrW v) s =
      .next { s with
        len := v.extractLsb' s.cfg.lenLo 2, busy := true, log := s.log ++ [⟨.write, .sfcsr, v⟩], result := .ok }

/-- A write of SFCSR that changes the selection closes the open frame, if there is one, then opens a frame on the device
that becomes selected, if there is one (R87). Closing the frame is the `deselect` of the device that is selected; with
none selected it is nothing. -/
def Obligations.StatusWriteMovesFrame : Prop :=
  (∀ (s u : State) (v : Word), s.busy = false → OnlyFields s.cfg v →
    s.sel ≠ selOf (v.getLsbD s.cfg.bitCsb0) (v.getLsbD s.cfg.bitCsb1) →
    selOf (v.getLsbD s.cfg.bitCsb0) (v.getLsbD s.cfg.bitCsb1) ≠ .both →
    closeFrame s.sel s = .ok () u →
    ∃ t, exec (.sfcsrW v) s = .next t ∧ t.result = .ok ∧
      t.csb0 = v.getLsbD s.cfg.bitCsb0 ∧ t.csb1 = v.getLsbD s.cfg.bitCsb1 ∧
      t.len = v.extractLsb' s.cfg.lenLo 2 ∧ t.busy = true ∧ t.log = s.log ++ [⟨.write, .sfcsr, v⟩] ∧
      (∀ c, t.dev c = if t.sel = c.sel then (u.dev c).select else u.dev c) ∧ t.draws = u.draws ∧ s.EngineFrame t) ∧
  (∀ s : State, s.sel = .none → closeFrame s.sel s = .ok () s) ∧
  (∀ (s : State) (c : ChipSel) (d : Device) (n : Nat), s.sel = c.sel →
    (s.dev c).deselect s.cfg (s.cfg.flashSize c) s.cfg.eraseSize s.draws = .ok (d, n) →
    closeFrame s.sel s = .ok () { s.setDev c d with draws := n })

/-- Where a write of SFCSR stops: while the controller is busy it faults (R93); for a reserved bit and for both
chip-selects it is refused (R87, R94); and so it is when the device refuses to commit the frame that the write would close
(R125). The model's choice (row 23), in states that no run reaches (R94): with both devices selected an access to SFDR that
would be made is refused. -/
def Obligations.SpiAccessStops : Prop :=
  ∀ (s : State) (v : Word),
    (s.busy = true → exec (.sfcsrW v) s = .fault (.accessWhileBusy .write .sfcsr)) ∧
    (s.busy = false → ¬ OnlyFields s.cfg v → exec (.sfcsrW v) s = .refused .reservedBits) ∧
    (s.busy = false → OnlyFields s.cfg v → v.getLsbD s.cfg.bitCsb0 = false → v.getLsbD s.cfg.bitCsb1 = false →
      exec (.sfcsrW v) s = .refused .bothSelected) ∧
    (∀ c : ChipSel, s.sel = c.sel → s.busy = false → OnlyFields s.cfg v →
      s.sel ≠ selOf (v.getLsbD s.cfg.bitCsb0) (v.getLsbD s.cfg.bitCsb1) →
      selOf (v.getLsbD s.cfg.bitCsb0) (v.getLsbD s.cfg.bitCsb1) ≠ .both →
      (s.dev c).deselect s.cfg (s.cfg.flashSize c) s.cfg.eraseSize s.draws = .error .programOutsidePage →
      exec (.sfcsrW v) s = .refused .programOutsidePage) ∧
    (s.busy = false → s.sfcr.getLsbD s.cfg.bitBo = true → s.sel = .both →
      exec (.sfdrW v) s = .refused .bothSelected ∧ exec .sfdrR s = .refused .bothSelected)

/-- A write of SFDR gives the selected device the first LEN + 1 bytes of the value, the most significant first; with
no device selected the bytes go nowhere. While the controller is busy it faults; while the byte-ordering bit is clear it
is refused (R32, R89). -/
def Obligations.DataWrite : Prop :=
  decodeTableWord 16 0x110C = some (.sfdrW 0#32) ∧
  ∀ (s : State) (v : Word),
    (s.busy = true → exec (.sfdrW v) s = .fault (.accessWhileBusy .write .sfdr)) ∧
    (s.busy = false → s.sfcr.getLsbD s.cfg.bitBo = false → exec (.sfdrW v) s = .refused .byteOrderOff) ∧
    (s.busy = false → s.sfcr.getLsbD s.cfg.bitBo = true →
      (∀ c : ChipSel, s.sel = c.sel →
        exec (.sfdrW v) s =
          .next { s.setDev c ((s.dev c).puts ((List.range (s.len.toNat + 1)).map fun k => v.extractLsb' (24 - 8 * k) 8)) with
            busy := true, log := s.log ++ [⟨.write, .sfdr, v⟩], result := .ok }) ∧
      (s.sel = .none →
        exec (.sfdrW v) s = .next { s with busy := true, log := s.log ++ [⟨.write, .sfdr, v⟩], result := .ok }))

/-- A read of SFDR takes LEN + 1 bytes from the selected device and returns them from the top byte down: each byte that
a rule of the device gives is in its lane; with no device selected nothing changes but `busy` and the log. While the
controller is busy it faults; while the byte-ordering bit is clear it is refused (R32, R90). -/
def Obligations.DataRead : Prop :=
  decodeTableWord 16 0x100C = some .sfdrR ∧
  (∀ s : State, s.busy = true → exec .sfdrR s = .fault (.accessWhileBusy .read .sfdr)) ∧
  (∀ s : State, s.busy = false → s.sfcr.getLsbD s.cfg.bitBo = false → exec .sfdrR s = .refused .byteOrderOff) ∧
  ∀ s : State, s.busy = false → s.sfcr.getLsbD s.cfg.bitBo = true → s.sel ≠ .both →
    ∃ (t : State) (v : Word), exec .sfdrR s = .next t ∧ t.result = .value v ∧ t.busy = true ∧
      t.log = s.log ++ [⟨.read, .sfdr, v⟩] ∧ t.csb0 = s.csb0 ∧ t.csb1 = s.csb1 ∧ t.len = s.len ∧ s.EngineFrame t ∧
      (∀ c : ChipSel, s.sel = c.sel →
        t.dev c = Device.advances (s.len.toNat + 1) (s.dev c) ∧ t.dev c.other = s.dev c.other ∧
        ∀ k, k ≤ s.len.toNat → ∀ b, (Device.advances k (s.dev c)).answer s.cfg (s.cfg.flashSize c) = some b →
          v.extractLsb' (24 - 8 * k) 8 = b) ∧
      (s.sel = .none → t.dev0 = s.dev0 ∧ t.dev1 = s.dev1)

/-- With no other host context acting, an operation faults exactly when it is a write of SFCSR, or a read or write of SFDR,
while the controller is busy, and the fault names the access: no other operation, and no gated access, ever faults (R93).
The model's choices: a raw access of another context may come between the poll and the access of a gated one, which is why
none acts here (row 13); a frame as an operation is made of gated accesses (row 19). -/
def Obligations.FaultsExactlyWhileBusy : Prop :=
  ∀ (i : Instr) (s : State) (f : Fault), s.cfg.ok = true → s.alone = true →
    (exec i s = .fault f ↔
    s.busy = true ∧ ((∃ v, i = .sfcsrW v ∧ f = .accessWhileBusy .write .sfcsr) ∨
      (∃ v, i = .sfdrW v ∧ f = .accessWhileBusy .write .sfdr) ∨ (i = .sfdrR ∧ f = .accessWhileBusy .read .sfdr)))

/-! The router. -/

/-- The output function: a line is high exactly when a source routed to a level that drives it is requesting and enabled
(R63). With the lines decided in D6, line `k` is high exactly when a source routed to level `k - 1` is; lines 0, 1 and 7 are
never driven. -/
def Obligations.CpuLines : Prop :=
  ∀ (s : State) (k : Nat), k < 8 →
    (s.cfg.ok = true → (s.cpuLines.getLsbD k = true ↔
      ∃ src, src < 32 ∧ s.cfg.lineOfLevel (s.route src).toNat = some k ∧ s.src.getLsbD src = true ∧
        s.gimr.getLsbD src = true)) ∧
    (s.cfg.levelLines = Cfg.decidedLines → (s.cpuLines.getLsbD k = true ↔
      2 ≤ k ∧ k ≤ 6 ∧ ∃ src, src < 32 ∧ (s.route src).toNat + 1 = k ∧ s.src.getLsbD src = true ∧
        s.gimr.getLsbD src = true))

/-- `route_init` writes the four routing words in register order and then the mask that enables the two bootstrap sources
and no other (R70); without the family record or its register base it is refused, and the refusal names what is missing,
the family record first (R133, R139; that it is a refusal, and the order, are the model's, row 37). -/
def Obligations.RouteInit : Prop :=
  (∀ (s : State) (f : Family) (b : Word), s.schedule = [] → s.cfg.ok = true → s.cfg.family = some f →
    s.cfg.intcBase = some b →
    exec .routeInit s = .next { eagerStep s with
      irr := #v[packRouting s.cfg f 0, packRouting s.cfg f 1, packRouting s.cfg f 2, packRouting s.cfg f 3]
      gimr := 1#32 <<< s.cfg.srcTimer ||| 1#32 <<< s.cfg.srcUart0
      log := s.log ++
        [⟨.write, .irr 0, packRouting s.cfg f 0⟩, ⟨.write, .irr 1, packRouting s.cfg f 1⟩,
          ⟨.write, .irr 2, packRouting s.cfg f 2⟩, ⟨.write, .irr 3, packRouting s.cfg f 3⟩,
          ⟨.write, .gimr, 1#32 <<< s.cfg.srcTimer ||| 1#32 <<< s.cfg.srcUart0⟩]
      result := .ok }) ∧
  ∀ s : State,
    (s.cfg.family = none → exec .routeInit s = .refused (.fatalBoot .familyRecord)) ∧
    (s.cfg.family ≠ none → s.cfg.intcBase = none → exec .routeInit s = .refused (.fatalBoot .intcBase))

/-- After `route_init` every source is routed to the level its family's table gives it (R49, R70). -/
def Obligations.EverySourceIsRouted : Prop :=
  ∀ (s : State) (f : Family) (b : Word), s.schedule = [] → s.cfg.ok = true → s.cfg.family = some f →
    s.cfg.intcBase = some b →
    ∃ t, exec .routeInit s = .next t ∧ ∀ src, src < 32 → (t.route src).toNat = s.cfg.routeLevel f src

/-- `enable` and `disable` take the free lock, read the mask, write it back with the source's bit set or clear, and
release the lock; between the accesses the other agents take their steps (R71, R72). While the lock is held they wait: the
other agents take their steps, and with none left to take the operation stays in progress, its context's, with the mask and
the lock as they were (R42; the model's form of the wait is row 15). -/
def Obligations.MaskChangesUnderLock : Prop :=
  (∀ (s a b : State) (src : Nat), src < 32 → s.irqLock = .free →
    State.point { s with irqLock := .held s.ctx } = .ok () a →
    State.point { a with log := a.log ++ [⟨.read, .gimr, a.gimr⟩] } = .ok () b →
    exec (.enable src) s = .next { b with
      gimr := a.gimr ||| 1#32 <<< src
      log := b.log ++ [⟨.write, .gimr, a.gimr ||| 1#32 <<< src⟩]
      irqLock := .free
      result := .ok } ∧
    exec (.disable src) s = .next { b with
      gimr := a.gimr &&& ~~~(1#32 <<< src)
      log := b.log ++ [⟨.write, .gimr, a.gimr &&& ~~~(1#32 <<< src)⟩]
      irqLock := .free
      result := .ok }) ∧
  (∀ (s : State) (src : Nat), src < 32 → s.irqLock ≠ .free →
    (s.schedule = [] →
      exec (.enable src) s =
        .next { s with result := .nothing, calls := s.calls ++ [⟨s.ctx, .instr (.enable src), []⟩] } ∧
      exec (.disable src) s =
        .next { s with result := .nothing, calls := s.calls ++ [⟨s.ctx, .instr (.disable src), []⟩] }) ∧
    (s.schedule ≠ [] → ∀ p, s.point = .ok () p →
      exec (.enable src) s = exec (.enable src) p ∧ exec (.disable src) s = exec (.disable src) p))

/-- While a context holds the lock, an `enable` or `disable` of another context does not take its next step: it is called,
and it stays where it is. So while nothing else but the environment acts, the mask and the lock are unchanged over an
interleaving point: no update is lost (R35, R42, R159). That other contexts' operations advance step by step is row 13. -/
def Obligations.LockExcludes : Prop :=
  ∀ s : State, s.irqLock ≠ .free →
    (∀ (ctx src : Nat) (i : Instr), src < 32 → (i = .enable src ∨ i = .disable src) →
      (ctx ≠ s.ctx → s.callOf ctx = none →
        agentStep (.start ctx (.instr i)) s = .ok () { s with calls := s.calls ++ [⟨ctx, .instr i, []⟩] }) ∧
      (s.callOf ctx = some ⟨ctx, .instr i, []⟩ →
        agentStep (.go ctx) s = .ok () { s with
          calls := (s.calls.filter fun c => c.ctx != ctx) ++ [⟨ctx, .instr i, []⟩] })) ∧
    ((∀ c, c ∈ s.calls → c.got = [] ∧ ∃ src, src < 32 ∧ (c.op = .instr (.enable src) ∨ c.op = .instr (.disable src))) →
      (∀ batch, batch ∈ s.schedule → ∀ a, a ∈ batch → a.isHost = false ∨ (∃ ctx, a = .go ctx) ∨
        ∃ ctx src, src < 32 ∧ (a = .start ctx (.instr (.enable src)) ∨ a = .start ctx (.instr (.disable src)))) →
      ∃ t, s.point = .ok () t ∧ t.gimr = s.gimr ∧ t.irqLock = s.irqLock)

/-- A source number above 31 raises `InvalidArgument`, returned as E_INVAL, before any access: nothing else changes (R133,
R135). -/
def Obligations.BadSourceRaises : Prop :=
  ∀ (s : State) (src : Nat) (h : Word), 31 < src →
    exec (.enable src) s = .next { s with result := .raised s.cfg.eInval (.invalidArgument [src]) } ∧
    exec (.disable src) s = .next { s with result := .raised s.cfg.eInval (.invalidArgument [src]) } ∧
    exec (.registerHandler src h) s = .next { s with result := .raised s.cfg.eInval (.invalidArgument [src]) }

/-- `dispatch` on a monitored line that is not dispatched reads the mask, then the status; with both zero in every bit it
is spurious, otherwise it selects the lowest-numbered source that is set in both, moves the line to dispatched and hands
the source to the framework; the other agents take their steps before each read. Any other line is refused (R73). A line on
the dispatch path of another operation in progress is not entered (R77; the model's wait is row 21). -/
def Obligations.Dispatch : Prop :=
  decodeTableWord 8 0x03 = some (.dispatch 0) ∧
  ∀ (s : State) (k : Fin 8),
    (Driven s.cfg k → s.lineState[k] ≠ .dispatched → s.pathFree k = true → ∀ a b : State,
      State.point { s with lineState := s.lineState.set k .routing } = .ok () a →
      State.point { a with log := a.log ++ [⟨.read, .gimr, a.gimr⟩] } = .ok () b →
      ∃ c : State, c = { b with log := b.log ++ [⟨.read, .gisr, b.src⟩] } ∧
        (a.gimr &&& b.src = 0#32 →
          exec (.dispatch k) s = .next { c with
            lineState := c.lineState.set k .idle, spuriousCount := c.spuriousCount + 1, result := .spurious }) ∧
        (a.gimr &&& b.src ≠ 0#32 →
          ∃ (src : Nat) (h : src < 32), a.gimr.getLsbD src = true ∧ b.src.getLsbD src = true ∧
            (∀ m, m < src → a.gimr.getLsbD m = false ∨ b.src.getLsbD m = false) ∧
            exec (.dispatch k) s = .next { c with
              lineState := c.lineState.set k .dispatched
              frameworkCalls := c.frameworkCalls ++ [(src, c.handler[src])]
              result := .selected src })) ∧
    (¬ Driven s.cfg k → s.pathFree k = true → exec (.dispatch k) s = .refused .unmonitoredLine) ∧
    (Driven s.cfg k → s.lineState[k] = .dispatched → exec (.dispatch k) s = .refused .lineDispatched)

/-- `irq_entry` with no pending, monitored, idle line is spurious and makes no access; otherwise it is the `dispatch` of
one such line (R74). Which one is a free choice (row 10). With no agent left to act it returns what that `dispatch`
returns. -/
def Obligations.IrqEntry : Prop :=
  decodeTableWord 8 0x04 = some (.irqEntry 0#8) ∧
  ∀ (s : State) (pending : Byte),
    ((∀ k : Fin 8, Driven s.cfg k → pending.getLsbD k = true → s.lineState[k] ≠ .idle) →
      exec (.irqEntry pending) s = .next { s with spuriousCount := s.spuriousCount + 1, result := .spurious }) ∧
    ((∃ k : Fin 8, Driven s.cfg k ∧ pending.getLsbD k = true ∧ s.lineState[k] = .idle) →
      ∃ (k : Fin 8) (n : Nat), Driven s.cfg k ∧ pending.getLsbD k = true ∧ s.lineState[k] = .idle ∧
        exec (.irqEntry pending) s = exec (.dispatch k) { s with picks := n } ∧
        (s.schedule = [] → ∃ t, exec (.irqEntry pending) s = .next t ∧
          (s.gimr &&& s.src = 0#32 → t.result = .spurious ∧ t.lineState[k] = .idle) ∧
          (s.gimr &&& s.src ≠ 0#32 → ∃ src, t.result = .selected src ∧ t.lineState[k] = .dispatched)))

/-- `register_handler` stores the handler and nothing else; `handler_return` returns a dispatched line to idle and changes
nothing else (R75, R76). The model's choices (row 21): a `handler_return` on another line changes nothing; a `dispatch` of a
line on the dispatch path of an operation in progress waits, and with no agent left to act it stays in progress. -/
def Obligations.HandlerTableAndReturn : Prop :=
  (∀ (s : State) (src : Fin 32) (h : Word),
    exec (.registerHandler src h) s = .next { s with handler := s.handler.set src (some h), result := .ok }) ∧
  (∀ (s : State) (k : Fin 8), s.lineState[k] = .dispatched →
    exec (.handlerReturn k) s = .next { s with lineState := s.lineState.set k .idle, result := .ok }) ∧
  (∀ (s : State) (k : Fin 8), s.lineState[k] ≠ .dispatched →
    exec (.handlerReturn k) s = .next { s with result := .ok }) ∧
  (∀ (s : State) (k : Fin 8) (c : Call), s.schedule = [] → s.lineState[k] = .routing → c ∈ s.calls →
    (c.op = .instr (.dispatch k) ∨ ∃ p, c.op = .instr (.irqEntry p)) →
    exec (.dispatch k) s = .next { s with result := .nothing, calls := s.calls ++ [⟨s.ctx, .instr (.dispatch k), []⟩] })

/-- Mask wins over pending (R80 (a)). `disable` leaves the source's mask bit clear, also when source lines and completions
move meanwhile. From every state with the bit clear, while no other host context acts, every operation but an `enable` of
that source, `route_init` and a raw write that sets the bit leaves it clear, selects it never, and hands it to the framework
never: so it is after `disable` until the bit is set again, whatever the source's level is. And whatever other contexts do, a
`dispatch` or an `irq_entry` that finds the bit clear at the interleaving point at which it reads the mask does not select
the source; the framework calls that other contexts make meanwhile are in `b`. What other contexts do between the steps of
an operation is row 13; which line `irq_entry` takes is row 10. -/
def Obligations.MaskWinsOverPending : Prop :=
  ∀ src : Nat, src < 32 →
    (∀ s : State, s.alone = true → s.irqLock = .free →
      ∃ t, exec (.disable src) s = .next t ∧ t.gimr.getLsbD src = false ∧ t.alone = true ∧
        t.frameworkCalls = s.frameworkCalls) ∧
    (∀ (i : Instr) (s t : State), s.alone = true → s.gimr.getLsbD src = false → i ≠ .enable src → i ≠ .routeInit →
      (∀ v, i = .gimrW v → v.getLsbD src = false) → exec i s = .next t →
      t.gimr.getLsbD src = false ∧ t.alone = true ∧ t.result ≠ .selected src ∧
        ∀ h, (src, h) ∈ t.frameworkCalls → (src, h) ∈ s.frameworkCalls) ∧
    (∀ (s a b t : State) (k : Fin 8), s.pathFree k = true →
      State.point { s with lineState := s.lineState.set k .routing } = .ok () a → a.gimr.getLsbD src = false →
      State.point { a with log := a.log ++ [⟨.read, .gimr, a.gimr⟩] } = .ok () b → exec (.dispatch k) s = .next t →
      t.result ≠ .selected src ∧ ∀ h, (src, h) ∈ t.frameworkCalls → (src, h) ∈ b.frameworkCalls) ∧
    (∀ (s t : State) (pending : Byte),
      (∀ (k : Fin 8) (n : Nat) (a : State),
        State.point { s with picks := n, lineState := s.lineState.set k .routing } = .ok () a →
          a.gimr.getLsbD src = false) →
      exec (.irqEntry pending) s = .next t → t.result ≠ .selected src)

/-- An enabled source that alone is set in mask and status is the one `dispatch` selects (R80 (b)). -/
def Obligations.EnabledSourceIsSelected : Prop :=
  ∀ (s : State) (src : Nat) (k : Fin 8), src < 32 → s.schedule = [] → s.irqLock = .free → s.gimr = 0#32 →
    s.src = 1#32 <<< src → Driven s.cfg k → s.lineState[k] ≠ .dispatched → s.pathFree k = true →
    ∃ t u, exec (.enable src) s = .next t ∧ exec (.dispatch k) t = .next u ∧ u.result = .selected src ∧
      u.lineState[k] = .dispatched

/-- `disable` twice leaves the mask as `disable` once does (R80 (e)). -/
def Obligations.DisableIsIdempotent : Prop :=
  ∀ (s : State) (src : Nat), src < 32 → s.schedule = [] → s.irqLock = .free →
    ∃ t u, exec (.disable src) s = .next t ∧ exec (.disable src) t = .next u ∧ u.gimr = t.gimr ∧
      t.gimr.getLsbD src = false ∧ (∀ n, n ≠ src → t.gimr.getLsbD n = s.gimr.getLsbD n) ∧ t.src = s.src

/-- Level triggering: a line whose handler returns with a source of it still requesting and enabled is still high, and
an `irq_entry` for it is served at once (R78, R145). -/
def Obligations.LineReFires : Prop :=
  ∀ (s : State) (k : Fin 8) (src : Nat), s.cfg.ok = true → s.schedule = [] → s.lineState[k] = .dispatched →
    src < 32 → s.cfg.lineOfLevel (s.route src).toNat = some k.val → s.src.getLsbD src = true → s.gimr.getLsbD src = true →
    ∃ t u n, exec (.handlerReturn k) s = .next t ∧ t.cpuLines.getLsbD k = true ∧ t.cpuLines = s.cpuLines ∧
      exec (.irqEntry (1#8 <<< k.val)) t = .next u ∧ u.result = .selected n ∧ u.lineState[k] = .dispatched

/-! The two blocks are independent (R2). -/

/-- With no other agent acting, an operation of the router leaves the SPI controller and its driver as they are, up to
the completion steps of the controller and the devices; every other operation leaves the router as it is (R2). -/
def Obligations.BlocksAreIndependent : Prop :=
  ∀ (i : Instr) (s t : State), s.cfg.ok = true → s.schedule = [] → exec i s = .next t →
    (isRouterOp i = true → s.SameSpi t ∧ t.spiCaller = s.spiCaller ∧ (t.busy = s.busy ∨ t.busy = (eagerStep s).busy) ∧
      ∀ c, t.dev c = s.dev c ∨ t.dev c = (s.dev c).finish) ∧
    (isRouterOp i = false → s.SameRouter t)

/-! Polls and gated accesses. -/

/-- With no other host context acting, a poll of the ready flag with a finite budget returns after at least one and at most
that many reads of SFCSR, of which only the last shows ready; it raises `Timeout`, returned as E_TIMEDOUT, exactly when even
the last does not, and then it has used the budget up. Without a budget it returns `ok`, or it has not returned: the
operation stays in progress, with the values it has read (R98, R133, R136, R137; the form of a loop that goes on is the
model's, row 14). -/
def Obligations.ReadyPoll : Prop :=
  ∀ s : State, s.cfg.ok = true → s.alone = true → s.spiCaller = none →
    ∃ (t : State) (polls : List Word) (last : Word), exec .waitReady s = .next t ∧
      t.log = s.log ++ (polls ++ [last]).map (fun v => ⟨.read, .sfcsr, v⟩) ∧
      (∀ v, v ∈ polls → v.getLsbD s.cfg.bitRdy = false) ∧
      (last.getLsbD s.cfg.bitRdy = true → t.result = .ok ∧ t.calls = s.calls ∧ t.spiCaller = none) ∧
      (∀ b, s.cfg.pollBudget = some b → polls.length + 1 ≤ b ∧
        (last.getLsbD s.cfg.bitRdy = false → polls.length + 1 = b ∧
          t.result = .raised s.cfg.eTimedOut (.timeout .ready) ∧ t.calls = s.calls ∧ t.spiCaller = none)) ∧
      (s.cfg.pollBudget = none → last.getLsbD s.cfg.bitRdy = false →
        t.result = .nothing ∧ t.calls = s.calls ++ [⟨s.ctx, .instr .waitReady, polls ++ [last]⟩] ∧
          t.spiCaller = some s.ctx)

/-- On a wedged controller that is busy the ready poll times out, with the code E_TIMEDOUT, when the budget is finite, after
exactly that many reads (R92, R133, R136). Without a budget it never returns (R137): the operation stays in progress, and so
it does whenever it goes on, however often, its context inside it (R160); the controller stays busy. That a loop without a
bound is cut into parts, each a next state, is the model's choice (row 14). -/
def Obligations.WedgedControllerNeverReady : Prop :=
  ∀ s : State, s.cfg.ok = true → s.schedule = [] → s.wedged = true → s.busy = true →
    (∀ b, s.cfg.pollBudget = some (b + 1) → s.spiCaller = none →
      ∃ t, exec .waitReady s = .next t ∧ t.result = .raised s.cfg.eTimedOut (.timeout .ready) ∧ t.busy = true ∧
        t.log = s.log ++ List.replicate (b + 1) ⟨.read, .sfcsr, s.sfcsr⟩) ∧
    (s.cfg.pollBudget = none →
      (s.spiCaller = none → ∃ t got, exec .waitReady s = .next t ∧ t.result = .nothing ∧ t.busy = true ∧
        t.calls = s.calls ++ [⟨s.ctx, .instr .waitReady, got⟩] ∧ t.spiCaller = some s.ctx ∧
        ∀ w, w ∈ got → w.getLsbD s.cfg.bitRdy = false) ∧
      ∀ (ctx : Nat) (got : List Word), (∀ w, w ∈ got → w.getLsbD s.cfg.bitRdy = false) →
        ∃ t more, resume ⟨ctx, .instr .waitReady, got⟩ s = .next t ∧ t.result = .nothing ∧ t.busy = true ∧
          t.calls = s.calls ++ [⟨ctx, .instr .waitReady, got ++ more⟩] ∧ t.spiCaller = s.spiCaller ∧ more ≠ [] ∧
          ∀ w, w ∈ more → w.getLsbD s.cfg.bitRdy = false)

/-- Under an eager schedule the ready poll ends at its first read (R98, R170), and a gated access is the poll and then the
access (R99, R100). With the byte order set it completes: the write of SFDR and the read of SFDR whichever device is
selected, the write of SFCSR when its value is legal and the open frame may be closed. -/
def Obligations.GatedAccesses : Prop :=
  ∀ s : State, s.Eager → s.spiCaller = none →
    (eagerStep s).sfcsr.getLsbD s.cfg.bitRdy = true ∧
    exec .waitReady s = .next { eagerStep s with
      log := s.log ++ [⟨.read, .sfcsr, (eagerStep s).sfcsr⟩], result := .ok } ∧
    (∀ v, exec (.w32 .sfcsr v) s = exec (.sfcsrW v) s.polled) ∧
    (∀ v, exec (.w32 .sfdr v) s = exec (.sfdrW v) s.polled) ∧
    exec .r32 s = exec .sfdrR s.polled ∧
    (s.sfcr.getLsbD s.cfg.bitBo = true → s.sel ≠ .both →
      (∀ v, ∃ t, exec (.w32 .sfdr v) s = .next t ∧ t.result = .ok ∧ s.EngineFrame t ∧
        t.log = s.log ++ [⟨.read, .sfcsr, (eagerStep s).sfcsr⟩, ⟨.write, .sfdr, v⟩]) ∧
      (∃ t v, exec .r32 s = .next t ∧ t.result = .value v ∧ s.EngineFrame t ∧
        t.log = s.log ++ [⟨.read, .sfcsr, (eagerStep s).sfcsr⟩, ⟨.read, .sfdr, v⟩])) ∧
    (∀ v u, OnlyFields s.cfg v → selOf (v.getLsbD s.cfg.bitCsb0) (v.getLsbD s.cfg.bitCsb1) ≠ .both → s.sel ≠ .both →
      closeFrame s.sel (eagerStep s) = .ok () u →
      ∃ t, exec (.w32 .sfcsr v) s = .next t ∧ t.result = .ok ∧ t.len = v.extractLsb' s.cfg.lenLo 2 ∧ t.busy = true ∧
        t.sel = selOf (v.getLsbD s.cfg.bitCsb0) (v.getLsbD s.cfg.bitCsb1) ∧ s.EngineFrame t ∧
        t.log = s.log ++ [⟨.read, .sfcsr, (eagerStep s).sfcsr⟩, ⟨.write, .sfcsr, v⟩])

/-! The primitives. -/

/-- `attach` raises `InvalidArgument`, returned as E_INVAL, for a chip-select above 1, before any access; otherwise it sets
the byte-ordering bit, keeping the other bits as read, and fixes the record: the base, the chip-select of the call (8
bits, its own: rows 46, 47), the addressing mode that the strap decision gives for the family of the call (that it need
not be the record's is row 44); it returns `ok`, the number 0 (R116). The other agents take their steps before each of
the two accesses (R111, R112). A second `attach` is refused, and so is one without the mutex, or without the family
record or a register base, which the refusal names (R97, R133, R139, R157; the order of these tests is the model's
reading, rows 20 and 37). -/
def Obligations.Attach : Prop :=
  decodeTableWord 8 0x10 = some (.attach .rtl838x 0#8 ⟨0#32, 0#32, 0#32⟩) ∧
  ∀ (s : State) (f : Family) (cs : Byte) (straps : Straps), s.spiCaller = none →
    (∀ base, s.cfg.family ≠ none → s.cfg.spiBase = some base → s.ctrl.attached = false → s.spiMutex = .held s.ctx →
      (1 < cs.toNat → exec (.attach f cs straps) s =
        .next { s with result := .raised s.cfg.eInval (.invalidArgument [cs.toNat]) }) ∧
      (∀ c : ChipSel, cs = (match c with | .cs0 => 0#8 | .cs1 => 1#8) → ∀ a b : State,
        State.point { s with spiCaller := some s.ctx } = .ok () a →
        State.point { a with log := a.log ++ [⟨.read, .sfcr, a.sfcr⟩] } = .ok () b → b.ctrl.attached = false →
        exec (.attach f cs straps) s = .next { b with
          sfcr := a.sfcr ||| 1#32 <<< s.cfg.bitBo
          log := b.log ++ [⟨.write, .sfcr, a.sfcr ||| 1#32 <<< s.cfg.bitBo⟩]
          ctrl := ⟨base, c, if s.cfg.wants4 f straps then .four else .three, true⟩
          spiCaller := none
          result := .ok } ∧
        Result.ok.code = some 0)) ∧
    (s.cfg.family = none → exec (.attach f cs straps) s = .refused (.fatalBoot .familyRecord)) ∧
    (s.cfg.family ≠ none → s.cfg.spiBase = none → exec (.attach f cs straps) s = .refused (.fatalBoot .spiBase)) ∧
    (s.cfg.family ≠ none → s.cfg.spiBase ≠ none → s.ctrl.attached = true →
      exec (.attach f cs straps) s = .refused .alreadyAttached) ∧
    (s.cfg.family ≠ none → s.cfg.spiBase ≠ none → s.ctrl.attached = false → s.spiMutex ≠ .held s.ctx →
      exec (.attach f cs straps) s = .refused .mutexNotHeld)

/-- The primitives of R101 to R110 have no meaning before `attach` or without the mutex: refused, whatever their arguments
(R97, R43); nor has one, or an `attach`, that another context calls so: it is refused at its call, and once the mutex is that
context's, a primitive that it calls is in progress, its tests made. Nor has an SPI primitive, `attach`, `wait_ready`, `w32`
and `r32` among them, while a context is inside one: its call is refused, the running context's and another's, and so is the
schedule in which another context calls one while the running context makes the first poll of its own (R43, R138, R160). The
model's readings: the refusal comes before an argument
check (row 20); the family record and the register base are tested by `attach`, not again by the primitives after it (R139,
row 37); a frame counts as a primitive, and the exclusion is tested first (row 42). -/
def Obligations.PrimitivesNeedController : Prop :=
  (∀ (i : Instr) (s : State), s.spiCaller = none →
    (i = .spiPrep ∨ i = .readStatus ∨ i = .waitWip ∨ i = .writeEnable ∨ (∃ op len, i = .readReg op len) ∨
      (∃ op buf len, i = .writeReg op buf len) ∨ (∃ offset len, i = .read offset len) ∨
      (∃ offset buf len, i = .write offset buf len) ∨ (∃ offset, i = .erase offset) ∨
      (∃ base op addr, i = .issueCmd base op addr)) →
    (s.ctrl.attached = false → exec i s = .refused .notAttached) ∧
    (s.ctrl.attached = true → s.spiMutex ≠ .held s.ctx → exec i s = .refused .mutexNotHeld)) ∧
  (∀ (i : Instr) (s : State), isSpiPrimitive i = true → s.spiCaller ≠ none →
    exec i s = .refused .twoInPrimitives ∧
    ∀ ctx, ctx ≠ s.ctx → s.callOf ctx = none → WellFormed i = true →
      agentStep (.start ctx (.instr i)) s = .refused .twoInPrimitives) ∧
  (∀ (i j : Instr) (s : State) (ctx : Nat) (batch : List AgentStep) (rest : List (List AgentStep)),
    s.spiCaller = none → s.cfg.pollBudget ≠ some 0 →
    (i = .waitReady ∨ (∃ reg v, i = .w32 reg v) ∨ i = .r32 ∨
      s.ctrl.attached = true ∧ s.spiMutex = .held s.ctx ∧
        (i = .spiPrep ∨ i = .readStatus ∨ i = .waitWip ∨ i = .writeEnable ∨ ∃ base op addr, i = .issueCmd base op addr)) →
    isSpiPrimitive j = true → WellFormed j = true → ctx ≠ s.ctx → s.callOf ctx = none →
    s.schedule = (.start ctx (.instr j) :: batch) :: rest → exec i s = .refused .twoInPrimitives) ∧
  ∀ (i : Instr) (s : State) (ctx : Nat), s.spiCaller = none → ctx ≠ s.ctx → s.callOf ctx = none → WellFormed i = true →
    ((i = .spiPrep ∨ i = .readStatus ∨ i = .waitWip ∨ i = .writeEnable ∨ (∃ op len, i = .readReg op len) ∨
      (∃ op buf len, i = .writeReg op buf len) ∨ (∃ offset len, i = .read offset len) ∨
      (∃ offset buf len, i = .write offset buf len) ∨ (∃ offset, i = .erase offset) ∨
      (∃ base op addr, i = .issueCmd base op addr)) →
      (s.ctrl.attached = false → agentStep (.start ctx (.instr i)) s = .refused .notAttached) ∧
      (s.ctrl.attached = true → s.spiMutex ≠ .held ctx → agentStep (.start ctx (.instr i)) s = .refused .mutexNotHeld)) ∧
    ((∃ f cs straps, i = .attach f cs straps) → s.cfg.family ≠ none → s.cfg.spiBase ≠ none →
      (s.ctrl.attached = true → agentStep (.start ctx (.instr i)) s = .refused .alreadyAttached) ∧
      (s.ctrl.attached = false → s.spiMutex ≠ .held ctx →
        agentStep (.start ctx (.instr i)) s = .refused .mutexNotHeld)) ∧
    ((i = .spiPrep ∨ i = .readStatus ∨ i = .waitWip ∨ i = .writeEnable ∨ ∃ base op addr, i = .issueCmd base op addr) →
      s.ctrl.attached = true → s.spiMutex = .held ctx → s.cfg.pollBudget ≠ some 0 →
      agentStep (.start ctx (.instr i)) s =
        .ok () { s with spiCaller := some ctx, calls := s.calls ++ [⟨ctx, .instr i, [0#32]⟩] })

/-- An argument that `read_reg` or `write_reg` does not support raises `InvalidArgument`, returned as E_INVAL, before any
access: nothing else changes (R106, R107, R116, R133, R135). So does a range of `read`, `write` and `erase` that leaves the
device or the addressing mode; that this check is made is the model's choice: R115 lets a model drop it (row 28, DESIGN
CHOICE). -/
def Obligations.BadArgumentRaises : Prop :=
  ∀ s : State, s.ctrl.attached = true → s.spiMutex = .held s.ctx → s.spiCaller = none →
    (∀ op len, len ≠ 0 → len ≠ 1 → len ≠ 2 → len ≠ 4 →
      exec (.readReg op len) s = .next { s with result := .raised s.cfg.eInval (.invalidArgument [len]) }) ∧
    (∀ op buf len, 2 < len →
      exec (.writeReg op buf len) s = .next { s with result := .raised s.cfg.eInval (.invalidArgument [len]) }) ∧
    (∀ offset len, min (s.cfg.flashSize s.ctrl.cs) (2 ^ (8 * addrBytesOf s.ctrl.addrMode)) < offset + len →
      exec (.read offset len) s = .next { s with result := .raised s.cfg.eInval (.invalidArgument [offset, len]) } ∧
      ∀ buf, exec (.write offset buf len) s =
        .next { s with result := .raised s.cfg.eInval (.invalidArgument [offset, len]) }) ∧
    (∀ offset, min (s.cfg.flashSize s.ctrl.cs) (2 ^ (8 * addrBytesOf s.ctrl.addrMode)) < offset + 1 →
      exec (.erase offset) s = .next { s with result := .raised s.cfg.eInval (.invalidArgument [offset, 1]) })

/-- `spi_prep` closes the open frame, deasserts both chip-selects with width 1, and returns the base word of the active
chip-select, without asserting it (R101). -/
def Obligations.SpiPrep : Prop :=
  ∀ s u : State, s.Eager → s.ctrl.attached = true → s.spiMutex = .held s.ctx → s.spiCaller = none →
    closeFrame s.sel (eagerStep s) = .ok () u →
    ∃ t, exec .spiPrep s = .next t ∧
      t.result = .value (match s.ctrl.cs with | .cs0 => 1#32 <<< s.cfg.bitCsb1 | .cs1 => 1#32 <<< s.cfg.bitCsb0) ∧
      t.csb0 = true ∧ t.csb1 = true ∧ t.len = 0#2 ∧ t.busy = true ∧ (∀ c, t.dev c = u.dev c) ∧ t.draws = u.draws ∧
      t.log = s.log ++ [⟨.read, .sfcsr, (eagerStep s).sfcsr⟩,
        ⟨.write, .sfcsr, 1#32 <<< s.cfg.bitCsb0 ||| 1#32 <<< s.cfg.bitCsb1⟩] ∧ s.EngineFrame t

/-- `issue_cmd` with the base word of `spi_prep` opens a frame, or goes on in the frame that is open on the active
chip-select, and gives the device the command byte and, if there is an address, its three or four bytes, most significant
first (R36, R102). -/
def Obligations.IssueCmd : Prop :=
  ∀ (s : State) (op : Byte) (addr : Option Word) (d : Device), s.Ready → s.spiCaller = none →
    ((s.sel = .none ∧ d = (s.dev s.ctrl.cs).finish.select) ∨ (s.sel = s.ctrl.cs.sel ∧ d = (s.dev s.ctrl.cs).finish)) →
    ∃ t, exec (.issueCmd (baseWord s.cfg s.ctrl.cs) op addr) s = .next t ∧ t.result = .ok ∧ t.sel = s.ctrl.cs.sel ∧
      t.dev s.ctrl.cs = d.puts (op :: (match addr with
        | none => []
        | some a => addressBytes s.ctrl.addrMode a.toNat)) ∧
      t.dev s.ctrl.cs.other = (s.dev s.ctrl.cs.other).finish ∧ s.EngineFrame t

/-- `read_reg` closes the open frame, sends the command byte in a new one, and returns the bytes the device gives, the
frame left open: each byte that a rule of the device gives is the byte returned, with the number 0 (R106, R116, R161). -/
def Obligations.ReadReg : Prop :=
  ∀ (s u : State) (op : Byte) (len : Nat), s.Ready → s.spiCaller = none → closeFrame s.sel (eagerStep s) = .ok () u →
    (len = 0 ∨ len = 1 ∨ len = 2 ∨ len = 4) →
    ∃ t bs, exec (.readReg op len) s = .next t ∧ t.result = .bytes bs ∧ t.result.code = some 0 ∧
      bs.length = len ∧ t.sel = s.ctrl.cs.sel ∧
      t.dev s.ctrl.cs = Device.advances len ((u.dev s.ctrl.cs).finish.select.put op) ∧
      t.dev s.ctrl.cs.other = (u.dev s.ctrl.cs.other).finish ∧ s.EngineFrame t ∧
      ∀ k, k < len → ∀ b,
        (Device.advances k ((u.dev s.ctrl.cs).finish.select.put op)).answer s.cfg (s.cfg.flashSize s.ctrl.cs) = some b →
        bs[k]? = some b

/-- `write_reg` sends the command byte and `len` payload bytes in one frame, which is left open: no register has changed
yet; it returns `ok`, the number 0 (R107, R116, R161). The bytes are those of the word that `write_reg` builds; with the
default of the packing parameter for two payload bytes (R56, U8) they are the command and the payload in buffer order. That
default is not verified against hardware (R167, row 24). -/
def Obligations.WriteReg : Prop :=
  ∀ (s u : State) (op : Byte) (buf : List Byte) (len : Nat), s.Ready → s.spiCaller = none →
    closeFrame s.sel (eagerStep s) = .ok () u →
    len ≤ 2 → len ≤ buf.length →
    (∃ t, exec (.writeReg op buf len) s = .next t ∧ t.result = .ok ∧ t.result.code = some 0 ∧ t.sel = s.ctrl.cs.sel ∧
      t.dev s.ctrl.cs = (u.dev s.ctrl.cs).finish.select.puts
        (writeLanes (BitVec.ofNat 2 len) (writeRegWord s.cfg op buf len)) ∧
      t.dev s.ctrl.cs.other = (u.dev s.ctrl.cs.other).finish ∧ s.EngineFrame t) ∧
    ((len = 2 → s.cfg.writeReg2 = Cfg.writeReg2Default) →
      writeLanes (BitVec.ofNat 2 len) (writeRegWord s.cfg op buf len) = op :: buf.take len)

/-- The round trip of the source: on the simulated register device, `read_reg` returns the bytes that `write_reg` with the
same command byte and length wrote (R131). At length 2 it is stated for the default of the packing parameter, whose order of
the two bytes is presumed and not verified against hardware (R167, row 24). -/
def Obligations.RegisterRoundTrip : Prop :=
  ∀ (s u : State) (d : SimRegDev) (op : Byte) (buf : List Byte) (len : Nat), s.Ready → s.spiCaller = none →
    closeFrame s.sel (eagerStep s) = .ok () u → u.dev s.ctrl.cs = .simReg d → (len = 1 ∨ len = 2) → len ≤ buf.length →
    (len = 2 → s.cfg.writeReg2 = Cfg.writeReg2Default) →
    ∃ t v, exec (.writeReg op buf len) s = .next t ∧ exec (.readReg op len) t = .next v ∧
      v.result = .bytes (buf.take len)

/-- `read_status` returns one byte from any device, and on the reference device its status byte: WIP and WEL at
their positions (bit 0 and bit 1, D29), the others 0; the array and the status are unchanged (R103, R118, R121). -/
def Obligations.ReadStatus : Prop :=
  ∀ s u : State, s.Ready → s.spiCaller = none → closeFrame s.sel (eagerStep s) = .ok () u →
    ∃ t b, exec .readStatus s = .next t ∧ t.result = .status b ∧ s.EngineFrame t ∧
      t.dev s.ctrl.cs.other = (u.dev s.ctrl.cs.other).finish ∧
      ∀ d, (u.dev s.ctrl.cs).finish = .refNor d →
        b.getLsbD s.cfg.srWip = d.wip ∧ b.getLsbD s.cfg.srWel = d.wel ∧
        (∀ n, n ≠ s.cfg.srWip → n ≠ s.cfg.srWel → b.getLsbD n = false) ∧
        t.dev s.ctrl.cs = .refNor { d with rx := [s.cfg.opRdsr], rdcount := 1, frameOpen := true }

/-- `wait_wip` on a device that never finishes times out, with the code E_TIMEDOUT, when the budget is finite (R104, R130,
R133, R136). Without a budget it does not return: the operation stays in progress, its context inside it, the device stays
busy and the mutex stays held (R137); that this is a next state, from which the operation goes on, is the model's choice
(row 14). -/
def Obligations.StuckDeviceTimesOut : Prop :=
  ∀ (s u : State) (d : RefNor), s.Ready → s.spiCaller = none →
    closeFrame s.sel (eagerStep s) = .ok () u → u.dev s.ctrl.cs = .refNor d →
    d.wip = true → d.stuck = true →
    (∀ b, s.cfg.pollBudget = some b → ∃ t, exec .waitWip s = .next t ∧
      t.result = .raised s.cfg.eTimedOut (.timeout .wip) ∧ t.spiCaller = none) ∧
    (s.cfg.pollBudget = none → ∃ t got e, exec .waitWip s = .next t ∧ t.result = .nothing ∧
      t.calls = s.calls ++ [⟨s.ctx, .instr .waitWip, got⟩] ∧ t.spiMutex = .held s.ctx ∧
      t.spiCaller = some s.ctx ∧
      t.dev s.ctrl.cs = .refNor e ∧ e.wip = true ∧ e.stuck = true)

/-- On the reference device, once the open frame is closed and the device has finished, `wait_wip` makes one status read,
and `write_enable` leaves the latch set and the array as it was (R104, R105, R120): a status read, the command, a status
read. -/
def Obligations.WriteEnableHandshake : Prop :=
  ∀ (s u : State) (d : RefNor), s.Ready → s.spiCaller = none → closeFrame s.sel (eagerStep s) = .ok () u →
    (u.dev s.ctrl.cs).finish = .refNor d → d.wip = false →
    (∃ t new, exec .waitWip s = .next t ∧ t.result = .ok ∧
      t.log = s.log ++ new ∧ touches new = statusTouches s.cfg s.ctrl.cs ∧
      t.dev s.ctrl.cs = .refNor { d with rx := [s.cfg.opRdsr], rdcount := 1, frameOpen := true } ∧
      t.dev s.ctrl.cs.other = (u.dev s.ctrl.cs.other).finish ∧ s.EngineFrame t) ∧
    (∃ t new, exec .writeEnable s = .next t ∧ t.result = .ok ∧
      t.log = s.log ++ new ∧
      touches new =
        statusTouches s.cfg s.ctrl.cs ++ commandTouches s.cfg s.ctrl.cs s.cfg.opWren ++ statusTouches s.cfg s.ctrl.cs ∧
      t.dev s.ctrl.cs = .refNor { d with wel := true, rx := [s.cfg.opRdsr], rdcount := 1, frameOpen := true } ∧
      t.dev s.ctrl.cs.other = (u.dev s.ctrl.cs.other).finish ∧ s.EngineFrame t)

/-- `read` returns the bytes of the array from `offset` on, in order, in any number of chunks, and the byte count; it leaves
the array as it was and the latch set (R108, R114, R116, R123, R162). A frame that was left open is committed before (R44).
The accesses, polls left out, are those of one write-enable and then of one frame for each 256 bytes or part of them, at
consecutive addresses (the chunk law). -/
def Obligations.ReadReturnsArray : Prop :=
  ∀ (s u : State) (d : RefNor) (offset len : Nat), s.Ready → s.spiCaller = none →
    closeFrame s.sel (eagerStep s) = .ok () u →
    (u.dev s.ctrl.cs).finish = .refNor d → d.wip = false →
    offset + len ≤ min (s.cfg.flashSize s.ctrl.cs) (2 ^ (8 * addrBytesOf s.ctrl.addrMode)) →
    ∃ t e new, exec (.read offset len) s = .next t ∧
      t.result = .count len ((List.range len).map fun i => d.mem.read (offset + i)) ∧ t.result.code = some (len : Int) ∧
      t.log = s.log ++ new ∧
      touches new = handshakeTouches s.cfg s.ctrl.cs ++ ((List.range ((len + 255) / 256)).flatMap fun i =>
        readChunkTouches s.cfg s.ctrl.cs s.ctrl.addrMode (offset + 256 * i) (min 256 (len - 256 * i))) ∧
      t.dev s.ctrl.cs = .refNor e ∧ e.mem = d.mem ∧ e.wip = false ∧ e.wel = true ∧
      t.dev s.ctrl.cs.other = (u.dev s.ctrl.cs.other).finish ∧ s.EngineFrame t

/-- `write` completes, for a range inside the device whose chunks do not cross a page (R164), and its last chunk is not
programmed yet: those bytes, and every byte outside the range, still read as before; it returns the byte count (R109, R116,
R161). -/
def Obligations.WriteLeavesLastChunkOpen : Prop :=
  ∀ (s u : State) (d : RefNor) (offset : Nat) (buf : List Byte) (len : Nat), s.Ready → s.spiCaller = none →
    closeFrame s.sel (eagerStep s) = .ok () u → (u.dev s.ctrl.cs).finish = .refNor d → d.wip = false →
    d.stuck = false → d.mem.wf = true → 0 < len → len ≤ buf.length →
    offset + len ≤ min (s.cfg.flashSize s.ctrl.cs) (2 ^ (8 * addrBytesOf s.ctrl.addrMode)) →
    (offset % 256 = 0 ∨ offset % 256 + len ≤ 256) →
    ∃ t e, exec (.write offset buf len) s = .next t ∧ t.result = .count len [] ∧
      t.result.code = some (len : Int) ∧ t.sel = s.ctrl.cs.sel ∧
      t.dev s.ctrl.cs = .refNor e ∧ e.wip = false ∧ e.wel = true ∧
      (∀ a, ¬ (offset ≤ a ∧ a < offset + (len - 1) / 256 * 256) → e.mem.read a = d.mem.read a) ∧
      t.dev s.ctrl.cs.other = (u.dev s.ctrl.cs.other).finish ∧ s.EngineFrame t

/-- A `write` into erased bytes, then a `read` of the same range: the data comes back, and no byte outside the range has
changed (R44, R108, R109, R125). -/
def Obligations.WriteThenRead : Prop :=
  ∀ (s u : State) (d : RefNor) (offset : Nat) (buf : List Byte) (len : Nat), s.Ready → s.spiCaller = none →
    closeFrame s.sel (eagerStep s) = .ok () u → (u.dev s.ctrl.cs).finish = .refNor d → d.wip = false →
    d.stuck = false → d.mem.wf = true → len ≤ buf.length →
    offset + len ≤ min (s.cfg.flashSize s.ctrl.cs) (2 ^ (8 * addrBytesOf s.ctrl.addrMode)) →
    (offset % 256 = 0 ∨ offset % 256 + len ≤ 256) →
    (∀ i, i < len → d.mem.read (offset + i) = 0xFF#8) →
    ∃ t v e, exec (.write offset buf len) s = .next t ∧ exec (.read offset len) t = .next v ∧
      v.result = .count len (buf.take len) ∧ v.dev s.ctrl.cs = .refNor e ∧
      ∀ a, ¬ (offset ≤ a ∧ a < offset + len) → e.mem.read a = d.mem.read a

/-- `erase` completes with `ok`, the number 0 (R116), and with nothing erased yet; the next `spi_prep` closes its frame, and
then every byte of the sector that holds `offset` reads 0xFF and every other byte as before (R110, R127, R161). -/
def Obligations.EraseTakesEffectAtNextPrep : Prop :=
  ∀ (s u : State) (d : RefNor) (offset : Nat), s.Ready → s.spiCaller = none →
    closeFrame s.sel (eagerStep s) = .ok () u →
    (u.dev s.ctrl.cs).finish = .refNor d → d.wip = false →
    offset + 1 ≤ min (s.cfg.flashSize s.ctrl.cs) (2 ^ (8 * addrBytesOf s.ctrl.addrMode)) →
    ∃ t v e f, exec (.erase offset) s = .next t ∧ t.result = .ok ∧ t.result.code = some 0 ∧
      t.dev s.ctrl.cs = .refNor e ∧ e.mem = d.mem ∧
      t.dev s.ctrl.cs.other = (u.dev s.ctrl.cs.other).finish ∧ s.EngineFrame t ∧
      exec .spiPrep t = .next v ∧ v.dev s.ctrl.cs = .refNor f ∧ f.wip = true ∧
      ∀ a, f.mem.read a =
        if offset - offset % s.cfg.eraseSize ≤ a ∧ a < offset - offset % s.cfg.eraseSize + s.cfg.eraseSize then 0xFF#8
        else d.mem.read a

/-! Frames (tier T3). -/

/-- RDSR on the reference device, still busy or not: when the frame sends the command byte alone, every byte read is the
status byte; nothing but the frame buffer changes (R121). A frame is a sequence of gated accesses that ends with both
chip-selects deasserted (the model's form, row 19). -/
def Obligations.FrameReadStatus : Prop :=
  ∀ (s u : State) (c : ChipSel) (d : RefNor) (sent : List Byte) (reads : Nat), s.Eager → s.spiCaller = none →
    s.sfcr.getLsbD s.cfg.bitBo = true →
    closeFrame s.sel (eagerStep s) = .ok () u → (u.dev c).finish = .refNor d →
    ∃ t bs new, exec (.rdsr c sent reads) s = .next t ∧ t.result = .bytes bs ∧ bs.length = reads ∧
      (sent = [] → bs = List.replicate reads (d.statusByte s.cfg)) ∧
      t.dev c = .refNor { d with rx := s.cfg.opRdsr :: sent, rdcount := reads, frameOpen := false } ∧
      t.dev c.other = (u.dev c.other).finish ∧ t.csb0 = true ∧ t.csb1 = true ∧ t.len = 0#2 ∧ t.busy = true ∧
      t.log = s.log ++ new ∧ touches new = frameTouches s.cfg c s.cfg.opRdsr sent reads ∧ s.EngineFrame t

/-- WREN sets the latch of an idle device when the frame is the command byte alone, and is ignored with more bytes; WRSR
starts an operation when the latch is set and one or two bytes follow, and is ignored otherwise (R120, R122). -/
def Obligations.FrameLatchCommands : Prop :=
  ∀ (s u : State) (c : ChipSel) (d : RefNor) (sent : List Byte) (reads : Nat), s.Eager → s.spiCaller = none →
    s.sfcr.getLsbD s.cfg.bitBo = true →
    closeFrame s.sel (eagerStep s) = .ok () u → (u.dev c).finish = .refNor d → d.wip = false →
    (∃ t bs new, exec (.wren c sent reads) s = .next t ∧ t.result = .bytes bs ∧ bs.length = reads ∧
      t.dev c = .refNor { d with
        wel := if sent = [] then true else d.wel, rx := s.cfg.opWren :: sent, rdcount := reads, frameOpen := false } ∧
      t.dev c.other = (u.dev c.other).finish ∧ t.csb0 = true ∧ t.csb1 = true ∧ t.len = 0#2 ∧ t.busy = true ∧
      t.log = s.log ++ new ∧ touches new = frameTouches s.cfg c s.cfg.opWren sent reads ∧ s.EngineFrame t) ∧
    (∃ t bs new, exec (.wrsr c sent reads) s = .next t ∧ t.result = .bytes bs ∧ bs.length = reads ∧
      t.dev c = .refNor { d with
        wip := d.wel && (sent.length == 1 || sent.length == 2)
        rx := s.cfg.opWrsr :: sent, rdcount := reads, frameOpen := false } ∧
      t.dev c.other = (u.dev c.other).finish ∧ t.csb0 = true ∧ t.csb1 = true ∧ t.len = 0#2 ∧ t.busy = true ∧
      t.log = s.log ++ new ∧ touches new = frameTouches s.cfg c s.cfg.opWrsr sent reads ∧ s.EngineFrame t)

/-- FAST_READ and FAST_READ_4B on an idle device: whatever is sent, the array and the status are unchanged; an address
and NDUMMY dummy bytes (one, D25) sent, the bytes returned are those of the array from the address on, wrapping at the end of
the array, whatever the dummy bytes (R123, R124). -/
def Obligations.FrameFastRead : Prop :=
  ∀ (s u : State) (c : ChipSel) (d : RefNor) (sent : List Byte) (reads : Nat), s.Eager → s.spiCaller = none →
    s.sfcr.getLsbD s.cfg.bitBo = true →
    closeFrame s.sel (eagerStep s) = .ok () u → (u.dev c).finish = .refNor d → d.wip = false →
    (∃ t bs new, exec (.fastRead c sent reads) s = .next t ∧ t.result = .bytes bs ∧ bs.length = reads ∧
      (∀ (a : Nat) (dummies : List Byte), a < 2 ^ 24 → dummies.length = s.cfg.numDummy →
        sent = addressBytes .three a ++ dummies →
        bs = (List.range reads).map fun k => d.mem.read ((a + k) % s.cfg.flashSize c)) ∧
      t.dev c = .refNor { d with rx := s.cfg.opRead3 :: sent, rdcount := reads, frameOpen := false } ∧
      t.dev c.other = (u.dev c.other).finish ∧ t.csb0 = true ∧ t.csb1 = true ∧ t.len = 0#2 ∧ t.busy = true ∧
      t.log = s.log ++ new ∧ touches new = frameTouches s.cfg c s.cfg.opRead3 sent reads ∧ s.EngineFrame t) ∧
    (∃ t bs new, exec (.fastRead4b c sent reads) s = .next t ∧ t.result = .bytes bs ∧ bs.length = reads ∧
      (∀ (a : Nat) (dummies : List Byte), a < 2 ^ 32 → dummies.length = s.cfg.numDummy →
        sent = addressBytes .four a ++ dummies →
        bs = (List.range reads).map fun k => d.mem.read ((a + k) % s.cfg.flashSize c)) ∧
      t.dev c = .refNor { d with rx := s.cfg.opRead4 :: sent, rdcount := reads, frameOpen := false } ∧
      t.dev c.other = (u.dev c.other).finish ∧ t.csb0 = true ∧ t.csb1 = true ∧ t.len = 0#2 ∧ t.busy = true ∧
      t.log = s.log ++ new ∧ touches new = frameTouches s.cfg c s.cfg.opRead4 sent reads ∧ s.EngineFrame t)

/-- PP and PP_4B on an idle device with the latch set, data inside one page and inside the device: an erased byte takes
its data byte, every byte outside the range is unchanged, and an operation starts. With the latch clear or no data the
frame is ignored; outside a page or the device it is refused (R125, R126). -/
def Obligations.FramePageProgram : Prop :=
  ∀ (s u : State) (c : ChipSel) (d : RefNor) (m : AddrMode) (sent : List Byte), s.Eager → s.spiCaller = none →
    s.sfcr.getLsbD s.cfg.bitBo = true →
    closeFrame s.sel (eagerStep s) = .ok () u → (u.dev c).finish = .refNor d → d.wip = false → d.mem.wf = true →
    ∀ reads : Nat,
    (∀ (a : Nat) (data : List Byte), a < 2 ^ (8 * addrBytesOf m) → sent = addressBytes m a ++ data → d.wel = true →
      data ≠ [] → data.length ≤ 256 → a % 256 + data.length ≤ 256 → a + data.length ≤ s.cfg.flashSize c →
      ∃ t e, exec (programFrame m c sent reads) s = .next t ∧ t.dev c = .refNor e ∧ e.wip = true ∧ e.wel = true ∧
        (∀ i, i < data.length → d.mem.read (a + i) = 0xFF#8 → e.mem.read (a + i) = data.getD i 0#8) ∧
        (∀ x, ¬ (a ≤ x ∧ x < a + data.length) → e.mem.read x = d.mem.read x) ∧
        t.dev c.other = (u.dev c.other).finish ∧ t.csb0 = true ∧ t.csb1 = true ∧ s.EngineFrame t) ∧
    (∀ (a : Nat) (data : List Byte), a < 2 ^ (8 * addrBytesOf m) → sent = addressBytes m a ++ data → d.wel = true →
      data ≠ [] → 256 < data.length ∨ 256 < a % 256 + data.length ∨ s.cfg.flashSize c < a + data.length →
      exec (programFrame m c sent reads) s = .refused .programOutsidePage) ∧
    (d.wel = false ∨ sent.length ≤ addrBytesOf m →
      ∃ t e, exec (programFrame m c sent reads) s = .next t ∧ t.dev c = .refNor e ∧ e.wip = false ∧ e.wel = d.wel ∧
        e.mem = d.mem ∧ t.dev c.other = (u.dev c.other).finish ∧ t.csb0 = true ∧ t.csb1 = true ∧ s.EngineFrame t)

/-- SE and SE_4B on an idle device with the latch set and an address inside the device: the sector of the address reads
0xFF, every other byte is unchanged, and an operation starts; otherwise the frame is ignored (R127, R128). -/
def Obligations.FrameSectorErase : Prop :=
  ∀ (s u : State) (c : ChipSel) (d : RefNor) (m : AddrMode) (sent : List Byte) (reads : Nat), s.Eager → s.spiCaller = none →
    s.sfcr.getLsbD s.cfg.bitBo = true → closeFrame s.sel (eagerStep s) = .ok () u → (u.dev c).finish = .refNor d →
    d.wip = false →
    ∃ t e, exec (eraseFrame m c sent reads) s = .next t ∧ t.dev c = .refNor e ∧ e.wel = d.wel ∧
      t.dev c.other = (u.dev c.other).finish ∧ t.csb0 = true ∧ t.csb1 = true ∧ s.EngineFrame t ∧
      (∀ a, a < 2 ^ (8 * addrBytesOf m) → sent = addressBytes m a → d.wel = true → a < s.cfg.flashSize c →
        e.wip = true ∧ ∀ x, e.mem.read x =
          if a - a % s.cfg.eraseSize ≤ x ∧ x < a - a % s.cfg.eraseSize + s.cfg.eraseSize then 0xFF#8 else d.mem.read x) ∧
      (d.wel = false ∨ sent.length ≠ addrBytesOf m ∨ s.cfg.flashSize c ≤ bigEndian sent → e.wip = false ∧ e.mem = d.mem)

/-- While a program, erase or register write is running, a frame that ends is ignored: the device keeps its status and its
array (R119). So every command frame but read-status on a device that does not finish is ignored (frames as operations:
row 19). -/
def Obligations.BusyDeviceIgnores : Prop :=
  (∀ (cfg : Cfg) (d : RefNor) (size sector draws : Nat), d.wip = true →
    (Device.refNor d).deselect cfg size sector draws = .ok (.refNor { d with frameOpen := false }, draws)) ∧
  ∀ (s u : State) (c : ChipSel) (d : RefNor) (sent : List Byte) (reads : Nat) (i : Instr), s.Eager → s.spiCaller = none →
    s.sfcr.getLsbD s.cfg.bitBo = true → closeFrame s.sel (eagerStep s) = .ok () u → u.dev c = .refNor d → d.wip = true →
    d.stuck = true →
    (i = .wrsr c sent reads ∨ i = .pp c sent reads ∨ i = .wren c sent reads ∨ i = .fastRead c sent reads ∨
      i = .fastRead4b c sent reads ∨ i = .pp4b c sent reads ∨ i = .se c sent reads ∨ i = .se4b c sent reads) →
    ∃ t e, exec i s = .next t ∧ t.dev c = .refNor e ∧ e.wip = true ∧ e.wel = d.wel ∧ e.mem = d.mem ∧
      t.dev c.other = (u.dev c.other).finish ∧ t.csb0 = true ∧ t.csb1 = true ∧ s.EngineFrame t

/-- A frame with a command byte that is none of the nine of R62 is no operation of its own, but an item of the program that
spells one runs: it goes over the wire, the reference device ignores it, and the bytes read are free, as many as were asked
for (R61, R129; frames as operations: row 19). -/
def Obligations.UnknownFrameIgnored : Prop :=
  ∀ (s u : State) (ctx : Nat) (rest : List Issue) (cmd : Byte) (c : ChipSel) (sent : List Byte) (reads : Nat) (d : RefNor),
    s.cfg.ok = true → s.Eager → s.spiCaller = none → s.sfcr.getLsbD s.cfg.bitBo = true → (∀ k, k ∈ s.calls → k.ctx ≠ ctx) →
    cmd ∉ s.cfg.commandBytes → reads < 2 ^ 16 →
    s.program = .op ctx ⟨.norframe, [cmd, chipSelByte c, BitVec.ofNat 8 reads, BitVec.ofNat 8 (reads / 256)] ++ sent⟩ ::
      rest →
    closeFrame s.sel (eagerStep s) = .ok () u → (u.dev c).finish = .refNor d →
    ∃ t bs new, step s = .next t ∧ t.result = .bytes bs ∧ bs.length = reads ∧
      t.dev c = .refNor { d with rx := cmd :: sent, rdcount := reads, frameOpen := false } ∧
      t.dev c.other = (u.dev c.other).finish ∧ t.csb0 = true ∧ t.csb1 = true ∧ t.ctx = ctx ∧ t.program = rest ∧
      t.log = s.log ++ new ∧ touches new = frameTouches s.cfg c cmd sent reads ∧ s.SameRouter t

/-- On a chip-select with no device every command frame completes: as many bytes come back as were read, and no device
changes but by its own step (R132). On the simulated register device every frame completes too: a frame of two or three
bytes that reads nothing stores its bytes as the register of the command byte, any other changes no register (R131). -/
def Obligations.FramesOnOtherDevices : Prop :=
  ∀ (s u : State) (c : ChipSel) (sent : List Byte) (reads : Nat) (i : Instr) (op : Byte), s.Eager → s.spiCaller = none →
    s.sfcr.getLsbD s.cfg.bitBo = true → closeFrame s.sel (eagerStep s) = .ok () u →
    (i = .wrsr c sent reads ∧ op = s.cfg.opWrsr ∨ i = .pp c sent reads ∧ op = s.cfg.opPp3 ∨
      i = .rdsr c sent reads ∧ op = s.cfg.opRdsr ∨ i = .wren c sent reads ∧ op = s.cfg.opWren ∨
      i = .fastRead c sent reads ∧ op = s.cfg.opRead3 ∨
      i = .fastRead4b c sent reads ∧ op = s.cfg.opRead4 ∨ i = .pp4b c sent reads ∧ op = s.cfg.opPp4 ∨
      i = .se c sent reads ∧ op = s.cfg.opSe3 ∨ i = .se4b c sent reads ∧ op = s.cfg.opSe4) →
    (u.dev c = .absent →
      ∃ t bs, exec i s = .next t ∧ t.result = .bytes bs ∧ bs.length = reads ∧ (∀ e, t.dev e = (u.dev e).finish) ∧
        s.EngineFrame t) ∧
    (∀ d, u.dev c = .simReg d →
      ∃ t bs, exec i s = .next t ∧ t.result = .bytes bs ∧ bs.length = reads ∧
        t.dev c = .simReg {
          regs := if reads = 0 ∧ (sent.length = 1 ∨ sent.length = 2) then regsStore d.regs op sent else d.regs
          rx := op :: sent, rdcount := reads } ∧
        t.dev c.other = (u.dev c.other).finish ∧ s.EngineFrame t)

/-- The steps that the other agents take of their own. The devices' `finish`: a device that is busy and not stuck clears WIP
and WEL and nothing else; a stuck or idle one, and the other devices, do not change (R130). The controller's `spi_complete`:
when it is busy and not wedged it becomes ready, and nothing else changes; otherwise nothing does (R91, R92). A source device
sets its line to the level it takes, and no other line (R14). The collaborator takes the free SPI mutex for a context and
releases it again, and nothing else changes (R43): between the steps of the running context for any other context, where a
take of a held mutex, and a release for a context that does not hold it or is inside an operation, change nothing (the
model's choice, row 12); and as an item of the program, where a take of a held mutex waits and a release by a context that
does not hold it is refused (the model's choice, row 16). -/
def Obligations.DeviceFinish : Prop :=
  (∀ (s : State) (c : ChipSel),
    (∀ d, s.dev c = .refNor d → d.wip = true → d.stuck = false →
      agentStep (.finish c) s = .ok () (s.setDev c (.refNor { d with wip := false, wel := false }))) ∧
    (∀ d, s.dev c = .refNor d → d.wip = false ∨ d.stuck = true → agentStep (.finish c) s = .ok () s) ∧
    (∀ d, s.dev c = .simReg d → agentStep (.finish c) s = .ok () s) ∧
    (s.dev c = .absent → agentStep (.finish c) s = .ok () s)) ∧
  (∀ s : State,
    (s.busy = true → s.wedged = false → agentStep .spiComplete s = .ok () { s with busy := false }) ∧
    (s.busy = false ∨ s.wedged = true → agentStep .spiComplete s = .ok () s)) ∧
  (∀ (s : State) (src : Fin 32) (level : Bool),
    ∃ v : Word, agentStep (.setSource src level) s = .ok () { s with src := v } ∧
      ∀ n, n < 32 → v.getLsbD n = if n = src.val then level else s.src.getLsbD n) ∧
  (∀ (s : State) (ctx : Nat),
    (ctx ≠ s.ctx → s.spiMutex = .free → agentStep (.takeMutex ctx) s = .ok () { s with spiMutex := .held ctx }) ∧
    (ctx = s.ctx ∨ s.spiMutex ≠ .free → agentStep (.takeMutex ctx) s = .ok () s) ∧
    (ctx ≠ s.ctx → s.spiMutex = .held ctx → (∀ c, c ∈ s.calls → c.ctx ≠ ctx) →
      agentStep (.releaseMutex ctx) s = .ok () { s with spiMutex := .free }) ∧
    (ctx = s.ctx ∨ s.spiMutex ≠ .held ctx ∨ (∃ c, c ∈ s.calls ∧ c.ctx = ctx) →
      agentStep (.releaseMutex ctx) s = .ok () s)) ∧
  ∀ (s p : State) (ctx : Nat) (rest : List Issue), s.cfg.ok = true → s.point = .ok () p →
    (∀ c, c ∈ p.calls → c.ctx ≠ ctx) →
    (p.program = .takeMutex ctx :: rest → p.spiMutex = .free →
      step s = .next { p with spiMutex := .held ctx, program := rest }) ∧
    (p.program = [.takeMutex ctx] → p.spiMutex ≠ .free → p.calls = [] → step s = .next p) ∧
    (p.program = .releaseMutex ctx :: rest → p.spiMutex = .held ctx →
      step s = .next { p with spiMutex := .free, program := rest }) ∧
    (p.program = .releaseMutex ctx :: rest → p.spiMutex ≠ .held ctx → step s = .refused .mutexNotHeld)

end Statements
end

