-- ==== Sys2Proof/Laws/Config.lean ====
section
/-! SUPPORT. What a configuration that meets R7 is like: its offsets, nibble places, lines, positions and command bytes; and
that the values of R6 are such a configuration. -/

namespace Sys2Proof

/-- The values of R6 meet the constraints (R6, R7). -/
theorem reference_ok : Cfg.reference.ok = true := by decide +kernel

/-- With the values of R6 the placement and the lines are the decided formulas (D5, D6). -/
theorem reference_places : ∀ src : Fin 32, (Cfg.reference.irrIndex src).val = 3 - src.val / 8 ∧
    Cfg.reference.irrShift src = 4 * (src.val % 8) := by decide +kernel

theorem reference_lines : ∀ l : Fin 6, l ≠ 0 → Cfg.reference.lineOfLevel l.val = some (l.val + 1) := by decide +kernel

/-! The parts of the check. -/

theorem Cfg.ok_parts {c : Cfg} (h : c.ok = true) : c.inputsOk = true ∧ c.placesOk = true ∧ c.linesOk = true ∧
    c.bitsOk = true ∧ c.commandsOk = true ∧ c.offsetsOk = true ∧ c.codesOk = true := by
  simpa only [Cfg.ok, List.all_cons, List.all_nil, id, Bool.and_eq_true, and_true] using h

/-- The inputs and OPEN fields of a legal configuration (R7, R98). -/
structure Cfg.Inputs (c : Cfg) : Prop where
  table838x : Cfg.tableOk c.route838x = true
  table839x : Cfg.tableOk c.route839x = true
  sources : c.srcTimer ≠ c.srcUart0
  timer : c.srcTimer < 32
  uart0 : c.srcUart0 < 32
  size0 : c.flashSize0 ≤ 2 ^ 32
  size1 : c.flashSize1 ≤ 2 ^ 32
  erase : Cfg.powerOfTwo c.eraseSize = true
  cs : c.cs ≤ 1
  budget : c.pollBudget ≠ some 0

theorem Cfg.inputs {c : Cfg} (h : c.ok = true) : c.Inputs := by
  have := (Cfg.ok_parts h).1
  simp only [Cfg.inputsOk, List.all_cons, List.all_nil, id, Bool.and_eq_true, bne_iff_ne, ne_eq, decide_eq_true_eq,
    and_true] at this
  obtain ⟨h1, h2, h3, h4, h5, h6, h7, h8, h9, h10⟩ := this
  exact ⟨h1, h2, h3, h4, h5, h6, h7, h8, h9, h10⟩

/-- The positions of SFCSR and of BO in a legal configuration (R7). -/
structure Cfg.Bits (c : Cfg) : Prop where
  csb0 : c.bitCsb0 < 32
  csb1 : c.bitCsb1 < 32
  rdy : c.bitRdy < 32
  len : c.lenLo + 1 < 32
  hi : c.lenHi = c.lenLo + 1
  bo : c.bitBo < 32
  csb0_csb1 : c.bitCsb0 ≠ c.bitCsb1
  csb0_rdy : c.bitCsb0 ≠ c.bitRdy
  csb1_rdy : c.bitCsb1 ≠ c.bitRdy
  csb0_lo : c.bitCsb0 ≠ c.lenLo
  csb0_hi : c.bitCsb0 ≠ c.lenLo + 1
  csb1_lo : c.bitCsb1 ≠ c.lenLo
  csb1_hi : c.bitCsb1 ≠ c.lenLo + 1
  rdy_lo : c.bitRdy ≠ c.lenLo
  rdy_hi : c.bitRdy ≠ c.lenLo + 1

theorem Cfg.bits {c : Cfg} (h : c.ok = true) : c.Bits := by
  have := (Cfg.ok_parts h).2.2.2.1
  simp only [Cfg.bitsOk, Cfg.sfcsrBits, Bool.and_eq_true, decide_eq_true_eq, beq_iff_eq, List.nodup_cons, List.mem_cons,
    List.not_mem_nil, or_false, not_or, List.all_cons, List.all_nil, List.nodup_nil, and_true, not_false_eq_true] at this
  obtain ⟨⟨⟨hn, hl⟩, ha⟩, hb⟩ := this
  rw [hl] at hn ha
  refine ⟨?_, ?_, ?_, ?_, hl, hb, ?_, ?_, ?_, ?_, ?_, ?_, ?_, ?_, ?_⟩ <;> omega

/-- The command bytes and status positions of a legal configuration (R7, R118). -/
structure Cfg.Commands (c : Cfg) : Prop where
  nodup : c.commandBytes.Nodup
  status : c.srWip ≠ c.srWel
  wip : c.srWip < 8
  wel : c.srWel < 8

theorem Cfg.commands {c : Cfg} (h : c.ok = true) : c.Commands := by
  have := (Cfg.ok_parts h).2.2.2.2.1
  simp only [Cfg.commandsOk, Bool.and_eq_true, decide_eq_true_eq, bne_iff_ne, ne_eq, and_assoc] at this
  exact ⟨this.1, this.2.1, this.2.2.1, this.2.2.2⟩

/-- The nine command bytes are pairwise distinct (R7). -/
theorem Cfg.commands_distinct {c : Cfg} (h : c.ok = true) :
    c.opWrsr ≠ c.opPp3 ∧ c.opWrsr ≠ c.opRdsr ∧ c.opWrsr ≠ c.opWren ∧ c.opWrsr ≠ c.opRead3 ∧ c.opWrsr ≠ c.opRead4 ∧
    c.opWrsr ≠ c.opPp4 ∧ c.opWrsr ≠ c.opSe3 ∧ c.opWrsr ≠ c.opSe4 ∧
    c.opPp3 ≠ c.opWrsr ∧ c.opPp3 ≠ c.opRdsr ∧ c.opPp3 ≠ c.opWren ∧ c.opPp3 ≠ c.opRead3 ∧ c.opPp3 ≠ c.opRead4 ∧
    c.opPp3 ≠ c.opPp4 ∧ c.opPp3 ≠ c.opSe3 ∧ c.opPp3 ≠ c.opSe4 ∧
    c.opRdsr ≠ c.opWrsr ∧ c.opRdsr ≠ c.opPp3 ∧ c.opRdsr ≠ c.opWren ∧ c.opRdsr ≠ c.opRead3 ∧ c.opRdsr ≠ c.opRead4 ∧
    c.opRdsr ≠ c.opPp4 ∧ c.opRdsr ≠ c.opSe3 ∧ c.opRdsr ≠ c.opSe4 ∧
    c.opWren ≠ c.opWrsr ∧ c.opWren ≠ c.opPp3 ∧ c.opWren ≠ c.opRdsr ∧ c.opWren ≠ c.opRead3 ∧ c.opWren ≠ c.opRead4 ∧
    c.opWren ≠ c.opPp4 ∧ c.opWren ≠ c.opSe3 ∧ c.opWren ≠ c.opSe4 ∧
    c.opRead3 ≠ c.opWrsr ∧ c.opRead3 ≠ c.opPp3 ∧ c.opRead3 ≠ c.opRdsr ∧ c.opRead3 ≠ c.opWren ∧ c.opRead3 ≠ c.opRead4 ∧
    c.opRead3 ≠ c.opPp4 ∧ c.opRead3 ≠ c.opSe3 ∧ c.opRead3 ≠ c.opSe4 ∧
    c.opRead4 ≠ c.opWrsr ∧ c.opRead4 ≠ c.opPp3 ∧ c.opRead4 ≠ c.opRdsr ∧ c.opRead4 ≠ c.opWren ∧ c.opRead4 ≠ c.opRead3 ∧
    c.opRead4 ≠ c.opPp4 ∧ c.opRead4 ≠ c.opSe3 ∧ c.opRead4 ≠ c.opSe4 ∧
    c.opPp4 ≠ c.opWrsr ∧ c.opPp4 ≠ c.opPp3 ∧ c.opPp4 ≠ c.opRdsr ∧ c.opPp4 ≠ c.opWren ∧ c.opPp4 ≠ c.opRead3 ∧
    c.opPp4 ≠ c.opRead4 ∧ c.opPp4 ≠ c.opSe3 ∧ c.opPp4 ≠ c.opSe4 ∧
    c.opSe3 ≠ c.opWrsr ∧ c.opSe3 ≠ c.opPp3 ∧ c.opSe3 ≠ c.opRdsr ∧ c.opSe3 ≠ c.opWren ∧ c.opSe3 ≠ c.opRead3 ∧
    c.opSe3 ≠ c.opRead4 ∧ c.opSe3 ≠ c.opPp4 ∧ c.opSe3 ≠ c.opSe4 ∧
    c.opSe4 ≠ c.opWrsr ∧ c.opSe4 ≠ c.opPp3 ∧ c.opSe4 ≠ c.opRdsr ∧ c.opSe4 ≠ c.opWren ∧ c.opSe4 ≠ c.opRead3 ∧
    c.opSe4 ≠ c.opRead4 ∧ c.opSe4 ≠ c.opPp4 ∧ c.opSe4 ≠ c.opSe3 := by
  have hn := (Cfg.commands h).nodup
  have sym : ∀ {a b : Byte}, ¬ a = b → ¬ b = a := fun h e => h e.symm
  simp only [Cfg.commandBytes, List.nodup_cons, List.mem_cons, List.not_mem_nil, or_false, not_or, List.nodup_nil,
    and_true, not_false_eq_true, and_assoc] at hn
  obtain ⟨a1, a2, a3, a4, a5, a6, a7, a8, b1, b2, b3, b4, b5, b6, b7, c1, c2, c3, c4, c5, c6, d1, d2, d3, d4, d5,
    e1, e2, e3, e4, f1, f2, f3, g1, g2, k1⟩ := hn
  exact ⟨a1, a2, a3, a4, a5, a6, a7, a8, sym a1, b1, b2, b3, b4, b5, b6, b7, sym a2, sym b1, c1, c2, c3, c4, c5, c6,
    sym a3, sym b2, sym c1, d1, d2, d3, d4, d5, sym a4, sym b3, sym c2, sym d1, e1, e2, e3, e4,
    sym a5, sym b4, sym c3, sym d2, sym e1, f1, f2, f3, sym a6, sym b5, sym c4, sym d3, sym e2, sym f1, g1, g2,
    sym a7, sym b6, sym c5, sym d4, sym e3, sym f2, sym g1, k1, sym a8, sym b7, sym c6, sym d5, sym e4, sym f3, sym g2,
    sym k1⟩

/-- The result codes of a legal configuration (R116, R133). -/
theorem Cfg.codes {c : Cfg} (h : c.ok = true) : c.eInval < 0 ∧ c.eTimedOut < 0 ∧ c.eInval ≠ c.eTimedOut := by
  have := (Cfg.ok_parts h).2.2.2.2.2.2
  simpa only [Cfg.codesOk, Bool.and_eq_true, decide_eq_true_eq, bne_iff_ne, ne_eq, and_assoc] using this

/-- The lines of a legal configuration: levels 1 to 5 have lines below 8, each its own (R7). -/
structure Cfg.Lines (c : Cfg) : Prop where
  length : c.levelLines.length = 5
  nodup : c.levelLines.Nodup
  lt : ∀ k, k ∈ c.levelLines → k < 8

theorem Cfg.lines {c : Cfg} (h : c.ok = true) : c.Lines := by
  have := (Cfg.ok_parts h).2.2.1
  simp only [Cfg.linesOk, Bool.and_eq_true, decide_eq_true_eq, beq_iff_eq, List.all_eq_true, and_assoc] at this
  exact ⟨this.1, this.2.1, this.2.2⟩

/-- The level that drives a line is one number (R7). -/
theorem Cfg.lineOfLevel_injective {c : Cfg} (h : c.ok = true) {l m k : Nat} (hl : c.lineOfLevel l = some k)
    (hm : c.lineOfLevel m = some k) : l = m := by
  have hn := (Cfg.lines h).nodup
  match l, m, hl, hm with
  | l + 1, m + 1, hl, hm =>
    simp only [Cfg.lineOfLevel, List.getElem?_eq_some_iff] at hl hm
    obtain ⟨h1, e1⟩ := hl
    obtain ⟨h2, e2⟩ := hm
    rw [(List.Nodup.getElem_inj_iff hn).mp (e1.trans e2.symm)]

/-- A number with a line is a level, 1 to 5 (R7). -/
theorem Cfg.lineOfLevel_range {c : Cfg} (h : c.ok = true) {l k : Nat} (hl : c.lineOfLevel l = some k) :
    1 ≤ l ∧ l ≤ 5 ∧ k < 8 := by
  match l, hl with
  | l + 1, hl =>
    simp only [Cfg.lineOfLevel, List.getElem?_eq_some_iff] at hl
    obtain ⟨h1, e1⟩ := hl
    have := (Cfg.lines h).length
    exact ⟨by omega, by omega, (Cfg.lines h).lt k (e1 ▸ List.getElem_mem h1)⟩

/-- The nibble places of a legal configuration (R7). -/
structure Cfg.Places (c : Cfg) : Prop where
  length : c.nibblePlaces.length = 32
  nodup : c.nibblePlaces.Nodup
  shift : ∀ p, p ∈ c.nibblePlaces → p.2 % 4 = 0 ∧ p.2 < 32

theorem Cfg.places {c : Cfg} (h : c.ok = true) : c.Places := by
  have := (Cfg.ok_parts h).2.1
  simp only [Cfg.placesOk, Bool.and_eq_true, decide_eq_true_eq, beq_iff_eq, List.all_eq_true, and_assoc, Config.numSources,
    Config.nibbleWidth, Config.nibblesPerRouting] at this
  exact ⟨this.1, this.2.1, fun p hp => ⟨(this.2.2 p hp).1, of_decide_eq_true (this.2.2 p hp).2⟩⟩

theorem Cfg.nibblePlace_mem {c : Cfg} (h : c.ok = true) {src : Nat} (hs : src < 32) : c.nibblePlace src ∈ c.nibblePlaces := by
  have hl := (Cfg.places h).length
  rw [Cfg.nibblePlace, List.getD_eq_getElem _ _ (by omega)]
  exact List.getElem_mem _

theorem Cfg.irrShift_range {c : Cfg} (h : c.ok = true) {src : Nat} (hs : src < 32) :
    c.irrShift src % 4 = 0 ∧ c.irrShift src < 32 := (Cfg.places h).shift _ (Cfg.nibblePlace_mem h hs)

/-- No two sources have one place (R7). -/
theorem Cfg.nibblePlace_injective {c : Cfg} (h : c.ok = true) {a b : Nat} (ha : a < 32) (hb : b < 32)
    (e : c.irrIndex a = c.irrIndex b) (f : c.irrShift a = c.irrShift b) : a = b := by
  have hl := (Cfg.places h).length
  have e' : c.nibblePlace a = c.nibblePlace b := Prod.ext e f
  rw [Cfg.nibblePlace, Cfg.nibblePlace, List.getD_eq_getElem _ _ (by omega), List.getD_eq_getElem _ _ (by omega)] at e'
  exact (List.Nodup.getElem_inj_iff (Cfg.places h).nodup).mp e'

/-- The offset names the register of a block (R30). -/
theorem Reg.offset_injective {c : Cfg} (h : c.ok = true) {r q : Reg} (hb : r.block = q.block)
    (ho : r.offset c = q.offset c) : r = q := by
  have := (Cfg.ok_parts h).2.2.2.2.2.1
  simp only [Cfg.offsetsOk, Bool.and_eq_true, decide_eq_true_eq, List.nodup_cons, List.mem_cons, List.not_mem_nil, or_false,
    not_or, and_assoc] at this
  have hirr : ∀ n : Fin 4, n = 0 ∨ n = 1 ∨ n = 2 ∨ n = 3 := by decide
  have sym : ∀ {a b : Byte}, a = b → b = a := fun h => h.symm
  cases r <;> cases q <;> first | rfl | (simp only [Reg.block] at hb; cases hb; done) | skip
  all_goals first
    | (rename_i n m; rcases hirr n with rfl | rfl | rfl | rfl <;> rcases hirr m with rfl | rfl | rfl | rfl <;>
        first | rfl | (simp only [Reg.offset] at ho; simp_all))
    | (rename_i n; rcases hirr n with rfl | rfl | rfl | rfl <;> (simp only [Reg.offset] at ho; simp_all))
    | (simp only [Reg.offset] at ho; simp_all)

/-- The offset of a register lies in its block's range (R30). -/
theorem Reg.offset_range {c : Cfg} (h : c.ok = true) (r : Reg) : (r.offset c).toNat % 4 = 0 ∧
    (r.offset c).toNat < (match r.block with | .router => 0x18 | .spi => 0x10) := by
  have := (Cfg.ok_parts h).2.2.2.2.2.1
  simp only [Cfg.offsetsOk, Bool.and_eq_true, List.all_cons, List.all_nil, and_true, beq_iff_eq, and_assoc,
    decide_eq_true_eq] at this
  simp only [Config.routerSpan, Config.spiSpan] at this
  have hirr : ∀ n : Fin 4, n = 0 ∨ n = 1 ∨ n = 2 ∨ n = 3 := by decide
  cases r with
  | irr n => rcases hirr n with rfl | rfl | rfl | rfl <;> simp only [Reg.block, Reg.offset] <;> omega
  | _ => simp only [Reg.block, Reg.offset]; omega

end Sys2Proof
end

