-- ==== Sys2Proof/Laws/Memory.lean ====
section
/-! SUPPORT. The flash array: what a read gives after a write or an erase, and that every operation keeps the canonical
form; the same for the register map of the simulated register device. -/

namespace Sys2Proof.Machine

/-! Reading after writing. -/

/-- Below the first listed address a canonical array reads as erased. -/
theorem Memory.read_below {m : Memory} : ∀ {lo a : Nat}, m.wfFrom lo = true → a < lo → m.read a = Config.erasedByte := by
  induction m with
  | nil => intro lo a _ _; rfl
  | cons c rest ih =>
    obtain ⟨x, b⟩ := c
    intro lo a h ha
    simp only [Memory.wfFrom, Bool.and_eq_true, decide_eq_true_eq, bne_iff_ne] at h
    obtain ⟨⟨hx, _⟩, hr⟩ := h
    have hne : x ≠ a := by omega
    simp only [Memory.read, hne, if_false]
    exact ih hr (by omega)

theorem Memory.wfFrom_mono {m : Memory} {lo lo' : Nat} (h : m.wfFrom lo = true) (hl : lo' ≤ lo) : m.wfFrom lo' = true := by
  cases m with
  | nil => rfl
  | cons c rest =>
    obtain ⟨x, b⟩ := c
    simp only [Memory.wfFrom, Bool.and_eq_true, decide_eq_true_eq, bne_iff_ne] at h ⊢
    exact ⟨⟨by omega, h.1.2⟩, h.2⟩

/-- A write puts its byte at its address, in a canonical array. -/
theorem Memory.read_write_self {m : Memory} : ∀ {lo : Nat} (a : Nat) (b : Byte), m.wfFrom lo = true →
    (m.write a b).read a = b := by
  induction m with
  | nil => intro lo a b _; by_cases hb : b = Config.erasedByte <;> simp [Memory.write, Memory.read, hb]
  | cons c rest ih =>
    obtain ⟨x, y⟩ := c
    intro lo a b h
    simp only [Memory.wfFrom, Bool.and_eq_true, decide_eq_true_eq, bne_iff_ne] at h
    obtain ⟨⟨hx, hy⟩, hr⟩ := h
    simp only [Memory.write]
    split
    · rename_i hlt
      split
      · rename_i hb
        have hne : x ≠ a := by omega
        simp only [Memory.read, hne, if_false, hb]
        exact Memory.read_below hr (by omega)
      · simp [Memory.read]
    · split
      · rename_i hax
        subst hax
        split
        · rename_i hb
          rw [hb]; exact Memory.read_below hr (by omega)
        · simp [Memory.read]
      · rename_i hne
        have hne' : x ≠ a := fun e => hne e.symm
        simp only [Memory.read, hne', if_false]
        exact ih a b hr

/-- A write leaves every other address alone. -/
theorem Memory.read_write_ne (m : Memory) (a e : Nat) (b : Byte) (h : e ≠ a) : (m.write a b).read e = m.read e := by
  induction m with
  | nil => simp only [Memory.write]; split <;> simp [Memory.read, h.symm]
  | cons c rest ih =>
    obtain ⟨x, y⟩ := c
    simp only [Memory.write]
    split
    · split
      · rfl
      · simp [Memory.read, h.symm]
    · split
      · rename_i hax
        subst hax
        split <;> simp [Memory.read, h.symm]
      · simp only [Memory.read]
        split
        · rfl
        · exact ih

/-- What an erase leaves: the erased byte in the range, every other byte as it was (R127). -/
theorem Memory.read_eraseRange (m : Memory) (lo n a : Nat) :
    (m.eraseRange lo n).read a = if lo ≤ a ∧ a < lo + n then Config.erasedByte else m.read a := by
  induction m with
  | nil => simp [Memory.eraseRange, Memory.read]
  | cons c rest ih =>
    obtain ⟨x, y⟩ := c
    simp only [Memory.eraseRange, List.filter_cons] at ih ⊢
    by_cases hx : lo ≤ x ∧ x < lo + n
    · rw [if_neg (by simp [hx])]
      rw [ih]
      by_cases ha : lo ≤ a ∧ a < lo + n
      · simp [ha]
      · have hne : x ≠ a := fun e => ha (e ▸ hx)
        simp [ha, Memory.read, hne]
    · rw [if_pos (by simp only [Bool.not_eq_true', Bool.and_eq_false_iff, decide_eq_false_iff_not]; omega)]
      simp only [Memory.read]
      by_cases hxa : x = a
      · subst hxa; simp [hx]
      · simp only [hxa, if_false]; exact ih

/-! The canonical form. -/

theorem Memory.wfFrom_write {m : Memory} : ∀ {lo : Nat} (a : Nat) (b : Byte), m.wfFrom lo = true → lo ≤ a →
    (m.write a b).wfFrom lo = true := by
  induction m with
  | nil =>
    intro lo a b _ hl
    simp only [Memory.write]
    split
    · rfl
    · rename_i hb; simp [Memory.wfFrom, hl, hb]
  | cons c rest ih =>
    obtain ⟨x, y⟩ := c
    intro lo a b h hl
    have h0 := h
    simp only [Memory.wfFrom, Bool.and_eq_true, decide_eq_true_eq, bne_iff_ne] at h
    obtain ⟨⟨hx, hy⟩, hr⟩ := h
    simp only [Memory.write]
    split
    · rename_i hlt
      split
      · exact h0
      · rename_i hb
        simp only [Memory.wfFrom, Bool.and_eq_true, decide_eq_true_eq, bne_iff_ne]
        exact ⟨⟨hl, hb⟩, ⟨by omega, hy⟩, hr⟩
    · split
      · rename_i hax
        split
        · exact Memory.wfFrom_mono hr (by omega)
        · rename_i hb
          simp only [Memory.wfFrom, Bool.and_eq_true, decide_eq_true_eq, bne_iff_ne]
          exact ⟨⟨by omega, hb⟩, hax ▸ hr⟩
      · simp only [Memory.wfFrom, Bool.and_eq_true, decide_eq_true_eq, bne_iff_ne]
        exact ⟨⟨hx, hy⟩, ih a b hr (by omega)⟩

theorem Memory.wf_write {m : Memory} (a : Nat) (b : Byte) (h : m.wf = true) : (m.write a b).wf = true :=
  Memory.wfFrom_write a b h (Nat.zero_le a)

theorem Memory.wfFrom_eraseRange {m : Memory} (p n : Nat) : ∀ {lo : Nat}, m.wfFrom lo = true →
    (m.eraseRange p n).wfFrom lo = true := by
  induction m with
  | nil => intro lo _; rfl
  | cons c rest ih =>
    obtain ⟨x, y⟩ := c
    intro lo h
    simp only [Memory.wfFrom, Bool.and_eq_true, decide_eq_true_eq, bne_iff_ne] at h
    obtain ⟨⟨hx, hy⟩, hr⟩ := h
    simp only [Memory.eraseRange, List.filter_cons] at ih ⊢
    split
    · simp only [Memory.wfFrom, Bool.and_eq_true, decide_eq_true_eq, bne_iff_ne]
      exact ⟨⟨hx, hy⟩, ih hr⟩
    · exact Memory.wfFrom_mono (ih hr) (by omega)

theorem Memory.wf_eraseRange {m : Memory} (p n : Nat) (h : m.wf = true) : (m.eraseRange p n).wf = true :=
  Memory.wfFrom_eraseRange p n h

/-- Programming keeps the canonical form. -/
theorem programBytes_wf (data : List Byte) : ∀ {m : Memory} (a draws : Nat), m.wf = true →
    (programBytes m a data draws).1.wf = true := by
  induction data with
  | nil => intro m a draws h; exact h
  | cons b rest ih =>
    intro m a draws h
    simp only [programBytes]
    split
    · exact ih _ _ (Memory.wf_write a b h)
    · exact ih _ _ (Memory.wf_write a _ h)

/-- Programming leaves every byte outside the programmed range alone. -/
theorem programBytes_read_outside (data : List Byte) : ∀ (m : Memory) (a draws e : Nat),
    ¬ (a ≤ e ∧ e < a + data.length) → (programBytes m a data draws).1.read e = m.read e := by
  induction data with
  | nil => intro m a draws e _; rfl
  | cons b rest ih =>
    intro m a draws e h
    simp only [List.length_cons] at h
    have hne : e ≠ a := by omega
    have hout : ¬ (a + 1 ≤ e ∧ e < a + 1 + rest.length) := by omega
    simp only [programBytes]
    split
    · rw [ih _ _ _ _ hout, Memory.read_write_ne _ _ _ _ hne]
    · rw [ih _ _ _ _ hout, Memory.read_write_ne _ _ _ _ hne]

/-- Programming an erased range stores the data, and takes no free byte (R125). -/
theorem programBytes_erased (data : List Byte) : ∀ {m : Memory} (a draws : Nat), m.wf = true →
    (∀ i, i < data.length → m.read (a + i) = Config.erasedByte) →
    (programBytes m a data draws).2 = draws ∧
      ∀ i, i < data.length → (programBytes m a data draws).1.read (a + i) = data.getD i 0#8 := by
  induction data with
  | nil => intro m a draws _ _; exact ⟨rfl, fun i hi => absurd hi (by simp)⟩
  | cons b rest ih =>
    intro m a draws hwf h
    have h0 : m.read a = Config.erasedByte := by simpa using h 0 (by simp)
    have hrest : ∀ i, i < rest.length → (m.write a b).read (a + 1 + i) = Config.erasedByte := by
      intro i hi
      rw [Memory.read_write_ne _ _ _ _ (by omega)]
      have := h (i + 1) (by simpa using hi)
      rwa [show a + (i + 1) = a + 1 + i by omega] at this
    obtain ⟨hd, hr⟩ := ih (a + 1) draws (Memory.wf_write a b hwf) hrest
    simp only [programBytes, h0, if_true]
    refine ⟨hd, ?_⟩
    intro i hi
    cases i with
    | zero =>
      rw [Nat.add_zero, programBytes_read_outside _ _ _ _ _ (by omega)]
      simpa using Memory.read_write_self a b hwf
    | succ i =>
      have := hr i (by simpa using hi)
      rw [show a + (i + 1) = a + 1 + i by omega, this]
      simp

/-- Programming one byte of the range: the data byte where the byte was erased. -/
theorem programBytes_read_byte (data : List Byte) : ∀ {m : Memory} (a draws i : Nat), m.wf = true → i < data.length →
    m.read (a + i) = Config.erasedByte → (programBytes m a data draws).1.read (a + i) = data.getD i 0#8 := by
  induction data with
  | nil => intro m a draws i _ hi; exact absurd hi (by simp)
  | cons b rest ih =>
    intro m a draws i hwf hi he
    cases i with
    | zero =>
      have h0 : m.read a = Config.erasedByte := by simpa using he
      simp only [programBytes, h0, if_true]
      rw [Nat.add_zero, programBytes_read_outside _ _ _ _ _ (by omega)]
      simpa using Memory.read_write_self a b hwf
    | succ i =>
      have hi' : i < rest.length := by simpa using hi
      simp only [programBytes]
      rw [show a + (i + 1) = a + 1 + i by omega] at he ⊢
      have hne : a + 1 + i ≠ a := by omega
      split
      · rw [ih (a + 1) draws i (Memory.wf_write a b hwf) hi' (by rwa [Memory.read_write_ne _ _ _ _ hne])]; simp
      · rw [ih (a + 1) _ i (Memory.wf_write a _ hwf) hi' (by rwa [Memory.read_write_ne _ _ _ _ hne])]; simp

/-! The register map. -/

theorem regsLookup_regsStore_self (regs : List (Byte × List Byte)) (op : Byte) (bs : List Byte) :
    regsLookup (regsStore regs op bs) op = bs := by
  induction regs with
  | nil => simp [regsStore, regsLookup]
  | cons c rest ih =>
    obtain ⟨x, cs⟩ := c
    simp only [regsStore]
    split
    · simp [regsLookup]
    · split
      · simp [regsLookup]
      · rename_i h
        have : x ≠ op := fun e => h e.symm
        simp [regsLookup, this, ih]

theorem regsLookup_regsStore_ne (regs : List (Byte × List Byte)) (op op' : Byte) (bs : List Byte) (h : op' ≠ op) :
    regsLookup (regsStore regs op bs) op' = regsLookup regs op' := by
  induction regs with
  | nil => simp [regsStore, regsLookup, h.symm]
  | cons c rest ih =>
    obtain ⟨x, cs⟩ := c
    simp only [regsStore]
    split
    · simp [regsLookup, h.symm]
    · split
      · rename_i hx; subst hx; simp [regsLookup, h.symm]
      · simp only [regsLookup]; split
        · rfl
        · exact ih

theorem regsWfFrom_mono {regs : List (Byte × List Byte)} {lo lo' : Nat} (h : regsWfFrom lo regs = true) (hl : lo' ≤ lo) :
    regsWfFrom lo' regs = true := by
  cases regs with
  | nil => rfl
  | cons c rest =>
    obtain ⟨x, bs⟩ := c
    simp only [regsWfFrom, Bool.and_eq_true, decide_eq_true_eq] at h ⊢
    exact ⟨⟨⟨by omega, h.1.1.2⟩, h.1.2⟩, h.2⟩

theorem regsWfFrom_regsStore {regs : List (Byte × List Byte)} (op : Byte) (bs : List Byte) (h1 : 1 ≤ bs.length)
    (h2 : bs.length ≤ 2) : ∀ {lo : Nat}, regsWfFrom lo regs = true → lo ≤ op.toNat →
    regsWfFrom lo (regsStore regs op bs) = true := by
  induction regs with
  | nil => intro lo _ hl; simp [regsStore, regsWfFrom, h1, h2, hl]
  | cons c rest ih =>
    obtain ⟨x, cs⟩ := c
    intro lo h hl
    have h0 := h
    simp only [regsWfFrom, Bool.and_eq_true, decide_eq_true_eq] at h
    obtain ⟨⟨⟨hx, hc1⟩, hc2⟩, hr⟩ := h
    simp only [regsStore]
    split
    · simp only [regsWfFrom, Bool.and_eq_true, decide_eq_true_eq]
      exact ⟨⟨⟨hl, h1⟩, h2⟩, ⟨⟨by omega, hc1⟩, hc2⟩, hr⟩
    · split
      · rename_i hox
        subst hox
        simp only [regsWfFrom, Bool.and_eq_true, decide_eq_true_eq]
        exact ⟨⟨⟨hx, h1⟩, h2⟩, hr⟩
      · rename_i hn hne
        have : x.toNat ≠ op.toNat := fun e => hne (BitVec.eq_of_toNat_eq e.symm)
        simp only [regsWfFrom, Bool.and_eq_true, decide_eq_true_eq]
        exact ⟨⟨⟨hx, hc1⟩, hc2⟩, ih hr (by omega)⟩

theorem regsWf_regsStore {regs : List (Byte × List Byte)} (op : Byte) (bs : List Byte) (h1 : 1 ≤ bs.length)
    (h2 : bs.length ≤ 2) (h : regsWf regs = true) : regsWf (regsStore regs op bs) = true :=
  regsWfFrom_regsStore op bs h1 h2 h (Nat.zero_le _)

/-! The devices keep their stored data canonical. -/

theorem Device.wf_select {d : Device} (h : d.wf = true) : d.select.wf = true := by cases d <;> exact h

theorem Device.wf_put {d : Device} (b : Byte) (h : d.wf = true) : (d.put b).wf = true := by
  cases d with
  | refNor d =>
    simp only [Device.put, Device.wf, RefNor.put] at h ⊢
    split <;> exact h
  | simReg d =>
    simp only [Device.put, Device.wf, SimRegDev.put] at h ⊢
    split <;> exact h
  | absent => rfl

theorem Device.wf_advance {d : Device} (h : d.wf = true) : d.advance.wf = true := by cases d <;> exact h

theorem Device.wf_finish {d : Device} (h : d.wf = true) : d.finish.wf = true := by
  cases d with
  | refNor d =>
    simp only [Device.finish, Device.wf, RefNor.finish] at h ⊢
    split <;> exact h
  | simReg d => exact h
  | absent => rfl

theorem RefNor.commitProgram_wf {d e : RefNor} {size n draws draws' : Nat} {args : List Byte} (h : d.mem.wf = true)
    (hc : d.commitProgram size n args draws = .ok (e, draws')) : e.mem.wf = true := by
  simp only [RefNor.commitProgram] at hc
  split at hc
  · injection hc with hc; injection hc with hc _; exact hc ▸ h
  · split at hc
    · injection hc with hc
      injection hc with hc _
      subst hc
      exact programBytes_wf _ _ _ h
    · cases hc

theorem RefNor.commitErase_wf {d : RefNor} (size sector n : Nat) (args : List Byte) (h : d.mem.wf = true) :
    (d.commitErase size sector n args).mem.wf = true := by
  simp only [RefNor.commitErase]
  split
  · exact h
  · exact Memory.wf_eraseRange _ _ h

theorem RefNor.commit_wf {d e : RefNor} {cfg : Cfg} {size sector draws draws' : Nat} (h : d.mem.wf = true)
    (hc : d.commit cfg size sector draws = .ok (e, draws')) : e.mem.wf = true := by
  simp only [RefNor.commit] at hc
  split at hc
  · injection hc with hc; injection hc with hc _; exact hc ▸ h
  · split at hc
    · injection hc with hc
      injection hc with hc _
      subst hc
      simp only [RefNor.commitWren]
      split <;> exact h
    · split at hc
      · injection hc with hc
        injection hc with hc _
        subst hc
        simp only [RefNor.commitWrsr]
        split <;> exact h
      · split at hc
        · exact RefNor.commitProgram_wf h hc
        · split at hc
          · exact RefNor.commitProgram_wf h hc
          · split at hc
            · injection hc with hc
              injection hc with hc _
              exact hc ▸ RefNor.commitErase_wf _ _ _ _ h
            · split at hc
              · injection hc with hc
                injection hc with hc _
                exact hc ▸ RefNor.commitErase_wf _ _ _ _ h
              · injection hc with hc
                injection hc with hc _
                exact hc ▸ h

theorem Device.wf_deselect {d e : Device} {cfg : Cfg} {size sector draws draws' : Nat} (h : d.wf = true)
    (hc : d.deselect cfg size sector draws = .ok (e, draws')) : e.wf = true := by
  cases d with
  | refNor d =>
    simp only [Device.deselect] at hc
    split at hc
    · rename_i f k hf
      injection hc with hc
      injection hc with hc _
      subst hc
      simp only [RefNor.deselect] at hf
      split at hf
      · injection hf with hf
        injection hf with hf _
        exact hf ▸ h
      · exact RefNor.commit_wf (d := { d with frameOpen := false }) h hf
    · cases hc
  | simReg d =>
    simp only [Device.deselect] at hc
    injection hc with hc
    injection hc with hc _
    subst hc
    simp only [Device.wf, SimRegDev.deselect] at h ⊢
    split
    · split
      · rename_i hl
        obtain ⟨_, hl⟩ := hl
        exact regsWf_regsStore _ _ (by omega) (by omega) h
      · exact h
    · exact h
  | absent =>
    simp only [Device.deselect] at hc
    injection hc with hc
    injection hc with hc _
    exact hc ▸ rfl

/-- The arrays of the reset state are canonical. -/
theorem reset_memory_wf : State.reset.dev0.wf = true ∧ State.reset.dev1.wf = true := by decide

end Sys2Proof.Machine
end

