-- ==== Sys2Proof/Laws/State.lean ====
section
/-! SUPPORT. One lemma per field per named update of the state, so that no later proof unfolds an update. -/

namespace Sys2Proof.Machine

/-! `State.logged`. -/

@[simp] theorem State.logged_cfg (s : State) (d : Dir) (r : Reg) (v : Word) : (s.logged d r v).cfg = s.cfg := rfl
@[simp] theorem State.logged_gimr (s : State) (d : Dir) (r : Reg) (v : Word) : (s.logged d r v).gimr = s.gimr := rfl
@[simp] theorem State.logged_irr (s : State) (d : Dir) (r : Reg) (v : Word) : (s.logged d r v).irr = s.irr := rfl
@[simp] theorem State.logged_src (s : State) (d : Dir) (r : Reg) (v : Word) : (s.logged d r v).src = s.src := rfl
@[simp] theorem State.logged_lineState (s : State) (d : Dir) (r : Reg) (v : Word) :
    (s.logged d r v).lineState = s.lineState := rfl
@[simp] theorem State.logged_handler (s : State) (d : Dir) (r : Reg) (v : Word) : (s.logged d r v).handler = s.handler := rfl
@[simp] theorem State.logged_irqLock (s : State) (d : Dir) (r : Reg) (v : Word) : (s.logged d r v).irqLock = s.irqLock := rfl
@[simp] theorem State.logged_spuriousCount (s : State) (d : Dir) (r : Reg) (v : Word) :
    (s.logged d r v).spuriousCount = s.spuriousCount := rfl
@[simp] theorem State.logged_sfcr (s : State) (d : Dir) (r : Reg) (v : Word) : (s.logged d r v).sfcr = s.sfcr := rfl
@[simp] theorem State.logged_sfcr2 (s : State) (d : Dir) (r : Reg) (v : Word) : (s.logged d r v).sfcr2 = s.sfcr2 := rfl
@[simp] theorem State.logged_csb0 (s : State) (d : Dir) (r : Reg) (v : Word) : (s.logged d r v).csb0 = s.csb0 := rfl
@[simp] theorem State.logged_csb1 (s : State) (d : Dir) (r : Reg) (v : Word) : (s.logged d r v).csb1 = s.csb1 := rfl
@[simp] theorem State.logged_len (s : State) (d : Dir) (r : Reg) (v : Word) : (s.logged d r v).len = s.len := rfl
@[simp] theorem State.logged_busy (s : State) (d : Dir) (r : Reg) (v : Word) : (s.logged d r v).busy = s.busy := rfl
@[simp] theorem State.logged_wedged (s : State) (d : Dir) (r : Reg) (v : Word) : (s.logged d r v).wedged = s.wedged := rfl
@[simp] theorem State.logged_ctrl (s : State) (d : Dir) (r : Reg) (v : Word) : (s.logged d r v).ctrl = s.ctrl := rfl
@[simp] theorem State.logged_spiMutex (s : State) (d : Dir) (r : Reg) (v : Word) :
    (s.logged d r v).spiMutex = s.spiMutex := rfl
@[simp] theorem State.logged_spiCaller (s : State) (d : Dir) (r : Reg) (v : Word) :
    (s.logged d r v).spiCaller = s.spiCaller := rfl
@[simp] theorem State.logged_dev0 (s : State) (d : Dir) (r : Reg) (v : Word) : (s.logged d r v).dev0 = s.dev0 := rfl
@[simp] theorem State.logged_dev1 (s : State) (d : Dir) (r : Reg) (v : Word) : (s.logged d r v).dev1 = s.dev1 := rfl
@[simp] theorem State.logged_log (s : State) (d : Dir) (r : Reg) (v : Word) :
    (s.logged d r v).log = s.log ++ [⟨d, r, v⟩] := rfl
@[simp] theorem State.logged_ctx (s : State) (d : Dir) (r : Reg) (v : Word) : (s.logged d r v).ctx = s.ctx := rfl
@[simp] theorem State.logged_program (s : State) (d : Dir) (r : Reg) (v : Word) : (s.logged d r v).program = s.program := rfl
@[simp] theorem State.logged_schedule (s : State) (d : Dir) (r : Reg) (v : Word) :
    (s.logged d r v).schedule = s.schedule := rfl
@[simp] theorem State.logged_patience (s : State) (d : Dir) (r : Reg) (v : Word) :
    (s.logged d r v).patience = s.patience := rfl
@[simp] theorem State.logged_draws (s : State) (d : Dir) (r : Reg) (v : Word) : (s.logged d r v).draws = s.draws := rfl
@[simp] theorem State.logged_picks (s : State) (d : Dir) (r : Reg) (v : Word) : (s.logged d r v).picks = s.picks := rfl
@[simp] theorem State.logged_result (s : State) (d : Dir) (r : Reg) (v : Word) : (s.logged d r v).result = s.result := rfl
@[simp] theorem State.logged_calls (s : State) (d : Dir) (r : Reg) (v : Word) : (s.logged d r v).calls = s.calls := rfl
@[simp] theorem State.logged_returned (s : State) (d : Dir) (r : Reg) (v : Word) :
    (s.logged d r v).returned = s.returned := rfl
@[simp] theorem State.logged_frameworkCalls (s : State) (d : Dir) (r : Reg) (v : Word) :
    (s.logged d r v).frameworkCalls = s.frameworkCalls := rfl
@[simp] theorem State.logged_dev (s : State) (d : Dir) (r : Reg) (v : Word) (e : ChipSel) :
    (s.logged d r v).dev e = s.dev e := by cases e <;> rfl
@[simp] theorem State.logged_sel (s : State) (d : Dir) (r : Reg) (v : Word) : (s.logged d r v).sel = s.sel := rfl

/-! `State.setLine`. -/

@[simp] theorem State.setLine_cfg (s : State) (k : Fin 8) (l : LineState) : (s.setLine k l).cfg = s.cfg := rfl
@[simp] theorem State.setLine_gimr (s : State) (k : Fin 8) (l : LineState) : (s.setLine k l).gimr = s.gimr := rfl
@[simp] theorem State.setLine_irr (s : State) (k : Fin 8) (l : LineState) : (s.setLine k l).irr = s.irr := rfl
@[simp] theorem State.setLine_src (s : State) (k : Fin 8) (l : LineState) : (s.setLine k l).src = s.src := rfl
@[simp] theorem State.setLine_lineState (s : State) (k : Fin 8) (l : LineState) :
    (s.setLine k l).lineState = s.lineState.set k l := rfl
@[simp] theorem State.setLine_handler (s : State) (k : Fin 8) (l : LineState) : (s.setLine k l).handler = s.handler := rfl
@[simp] theorem State.setLine_irqLock (s : State) (k : Fin 8) (l : LineState) : (s.setLine k l).irqLock = s.irqLock := rfl
@[simp] theorem State.setLine_spuriousCount (s : State) (k : Fin 8) (l : LineState) :
    (s.setLine k l).spuriousCount = s.spuriousCount := rfl
@[simp] theorem State.setLine_sfcr (s : State) (k : Fin 8) (l : LineState) : (s.setLine k l).sfcr = s.sfcr := rfl
@[simp] theorem State.setLine_sfcr2 (s : State) (k : Fin 8) (l : LineState) : (s.setLine k l).sfcr2 = s.sfcr2 := rfl
@[simp] theorem State.setLine_csb0 (s : State) (k : Fin 8) (l : LineState) : (s.setLine k l).csb0 = s.csb0 := rfl
@[simp] theorem State.setLine_csb1 (s : State) (k : Fin 8) (l : LineState) : (s.setLine k l).csb1 = s.csb1 := rfl
@[simp] theorem State.setLine_len (s : State) (k : Fin 8) (l : LineState) : (s.setLine k l).len = s.len := rfl
@[simp] theorem State.setLine_busy (s : State) (k : Fin 8) (l : LineState) : (s.setLine k l).busy = s.busy := rfl
@[simp] theorem State.setLine_wedged (s : State) (k : Fin 8) (l : LineState) : (s.setLine k l).wedged = s.wedged := rfl
@[simp] theorem State.setLine_ctrl (s : State) (k : Fin 8) (l : LineState) : (s.setLine k l).ctrl = s.ctrl := rfl
@[simp] theorem State.setLine_spiMutex (s : State) (k : Fin 8) (l : LineState) : (s.setLine k l).spiMutex = s.spiMutex := rfl
@[simp] theorem State.setLine_spiCaller (s : State) (k : Fin 8) (l : LineState) :
    (s.setLine k l).spiCaller = s.spiCaller := rfl
@[simp] theorem State.setLine_dev0 (s : State) (k : Fin 8) (l : LineState) : (s.setLine k l).dev0 = s.dev0 := rfl
@[simp] theorem State.setLine_dev1 (s : State) (k : Fin 8) (l : LineState) : (s.setLine k l).dev1 = s.dev1 := rfl
@[simp] theorem State.setLine_log (s : State) (k : Fin 8) (l : LineState) : (s.setLine k l).log = s.log := rfl
@[simp] theorem State.setLine_ctx (s : State) (k : Fin 8) (l : LineState) : (s.setLine k l).ctx = s.ctx := rfl
@[simp] theorem State.setLine_program (s : State) (k : Fin 8) (l : LineState) : (s.setLine k l).program = s.program := rfl
@[simp] theorem State.setLine_schedule (s : State) (k : Fin 8) (l : LineState) : (s.setLine k l).schedule = s.schedule := rfl
@[simp] theorem State.setLine_patience (s : State) (k : Fin 8) (l : LineState) : (s.setLine k l).patience = s.patience := rfl
@[simp] theorem State.setLine_draws (s : State) (k : Fin 8) (l : LineState) : (s.setLine k l).draws = s.draws := rfl
@[simp] theorem State.setLine_picks (s : State) (k : Fin 8) (l : LineState) : (s.setLine k l).picks = s.picks := rfl
@[simp] theorem State.setLine_result (s : State) (k : Fin 8) (l : LineState) : (s.setLine k l).result = s.result := rfl
@[simp] theorem State.setLine_calls (s : State) (k : Fin 8) (l : LineState) : (s.setLine k l).calls = s.calls := rfl
@[simp] theorem State.setLine_returned (s : State) (k : Fin 8) (l : LineState) : (s.setLine k l).returned = s.returned := rfl
@[simp] theorem State.setLine_frameworkCalls (s : State) (k : Fin 8) (l : LineState) :
    (s.setLine k l).frameworkCalls = s.frameworkCalls := rfl
@[simp] theorem State.setLine_dev (s : State) (k : Fin 8) (l : LineState) (e : ChipSel) :
    (s.setLine k l).dev e = s.dev e := by cases e <;> rfl
@[simp] theorem State.setLine_sel (s : State) (k : Fin 8) (l : LineState) : (s.setLine k l).sel = s.sel := rfl

/-! `State.countSpurious`. -/

@[simp] theorem State.countSpurious_cfg (s : State) : s.countSpurious.cfg = s.cfg := rfl
@[simp] theorem State.countSpurious_gimr (s : State) : s.countSpurious.gimr = s.gimr := rfl
@[simp] theorem State.countSpurious_irr (s : State) : s.countSpurious.irr = s.irr := rfl
@[simp] theorem State.countSpurious_src (s : State) : s.countSpurious.src = s.src := rfl
@[simp] theorem State.countSpurious_lineState (s : State) : s.countSpurious.lineState = s.lineState := rfl
@[simp] theorem State.countSpurious_handler (s : State) : s.countSpurious.handler = s.handler := rfl
@[simp] theorem State.countSpurious_irqLock (s : State) : s.countSpurious.irqLock = s.irqLock := rfl
@[simp] theorem State.countSpurious_spuriousCount (s : State) : s.countSpurious.spuriousCount = s.spuriousCount + 1 := rfl
@[simp] theorem State.countSpurious_sfcr (s : State) : s.countSpurious.sfcr = s.sfcr := rfl
@[simp] theorem State.countSpurious_sfcr2 (s : State) : s.countSpurious.sfcr2 = s.sfcr2 := rfl
@[simp] theorem State.countSpurious_csb0 (s : State) : s.countSpurious.csb0 = s.csb0 := rfl
@[simp] theorem State.countSpurious_csb1 (s : State) : s.countSpurious.csb1 = s.csb1 := rfl
@[simp] theorem State.countSpurious_len (s : State) : s.countSpurious.len = s.len := rfl
@[simp] theorem State.countSpurious_busy (s : State) : s.countSpurious.busy = s.busy := rfl
@[simp] theorem State.countSpurious_wedged (s : State) : s.countSpurious.wedged = s.wedged := rfl
@[simp] theorem State.countSpurious_ctrl (s : State) : s.countSpurious.ctrl = s.ctrl := rfl
@[simp] theorem State.countSpurious_spiMutex (s : State) : s.countSpurious.spiMutex = s.spiMutex := rfl
@[simp] theorem State.countSpurious_spiCaller (s : State) : s.countSpurious.spiCaller = s.spiCaller := rfl
@[simp] theorem State.countSpurious_dev0 (s : State) : s.countSpurious.dev0 = s.dev0 := rfl
@[simp] theorem State.countSpurious_dev1 (s : State) : s.countSpurious.dev1 = s.dev1 := rfl
@[simp] theorem State.countSpurious_log (s : State) : s.countSpurious.log = s.log := rfl
@[simp] theorem State.countSpurious_ctx (s : State) : s.countSpurious.ctx = s.ctx := rfl
@[simp] theorem State.countSpurious_program (s : State) : s.countSpurious.program = s.program := rfl
@[simp] theorem State.countSpurious_schedule (s : State) : s.countSpurious.schedule = s.schedule := rfl
@[simp] theorem State.countSpurious_patience (s : State) : s.countSpurious.patience = s.patience := rfl
@[simp] theorem State.countSpurious_draws (s : State) : s.countSpurious.draws = s.draws := rfl
@[simp] theorem State.countSpurious_picks (s : State) : s.countSpurious.picks = s.picks := rfl
@[simp] theorem State.countSpurious_result (s : State) : s.countSpurious.result = s.result := rfl
@[simp] theorem State.countSpurious_calls (s : State) : s.countSpurious.calls = s.calls := rfl
@[simp] theorem State.countSpurious_returned (s : State) : s.countSpurious.returned = s.returned := rfl
@[simp] theorem State.countSpurious_frameworkCalls (s : State) : s.countSpurious.frameworkCalls = s.frameworkCalls := rfl
@[simp] theorem State.countSpurious_dev (s : State) (e : ChipSel) : s.countSpurious.dev e = s.dev e := by cases e <;> rfl
@[simp] theorem State.countSpurious_sel (s : State) : s.countSpurious.sel = s.sel := rfl

/-! `State.frameworkDispatch`. -/

@[simp] theorem State.frameworkDispatch_cfg (s : State) (n : Nat) : (s.frameworkDispatch n).cfg = s.cfg := rfl
@[simp] theorem State.frameworkDispatch_gimr (s : State) (n : Nat) : (s.frameworkDispatch n).gimr = s.gimr := rfl
@[simp] theorem State.frameworkDispatch_irr (s : State) (n : Nat) : (s.frameworkDispatch n).irr = s.irr := rfl
@[simp] theorem State.frameworkDispatch_src (s : State) (n : Nat) : (s.frameworkDispatch n).src = s.src := rfl
@[simp] theorem State.frameworkDispatch_lineState (s : State) (n : Nat) :
    (s.frameworkDispatch n).lineState = s.lineState := rfl
@[simp] theorem State.frameworkDispatch_handler (s : State) (n : Nat) : (s.frameworkDispatch n).handler = s.handler := rfl
@[simp] theorem State.frameworkDispatch_irqLock (s : State) (n : Nat) : (s.frameworkDispatch n).irqLock = s.irqLock := rfl
@[simp] theorem State.frameworkDispatch_spuriousCount (s : State) (n : Nat) :
    (s.frameworkDispatch n).spuriousCount = s.spuriousCount := rfl
@[simp] theorem State.frameworkDispatch_sfcr (s : State) (n : Nat) : (s.frameworkDispatch n).sfcr = s.sfcr := rfl
@[simp] theorem State.frameworkDispatch_sfcr2 (s : State) (n : Nat) : (s.frameworkDispatch n).sfcr2 = s.sfcr2 := rfl
@[simp] theorem State.frameworkDispatch_csb0 (s : State) (n : Nat) : (s.frameworkDispatch n).csb0 = s.csb0 := rfl
@[simp] theorem State.frameworkDispatch_csb1 (s : State) (n : Nat) : (s.frameworkDispatch n).csb1 = s.csb1 := rfl
@[simp] theorem State.frameworkDispatch_len (s : State) (n : Nat) : (s.frameworkDispatch n).len = s.len := rfl
@[simp] theorem State.frameworkDispatch_busy (s : State) (n : Nat) : (s.frameworkDispatch n).busy = s.busy := rfl
@[simp] theorem State.frameworkDispatch_wedged (s : State) (n : Nat) : (s.frameworkDispatch n).wedged = s.wedged := rfl
@[simp] theorem State.frameworkDispatch_ctrl (s : State) (n : Nat) : (s.frameworkDispatch n).ctrl = s.ctrl := rfl
@[simp] theorem State.frameworkDispatch_spiMutex (s : State) (n : Nat) : (s.frameworkDispatch n).spiMutex = s.spiMutex := rfl
@[simp] theorem State.frameworkDispatch_spiCaller (s : State) (n : Nat) :
    (s.frameworkDispatch n).spiCaller = s.spiCaller := rfl
@[simp] theorem State.frameworkDispatch_dev0 (s : State) (n : Nat) : (s.frameworkDispatch n).dev0 = s.dev0 := rfl
@[simp] theorem State.frameworkDispatch_dev1 (s : State) (n : Nat) : (s.frameworkDispatch n).dev1 = s.dev1 := rfl
@[simp] theorem State.frameworkDispatch_log (s : State) (n : Nat) : (s.frameworkDispatch n).log = s.log := rfl
@[simp] theorem State.frameworkDispatch_ctx (s : State) (n : Nat) : (s.frameworkDispatch n).ctx = s.ctx := rfl
@[simp] theorem State.frameworkDispatch_program (s : State) (n : Nat) : (s.frameworkDispatch n).program = s.program := rfl
@[simp] theorem State.frameworkDispatch_schedule (s : State) (n : Nat) : (s.frameworkDispatch n).schedule = s.schedule := rfl
@[simp] theorem State.frameworkDispatch_patience (s : State) (n : Nat) : (s.frameworkDispatch n).patience = s.patience := rfl
@[simp] theorem State.frameworkDispatch_draws (s : State) (n : Nat) : (s.frameworkDispatch n).draws = s.draws := rfl
@[simp] theorem State.frameworkDispatch_picks (s : State) (n : Nat) : (s.frameworkDispatch n).picks = s.picks := rfl
@[simp] theorem State.frameworkDispatch_result (s : State) (n : Nat) : (s.frameworkDispatch n).result = s.result := rfl
@[simp] theorem State.frameworkDispatch_calls (s : State) (n : Nat) : (s.frameworkDispatch n).calls = s.calls := rfl
@[simp] theorem State.frameworkDispatch_returned (s : State) (n : Nat) : (s.frameworkDispatch n).returned = s.returned := rfl
@[simp] theorem State.frameworkDispatch_frameworkCalls (s : State) (n : Nat) :
    (s.frameworkDispatch n).frameworkCalls = s.frameworkCalls ++ [(n, s.handlerOf n)] := rfl
@[simp] theorem State.frameworkDispatch_dev (s : State) (n : Nat) (e : ChipSel) :
    (s.frameworkDispatch n).dev e = s.dev e := by cases e <;> rfl
@[simp] theorem State.frameworkDispatch_sel (s : State) (n : Nat) : (s.frameworkDispatch n).sel = s.sel := rfl

/-! `State.draw`. -/

@[simp] theorem State.draw_cfg (s : State) : s.draw.2.cfg = s.cfg := rfl
@[simp] theorem State.draw_gimr (s : State) : s.draw.2.gimr = s.gimr := rfl
@[simp] theorem State.draw_irr (s : State) : s.draw.2.irr = s.irr := rfl
@[simp] theorem State.draw_src (s : State) : s.draw.2.src = s.src := rfl
@[simp] theorem State.draw_lineState (s : State) : s.draw.2.lineState = s.lineState := rfl
@[simp] theorem State.draw_handler (s : State) : s.draw.2.handler = s.handler := rfl
@[simp] theorem State.draw_irqLock (s : State) : s.draw.2.irqLock = s.irqLock := rfl
@[simp] theorem State.draw_spuriousCount (s : State) : s.draw.2.spuriousCount = s.spuriousCount := rfl
@[simp] theorem State.draw_sfcr (s : State) : s.draw.2.sfcr = s.sfcr := rfl
@[simp] theorem State.draw_sfcr2 (s : State) : s.draw.2.sfcr2 = s.sfcr2 := rfl
@[simp] theorem State.draw_csb0 (s : State) : s.draw.2.csb0 = s.csb0 := rfl
@[simp] theorem State.draw_csb1 (s : State) : s.draw.2.csb1 = s.csb1 := rfl
@[simp] theorem State.draw_len (s : State) : s.draw.2.len = s.len := rfl
@[simp] theorem State.draw_busy (s : State) : s.draw.2.busy = s.busy := rfl
@[simp] theorem State.draw_wedged (s : State) : s.draw.2.wedged = s.wedged := rfl
@[simp] theorem State.draw_ctrl (s : State) : s.draw.2.ctrl = s.ctrl := rfl
@[simp] theorem State.draw_spiMutex (s : State) : s.draw.2.spiMutex = s.spiMutex := rfl
@[simp] theorem State.draw_spiCaller (s : State) : s.draw.2.spiCaller = s.spiCaller := rfl
@[simp] theorem State.draw_dev0 (s : State) : s.draw.2.dev0 = s.dev0 := rfl
@[simp] theorem State.draw_dev1 (s : State) : s.draw.2.dev1 = s.dev1 := rfl
@[simp] theorem State.draw_log (s : State) : s.draw.2.log = s.log := rfl
@[simp] theorem State.draw_ctx (s : State) : s.draw.2.ctx = s.ctx := rfl
@[simp] theorem State.draw_program (s : State) : s.draw.2.program = s.program := rfl
@[simp] theorem State.draw_schedule (s : State) : s.draw.2.schedule = s.schedule := rfl
@[simp] theorem State.draw_patience (s : State) : s.draw.2.patience = s.patience := rfl
@[simp] theorem State.draw_draws (s : State) : s.draw.2.draws = s.draws + 1 := rfl
@[simp] theorem State.draw_picks (s : State) : s.draw.2.picks = s.picks := rfl
@[simp] theorem State.draw_result (s : State) : s.draw.2.result = s.result := rfl
@[simp] theorem State.draw_calls (s : State) : s.draw.2.calls = s.calls := rfl
@[simp] theorem State.draw_returned (s : State) : s.draw.2.returned = s.returned := rfl
@[simp] theorem State.draw_frameworkCalls (s : State) : s.draw.2.frameworkCalls = s.frameworkCalls := rfl
@[simp] theorem State.draw_dev (s : State) (e : ChipSel) : s.draw.2.dev e = s.dev e := by cases e <;> rfl
@[simp] theorem State.draw_sel (s : State) : s.draw.2.sel = s.sel := rfl

/-! `State.issued`. -/

@[simp] theorem State.issued_cfg (s : State) (c : Nat) (p : List Issue) : (s.issued c p).cfg = s.cfg := rfl
@[simp] theorem State.issued_gimr (s : State) (c : Nat) (p : List Issue) : (s.issued c p).gimr = s.gimr := rfl
@[simp] theorem State.issued_irr (s : State) (c : Nat) (p : List Issue) : (s.issued c p).irr = s.irr := rfl
@[simp] theorem State.issued_src (s : State) (c : Nat) (p : List Issue) : (s.issued c p).src = s.src := rfl
@[simp] theorem State.issued_lineState (s : State) (c : Nat) (p : List Issue) : (s.issued c p).lineState = s.lineState := rfl
@[simp] theorem State.issued_handler (s : State) (c : Nat) (p : List Issue) : (s.issued c p).handler = s.handler := rfl
@[simp] theorem State.issued_irqLock (s : State) (c : Nat) (p : List Issue) : (s.issued c p).irqLock = s.irqLock := rfl
@[simp] theorem State.issued_spuriousCount (s : State) (c : Nat) (p : List Issue) :
    (s.issued c p).spuriousCount = s.spuriousCount := rfl
@[simp] theorem State.issued_sfcr (s : State) (c : Nat) (p : List Issue) : (s.issued c p).sfcr = s.sfcr := rfl
@[simp] theorem State.issued_sfcr2 (s : State) (c : Nat) (p : List Issue) : (s.issued c p).sfcr2 = s.sfcr2 := rfl
@[simp] theorem State.issued_csb0 (s : State) (c : Nat) (p : List Issue) : (s.issued c p).csb0 = s.csb0 := rfl
@[simp] theorem State.issued_csb1 (s : State) (c : Nat) (p : List Issue) : (s.issued c p).csb1 = s.csb1 := rfl
@[simp] theorem State.issued_len (s : State) (c : Nat) (p : List Issue) : (s.issued c p).len = s.len := rfl
@[simp] theorem State.issued_busy (s : State) (c : Nat) (p : List Issue) : (s.issued c p).busy = s.busy := rfl
@[simp] theorem State.issued_wedged (s : State) (c : Nat) (p : List Issue) : (s.issued c p).wedged = s.wedged := rfl
@[simp] theorem State.issued_ctrl (s : State) (c : Nat) (p : List Issue) : (s.issued c p).ctrl = s.ctrl := rfl
@[simp] theorem State.issued_spiMutex (s : State) (c : Nat) (p : List Issue) : (s.issued c p).spiMutex = s.spiMutex := rfl
@[simp] theorem State.issued_spiCaller (s : State) (c : Nat) (p : List Issue) :
    (s.issued c p).spiCaller = s.spiCaller := rfl
@[simp] theorem State.issued_dev0 (s : State) (c : Nat) (p : List Issue) : (s.issued c p).dev0 = s.dev0 := rfl
@[simp] theorem State.issued_dev1 (s : State) (c : Nat) (p : List Issue) : (s.issued c p).dev1 = s.dev1 := rfl
@[simp] theorem State.issued_log (s : State) (c : Nat) (p : List Issue) : (s.issued c p).log = s.log := rfl
@[simp] theorem State.issued_ctx (s : State) (c : Nat) (p : List Issue) : (s.issued c p).ctx = c := rfl
@[simp] theorem State.issued_program (s : State) (c : Nat) (p : List Issue) : (s.issued c p).program = p := rfl
@[simp] theorem State.issued_schedule (s : State) (c : Nat) (p : List Issue) : (s.issued c p).schedule = s.schedule := rfl
@[simp] theorem State.issued_patience (s : State) (c : Nat) (p : List Issue) : (s.issued c p).patience = s.patience := rfl
@[simp] theorem State.issued_draws (s : State) (c : Nat) (p : List Issue) : (s.issued c p).draws = s.draws := rfl
@[simp] theorem State.issued_picks (s : State) (c : Nat) (p : List Issue) : (s.issued c p).picks = s.picks := rfl
@[simp] theorem State.issued_result (s : State) (c : Nat) (p : List Issue) : (s.issued c p).result = s.result := rfl
@[simp] theorem State.issued_calls (s : State) (c : Nat) (p : List Issue) : (s.issued c p).calls = s.calls := rfl
@[simp] theorem State.issued_returned (s : State) (c : Nat) (p : List Issue) : (s.issued c p).returned = s.returned := rfl
@[simp] theorem State.issued_frameworkCalls (s : State) (c : Nat) (p : List Issue) :
    (s.issued c p).frameworkCalls = s.frameworkCalls := rfl
@[simp] theorem State.issued_dev (s : State) (c : Nat) (p : List Issue) (e : ChipSel) :
    (s.issued c p).dev e = s.dev e := by cases e <;> rfl
@[simp] theorem State.issued_sel (s : State) (c : Nat) (p : List Issue) : (s.issued c p).sel = s.sel := rfl

/-! `State.withSelects`. -/

@[simp] theorem State.withSelects_cfg (s : State) (a b : Bool) : (s.withSelects a b).cfg = s.cfg := rfl
@[simp] theorem State.withSelects_gimr (s : State) (a b : Bool) : (s.withSelects a b).gimr = s.gimr := rfl
@[simp] theorem State.withSelects_irr (s : State) (a b : Bool) : (s.withSelects a b).irr = s.irr := rfl
@[simp] theorem State.withSelects_src (s : State) (a b : Bool) : (s.withSelects a b).src = s.src := rfl
@[simp] theorem State.withSelects_lineState (s : State) (a b : Bool) : (s.withSelects a b).lineState = s.lineState := rfl
@[simp] theorem State.withSelects_handler (s : State) (a b : Bool) : (s.withSelects a b).handler = s.handler := rfl
@[simp] theorem State.withSelects_irqLock (s : State) (a b : Bool) : (s.withSelects a b).irqLock = s.irqLock := rfl
@[simp] theorem State.withSelects_spuriousCount (s : State) (a b : Bool) :
    (s.withSelects a b).spuriousCount = s.spuriousCount := rfl
@[simp] theorem State.withSelects_sfcr (s : State) (a b : Bool) : (s.withSelects a b).sfcr = s.sfcr := rfl
@[simp] theorem State.withSelects_sfcr2 (s : State) (a b : Bool) : (s.withSelects a b).sfcr2 = s.sfcr2 := rfl
@[simp] theorem State.withSelects_csb0 (s : State) (a b : Bool) : (s.withSelects a b).csb0 = a := rfl
@[simp] theorem State.withSelects_csb1 (s : State) (a b : Bool) : (s.withSelects a b).csb1 = b := rfl
@[simp] theorem State.withSelects_len (s : State) (a b : Bool) : (s.withSelects a b).len = s.len := rfl
@[simp] theorem State.withSelects_busy (s : State) (a b : Bool) : (s.withSelects a b).busy = s.busy := rfl
@[simp] theorem State.withSelects_wedged (s : State) (a b : Bool) : (s.withSelects a b).wedged = s.wedged := rfl
@[simp] theorem State.withSelects_ctrl (s : State) (a b : Bool) : (s.withSelects a b).ctrl = s.ctrl := rfl
@[simp] theorem State.withSelects_spiMutex (s : State) (a b : Bool) : (s.withSelects a b).spiMutex = s.spiMutex := rfl
@[simp] theorem State.withSelects_spiCaller (s : State) (a b : Bool) :
    (s.withSelects a b).spiCaller = s.spiCaller := rfl
@[simp] theorem State.withSelects_dev0 (s : State) (a b : Bool) : (s.withSelects a b).dev0 = s.dev0 := rfl
@[simp] theorem State.withSelects_dev1 (s : State) (a b : Bool) : (s.withSelects a b).dev1 = s.dev1 := rfl
@[simp] theorem State.withSelects_log (s : State) (a b : Bool) : (s.withSelects a b).log = s.log := rfl
@[simp] theorem State.withSelects_ctx (s : State) (a b : Bool) : (s.withSelects a b).ctx = s.ctx := rfl
@[simp] theorem State.withSelects_program (s : State) (a b : Bool) : (s.withSelects a b).program = s.program := rfl
@[simp] theorem State.withSelects_schedule (s : State) (a b : Bool) : (s.withSelects a b).schedule = s.schedule := rfl
@[simp] theorem State.withSelects_patience (s : State) (a b : Bool) : (s.withSelects a b).patience = s.patience := rfl
@[simp] theorem State.withSelects_draws (s : State) (a b : Bool) : (s.withSelects a b).draws = s.draws := rfl
@[simp] theorem State.withSelects_picks (s : State) (a b : Bool) : (s.withSelects a b).picks = s.picks := rfl
@[simp] theorem State.withSelects_result (s : State) (a b : Bool) : (s.withSelects a b).result = s.result := rfl
@[simp] theorem State.withSelects_calls (s : State) (a b : Bool) : (s.withSelects a b).calls = s.calls := rfl
@[simp] theorem State.withSelects_returned (s : State) (a b : Bool) : (s.withSelects a b).returned = s.returned := rfl
@[simp] theorem State.withSelects_frameworkCalls (s : State) (a b : Bool) :
    (s.withSelects a b).frameworkCalls = s.frameworkCalls := rfl
@[simp] theorem State.withSelects_dev (s : State) (a b : Bool) (e : ChipSel) :
    (s.withSelects a b).dev e = s.dev e := by cases e <;> rfl
@[simp] theorem State.withSelects_sel (s : State) (a b : Bool) : (s.withSelects a b).sel = selOf a b := rfl

/-! `State.withWidth`. -/

@[simp] theorem State.withWidth_cfg (s : State) (k : BitVec 2) : (s.withWidth k).cfg = s.cfg := rfl
@[simp] theorem State.withWidth_gimr (s : State) (k : BitVec 2) : (s.withWidth k).gimr = s.gimr := rfl
@[simp] theorem State.withWidth_irr (s : State) (k : BitVec 2) : (s.withWidth k).irr = s.irr := rfl
@[simp] theorem State.withWidth_src (s : State) (k : BitVec 2) : (s.withWidth k).src = s.src := rfl
@[simp] theorem State.withWidth_lineState (s : State) (k : BitVec 2) : (s.withWidth k).lineState = s.lineState := rfl
@[simp] theorem State.withWidth_handler (s : State) (k : BitVec 2) : (s.withWidth k).handler = s.handler := rfl
@[simp] theorem State.withWidth_irqLock (s : State) (k : BitVec 2) : (s.withWidth k).irqLock = s.irqLock := rfl
@[simp] theorem State.withWidth_spuriousCount (s : State) (k : BitVec 2) :
    (s.withWidth k).spuriousCount = s.spuriousCount := rfl
@[simp] theorem State.withWidth_sfcr (s : State) (k : BitVec 2) : (s.withWidth k).sfcr = s.sfcr := rfl
@[simp] theorem State.withWidth_sfcr2 (s : State) (k : BitVec 2) : (s.withWidth k).sfcr2 = s.sfcr2 := rfl
@[simp] theorem State.withWidth_csb0 (s : State) (k : BitVec 2) : (s.withWidth k).csb0 = s.csb0 := rfl
@[simp] theorem State.withWidth_csb1 (s : State) (k : BitVec 2) : (s.withWidth k).csb1 = s.csb1 := rfl
@[simp] theorem State.withWidth_len (s : State) (k : BitVec 2) : (s.withWidth k).len = k := rfl
@[simp] theorem State.withWidth_busy (s : State) (k : BitVec 2) : (s.withWidth k).busy = true := rfl
@[simp] theorem State.withWidth_wedged (s : State) (k : BitVec 2) : (s.withWidth k).wedged = s.wedged := rfl
@[simp] theorem State.withWidth_ctrl (s : State) (k : BitVec 2) : (s.withWidth k).ctrl = s.ctrl := rfl
@[simp] theorem State.withWidth_spiMutex (s : State) (k : BitVec 2) : (s.withWidth k).spiMutex = s.spiMutex := rfl
@[simp] theorem State.withWidth_spiCaller (s : State) (k : BitVec 2) : (s.withWidth k).spiCaller = s.spiCaller := rfl
@[simp] theorem State.withWidth_dev0 (s : State) (k : BitVec 2) : (s.withWidth k).dev0 = s.dev0 := rfl
@[simp] theorem State.withWidth_dev1 (s : State) (k : BitVec 2) : (s.withWidth k).dev1 = s.dev1 := rfl
@[simp] theorem State.withWidth_log (s : State) (k : BitVec 2) : (s.withWidth k).log = s.log := rfl
@[simp] theorem State.withWidth_ctx (s : State) (k : BitVec 2) : (s.withWidth k).ctx = s.ctx := rfl
@[simp] theorem State.withWidth_program (s : State) (k : BitVec 2) : (s.withWidth k).program = s.program := rfl
@[simp] theorem State.withWidth_schedule (s : State) (k : BitVec 2) : (s.withWidth k).schedule = s.schedule := rfl
@[simp] theorem State.withWidth_patience (s : State) (k : BitVec 2) : (s.withWidth k).patience = s.patience := rfl
@[simp] theorem State.withWidth_draws (s : State) (k : BitVec 2) : (s.withWidth k).draws = s.draws := rfl
@[simp] theorem State.withWidth_picks (s : State) (k : BitVec 2) : (s.withWidth k).picks = s.picks := rfl
@[simp] theorem State.withWidth_result (s : State) (k : BitVec 2) : (s.withWidth k).result = s.result := rfl
@[simp] theorem State.withWidth_calls (s : State) (k : BitVec 2) : (s.withWidth k).calls = s.calls := rfl
@[simp] theorem State.withWidth_returned (s : State) (k : BitVec 2) : (s.withWidth k).returned = s.returned := rfl
@[simp] theorem State.withWidth_frameworkCalls (s : State) (k : BitVec 2) :
    (s.withWidth k).frameworkCalls = s.frameworkCalls := rfl
@[simp] theorem State.withWidth_dev (s : State) (k : BitVec 2) (e : ChipSel) :
    (s.withWidth k).dev e = s.dev e := by cases e <;> rfl
@[simp] theorem State.withWidth_sel (s : State) (k : BitVec 2) : (s.withWidth k).sel = s.sel := rfl

/-! `State.markBusy`. -/

@[simp] theorem State.markBusy_cfg (s : State) : s.markBusy.cfg = s.cfg := rfl
@[simp] theorem State.markBusy_gimr (s : State) : s.markBusy.gimr = s.gimr := rfl
@[simp] theorem State.markBusy_irr (s : State) : s.markBusy.irr = s.irr := rfl
@[simp] theorem State.markBusy_src (s : State) : s.markBusy.src = s.src := rfl
@[simp] theorem State.markBusy_lineState (s : State) : s.markBusy.lineState = s.lineState := rfl
@[simp] theorem State.markBusy_handler (s : State) : s.markBusy.handler = s.handler := rfl
@[simp] theorem State.markBusy_irqLock (s : State) : s.markBusy.irqLock = s.irqLock := rfl
@[simp] theorem State.markBusy_spuriousCount (s : State) : s.markBusy.spuriousCount = s.spuriousCount := rfl
@[simp] theorem State.markBusy_sfcr (s : State) : s.markBusy.sfcr = s.sfcr := rfl
@[simp] theorem State.markBusy_sfcr2 (s : State) : s.markBusy.sfcr2 = s.sfcr2 := rfl
@[simp] theorem State.markBusy_csb0 (s : State) : s.markBusy.csb0 = s.csb0 := rfl
@[simp] theorem State.markBusy_csb1 (s : State) : s.markBusy.csb1 = s.csb1 := rfl
@[simp] theorem State.markBusy_len (s : State) : s.markBusy.len = s.len := rfl
@[simp] theorem State.markBusy_busy (s : State) : s.markBusy.busy = true := rfl
@[simp] theorem State.markBusy_wedged (s : State) : s.markBusy.wedged = s.wedged := rfl
@[simp] theorem State.markBusy_ctrl (s : State) : s.markBusy.ctrl = s.ctrl := rfl
@[simp] theorem State.markBusy_spiMutex (s : State) : s.markBusy.spiMutex = s.spiMutex := rfl
@[simp] theorem State.markBusy_spiCaller (s : State) : s.markBusy.spiCaller = s.spiCaller := rfl
@[simp] theorem State.markBusy_dev0 (s : State) : s.markBusy.dev0 = s.dev0 := rfl
@[simp] theorem State.markBusy_dev1 (s : State) : s.markBusy.dev1 = s.dev1 := rfl
@[simp] theorem State.markBusy_log (s : State) : s.markBusy.log = s.log := rfl
@[simp] theorem State.markBusy_ctx (s : State) : s.markBusy.ctx = s.ctx := rfl
@[simp] theorem State.markBusy_program (s : State) : s.markBusy.program = s.program := rfl
@[simp] theorem State.markBusy_schedule (s : State) : s.markBusy.schedule = s.schedule := rfl
@[simp] theorem State.markBusy_patience (s : State) : s.markBusy.patience = s.patience := rfl
@[simp] theorem State.markBusy_draws (s : State) : s.markBusy.draws = s.draws := rfl
@[simp] theorem State.markBusy_picks (s : State) : s.markBusy.picks = s.picks := rfl
@[simp] theorem State.markBusy_result (s : State) : s.markBusy.result = s.result := rfl
@[simp] theorem State.markBusy_calls (s : State) : s.markBusy.calls = s.calls := rfl
@[simp] theorem State.markBusy_returned (s : State) : s.markBusy.returned = s.returned := rfl
@[simp] theorem State.markBusy_frameworkCalls (s : State) : s.markBusy.frameworkCalls = s.frameworkCalls := rfl
@[simp] theorem State.markBusy_dev (s : State) (e : ChipSel) : s.markBusy.dev e = s.dev e := by cases e <;> rfl
@[simp] theorem State.markBusy_sel (s : State) : s.markBusy.sel = s.sel := rfl

/-! `State.withDraws`. -/

@[simp] theorem State.withDraws_cfg (s : State) (n : Nat) : (s.withDraws n).cfg = s.cfg := rfl
@[simp] theorem State.withDraws_gimr (s : State) (n : Nat) : (s.withDraws n).gimr = s.gimr := rfl
@[simp] theorem State.withDraws_irr (s : State) (n : Nat) : (s.withDraws n).irr = s.irr := rfl
@[simp] theorem State.withDraws_src (s : State) (n : Nat) : (s.withDraws n).src = s.src := rfl
@[simp] theorem State.withDraws_lineState (s : State) (n : Nat) : (s.withDraws n).lineState = s.lineState := rfl
@[simp] theorem State.withDraws_handler (s : State) (n : Nat) : (s.withDraws n).handler = s.handler := rfl
@[simp] theorem State.withDraws_irqLock (s : State) (n : Nat) : (s.withDraws n).irqLock = s.irqLock := rfl
@[simp] theorem State.withDraws_spuriousCount (s : State) (n : Nat) : (s.withDraws n).spuriousCount = s.spuriousCount := rfl
@[simp] theorem State.withDraws_sfcr (s : State) (n : Nat) : (s.withDraws n).sfcr = s.sfcr := rfl
@[simp] theorem State.withDraws_sfcr2 (s : State) (n : Nat) : (s.withDraws n).sfcr2 = s.sfcr2 := rfl
@[simp] theorem State.withDraws_csb0 (s : State) (n : Nat) : (s.withDraws n).csb0 = s.csb0 := rfl
@[simp] theorem State.withDraws_csb1 (s : State) (n : Nat) : (s.withDraws n).csb1 = s.csb1 := rfl
@[simp] theorem State.withDraws_len (s : State) (n : Nat) : (s.withDraws n).len = s.len := rfl
@[simp] theorem State.withDraws_busy (s : State) (n : Nat) : (s.withDraws n).busy = s.busy := rfl
@[simp] theorem State.withDraws_wedged (s : State) (n : Nat) : (s.withDraws n).wedged = s.wedged := rfl
@[simp] theorem State.withDraws_ctrl (s : State) (n : Nat) : (s.withDraws n).ctrl = s.ctrl := rfl
@[simp] theorem State.withDraws_spiMutex (s : State) (n : Nat) : (s.withDraws n).spiMutex = s.spiMutex := rfl
@[simp] theorem State.withDraws_spiCaller (s : State) (n : Nat) : (s.withDraws n).spiCaller = s.spiCaller := rfl
@[simp] theorem State.withDraws_dev0 (s : State) (n : Nat) : (s.withDraws n).dev0 = s.dev0 := rfl
@[simp] theorem State.withDraws_dev1 (s : State) (n : Nat) : (s.withDraws n).dev1 = s.dev1 := rfl
@[simp] theorem State.withDraws_log (s : State) (n : Nat) : (s.withDraws n).log = s.log := rfl
@[simp] theorem State.withDraws_ctx (s : State) (n : Nat) : (s.withDraws n).ctx = s.ctx := rfl
@[simp] theorem State.withDraws_program (s : State) (n : Nat) : (s.withDraws n).program = s.program := rfl
@[simp] theorem State.withDraws_schedule (s : State) (n : Nat) : (s.withDraws n).schedule = s.schedule := rfl
@[simp] theorem State.withDraws_patience (s : State) (n : Nat) : (s.withDraws n).patience = s.patience := rfl
@[simp] theorem State.withDraws_draws (s : State) (n : Nat) : (s.withDraws n).draws = n := rfl
@[simp] theorem State.withDraws_picks (s : State) (n : Nat) : (s.withDraws n).picks = s.picks := rfl
@[simp] theorem State.withDraws_result (s : State) (n : Nat) : (s.withDraws n).result = s.result := rfl
@[simp] theorem State.withDraws_calls (s : State) (n : Nat) : (s.withDraws n).calls = s.calls := rfl
@[simp] theorem State.withDraws_returned (s : State) (n : Nat) : (s.withDraws n).returned = s.returned := rfl
@[simp] theorem State.withDraws_frameworkCalls (s : State) (n : Nat) :
    (s.withDraws n).frameworkCalls = s.frameworkCalls := rfl
@[simp] theorem State.withDraws_dev (s : State) (n : Nat) (e : ChipSel) :
    (s.withDraws n).dev e = s.dev e := by cases e <;> rfl
@[simp] theorem State.withDraws_sel (s : State) (n : Nat) : (s.withDraws n).sel = s.sel := rfl

/-! `dropLock`. -/

@[simp] theorem dropLock_cfg (s : State) : (dropLock s).cfg = s.cfg := rfl
@[simp] theorem dropLock_gimr (s : State) : (dropLock s).gimr = s.gimr := rfl
@[simp] theorem dropLock_irr (s : State) : (dropLock s).irr = s.irr := rfl
@[simp] theorem dropLock_src (s : State) : (dropLock s).src = s.src := rfl
@[simp] theorem dropLock_lineState (s : State) : (dropLock s).lineState = s.lineState := rfl
@[simp] theorem dropLock_handler (s : State) : (dropLock s).handler = s.handler := rfl
@[simp] theorem dropLock_irqLock (s : State) : (dropLock s).irqLock = .free := rfl
@[simp] theorem dropLock_spuriousCount (s : State) : (dropLock s).spuriousCount = s.spuriousCount := rfl
@[simp] theorem dropLock_sfcr (s : State) : (dropLock s).sfcr = s.sfcr := rfl
@[simp] theorem dropLock_sfcr2 (s : State) : (dropLock s).sfcr2 = s.sfcr2 := rfl
@[simp] theorem dropLock_csb0 (s : State) : (dropLock s).csb0 = s.csb0 := rfl
@[simp] theorem dropLock_csb1 (s : State) : (dropLock s).csb1 = s.csb1 := rfl
@[simp] theorem dropLock_len (s : State) : (dropLock s).len = s.len := rfl
@[simp] theorem dropLock_busy (s : State) : (dropLock s).busy = s.busy := rfl
@[simp] theorem dropLock_wedged (s : State) : (dropLock s).wedged = s.wedged := rfl
@[simp] theorem dropLock_ctrl (s : State) : (dropLock s).ctrl = s.ctrl := rfl
@[simp] theorem dropLock_spiMutex (s : State) : (dropLock s).spiMutex = s.spiMutex := rfl
@[simp] theorem dropLock_spiCaller (s : State) : (dropLock s).spiCaller = s.spiCaller := rfl
@[simp] theorem dropLock_dev0 (s : State) : (dropLock s).dev0 = s.dev0 := rfl
@[simp] theorem dropLock_dev1 (s : State) : (dropLock s).dev1 = s.dev1 := rfl
@[simp] theorem dropLock_log (s : State) : (dropLock s).log = s.log := rfl
@[simp] theorem dropLock_ctx (s : State) : (dropLock s).ctx = s.ctx := rfl
@[simp] theorem dropLock_program (s : State) : (dropLock s).program = s.program := rfl
@[simp] theorem dropLock_schedule (s : State) : (dropLock s).schedule = s.schedule := rfl
@[simp] theorem dropLock_patience (s : State) : (dropLock s).patience = s.patience := rfl
@[simp] theorem dropLock_draws (s : State) : (dropLock s).draws = s.draws := rfl
@[simp] theorem dropLock_picks (s : State) : (dropLock s).picks = s.picks := rfl
@[simp] theorem dropLock_result (s : State) : (dropLock s).result = s.result := rfl
@[simp] theorem dropLock_calls (s : State) : (dropLock s).calls = s.calls := rfl
@[simp] theorem dropLock_returned (s : State) : (dropLock s).returned = s.returned := rfl
@[simp] theorem dropLock_frameworkCalls (s : State) : (dropLock s).frameworkCalls = s.frameworkCalls := rfl
@[simp] theorem dropLock_dev (s : State) (e : ChipSel) : (dropLock s).dev e = s.dev e := by cases e <;> rfl
@[simp] theorem dropLock_sel (s : State) : (dropLock s).sel = s.sel := rfl

/-! `takeLock`. -/

@[simp] theorem takeLock_cfg (s : State) : (takeLock s).cfg = s.cfg := rfl
@[simp] theorem takeLock_gimr (s : State) : (takeLock s).gimr = s.gimr := rfl
@[simp] theorem takeLock_irr (s : State) : (takeLock s).irr = s.irr := rfl
@[simp] theorem takeLock_src (s : State) : (takeLock s).src = s.src := rfl
@[simp] theorem takeLock_lineState (s : State) : (takeLock s).lineState = s.lineState := rfl
@[simp] theorem takeLock_handler (s : State) : (takeLock s).handler = s.handler := rfl
@[simp] theorem takeLock_irqLock (s : State) : (takeLock s).irqLock = .held s.ctx := rfl
@[simp] theorem takeLock_spuriousCount (s : State) : (takeLock s).spuriousCount = s.spuriousCount := rfl
@[simp] theorem takeLock_sfcr (s : State) : (takeLock s).sfcr = s.sfcr := rfl
@[simp] theorem takeLock_sfcr2 (s : State) : (takeLock s).sfcr2 = s.sfcr2 := rfl
@[simp] theorem takeLock_csb0 (s : State) : (takeLock s).csb0 = s.csb0 := rfl
@[simp] theorem takeLock_csb1 (s : State) : (takeLock s).csb1 = s.csb1 := rfl
@[simp] theorem takeLock_len (s : State) : (takeLock s).len = s.len := rfl
@[simp] theorem takeLock_busy (s : State) : (takeLock s).busy = s.busy := rfl
@[simp] theorem takeLock_wedged (s : State) : (takeLock s).wedged = s.wedged := rfl
@[simp] theorem takeLock_ctrl (s : State) : (takeLock s).ctrl = s.ctrl := rfl
@[simp] theorem takeLock_spiMutex (s : State) : (takeLock s).spiMutex = s.spiMutex := rfl
@[simp] theorem takeLock_spiCaller (s : State) : (takeLock s).spiCaller = s.spiCaller := rfl
@[simp] theorem takeLock_dev0 (s : State) : (takeLock s).dev0 = s.dev0 := rfl
@[simp] theorem takeLock_dev1 (s : State) : (takeLock s).dev1 = s.dev1 := rfl
@[simp] theorem takeLock_log (s : State) : (takeLock s).log = s.log := rfl
@[simp] theorem takeLock_ctx (s : State) : (takeLock s).ctx = s.ctx := rfl
@[simp] theorem takeLock_program (s : State) : (takeLock s).program = s.program := rfl
@[simp] theorem takeLock_schedule (s : State) : (takeLock s).schedule = s.schedule := rfl
@[simp] theorem takeLock_patience (s : State) : (takeLock s).patience = s.patience := rfl
@[simp] theorem takeLock_draws (s : State) : (takeLock s).draws = s.draws := rfl
@[simp] theorem takeLock_picks (s : State) : (takeLock s).picks = s.picks := rfl
@[simp] theorem takeLock_result (s : State) : (takeLock s).result = s.result := rfl
@[simp] theorem takeLock_calls (s : State) : (takeLock s).calls = s.calls := rfl
@[simp] theorem takeLock_returned (s : State) : (takeLock s).returned = s.returned := rfl
@[simp] theorem takeLock_frameworkCalls (s : State) : (takeLock s).frameworkCalls = s.frameworkCalls := rfl
@[simp] theorem takeLock_dev (s : State) (e : ChipSel) : (takeLock s).dev e = s.dev e := by cases e <;> rfl
@[simp] theorem takeLock_sel (s : State) : (takeLock s).sel = s.sel := rfl

/-! `State.withPicks`. -/

@[simp] theorem State.withPicks_cfg (s : State) (n : Nat) : (s.withPicks n).cfg = s.cfg := rfl
@[simp] theorem State.withPicks_gimr (s : State) (n : Nat) : (s.withPicks n).gimr = s.gimr := rfl
@[simp] theorem State.withPicks_irr (s : State) (n : Nat) : (s.withPicks n).irr = s.irr := rfl
@[simp] theorem State.withPicks_src (s : State) (n : Nat) : (s.withPicks n).src = s.src := rfl
@[simp] theorem State.withPicks_lineState (s : State) (n : Nat) : (s.withPicks n).lineState = s.lineState := rfl
@[simp] theorem State.withPicks_handler (s : State) (n : Nat) : (s.withPicks n).handler = s.handler := rfl
@[simp] theorem State.withPicks_irqLock (s : State) (n : Nat) : (s.withPicks n).irqLock = s.irqLock := rfl
@[simp] theorem State.withPicks_spuriousCount (s : State) (n : Nat) : (s.withPicks n).spuriousCount = s.spuriousCount := rfl
@[simp] theorem State.withPicks_sfcr (s : State) (n : Nat) : (s.withPicks n).sfcr = s.sfcr := rfl
@[simp] theorem State.withPicks_sfcr2 (s : State) (n : Nat) : (s.withPicks n).sfcr2 = s.sfcr2 := rfl
@[simp] theorem State.withPicks_csb0 (s : State) (n : Nat) : (s.withPicks n).csb0 = s.csb0 := rfl
@[simp] theorem State.withPicks_csb1 (s : State) (n : Nat) : (s.withPicks n).csb1 = s.csb1 := rfl
@[simp] theorem State.withPicks_len (s : State) (n : Nat) : (s.withPicks n).len = s.len := rfl
@[simp] theorem State.withPicks_busy (s : State) (n : Nat) : (s.withPicks n).busy = s.busy := rfl
@[simp] theorem State.withPicks_wedged (s : State) (n : Nat) : (s.withPicks n).wedged = s.wedged := rfl
@[simp] theorem State.withPicks_ctrl (s : State) (n : Nat) : (s.withPicks n).ctrl = s.ctrl := rfl
@[simp] theorem State.withPicks_spiMutex (s : State) (n : Nat) : (s.withPicks n).spiMutex = s.spiMutex := rfl
@[simp] theorem State.withPicks_spiCaller (s : State) (n : Nat) : (s.withPicks n).spiCaller = s.spiCaller := rfl
@[simp] theorem State.withPicks_dev0 (s : State) (n : Nat) : (s.withPicks n).dev0 = s.dev0 := rfl
@[simp] theorem State.withPicks_dev1 (s : State) (n : Nat) : (s.withPicks n).dev1 = s.dev1 := rfl
@[simp] theorem State.withPicks_log (s : State) (n : Nat) : (s.withPicks n).log = s.log := rfl
@[simp] theorem State.withPicks_ctx (s : State) (n : Nat) : (s.withPicks n).ctx = s.ctx := rfl
@[simp] theorem State.withPicks_program (s : State) (n : Nat) : (s.withPicks n).program = s.program := rfl
@[simp] theorem State.withPicks_schedule (s : State) (n : Nat) : (s.withPicks n).schedule = s.schedule := rfl
@[simp] theorem State.withPicks_patience (s : State) (n : Nat) : (s.withPicks n).patience = s.patience := rfl
@[simp] theorem State.withPicks_draws (s : State) (n : Nat) : (s.withPicks n).draws = s.draws := rfl
@[simp] theorem State.withPicks_picks (s : State) (n : Nat) : (s.withPicks n).picks = n := rfl
@[simp] theorem State.withPicks_result (s : State) (n : Nat) : (s.withPicks n).result = s.result := rfl
@[simp] theorem State.withPicks_calls (s : State) (n : Nat) : (s.withPicks n).calls = s.calls := rfl
@[simp] theorem State.withPicks_returned (s : State) (n : Nat) : (s.withPicks n).returned = s.returned := rfl
@[simp] theorem State.withPicks_frameworkCalls (s : State) (n : Nat) :
    (s.withPicks n).frameworkCalls = s.frameworkCalls := rfl
@[simp] theorem State.withPicks_dev (s : State) (n : Nat) (e : ChipSel) :
    (s.withPicks n).dev e = s.dev e := by cases e <;> rfl
@[simp] theorem State.withPicks_sel (s : State) (n : Nat) : (s.withPicks n).sel = s.sel := rfl

/-! `State.withCtx`. -/

@[simp] theorem State.withCtx_cfg (s : State) (n : Nat) : (s.withCtx n).cfg = s.cfg := rfl
@[simp] theorem State.withCtx_gimr (s : State) (n : Nat) : (s.withCtx n).gimr = s.gimr := rfl
@[simp] theorem State.withCtx_irr (s : State) (n : Nat) : (s.withCtx n).irr = s.irr := rfl
@[simp] theorem State.withCtx_src (s : State) (n : Nat) : (s.withCtx n).src = s.src := rfl
@[simp] theorem State.withCtx_lineState (s : State) (n : Nat) : (s.withCtx n).lineState = s.lineState := rfl
@[simp] theorem State.withCtx_handler (s : State) (n : Nat) : (s.withCtx n).handler = s.handler := rfl
@[simp] theorem State.withCtx_irqLock (s : State) (n : Nat) : (s.withCtx n).irqLock = s.irqLock := rfl
@[simp] theorem State.withCtx_spuriousCount (s : State) (n : Nat) : (s.withCtx n).spuriousCount = s.spuriousCount := rfl
@[simp] theorem State.withCtx_sfcr (s : State) (n : Nat) : (s.withCtx n).sfcr = s.sfcr := rfl
@[simp] theorem State.withCtx_sfcr2 (s : State) (n : Nat) : (s.withCtx n).sfcr2 = s.sfcr2 := rfl
@[simp] theorem State.withCtx_csb0 (s : State) (n : Nat) : (s.withCtx n).csb0 = s.csb0 := rfl
@[simp] theorem State.withCtx_csb1 (s : State) (n : Nat) : (s.withCtx n).csb1 = s.csb1 := rfl
@[simp] theorem State.withCtx_len (s : State) (n : Nat) : (s.withCtx n).len = s.len := rfl
@[simp] theorem State.withCtx_busy (s : State) (n : Nat) : (s.withCtx n).busy = s.busy := rfl
@[simp] theorem State.withCtx_wedged (s : State) (n : Nat) : (s.withCtx n).wedged = s.wedged := rfl
@[simp] theorem State.withCtx_ctrl (s : State) (n : Nat) : (s.withCtx n).ctrl = s.ctrl := rfl
@[simp] theorem State.withCtx_spiMutex (s : State) (n : Nat) : (s.withCtx n).spiMutex = s.spiMutex := rfl
@[simp] theorem State.withCtx_spiCaller (s : State) (n : Nat) : (s.withCtx n).spiCaller = s.spiCaller := rfl
@[simp] theorem State.withCtx_dev0 (s : State) (n : Nat) : (s.withCtx n).dev0 = s.dev0 := rfl
@[simp] theorem State.withCtx_dev1 (s : State) (n : Nat) : (s.withCtx n).dev1 = s.dev1 := rfl
@[simp] theorem State.withCtx_log (s : State) (n : Nat) : (s.withCtx n).log = s.log := rfl
@[simp] theorem State.withCtx_ctx (s : State) (n : Nat) : (s.withCtx n).ctx = n := rfl
@[simp] theorem State.withCtx_program (s : State) (n : Nat) : (s.withCtx n).program = s.program := rfl
@[simp] theorem State.withCtx_schedule (s : State) (n : Nat) : (s.withCtx n).schedule = s.schedule := rfl
@[simp] theorem State.withCtx_patience (s : State) (n : Nat) : (s.withCtx n).patience = s.patience := rfl
@[simp] theorem State.withCtx_draws (s : State) (n : Nat) : (s.withCtx n).draws = s.draws := rfl
@[simp] theorem State.withCtx_picks (s : State) (n : Nat) : (s.withCtx n).picks = s.picks := rfl
@[simp] theorem State.withCtx_result (s : State) (n : Nat) : (s.withCtx n).result = s.result := rfl
@[simp] theorem State.withCtx_calls (s : State) (n : Nat) : (s.withCtx n).calls = s.calls := rfl
@[simp] theorem State.withCtx_returned (s : State) (n : Nat) : (s.withCtx n).returned = s.returned := rfl
@[simp] theorem State.withCtx_frameworkCalls (s : State) (n : Nat) : (s.withCtx n).frameworkCalls = s.frameworkCalls := rfl
@[simp] theorem State.withCtx_dev (s : State) (n : Nat) (e : ChipSel) : (s.withCtx n).dev e = s.dev e := by cases e <;> rfl
@[simp] theorem State.withCtx_sel (s : State) (n : Nat) : (s.withCtx n).sel = s.sel := rfl

/-! `State.keepCall`. -/

@[simp] theorem State.keepCall_cfg (s : State) (c : Call) : (s.keepCall c).cfg = s.cfg := rfl
@[simp] theorem State.keepCall_gimr (s : State) (c : Call) : (s.keepCall c).gimr = s.gimr := rfl
@[simp] theorem State.keepCall_irr (s : State) (c : Call) : (s.keepCall c).irr = s.irr := rfl
@[simp] theorem State.keepCall_src (s : State) (c : Call) : (s.keepCall c).src = s.src := rfl
@[simp] theorem State.keepCall_lineState (s : State) (c : Call) : (s.keepCall c).lineState = s.lineState := rfl
@[simp] theorem State.keepCall_handler (s : State) (c : Call) : (s.keepCall c).handler = s.handler := rfl
@[simp] theorem State.keepCall_irqLock (s : State) (c : Call) : (s.keepCall c).irqLock = s.irqLock := rfl
@[simp] theorem State.keepCall_spuriousCount (s : State) (c : Call) : (s.keepCall c).spuriousCount = s.spuriousCount := rfl
@[simp] theorem State.keepCall_sfcr (s : State) (c : Call) : (s.keepCall c).sfcr = s.sfcr := rfl
@[simp] theorem State.keepCall_sfcr2 (s : State) (c : Call) : (s.keepCall c).sfcr2 = s.sfcr2 := rfl
@[simp] theorem State.keepCall_csb0 (s : State) (c : Call) : (s.keepCall c).csb0 = s.csb0 := rfl
@[simp] theorem State.keepCall_csb1 (s : State) (c : Call) : (s.keepCall c).csb1 = s.csb1 := rfl
@[simp] theorem State.keepCall_len (s : State) (c : Call) : (s.keepCall c).len = s.len := rfl
@[simp] theorem State.keepCall_busy (s : State) (c : Call) : (s.keepCall c).busy = s.busy := rfl
@[simp] theorem State.keepCall_wedged (s : State) (c : Call) : (s.keepCall c).wedged = s.wedged := rfl
@[simp] theorem State.keepCall_ctrl (s : State) (c : Call) : (s.keepCall c).ctrl = s.ctrl := rfl
@[simp] theorem State.keepCall_spiMutex (s : State) (c : Call) : (s.keepCall c).spiMutex = s.spiMutex := rfl
@[simp] theorem State.keepCall_spiCaller (s : State) (c : Call) : (s.keepCall c).spiCaller = s.spiCaller := rfl
@[simp] theorem State.keepCall_dev0 (s : State) (c : Call) : (s.keepCall c).dev0 = s.dev0 := rfl
@[simp] theorem State.keepCall_dev1 (s : State) (c : Call) : (s.keepCall c).dev1 = s.dev1 := rfl
@[simp] theorem State.keepCall_log (s : State) (c : Call) : (s.keepCall c).log = s.log := rfl
@[simp] theorem State.keepCall_ctx (s : State) (c : Call) : (s.keepCall c).ctx = s.ctx := rfl
@[simp] theorem State.keepCall_program (s : State) (c : Call) : (s.keepCall c).program = s.program := rfl
@[simp] theorem State.keepCall_schedule (s : State) (c : Call) : (s.keepCall c).schedule = s.schedule := rfl
@[simp] theorem State.keepCall_patience (s : State) (c : Call) : (s.keepCall c).patience = s.patience := rfl
@[simp] theorem State.keepCall_draws (s : State) (c : Call) : (s.keepCall c).draws = s.draws := rfl
@[simp] theorem State.keepCall_picks (s : State) (c : Call) : (s.keepCall c).picks = s.picks := rfl
@[simp] theorem State.keepCall_result (s : State) (c : Call) : (s.keepCall c).result = s.result := rfl
@[simp] theorem State.keepCall_calls (s : State) (c : Call) : (s.keepCall c).calls = s.calls ++ [c] := rfl
@[simp] theorem State.keepCall_returned (s : State) (c : Call) : (s.keepCall c).returned = s.returned := rfl
@[simp] theorem State.keepCall_frameworkCalls (s : State) (c : Call) :
    (s.keepCall c).frameworkCalls = s.frameworkCalls := rfl
@[simp] theorem State.keepCall_dev (s : State) (c : Call) (e : ChipSel) :
    (s.keepCall c).dev e = s.dev e := by cases e <;> rfl
@[simp] theorem State.keepCall_sel (s : State) (c : Call) : (s.keepCall c).sel = s.sel := rfl

/-! `State.dropCall`. -/

@[simp] theorem State.dropCall_cfg (s : State) (n : Nat) : (s.dropCall n).cfg = s.cfg := rfl
@[simp] theorem State.dropCall_gimr (s : State) (n : Nat) : (s.dropCall n).gimr = s.gimr := rfl
@[simp] theorem State.dropCall_irr (s : State) (n : Nat) : (s.dropCall n).irr = s.irr := rfl
@[simp] theorem State.dropCall_src (s : State) (n : Nat) : (s.dropCall n).src = s.src := rfl
@[simp] theorem State.dropCall_lineState (s : State) (n : Nat) : (s.dropCall n).lineState = s.lineState := rfl
@[simp] theorem State.dropCall_handler (s : State) (n : Nat) : (s.dropCall n).handler = s.handler := rfl
@[simp] theorem State.dropCall_irqLock (s : State) (n : Nat) : (s.dropCall n).irqLock = s.irqLock := rfl
@[simp] theorem State.dropCall_spuriousCount (s : State) (n : Nat) : (s.dropCall n).spuriousCount = s.spuriousCount := rfl
@[simp] theorem State.dropCall_sfcr (s : State) (n : Nat) : (s.dropCall n).sfcr = s.sfcr := rfl
@[simp] theorem State.dropCall_sfcr2 (s : State) (n : Nat) : (s.dropCall n).sfcr2 = s.sfcr2 := rfl
@[simp] theorem State.dropCall_csb0 (s : State) (n : Nat) : (s.dropCall n).csb0 = s.csb0 := rfl
@[simp] theorem State.dropCall_csb1 (s : State) (n : Nat) : (s.dropCall n).csb1 = s.csb1 := rfl
@[simp] theorem State.dropCall_len (s : State) (n : Nat) : (s.dropCall n).len = s.len := rfl
@[simp] theorem State.dropCall_busy (s : State) (n : Nat) : (s.dropCall n).busy = s.busy := rfl
@[simp] theorem State.dropCall_wedged (s : State) (n : Nat) : (s.dropCall n).wedged = s.wedged := rfl
@[simp] theorem State.dropCall_ctrl (s : State) (n : Nat) : (s.dropCall n).ctrl = s.ctrl := rfl
@[simp] theorem State.dropCall_spiMutex (s : State) (n : Nat) : (s.dropCall n).spiMutex = s.spiMutex := rfl
@[simp] theorem State.dropCall_spiCaller (s : State) (n : Nat) : (s.dropCall n).spiCaller = s.spiCaller := rfl
@[simp] theorem State.dropCall_dev0 (s : State) (n : Nat) : (s.dropCall n).dev0 = s.dev0 := rfl
@[simp] theorem State.dropCall_dev1 (s : State) (n : Nat) : (s.dropCall n).dev1 = s.dev1 := rfl
@[simp] theorem State.dropCall_log (s : State) (n : Nat) : (s.dropCall n).log = s.log := rfl
@[simp] theorem State.dropCall_ctx (s : State) (n : Nat) : (s.dropCall n).ctx = s.ctx := rfl
@[simp] theorem State.dropCall_program (s : State) (n : Nat) : (s.dropCall n).program = s.program := rfl
@[simp] theorem State.dropCall_schedule (s : State) (n : Nat) : (s.dropCall n).schedule = s.schedule := rfl
@[simp] theorem State.dropCall_patience (s : State) (n : Nat) : (s.dropCall n).patience = s.patience := rfl
@[simp] theorem State.dropCall_draws (s : State) (n : Nat) : (s.dropCall n).draws = s.draws := rfl
@[simp] theorem State.dropCall_picks (s : State) (n : Nat) : (s.dropCall n).picks = s.picks := rfl
@[simp] theorem State.dropCall_result (s : State) (n : Nat) : (s.dropCall n).result = s.result := rfl
@[simp] theorem State.dropCall_calls (s : State) (n : Nat) : (s.dropCall n).calls = s.calls.filter fun c => c.ctx != n := rfl
@[simp] theorem State.dropCall_returned (s : State) (n : Nat) : (s.dropCall n).returned = s.returned := rfl
@[simp] theorem State.dropCall_frameworkCalls (s : State) (n : Nat) : (s.dropCall n).frameworkCalls = s.frameworkCalls := rfl
@[simp] theorem State.dropCall_dev (s : State) (n : Nat) (e : ChipSel) : (s.dropCall n).dev e = s.dev e := by cases e <;> rfl
@[simp] theorem State.dropCall_sel (s : State) (n : Nat) : (s.dropCall n).sel = s.sel := rfl

/-! `State.returns`. -/

@[simp] theorem State.returns_cfg (s : State) (n : Nat) (r : Result) : (s.returns n r).cfg = s.cfg := rfl
@[simp] theorem State.returns_gimr (s : State) (n : Nat) (r : Result) : (s.returns n r).gimr = s.gimr := rfl
@[simp] theorem State.returns_irr (s : State) (n : Nat) (r : Result) : (s.returns n r).irr = s.irr := rfl
@[simp] theorem State.returns_src (s : State) (n : Nat) (r : Result) : (s.returns n r).src = s.src := rfl
@[simp] theorem State.returns_lineState (s : State) (n : Nat) (r : Result) : (s.returns n r).lineState = s.lineState := rfl
@[simp] theorem State.returns_handler (s : State) (n : Nat) (r : Result) : (s.returns n r).handler = s.handler := rfl
@[simp] theorem State.returns_irqLock (s : State) (n : Nat) (r : Result) : (s.returns n r).irqLock = s.irqLock := rfl
@[simp] theorem State.returns_spuriousCount (s : State) (n : Nat) (r : Result) :
    (s.returns n r).spuriousCount = s.spuriousCount := rfl
@[simp] theorem State.returns_sfcr (s : State) (n : Nat) (r : Result) : (s.returns n r).sfcr = s.sfcr := rfl
@[simp] theorem State.returns_sfcr2 (s : State) (n : Nat) (r : Result) : (s.returns n r).sfcr2 = s.sfcr2 := rfl
@[simp] theorem State.returns_csb0 (s : State) (n : Nat) (r : Result) : (s.returns n r).csb0 = s.csb0 := rfl
@[simp] theorem State.returns_csb1 (s : State) (n : Nat) (r : Result) : (s.returns n r).csb1 = s.csb1 := rfl
@[simp] theorem State.returns_len (s : State) (n : Nat) (r : Result) : (s.returns n r).len = s.len := rfl
@[simp] theorem State.returns_busy (s : State) (n : Nat) (r : Result) : (s.returns n r).busy = s.busy := rfl
@[simp] theorem State.returns_wedged (s : State) (n : Nat) (r : Result) : (s.returns n r).wedged = s.wedged := rfl
@[simp] theorem State.returns_ctrl (s : State) (n : Nat) (r : Result) : (s.returns n r).ctrl = s.ctrl := rfl
@[simp] theorem State.returns_spiMutex (s : State) (n : Nat) (r : Result) : (s.returns n r).spiMutex = s.spiMutex := rfl
@[simp] theorem State.returns_spiCaller (s : State) (n : Nat) (r : Result) :
    (s.returns n r).spiCaller = s.spiCaller := rfl
@[simp] theorem State.returns_dev0 (s : State) (n : Nat) (r : Result) : (s.returns n r).dev0 = s.dev0 := rfl
@[simp] theorem State.returns_dev1 (s : State) (n : Nat) (r : Result) : (s.returns n r).dev1 = s.dev1 := rfl
@[simp] theorem State.returns_log (s : State) (n : Nat) (r : Result) : (s.returns n r).log = s.log := rfl
@[simp] theorem State.returns_ctx (s : State) (n : Nat) (r : Result) : (s.returns n r).ctx = s.ctx := rfl
@[simp] theorem State.returns_program (s : State) (n : Nat) (r : Result) : (s.returns n r).program = s.program := rfl
@[simp] theorem State.returns_schedule (s : State) (n : Nat) (r : Result) : (s.returns n r).schedule = s.schedule := rfl
@[simp] theorem State.returns_patience (s : State) (n : Nat) (r : Result) : (s.returns n r).patience = s.patience := rfl
@[simp] theorem State.returns_draws (s : State) (n : Nat) (r : Result) : (s.returns n r).draws = s.draws := rfl
@[simp] theorem State.returns_picks (s : State) (n : Nat) (r : Result) : (s.returns n r).picks = s.picks := rfl
@[simp] theorem State.returns_result (s : State) (n : Nat) (r : Result) : (s.returns n r).result = s.result := rfl
@[simp] theorem State.returns_calls (s : State) (n : Nat) (r : Result) : (s.returns n r).calls = s.calls := rfl
@[simp] theorem State.returns_returned (s : State) (n : Nat) (r : Result) :
    (s.returns n r).returned = s.returned ++ [(n, r)] := rfl
@[simp] theorem State.returns_frameworkCalls (s : State) (n : Nat) (r : Result) :
    (s.returns n r).frameworkCalls = s.frameworkCalls := rfl
@[simp] theorem State.returns_dev (s : State) (n : Nat) (r : Result) (e : ChipSel) :
    (s.returns n r).dev e = s.dev e := by cases e <;> rfl
@[simp] theorem State.returns_sel (s : State) (n : Nat) (r : Result) : (s.returns n r).sel = s.sel := rfl

/-! `State.suspend`. -/

@[simp] theorem State.suspend_cfg (s : State) (op : Op) (got : List Word) : (s.suspend op got).cfg = s.cfg := rfl
@[simp] theorem State.suspend_gimr (s : State) (op : Op) (got : List Word) : (s.suspend op got).gimr = s.gimr := rfl
@[simp] theorem State.suspend_irr (s : State) (op : Op) (got : List Word) : (s.suspend op got).irr = s.irr := rfl
@[simp] theorem State.suspend_src (s : State) (op : Op) (got : List Word) : (s.suspend op got).src = s.src := rfl
@[simp] theorem State.suspend_lineState (s : State) (op : Op) (got : List Word) :
    (s.suspend op got).lineState = s.lineState := rfl
@[simp] theorem State.suspend_handler (s : State) (op : Op) (got : List Word) : (s.suspend op got).handler = s.handler := rfl
@[simp] theorem State.suspend_irqLock (s : State) (op : Op) (got : List Word) : (s.suspend op got).irqLock = s.irqLock := rfl
@[simp] theorem State.suspend_spuriousCount (s : State) (op : Op) (got : List Word) :
    (s.suspend op got).spuriousCount = s.spuriousCount := rfl
@[simp] theorem State.suspend_sfcr (s : State) (op : Op) (got : List Word) : (s.suspend op got).sfcr = s.sfcr := rfl
@[simp] theorem State.suspend_sfcr2 (s : State) (op : Op) (got : List Word) : (s.suspend op got).sfcr2 = s.sfcr2 := rfl
@[simp] theorem State.suspend_csb0 (s : State) (op : Op) (got : List Word) : (s.suspend op got).csb0 = s.csb0 := rfl
@[simp] theorem State.suspend_csb1 (s : State) (op : Op) (got : List Word) : (s.suspend op got).csb1 = s.csb1 := rfl
@[simp] theorem State.suspend_len (s : State) (op : Op) (got : List Word) : (s.suspend op got).len = s.len := rfl
@[simp] theorem State.suspend_busy (s : State) (op : Op) (got : List Word) : (s.suspend op got).busy = s.busy := rfl
@[simp] theorem State.suspend_wedged (s : State) (op : Op) (got : List Word) : (s.suspend op got).wedged = s.wedged := rfl
@[simp] theorem State.suspend_ctrl (s : State) (op : Op) (got : List Word) : (s.suspend op got).ctrl = s.ctrl := rfl
@[simp] theorem State.suspend_spiMutex (s : State) (op : Op) (got : List Word) :
    (s.suspend op got).spiMutex = s.spiMutex := rfl
@[simp] theorem State.suspend_spiCaller (s : State) (op : Op) (got : List Word) :
    (s.suspend op got).spiCaller = s.spiCaller := rfl
@[simp] theorem State.suspend_dev0 (s : State) (op : Op) (got : List Word) : (s.suspend op got).dev0 = s.dev0 := rfl
@[simp] theorem State.suspend_dev1 (s : State) (op : Op) (got : List Word) : (s.suspend op got).dev1 = s.dev1 := rfl
@[simp] theorem State.suspend_log (s : State) (op : Op) (got : List Word) : (s.suspend op got).log = s.log := rfl
@[simp] theorem State.suspend_ctx (s : State) (op : Op) (got : List Word) : (s.suspend op got).ctx = s.ctx := rfl
@[simp] theorem State.suspend_program (s : State) (op : Op) (got : List Word) : (s.suspend op got).program = s.program := rfl
@[simp] theorem State.suspend_schedule (s : State) (op : Op) (got : List Word) :
    (s.suspend op got).schedule = s.schedule := rfl
@[simp] theorem State.suspend_patience (s : State) (op : Op) (got : List Word) :
    (s.suspend op got).patience = s.patience := rfl
@[simp] theorem State.suspend_draws (s : State) (op : Op) (got : List Word) : (s.suspend op got).draws = s.draws := rfl
@[simp] theorem State.suspend_picks (s : State) (op : Op) (got : List Word) : (s.suspend op got).picks = s.picks := rfl
@[simp] theorem State.suspend_result (s : State) (op : Op) (got : List Word) : (s.suspend op got).result = .nothing := rfl
@[simp] theorem State.suspend_calls (s : State) (op : Op) (got : List Word) :
    (s.suspend op got).calls = s.calls ++ [⟨s.ctx, op, got⟩] := rfl
@[simp] theorem State.suspend_returned (s : State) (op : Op) (got : List Word) :
    (s.suspend op got).returned = s.returned := rfl
@[simp] theorem State.suspend_frameworkCalls (s : State) (op : Op) (got : List Word) :
    (s.suspend op got).frameworkCalls = s.frameworkCalls := rfl
@[simp] theorem State.suspend_dev (s : State) (op : Op) (got : List Word) (e : ChipSel) :
    (s.suspend op got).dev e = s.dev e := by cases e <;> rfl
@[simp] theorem State.suspend_sel (s : State) (op : Op) (got : List Word) : (s.suspend op got).sel = s.sel := rfl

/-! `State.withCaller`. -/

@[simp] theorem State.withCaller_cfg (s : State) (c : Option Nat) : (s.withCaller c).cfg = s.cfg := rfl
@[simp] theorem State.withCaller_gimr (s : State) (c : Option Nat) : (s.withCaller c).gimr = s.gimr := rfl
@[simp] theorem State.withCaller_irr (s : State) (c : Option Nat) : (s.withCaller c).irr = s.irr := rfl
@[simp] theorem State.withCaller_src (s : State) (c : Option Nat) : (s.withCaller c).src = s.src := rfl
@[simp] theorem State.withCaller_lineState (s : State) (c : Option Nat) :
    (s.withCaller c).lineState = s.lineState := rfl
@[simp] theorem State.withCaller_handler (s : State) (c : Option Nat) : (s.withCaller c).handler = s.handler := rfl
@[simp] theorem State.withCaller_irqLock (s : State) (c : Option Nat) : (s.withCaller c).irqLock = s.irqLock := rfl
@[simp] theorem State.withCaller_spuriousCount (s : State) (c : Option Nat) :
    (s.withCaller c).spuriousCount = s.spuriousCount := rfl
@[simp] theorem State.withCaller_sfcr (s : State) (c : Option Nat) : (s.withCaller c).sfcr = s.sfcr := rfl
@[simp] theorem State.withCaller_sfcr2 (s : State) (c : Option Nat) : (s.withCaller c).sfcr2 = s.sfcr2 := rfl
@[simp] theorem State.withCaller_csb0 (s : State) (c : Option Nat) : (s.withCaller c).csb0 = s.csb0 := rfl
@[simp] theorem State.withCaller_csb1 (s : State) (c : Option Nat) : (s.withCaller c).csb1 = s.csb1 := rfl
@[simp] theorem State.withCaller_len (s : State) (c : Option Nat) : (s.withCaller c).len = s.len := rfl
@[simp] theorem State.withCaller_busy (s : State) (c : Option Nat) : (s.withCaller c).busy = s.busy := rfl
@[simp] theorem State.withCaller_wedged (s : State) (c : Option Nat) : (s.withCaller c).wedged = s.wedged := rfl
@[simp] theorem State.withCaller_ctrl (s : State) (c : Option Nat) : (s.withCaller c).ctrl = s.ctrl := rfl
@[simp] theorem State.withCaller_spiMutex (s : State) (c : Option Nat) : (s.withCaller c).spiMutex = s.spiMutex := rfl
@[simp] theorem State.withCaller_spiCaller (s : State) (c : Option Nat) : (s.withCaller c).spiCaller = c := rfl
@[simp] theorem State.withCaller_dev0 (s : State) (c : Option Nat) : (s.withCaller c).dev0 = s.dev0 := rfl
@[simp] theorem State.withCaller_dev1 (s : State) (c : Option Nat) : (s.withCaller c).dev1 = s.dev1 := rfl
@[simp] theorem State.withCaller_log (s : State) (c : Option Nat) : (s.withCaller c).log = s.log := rfl
@[simp] theorem State.withCaller_ctx (s : State) (c : Option Nat) : (s.withCaller c).ctx = s.ctx := rfl
@[simp] theorem State.withCaller_program (s : State) (c : Option Nat) : (s.withCaller c).program = s.program := rfl
@[simp] theorem State.withCaller_schedule (s : State) (c : Option Nat) : (s.withCaller c).schedule = s.schedule := rfl
@[simp] theorem State.withCaller_patience (s : State) (c : Option Nat) : (s.withCaller c).patience = s.patience := rfl
@[simp] theorem State.withCaller_draws (s : State) (c : Option Nat) : (s.withCaller c).draws = s.draws := rfl
@[simp] theorem State.withCaller_picks (s : State) (c : Option Nat) : (s.withCaller c).picks = s.picks := rfl
@[simp] theorem State.withCaller_result (s : State) (c : Option Nat) : (s.withCaller c).result = s.result := rfl
@[simp] theorem State.withCaller_calls (s : State) (c : Option Nat) : (s.withCaller c).calls = s.calls := rfl
@[simp] theorem State.withCaller_returned (s : State) (c : Option Nat) : (s.withCaller c).returned = s.returned := rfl
@[simp] theorem State.withCaller_frameworkCalls (s : State) (c : Option Nat) :
    (s.withCaller c).frameworkCalls = s.frameworkCalls := rfl
@[simp] theorem State.withCaller_sel (s : State) (c : Option Nat) : (s.withCaller c).sel = s.sel := rfl
@[simp] theorem State.withCaller_dev (s : State) (c : Option Nat) (e : ChipSel) :
    (s.withCaller c).dev e = s.dev e := by cases e <;> rfl

/-! `State.leaveOp`: who is inside an SPI primitive changes, nothing else. -/

@[simp] theorem State.leaveOp_cfg (s : State) (op : Op) :
    (s.leaveOp op).cfg = s.cfg := by unfold State.leaveOp; split <;> rfl
@[simp] theorem State.leaveOp_gimr (s : State) (op : Op) :
    (s.leaveOp op).gimr = s.gimr := by unfold State.leaveOp; split <;> rfl
@[simp] theorem State.leaveOp_irr (s : State) (op : Op) :
    (s.leaveOp op).irr = s.irr := by unfold State.leaveOp; split <;> rfl
@[simp] theorem State.leaveOp_src (s : State) (op : Op) :
    (s.leaveOp op).src = s.src := by unfold State.leaveOp; split <;> rfl
@[simp] theorem State.leaveOp_lineState (s : State) (op : Op) :
    (s.leaveOp op).lineState = s.lineState := by unfold State.leaveOp; split <;> rfl
@[simp] theorem State.leaveOp_handler (s : State) (op : Op) :
    (s.leaveOp op).handler = s.handler := by unfold State.leaveOp; split <;> rfl
@[simp] theorem State.leaveOp_irqLock (s : State) (op : Op) :
    (s.leaveOp op).irqLock = s.irqLock := by unfold State.leaveOp; split <;> rfl
@[simp] theorem State.leaveOp_spuriousCount (s : State) (op : Op) :
    (s.leaveOp op).spuriousCount = s.spuriousCount := by unfold State.leaveOp; split <;> rfl
@[simp] theorem State.leaveOp_sfcr (s : State) (op : Op) :
    (s.leaveOp op).sfcr = s.sfcr := by unfold State.leaveOp; split <;> rfl
@[simp] theorem State.leaveOp_sfcr2 (s : State) (op : Op) :
    (s.leaveOp op).sfcr2 = s.sfcr2 := by unfold State.leaveOp; split <;> rfl
@[simp] theorem State.leaveOp_csb0 (s : State) (op : Op) :
    (s.leaveOp op).csb0 = s.csb0 := by unfold State.leaveOp; split <;> rfl
@[simp] theorem State.leaveOp_csb1 (s : State) (op : Op) :
    (s.leaveOp op).csb1 = s.csb1 := by unfold State.leaveOp; split <;> rfl
@[simp] theorem State.leaveOp_len (s : State) (op : Op) :
    (s.leaveOp op).len = s.len := by unfold State.leaveOp; split <;> rfl
@[simp] theorem State.leaveOp_busy (s : State) (op : Op) :
    (s.leaveOp op).busy = s.busy := by unfold State.leaveOp; split <;> rfl
@[simp] theorem State.leaveOp_wedged (s : State) (op : Op) :
    (s.leaveOp op).wedged = s.wedged := by unfold State.leaveOp; split <;> rfl
@[simp] theorem State.leaveOp_ctrl (s : State) (op : Op) :
    (s.leaveOp op).ctrl = s.ctrl := by unfold State.leaveOp; split <;> rfl
@[simp] theorem State.leaveOp_spiMutex (s : State) (op : Op) :
    (s.leaveOp op).spiMutex = s.spiMutex := by unfold State.leaveOp; split <;> rfl
@[simp] theorem State.leaveOp_spiCaller (s : State) (op : Op) :
    (s.leaveOp op).spiCaller = if op.usesSpi then none else s.spiCaller := by unfold State.leaveOp; split <;> rfl
@[simp] theorem State.leaveOp_dev0 (s : State) (op : Op) :
    (s.leaveOp op).dev0 = s.dev0 := by unfold State.leaveOp; split <;> rfl
@[simp] theorem State.leaveOp_dev1 (s : State) (op : Op) :
    (s.leaveOp op).dev1 = s.dev1 := by unfold State.leaveOp; split <;> rfl
@[simp] theorem State.leaveOp_log (s : State) (op : Op) :
    (s.leaveOp op).log = s.log := by unfold State.leaveOp; split <;> rfl
@[simp] theorem State.leaveOp_ctx (s : State) (op : Op) :
    (s.leaveOp op).ctx = s.ctx := by unfold State.leaveOp; split <;> rfl
@[simp] theorem State.leaveOp_program (s : State) (op : Op) :
    (s.leaveOp op).program = s.program := by unfold State.leaveOp; split <;> rfl
@[simp] theorem State.leaveOp_schedule (s : State) (op : Op) :
    (s.leaveOp op).schedule = s.schedule := by unfold State.leaveOp; split <;> rfl
@[simp] theorem State.leaveOp_patience (s : State) (op : Op) :
    (s.leaveOp op).patience = s.patience := by unfold State.leaveOp; split <;> rfl
@[simp] theorem State.leaveOp_draws (s : State) (op : Op) :
    (s.leaveOp op).draws = s.draws := by unfold State.leaveOp; split <;> rfl
@[simp] theorem State.leaveOp_picks (s : State) (op : Op) :
    (s.leaveOp op).picks = s.picks := by unfold State.leaveOp; split <;> rfl
@[simp] theorem State.leaveOp_result (s : State) (op : Op) :
    (s.leaveOp op).result = s.result := by unfold State.leaveOp; split <;> rfl
@[simp] theorem State.leaveOp_calls (s : State) (op : Op) :
    (s.leaveOp op).calls = s.calls := by unfold State.leaveOp; split <;> rfl
@[simp] theorem State.leaveOp_returned (s : State) (op : Op) :
    (s.leaveOp op).returned = s.returned := by unfold State.leaveOp; split <;> rfl
@[simp] theorem State.leaveOp_frameworkCalls (s : State) (op : Op) :
    (s.leaveOp op).frameworkCalls = s.frameworkCalls := by unfold State.leaveOp; split <;> rfl
@[simp] theorem State.leaveOp_sel (s : State) (op : Op) :
    (s.leaveOp op).sel = s.sel := by unfold State.leaveOp; split <;> rfl
@[simp] theorem State.leaveOp_dev (s : State) (op : Op) (e : ChipSel) :
    (s.leaveOp op).dev e = s.dev e := by
  unfold State.leaveOp; cases e <;> split <;> rfl

/-! `State.ended`. -/

@[simp] theorem State.ended_cfg (s : State) (op : Op) (r : Result) : (s.ended op r).cfg = s.cfg := State.leaveOp_cfg s op
@[simp] theorem State.ended_gimr (s : State) (op : Op) (r : Result) : (s.ended op r).gimr = s.gimr :=
  State.leaveOp_gimr s op
@[simp] theorem State.ended_irr (s : State) (op : Op) (r : Result) : (s.ended op r).irr = s.irr := State.leaveOp_irr s op
@[simp] theorem State.ended_src (s : State) (op : Op) (r : Result) : (s.ended op r).src = s.src := State.leaveOp_src s op
@[simp] theorem State.ended_lineState (s : State) (op : Op) (r : Result) : (s.ended op r).lineState = s.lineState :=
  State.leaveOp_lineState s op
@[simp] theorem State.ended_handler (s : State) (op : Op) (r : Result) : (s.ended op r).handler = s.handler :=
  State.leaveOp_handler s op
@[simp] theorem State.ended_irqLock (s : State) (op : Op) (r : Result) : (s.ended op r).irqLock = s.irqLock :=
  State.leaveOp_irqLock s op
@[simp] theorem State.ended_spuriousCount (s : State) (op : Op) (r : Result) :
    (s.ended op r).spuriousCount = s.spuriousCount := State.leaveOp_spuriousCount s op
@[simp] theorem State.ended_sfcr (s : State) (op : Op) (r : Result) : (s.ended op r).sfcr = s.sfcr :=
  State.leaveOp_sfcr s op
@[simp] theorem State.ended_sfcr2 (s : State) (op : Op) (r : Result) : (s.ended op r).sfcr2 = s.sfcr2 :=
  State.leaveOp_sfcr2 s op
@[simp] theorem State.ended_csb0 (s : State) (op : Op) (r : Result) : (s.ended op r).csb0 = s.csb0 :=
  State.leaveOp_csb0 s op
@[simp] theorem State.ended_csb1 (s : State) (op : Op) (r : Result) : (s.ended op r).csb1 = s.csb1 :=
  State.leaveOp_csb1 s op
@[simp] theorem State.ended_len (s : State) (op : Op) (r : Result) : (s.ended op r).len = s.len := State.leaveOp_len s op
@[simp] theorem State.ended_busy (s : State) (op : Op) (r : Result) : (s.ended op r).busy = s.busy :=
  State.leaveOp_busy s op
@[simp] theorem State.ended_wedged (s : State) (op : Op) (r : Result) : (s.ended op r).wedged = s.wedged :=
  State.leaveOp_wedged s op
@[simp] theorem State.ended_ctrl (s : State) (op : Op) (r : Result) : (s.ended op r).ctrl = s.ctrl :=
  State.leaveOp_ctrl s op
@[simp] theorem State.ended_spiMutex (s : State) (op : Op) (r : Result) : (s.ended op r).spiMutex = s.spiMutex :=
  State.leaveOp_spiMutex s op
@[simp] theorem State.ended_spiCaller (s : State) (op : Op) (r : Result) :
    (s.ended op r).spiCaller = if op.usesSpi then none else s.spiCaller := State.leaveOp_spiCaller s op
@[simp] theorem State.ended_dev0 (s : State) (op : Op) (r : Result) : (s.ended op r).dev0 = s.dev0 :=
  State.leaveOp_dev0 s op
@[simp] theorem State.ended_dev1 (s : State) (op : Op) (r : Result) : (s.ended op r).dev1 = s.dev1 :=
  State.leaveOp_dev1 s op
@[simp] theorem State.ended_log (s : State) (op : Op) (r : Result) : (s.ended op r).log = s.log := State.leaveOp_log s op
@[simp] theorem State.ended_ctx (s : State) (op : Op) (r : Result) : (s.ended op r).ctx = s.ctx := State.leaveOp_ctx s op
@[simp] theorem State.ended_program (s : State) (op : Op) (r : Result) : (s.ended op r).program = s.program :=
  State.leaveOp_program s op
@[simp] theorem State.ended_schedule (s : State) (op : Op) (r : Result) : (s.ended op r).schedule = s.schedule :=
  State.leaveOp_schedule s op
@[simp] theorem State.ended_patience (s : State) (op : Op) (r : Result) : (s.ended op r).patience = s.patience :=
  State.leaveOp_patience s op
@[simp] theorem State.ended_draws (s : State) (op : Op) (r : Result) : (s.ended op r).draws = s.draws :=
  State.leaveOp_draws s op
@[simp] theorem State.ended_picks (s : State) (op : Op) (r : Result) : (s.ended op r).picks = s.picks :=
  State.leaveOp_picks s op
@[simp] theorem State.ended_result (s : State) (op : Op) (r : Result) : (s.ended op r).result = r := rfl
@[simp] theorem State.ended_calls (s : State) (op : Op) (r : Result) : (s.ended op r).calls = s.calls :=
  State.leaveOp_calls s op
@[simp] theorem State.ended_returned (s : State) (op : Op) (r : Result) : (s.ended op r).returned = s.returned :=
  State.leaveOp_returned s op
@[simp] theorem State.ended_frameworkCalls (s : State) (op : Op) (r : Result) :
    (s.ended op r).frameworkCalls = s.frameworkCalls := State.leaveOp_frameworkCalls s op
@[simp] theorem State.ended_sel (s : State) (op : Op) (r : Result) : (s.ended op r).sel = s.sel := State.leaveOp_sel s op
@[simp] theorem State.ended_dev (s : State) (op : Op) (r : Result) (e : ChipSel) :
    (s.ended op r).dev e = s.dev e := State.leaveOp_dev s op e

/-! `State.setDev`: the device of the chip-select changes, nothing else. -/

@[simp] theorem State.setDev_cfg (s : State) (c : ChipSel) (d : Device) : (s.setDev c d).cfg = s.cfg := by cases c <;> rfl
@[simp] theorem State.setDev_gimr (s : State) (c : ChipSel) (d : Device) : (s.setDev c d).gimr = s.gimr := by cases c <;> rfl
@[simp] theorem State.setDev_irr (s : State) (c : ChipSel) (d : Device) : (s.setDev c d).irr = s.irr := by cases c <;> rfl
@[simp] theorem State.setDev_src (s : State) (c : ChipSel) (d : Device) : (s.setDev c d).src = s.src := by cases c <;> rfl
@[simp] theorem State.setDev_lineState (s : State) (c : ChipSel) (d : Device) :
    (s.setDev c d).lineState = s.lineState := by cases c <;> rfl
@[simp] theorem State.setDev_handler (s : State) (c : ChipSel) (d : Device) :
    (s.setDev c d).handler = s.handler := by cases c <;> rfl
@[simp] theorem State.setDev_irqLock (s : State) (c : ChipSel) (d : Device) :
    (s.setDev c d).irqLock = s.irqLock := by cases c <;> rfl
@[simp] theorem State.setDev_spuriousCount (s : State) (c : ChipSel) (d : Device) :
    (s.setDev c d).spuriousCount = s.spuriousCount := by cases c <;> rfl
@[simp] theorem State.setDev_sfcr (s : State) (c : ChipSel) (d : Device) : (s.setDev c d).sfcr = s.sfcr := by cases c <;> rfl
@[simp] theorem State.setDev_sfcr2 (s : State) (c : ChipSel) (d : Device) :
    (s.setDev c d).sfcr2 = s.sfcr2 := by cases c <;> rfl
@[simp] theorem State.setDev_csb0 (s : State) (c : ChipSel) (d : Device) : (s.setDev c d).csb0 = s.csb0 := by cases c <;> rfl
@[simp] theorem State.setDev_csb1 (s : State) (c : ChipSel) (d : Device) : (s.setDev c d).csb1 = s.csb1 := by cases c <;> rfl
@[simp] theorem State.setDev_len (s : State) (c : ChipSel) (d : Device) : (s.setDev c d).len = s.len := by cases c <;> rfl
@[simp] theorem State.setDev_busy (s : State) (c : ChipSel) (d : Device) : (s.setDev c d).busy = s.busy := by cases c <;> rfl
@[simp] theorem State.setDev_wedged (s : State) (c : ChipSel) (d : Device) :
    (s.setDev c d).wedged = s.wedged := by cases c <;> rfl
@[simp] theorem State.setDev_ctrl (s : State) (c : ChipSel) (d : Device) : (s.setDev c d).ctrl = s.ctrl := by cases c <;> rfl
@[simp] theorem State.setDev_spiMutex (s : State) (c : ChipSel) (d : Device) :
    (s.setDev c d).spiMutex = s.spiMutex := by cases c <;> rfl
@[simp] theorem State.setDev_spiCaller (s : State) (c : ChipSel) (d : Device) :
    (s.setDev c d).spiCaller = s.spiCaller := by cases c <;> rfl
@[simp] theorem State.setDev_log (s : State) (c : ChipSel) (d : Device) : (s.setDev c d).log = s.log := by cases c <;> rfl
@[simp] theorem State.setDev_ctx (s : State) (c : ChipSel) (d : Device) : (s.setDev c d).ctx = s.ctx := by cases c <;> rfl
@[simp] theorem State.setDev_program (s : State) (c : ChipSel) (d : Device) :
    (s.setDev c d).program = s.program := by cases c <;> rfl
@[simp] theorem State.setDev_schedule (s : State) (c : ChipSel) (d : Device) :
    (s.setDev c d).schedule = s.schedule := by cases c <;> rfl
@[simp] theorem State.setDev_patience (s : State) (c : ChipSel) (d : Device) :
    (s.setDev c d).patience = s.patience := by cases c <;> rfl
@[simp] theorem State.setDev_draws (s : State) (c : ChipSel) (d : Device) :
    (s.setDev c d).draws = s.draws := by cases c <;> rfl
@[simp] theorem State.setDev_picks (s : State) (c : ChipSel) (d : Device) :
    (s.setDev c d).picks = s.picks := by cases c <;> rfl
@[simp] theorem State.setDev_result (s : State) (c : ChipSel) (d : Device) :
    (s.setDev c d).result = s.result := by cases c <;> rfl
@[simp] theorem State.setDev_calls (s : State) (c : ChipSel) (d : Device) :
    (s.setDev c d).calls = s.calls := by cases c <;> rfl
@[simp] theorem State.setDev_returned (s : State) (c : ChipSel) (d : Device) :
    (s.setDev c d).returned = s.returned := by cases c <;> rfl
@[simp] theorem State.setDev_frameworkCalls (s : State) (c : ChipSel) (d : Device) :
    (s.setDev c d).frameworkCalls = s.frameworkCalls := by cases c <;> rfl

@[simp] theorem State.setDev_dev (s : State) (c : ChipSel) (d : Device) : (s.setDev c d).dev c = d := by cases c <;> rfl
theorem State.setDev_dev_ne (s : State) (c e : ChipSel) (d : Device) (h : e ≠ c) : (s.setDev c d).dev e = s.dev e := by
  cases c <;> cases e <;> first | rfl | exact absurd rfl h
@[simp] theorem State.setDev_cs0_dev0 (s : State) (d : Device) : (s.setDev .cs0 d).dev0 = d := rfl
@[simp] theorem State.setDev_cs0_dev1 (s : State) (d : Device) : (s.setDev .cs0 d).dev1 = s.dev1 := rfl
@[simp] theorem State.setDev_cs1_dev0 (s : State) (d : Device) : (s.setDev .cs1 d).dev0 = s.dev0 := rfl
@[simp] theorem State.setDev_cs1_dev1 (s : State) (d : Device) : (s.setDev .cs1 d).dev1 = d := rfl
@[simp] theorem State.setDev_sel (s : State) (c : ChipSel) (d : Device) : (s.setDev c d).sel = s.sel := by cases c <;> rfl
@[simp] theorem State.setDev_self (s : State) (c : ChipSel) : s.setDev c (s.dev c) = s := by cases c <;> rfl

/-! `State.setHandler`: the handler table changes, nothing else. -/

@[simp] theorem State.setHandler_cfg (s : State) (n : Nat) (h : Word) :
    (s.setHandler n h).cfg = s.cfg := by unfold State.setHandler; split <;> rfl
@[simp] theorem State.setHandler_gimr (s : State) (n : Nat) (h : Word) :
    (s.setHandler n h).gimr = s.gimr := by unfold State.setHandler; split <;> rfl
@[simp] theorem State.setHandler_irr (s : State) (n : Nat) (h : Word) :
    (s.setHandler n h).irr = s.irr := by unfold State.setHandler; split <;> rfl
@[simp] theorem State.setHandler_src (s : State) (n : Nat) (h : Word) :
    (s.setHandler n h).src = s.src := by unfold State.setHandler; split <;> rfl
@[simp] theorem State.setHandler_lineState (s : State) (n : Nat) (h : Word) :
    (s.setHandler n h).lineState = s.lineState := by unfold State.setHandler; split <;> rfl
@[simp] theorem State.setHandler_irqLock (s : State) (n : Nat) (h : Word) :
    (s.setHandler n h).irqLock = s.irqLock := by unfold State.setHandler; split <;> rfl
@[simp] theorem State.setHandler_spuriousCount (s : State) (n : Nat) (h : Word) :
    (s.setHandler n h).spuriousCount = s.spuriousCount := by unfold State.setHandler; split <;> rfl
@[simp] theorem State.setHandler_sfcr (s : State) (n : Nat) (h : Word) :
    (s.setHandler n h).sfcr = s.sfcr := by unfold State.setHandler; split <;> rfl
@[simp] theorem State.setHandler_sfcr2 (s : State) (n : Nat) (h : Word) :
    (s.setHandler n h).sfcr2 = s.sfcr2 := by unfold State.setHandler; split <;> rfl
@[simp] theorem State.setHandler_csb0 (s : State) (n : Nat) (h : Word) :
    (s.setHandler n h).csb0 = s.csb0 := by unfold State.setHandler; split <;> rfl
@[simp] theorem State.setHandler_csb1 (s : State) (n : Nat) (h : Word) :
    (s.setHandler n h).csb1 = s.csb1 := by unfold State.setHandler; split <;> rfl
@[simp] theorem State.setHandler_len (s : State) (n : Nat) (h : Word) :
    (s.setHandler n h).len = s.len := by unfold State.setHandler; split <;> rfl
@[simp] theorem State.setHandler_busy (s : State) (n : Nat) (h : Word) :
    (s.setHandler n h).busy = s.busy := by unfold State.setHandler; split <;> rfl
@[simp] theorem State.setHandler_wedged (s : State) (n : Nat) (h : Word) :
    (s.setHandler n h).wedged = s.wedged := by unfold State.setHandler; split <;> rfl
@[simp] theorem State.setHandler_ctrl (s : State) (n : Nat) (h : Word) :
    (s.setHandler n h).ctrl = s.ctrl := by unfold State.setHandler; split <;> rfl
@[simp] theorem State.setHandler_spiMutex (s : State) (n : Nat) (h : Word) :
    (s.setHandler n h).spiMutex = s.spiMutex := by unfold State.setHandler; split <;> rfl
@[simp] theorem State.setHandler_spiCaller (s : State) (n : Nat) (h : Word) :
    (s.setHandler n h).spiCaller = s.spiCaller := by unfold State.setHandler; split <;> rfl
@[simp] theorem State.setHandler_dev0 (s : State) (n : Nat) (h : Word) :
    (s.setHandler n h).dev0 = s.dev0 := by unfold State.setHandler; split <;> rfl
@[simp] theorem State.setHandler_dev1 (s : State) (n : Nat) (h : Word) :
    (s.setHandler n h).dev1 = s.dev1 := by unfold State.setHandler; split <;> rfl
@[simp] theorem State.setHandler_log (s : State) (n : Nat) (h : Word) :
    (s.setHandler n h).log = s.log := by unfold State.setHandler; split <;> rfl
@[simp] theorem State.setHandler_ctx (s : State) (n : Nat) (h : Word) :
    (s.setHandler n h).ctx = s.ctx := by unfold State.setHandler; split <;> rfl
@[simp] theorem State.setHandler_program (s : State) (n : Nat) (h : Word) :
    (s.setHandler n h).program = s.program := by unfold State.setHandler; split <;> rfl
@[simp] theorem State.setHandler_schedule (s : State) (n : Nat) (h : Word) :
    (s.setHandler n h).schedule = s.schedule := by unfold State.setHandler; split <;> rfl
@[simp] theorem State.setHandler_patience (s : State) (n : Nat) (h : Word) :
    (s.setHandler n h).patience = s.patience := by unfold State.setHandler; split <;> rfl
@[simp] theorem State.setHandler_draws (s : State) (n : Nat) (h : Word) :
    (s.setHandler n h).draws = s.draws := by unfold State.setHandler; split <;> rfl
@[simp] theorem State.setHandler_picks (s : State) (n : Nat) (h : Word) :
    (s.setHandler n h).picks = s.picks := by unfold State.setHandler; split <;> rfl
@[simp] theorem State.setHandler_result (s : State) (n : Nat) (h : Word) :
    (s.setHandler n h).result = s.result := by unfold State.setHandler; split <;> rfl
@[simp] theorem State.setHandler_calls (s : State) (n : Nat) (h : Word) :
    (s.setHandler n h).calls = s.calls := by unfold State.setHandler; split <;> rfl
@[simp] theorem State.setHandler_returned (s : State) (n : Nat) (h : Word) :
    (s.setHandler n h).returned = s.returned := by unfold State.setHandler; split <;> rfl
@[simp] theorem State.setHandler_frameworkCalls (s : State) (n : Nat) (h : Word) :
    (s.setHandler n h).frameworkCalls = s.frameworkCalls := by unfold State.setHandler; split <;> rfl

end Sys2Proof.Machine
end

