-- ==== Sys2Proof/Laws/Ops.lean ====
section
/-! SUPPORT. What the shared operations of Ops.lean can do: sequencing, the devices' own steps, the eager schedule, the
interleaving point, the register accesses. -/

namespace Sys2Proof.Machine

/-! Sequencing. -/

@[simp] theorem Res.bind_ok {α β : Type} (a : α) (s : State) (f : α → State → Res β) : (Res.ok a s).bind f = f a s := rfl
@[simp] theorem Res.bind_raised {α β : Type} (c : Condition) (s : State) (f : α → State → Res β) :
    (Res.raised c s).bind f = .raised c s := rfl
@[simp] theorem Res.bind_pending {α β : Type} (s : State) (f : α → State → Res β) :
    (Res.pending s).bind f = .pending s := rfl
@[simp] theorem Res.bind_refused {α β : Type} (r : Refusal) (f : α → State → Res β) :
    (Res.refused r).bind f = .refused r := rfl
@[simp] theorem Res.bind_fault {α β : Type} (e : Fault) (f : α → State → Res β) : (Res.fault e).bind f = .fault e := rfl

/-- A sequence that answers has answered at each of its parts. -/
theorem Res.bind_eq_ok {α β : Type} {r : Res α} {f : α → State → Res β} {b : β} {t : State} :
    r.bind f = .ok b t ↔ ∃ a u, r = .ok a u ∧ f a u = .ok b t := by
  cases r <;> simp

@[simp] theorem Res.toOutcome_ok (r : Result) (s : State) : (Res.ok r s).toOutcome = .next { s with result := r } := rfl
@[simp] theorem Res.toOutcome_raised (c : Condition) (s : State) :
    (Res.raised c s).toOutcome = .next { s with result := raisedResult s.cfg c } := rfl
@[simp] theorem Res.toOutcome_refused (r : Refusal) : (Res.refused r).toOutcome = .refused r := rfl
@[simp] theorem Res.toOutcome_fault (f : Fault) : (Res.fault f).toOutcome = .fault f := rfl
@[simp] theorem Res.returnValue_ok (v : Word) (s : State) :
    (Res.ok v s).returnValue = .next { s with result := .value v } := rfl
@[simp] theorem Res.returnOk_ok (s : State) : (Res.ok () s).returnOk = .next { s with result := .ok } := rfl

/-! Result codes (R116, R133). -/

@[simp] theorem raisedResult_invalidArgument (cfg : Cfg) (args : List Nat) :
    raisedResult cfg (.invalidArgument args) = .raised cfg.eInval (.invalidArgument args) := rfl
@[simp] theorem raisedResult_timeout (cfg : Cfg) (p : Poll) :
    raisedResult cfg (.timeout p) = .raised cfg.eTimedOut (.timeout p) := rfl
@[simp] theorem Result.code_ok : Result.ok.code = some 0 := rfl
@[simp] theorem Result.code_bytes (bs : List Byte) : (Result.bytes bs).code = some 0 := rfl
@[simp] theorem Result.code_count (n : Nat) (bs : List Byte) : (Result.count n bs).code = some (n : Int) := rfl
@[simp] theorem Result.code_raised (code : Int) (c : Condition) : (Result.raised code c).code = some code := rfl
@[simp] theorem Result.code_raisedResult (cfg : Cfg) (c : Condition) :
    (raisedResult cfg c).code = some (conditionCode cfg c) := rfl

/-- The code of a condition is negative, so it is none of a success (R116). -/
theorem conditionCode_neg {cfg : Cfg} (h : cfg.ok = true) (c : Condition) : conditionCode cfg c < 0 := by
  cases c
  · exact (Cfg.codes h).1
  · exact (Cfg.codes h).2.1

/-- Sequencing is associative. -/
theorem Res.bind_assoc {α β γ : Type} (r : Res α) (f : α → State → Res β) (g : β → State → Res γ) :
    (r.bind f).bind g = r.bind fun a s => (f a s).bind g := by cases r <;> rfl

@[simp] theorem Res.bind_ret {α : Type} (r : Res α) : (r.bind fun a s => .ok a s) = r := by cases r <;> rfl

/-! The devices' own step commutes with the bytes of a frame, and is taken at most once. -/

@[simp] theorem Device.finish_finish (d : Device) : d.finish.finish = d.finish := by
  cases d with
  | refNor d =>
    obtain ⟨wip, wel, mem, rx, rdcount, fo, stuck⟩ := d
    cases wip <;> cases stuck <;> rfl
  | simReg d => rfl
  | absent => rfl

@[simp] theorem Device.finish_select (d : Device) : d.select.finish = d.finish.select := by
  cases d with
  | refNor d =>
    obtain ⟨wip, wel, mem, rx, rdcount, fo, stuck⟩ := d
    cases wip <;> cases stuck <;> rfl
  | simReg d => rfl
  | absent => rfl

@[simp] theorem Device.finish_put (d : Device) (b : Byte) : (d.put b).finish = d.finish.put b := by
  cases d with
  | refNor d =>
    obtain ⟨wip, wel, mem, rx, rdcount, fo, stuck⟩ := d
    cases wip <;> cases stuck <;> by_cases h : rdcount = 0 <;>
      simp [Device.finish, Device.put, RefNor.finish, RefNor.put, h]
  | simReg d => rfl
  | absent => rfl

@[simp] theorem Device.finish_advance (d : Device) : d.advance.finish = d.finish.advance := by
  cases d with
  | refNor d =>
    obtain ⟨wip, wel, mem, rx, rdcount, fo, stuck⟩ := d
    cases wip <;> cases stuck <;> rfl
  | simReg d => rfl
  | absent => rfl

@[simp] theorem Device.finish_puts (bs : List Byte) : ∀ d : Device, (d.puts bs).finish = d.finish.puts bs := by
  induction bs with
  | nil => intro d; rfl
  | cons b bs ih => intro d; simpa [Device.puts] using ih (d.put b)

@[simp] theorem Device.finish_advances (n : Nat) :
    ∀ d : Device, (Device.advances n d).finish = Device.advances n d.finish := by
  induction n with
  | zero => intro d; rfl
  | succ n ih => intro d; simp [Device.advances, ih]

@[simp] theorem Device.puts_nil (d : Device) : d.puts [] = d := rfl
theorem Device.puts_append (d : Device) (as bs : List Byte) : d.puts (as ++ bs) = (d.puts as).puts bs := by
  simp [Device.puts]
theorem Device.puts_cons (d : Device) (b : Byte) (bs : List Byte) : d.puts (b :: bs) = (d.put b).puts bs := rfl

theorem Device.advances_add (m : Nat) : ∀ (n : Nat) (d : Device),
    Device.advances (m + n) d = Device.advances n (Device.advances m d) := by
  induction m with
  | zero => intro n d; simp [Device.advances]
  | succ m ih => intro n d; rw [Nat.succ_add]; simp [Device.advances, ih]

theorem Device.advances_succ (n : Nat) (d : Device) : Device.advances (n + 1) d = (Device.advances n d).advance := by
  rw [Device.advances_add n 1 d]; rfl

/-! The eager schedule (row 11). -/

/-- What the eager completion steps do: an unwedged controller is ready, a busy device that is not stuck finishes. -/
theorem eagerStep_eq (s : State) :
    eagerStep s = { s with busy := s.busy && s.wedged, dev0 := s.dev0.finish, dev1 := s.dev1.finish } := by
  obtain ⟨cfg, gimr, irr, src, ls, hd, il, sc, sfcr, sfcr2, c0, c1, len, busy, wedged, ctrl, mx, cl, d0, d1, log, ctx, prog,
    sched, pat, dr, pk, res, calls, ret, fw⟩ := s
  cases busy <;> cases wedged <;> rfl

theorem point_of_empty {s : State} (h : s.schedule = []) : s.point = .ok () (eagerStep s) := by
  simp only [State.point, h]

@[simp] theorem eagerStep_eagerStep (s : State) : eagerStep (eagerStep s) = eagerStep s := by
  simp [eagerStep_eq]

@[simp] theorem eagerStep_logged (s : State) (d : Dir) (r : Reg) (v : Word) :
    eagerStep (s.logged d r v) = (eagerStep s).logged d r v := by
  simp [eagerStep_eq, State.logged]

@[simp] theorem State.polled_dev (s : State) (c : ChipSel) : s.polled.dev c = (s.dev c).finish := by
  cases c <;> simp [State.polled, eagerStep_eq, State.dev]

theorem State.polled_eq (s : State) :
    s.polled = { s with
      busy := s.busy && s.wedged, dev0 := s.dev0.finish, dev1 := s.dev1.finish,
      log := s.log ++ [⟨.read, .sfcsr, (eagerStep s).sfcsr⟩] } := by
  simp [State.polled, eagerStep_eq, State.logged]

@[simp] theorem eagerStep_polled (s : State) : eagerStep s.polled = s.polled := by
  simp [State.polled]

/-! The register values. -/

@[simp] theorem bit_getLsbD (p n : Nat) : (bit p).getLsbD n = (decide (p = n) && decide (n < 32)) := by
  simp only [bit, BitVec.getLsbD_shiftLeft, BitVec.getLsbD_one]
  by_cases h : n < 32 <;> by_cases h' : p = n <;> simp [h, h']; omega

@[simp] theorem flagAt_getLsbD (p n : Nat) (b : Bool) : (flagAt p b).getLsbD n = (decide (p = n) && decide (n < 32) && b) := by
  cases b <;> simp [flagAt]

/-- A two-bit field at a position of a word. -/
theorem fieldAt_getLsbD (k : BitVec 2) (p n : Nat) :
    (k.setWidth 32 <<< p).getLsbD n = (decide (n < 32) && decide (p ≤ n) && k.getLsbD (n - p)) := by
  simp only [BitVec.getLsbD_shiftLeft, BitVec.getLsbD_setWidth]
  by_cases h : n < 32 <;> by_cases h' : p ≤ n <;> simp [h, h', Nat.not_lt.mpr, Nat.lt_of_not_le]
  intro hk
  exact (show n - p < 32 by omega)

/-- The two bits of a field are the bits at its positions. -/
theorem field_eq {v : Word} {p : Nat} {k : BitVec 2} (h0 : v.getLsbD p = k.getLsbD 0) (h1 : v.getLsbD (p + 1) = k.getLsbD 1) :
    v.extractLsb' p 2 = k := by
  apply BitVec.eq_of_getLsbD_eq
  intro i hi
  rw [BitVec.getLsbD_extractLsb']
  have : i = 0 ∨ i = 1 := by omega
  rcases this with rfl | rfl
  · simpa using h0
  · simpa using h1

/-- The bits of SFCSR: each field at its position, zeros elsewhere (R52, R86). -/
theorem State.sfcsr_getLsbD (s : State) {n : Nat} (hn : n < 32) : s.sfcsr.getLsbD n =
    (decide (s.cfg.bitCsb0 = n) && s.csb0 || decide (s.cfg.bitCsb1 = n) && s.csb1 ||
      decide (s.cfg.lenLo ≤ n) && s.len.getLsbD (n - s.cfg.lenLo) || decide (s.cfg.bitRdy = n) && !s.busy) := by
  simp only [State.sfcsr, BitVec.getLsbD_or, flagAt_getLsbD, fieldAt_getLsbD, hn, decide_true, Bool.and_true, Bool.true_and]

/-- The ready bit of SFCSR is the negation of `busy` (R24, R86). -/
theorem State.sfcsr_rdy {s : State} (h : s.cfg.ok = true) : s.sfcsr.getLsbD s.cfg.bitRdy = !s.busy := by
  have b := Cfg.bits h
  rw [s.sfcsr_getLsbD b.rdy]
  have h2 : (decide (s.cfg.lenLo ≤ s.cfg.bitRdy) && s.len.getLsbD (s.cfg.bitRdy - s.cfg.lenLo)) = false := by
    by_cases hl : s.cfg.lenLo ≤ s.cfg.bitRdy
    · have := b.rdy_lo; have := b.rdy_hi
      rw [BitVec.getLsbD_of_ge _ _ (by omega), Bool.and_false]
    · simp [hl]
  simp [b.csb0_rdy, b.csb1_rdy, h2]

/-- The lanes of a value assembled from lanes are those lanes (R32). -/
theorem byteLane_word (l : Lanes) :
    byteLane l.word 0 = l.b0 ∧ byteLane l.word 1 = l.b1 ∧ byteLane l.word 2 = l.b2 ∧ byteLane l.word 3 = l.b3 := by
  obtain ⟨b0, b1, b2, b3⟩ := l
  refine ⟨?_, ?_, ?_, ?_⟩ <;>
    (simp only [byteLane, Lanes.word]
     apply BitVec.eq_of_getLsbD_eq
     intro i hi
     rw [BitVec.getLsbD_extractLsb']
     repeat rw [BitVec.getLsbD_append]
     have h8 : i < 8 := hi
     simp only [h8, decide_true, Bool.true_and, Nat.reduceMul, Nat.reduceSub]
     first
       | rw [if_neg (by omega), if_neg (by omega), if_neg (by omega)]
       | rw [if_neg (by omega), if_neg (by omega), if_pos (by omega)]
       | rw [if_neg (by omega), if_pos (by omega)]
       | rw [if_pos (by omega)]
     congr 1
     try omega)

/-- The lanes of the word of four lanes are those lanes (R32). -/
@[simp] theorem wordLanes_word (l : Lanes) : wordLanes l.word = l := by
  obtain ⟨h0, h1, h2, h3⟩ := byteLane_word l
  simp only [wordLanes, h0, h1, h2, h3]

/-- The lanes that are kept are there. -/
@[simp] theorem Lanes.firsts_keep (l : Lanes) (n : Nat) : (wordLanes (l.keep n)).firsts n = l.firsts n := by
  rw [Lanes.keep, wordLanes_word]
  match n with
  | 0 | 1 | 2 | 3 => rfl
  | n + 4 => simp [Lanes.firsts]

/-- The lowest set bit of a word that is not zero (R73). -/
theorem ctz32_spec {v : Word} (h : v ≠ 0#32) :
    ctz32 v < 32 ∧ v.getLsbD (ctz32 v) = true ∧ ∀ n, n < ctz32 v → v.getLsbD n = false := by
  have hex : ∃ n, n < 32 ∧ v.getLsbD n = true := by
    by_contra hno
    apply h
    apply BitVec.eq_of_getLsbD_eq
    intro i hi
    have : ¬ v.getLsbD i = true := fun e => hno ⟨i, hi, e⟩
    simpa using this
  simp only [ctz32]
  cases hf : (List.range 32).find? fun n => v.getLsbD n with
  | none =>
    obtain ⟨n, hn, hb⟩ := hex
    have := List.find?_eq_none.mp hf n (List.mem_range.mpr hn)
    exact absurd hb (by simpa using this)
  | some n =>
    rw [List.find?_range_eq_some] at hf
    obtain ⟨hb, hn, hlt⟩ := hf
    exact ⟨by simpa using hn, hb, fun m hm => by simpa using hlt m hm⟩

end Sys2Proof.Machine
end

