-- ==== Sys2Proof/Laws/Run.lean ====
section
/-! SUPPORT. What running a program can do: sequencing, the steps that never wait, and the outcome of a call in terms of what
its program answers. -/

namespace Sys2Proof.Machine

/-! Programs. -/

@[simp] theorem Prog.bind_ret {α β : Type} (a : α) (f : α → Prog β) : (Prog.ret a).bind f = f a := rfl
@[simp] theorem Prog.bind_act {α β : Type} (a : Act) (k : Word → Prog α) (f : α → Prog β) :
    (Prog.act a k).bind f = .act a fun w => (k w).bind f := rfl

@[simp] theorem Prog.den_ret {α : Type} (a : α) (s : State) : (Prog.ret a).den s = .ok a s := rfl
@[simp] theorem Prog.den_raise {α : Type} (c : Condition) (s : State) : (Prog.raise c : Prog α).den s = .raised c s := rfl
@[simp] theorem Prog.den_refuse {α : Type} (r : Refusal) (s : State) : (Prog.refuse r : Prog α).den s = .refused r := rfl
@[simp] theorem Prog.den_more {α : Type} (s : State) : (Prog.more : Prog α).den s = .pending s := rfl
theorem Prog.den_act {α : Type} (a : Act) (k : Word → Prog α) (s : State) :
    (Prog.act a k).den s = (a.step s).bind fun w s => (k w).den s := rfl

/-- What a sequence answers. -/
theorem Prog.den_bind {α β : Type} (p : Prog α) (f : α → Prog β) : ∀ s : State,
    (p.bind f).den s = (p.den s).bind fun a s => (f a).den s := by
  induction p with
  | ret a => intro s; rfl
  | raise c => intro s; rfl
  | refuse r => intro s; rfl
  | more => intro s; rfl
  | act a k ih => intro s; simp only [Prog.bind_act, Prog.den_act, ih, Res.bind_assoc]

theorem Prog.den_doing (a : Act) (s : State) : (Prog.doing a).den s = (a.step s).bind fun _ s => .ok () s := rfl
theorem Prog.den_reading (r : Reg) (s : State) : (Prog.reading r).den s = s.point.bind fun _ s => regRead r s := by
  simp only [Prog.reading, Prog.den_act, Prog.den_ret, Act.step, Act.before, Act.perform, Res.bind_ret]
theorem Prog.den_writing (r : Reg) (v : Word) (s : State) :
    (Prog.writing r v).den s = s.point.bind fun _ s => regWrite r v s := by
  simp only [Prog.writing, Prog.den_doing, Act.step, Act.before, Act.perform, Res.bind_assoc, Res.bind_ok]
  congr 1; funext _ s; cases regWrite r v s <;> rfl

theorem Prog.den_taking (n : Nat) (s : State) :
    (Prog.taking n).den s = s.point.bind fun _ s => (sfdrRead s).bind fun lanes s => .ok (lanes.firsts n) s := by
  simp only [Prog.taking, Prog.den_act, Prog.den_ret, Act.step, Act.before, Act.perform, Res.bind_assoc, Res.bind_ok,
    Lanes.firsts_keep]

/-! Steps that never wait. -/

theorem waitTurn_ready {a : Act} {s : State} (h : a.mayRun s = true) (n : Nat) : waitTurn a n s = .ok () s := by
  cases n <;> simp only [waitTurn, h, if_true]

/-- A step is a register access. -/
def Act.isAccess : Act → Bool
  | .rd _ | .wr _ _ | .take _ => true
  | _ => false

/-- A step that is no register access and can be taken is taken at once. -/
theorem Act.step_ready {a : Act} {s : State} (hr : a.isAccess = false) (h : a.mayRun s = true) :
    a.step s = a.perform s := by
  cases a <;> first | contradiction | simp only [Act.step, Act.before, waitTurn_ready h, Res.bind_ok]

@[simp] theorem Act.step_unlock (s : State) : Act.unlock.step s = .ok 0#32 (dropLock s) :=
  Act.step_ready rfl rfl
@[simp] theorem Act.step_leave (k : Fin 8) (p : Word) (s : State) : (Act.leave k p).step s = .ok 0#32 (endRoute k p s) :=
  Act.step_ready rfl rfl
@[simp] theorem Act.step_choose (p : Byte) (s : State) :
    (Act.choose p).step s = .ok (chooseLine p s).1 (chooseLine p s).2 :=
  Act.step_ready rfl rfl
@[simp] theorem Act.step_handled (k : Fin 8) (s : State) : (Act.handled k).step s = .ok 0#32 (endHandler k s) :=
  Act.step_ready rfl rfl
@[simp] theorem Act.step_register (src : Nat) (h : Word) (s : State) :
    (Act.register src h).step s = .ok 0#32 (s.setHandler src h) :=
  Act.step_ready rfl rfl
@[simp] theorem Act.step_needController (s : State) :
    Act.needController.step s = (checkController s).bind fun _ s => .ok 0#32 s :=
  Act.step_ready rfl rfl
@[simp] theorem Act.step_needDetached (s : State) :
    Act.needDetached.step s = (checkDetached s).bind fun _ s => .ok 0#32 s :=
  Act.step_ready rfl rfl
@[simp] theorem Act.step_record (base : Word) (cs : ChipSel) (m : AddrMode) (s : State) :
    (Act.record base cs m).step s = (fixController base cs m s).bind fun _ s => .ok 0#32 s :=
  Act.step_ready rfl rfl

/-- The common preconditions, then the operation (R97). -/
theorem withController_den {α : Type} (p : Prog α) (s : State) :
    (withController p).den s =
      if s.ctrl.attached then (if s.spiMutex = .held s.ctx then p.den s else .refused .mutexNotHeld)
      else .refused .notAttached := by
  simp only [withController, Prog.den_bind, Prog.den_doing, Act.step_needController, checkController, checkMutex]
  split <;> (try split) <;> simp

theorem withController_ready {α : Type} (p : Prog α) {s : State} (ha : s.ctrl.attached = true)
    (hm : s.spiMutex = .held s.ctx) : (withController p).den s = p.den s := by
  rw [withController_den, if_pos ha, if_pos hm]

/-! Who is inside an SPI primitive (R43). -/

@[simp] theorem State.withCaller_same (s : State) : s.withCaller s.spiCaller = s := rfl
@[simp] theorem State.env_withCaller (s : State) (c : Option Nat) (n : Nat) : (s.withCaller c).env n = s.env n := rfl

theorem enterOp_other {op : Op} (h : op.usesSpi = false) (ctx : Nat) (s : State) : enterOp op ctx s = .ok () s := by
  simp only [enterOp, h, if_true]

theorem enterOp_spi {op : Op} {s : State} (h : op.usesSpi = true) (hf : s.spiCaller = none) (ctx : Nat) :
    enterOp op ctx s = .ok () (s.withCaller (some ctx)) := by
  simp only [enterOp, h, hf, Bool.true_eq_false, if_false, if_true]

/-- A second context inside an SPI primitive is refused (R43, R138). -/
theorem enterOp_refused {op : Op} {s : State} (h : op.usesSpi = true) (hf : s.spiCaller ≠ none) (ctx : Nat) :
    enterOp op ctx s = .refused .twoInPrimitives := by
  simp only [enterOp, h, hf, Bool.true_eq_false, if_false]

/-- What calling an operation can do: it is refused, or it records who is inside. -/
theorem enterOp_cases (op : Op) (ctx : Nat) (s : State) :
    (op.usesSpi = true ∧ s.spiCaller ≠ none ∧ enterOp op ctx s = .refused .twoInPrimitives) ∨
    ∃ c, enterOp op ctx s = .ok () (s.withCaller c) ∧
      (op.usesSpi = false ∧ c = s.spiCaller ∨ op.usesSpi = true ∧ s.spiCaller = none ∧ c = some ctx) := by
  cases h : op.usesSpi with
  | false => exact .inr ⟨_, enterOp_other h ctx s, .inl ⟨rfl, rfl⟩⟩
  | true =>
    by_cases hf : s.spiCaller = none
    · exact .inr ⟨_, enterOp_spi h hf ctx, .inr ⟨rfl, hf, rfl⟩⟩
    · exact .inl ⟨rfl, hf, enterOp_refused h hf ctx⟩

theorem State.ended_other {op : Op} (h : op.usesSpi = false) (s : State) (r : Result) :
    s.ended op r = { s with result := r } := by
  simp only [State.ended, State.leaveOp, h, Bool.false_eq_true, if_false]

theorem State.ended_spi {op : Op} (h : op.usesSpi = true) (s : State) (r : Result) :
    s.ended op r = { s with spiCaller := none, result := r } := by
  simp only [State.ended, State.leaveOp, h, if_true, State.withCaller]

/-! The outcome of a call. -/

@[simp] theorem Res.finish_ok {α : Type} (a : α) (s : State) (c : Condition → State → Host.Outcome State Fault Refusal)
    (w : State → Host.Outcome State Fault Refusal) (k : α → State → Host.Outcome State Fault Refusal) :
    (Res.ok a s).finish c w k = k a s := rfl

@[simp] theorem Res.finish_refused {α : Type} (r : Refusal) (c : Condition → State → Host.Outcome State Fault Refusal)
    (w : State → Host.Outcome State Fault Refusal) (k : α → State → Host.Outcome State Fault Refusal) :
    (Res.refused r : Res α).finish c w k = .refused r := rfl

/-- What the answer of a program comes to, as the operation `op` of the running context that has got the answers `got`. -/
def Res.outcome (op : Op) (got : List Word) (r : Res Result) : Host.Outcome State Fault Refusal :=
  r.finish (fun c t => .next (t.ended op (raisedResult t.cfg c))) (fun t => .next (t.suspend op got))
    fun r t => .next (t.ended op r)

/-- What running a program comes to: its result, its condition, its stop, or the operation in progress with the answers it
has got so far. -/
theorem Prog.run_eq (p : Prog Result) (op : Op) : ∀ (got : List Word) (s : State), ∃ more,
    p.run op got s = (p.den s).outcome op (got ++ more) := by
  induction p with
  | ret r => intro got s; exact ⟨[], rfl⟩
  | raise c => intro got s; exact ⟨[], rfl⟩
  | refuse r => intro got s; exact ⟨[], rfl⟩
  | more => intro got s; exact ⟨[], by simp only [Prog.run, Prog.den_more, Res.outcome, Res.finish, List.append_nil]⟩
  | act a k ih =>
    intro got s
    simp only [Prog.run, Prog.den_act]
    cases h : a.step s with
    | ok w t =>
      obtain ⟨more, e⟩ := ih w (got ++ [w]) t
      exact ⟨w :: more, by simpa only [Res.finish_ok, Res.bind_ok, List.append_assoc, List.singleton_append] using e⟩
    | pending t => exact ⟨[], by simp only [Res.outcome, Res.finish, Res.bind_pending, List.append_nil]⟩
    | raised c t => exact ⟨[], rfl⟩
    | refused r => exact ⟨[], rfl⟩
    | fault f => exact ⟨[], rfl⟩

/-- What a call comes to, once the operation may start (R43). -/
theorem call_eq {op : Op} {s u : State} (hu : enterOp op s.ctx s = .ok () u) (p : Env → Prog Result) : ∃ got,
    call op p s = ((p (s.env 0)).den u).outcome op got := by
  obtain ⟨more, e⟩ := (p (s.env 0)).run_eq op [] u
  exact ⟨more, by rw [call, hu]; exact e⟩

/-- An SPI primitive called while a context is inside one is refused (R43, R138, R160). -/
theorem call_twoInPrimitives {op : Op} {s : State} (h : op.usesSpi = true) (hf : s.spiCaller ≠ none)
    (p : Env → Prog Result) : call op p s = .refused .twoInPrimitives := by
  rw [call, enterOp_refused h hf]; rfl

theorem call_ok {op : Op} {p : Env → Prog Result} {s u t : State} {r : Result} (hu : enterOp op s.ctx s = .ok () u)
    (h : (p (s.env 0)).den u = .ok r t) : call op p s = .next (t.ended op r) := by
  obtain ⟨g, e⟩ := call_eq hu p
  rw [e, h]; rfl

theorem call_raised {op : Op} {p : Env → Prog Result} {s u t : State} {c : Condition}
    (hu : enterOp op s.ctx s = .ok () u) (h : (p (s.env 0)).den u = .raised c t) :
    call op p s = .next (t.ended op (raisedResult t.cfg c)) := by
  obtain ⟨g, e⟩ := call_eq hu p
  rw [e, h]; rfl

theorem call_pending {op : Op} {p : Env → Prog Result} {s u t : State} (hu : enterOp op s.ctx s = .ok () u)
    (h : (p (s.env 0)).den u = .pending t) : ∃ got, call op p s = .next (t.suspend op got) := by
  obtain ⟨g, e⟩ := call_eq hu p
  exact ⟨g, by rw [e, h]; rfl⟩

theorem call_refused {op : Op} {p : Env → Prog Result} {s u : State} {r : Refusal} (hu : enterOp op s.ctx s = .ok () u)
    (h : (p (s.env 0)).den u = .refused r) : call op p s = .refused r := by
  obtain ⟨g, e⟩ := call_eq hu p
  rw [e, h]; rfl

theorem call_fault {op : Op} {p : Env → Prog Result} {s u : State} {f : Fault} (hu : enterOp op s.ctx s = .ok () u)
    (h : (p (s.env 0)).den u = .fault f) : call op p s = .fault f := by
  obtain ⟨g, e⟩ := call_eq hu p
  rw [e, h]; rfl

/-- A call answers a next state when its operation may start and its program returns, raises, or is still in progress. -/
theorem call_eq_next {op : Op} {p : Env → Prog Result} {s t : State} (h : call op p s = .next t) :
    ∃ u, enterOp op s.ctx s = .ok () u ∧
    ((∃ r v, (p (s.env 0)).den u = .ok r v ∧ t = v.ended op r) ∨
    (∃ c v, (p (s.env 0)).den u = .raised c v ∧ t = v.ended op (raisedResult v.cfg c)) ∨
    (∃ v got, (p (s.env 0)).den u = .pending v ∧ t = v.suspend op got)) := by
  rcases enterOp_cases op s.ctx s with ⟨h1, h2, _⟩ | ⟨c, hu, _⟩
  · rw [call_twoInPrimitives h1 h2] at h; cases h
  · refine ⟨_, hu, ?_⟩
    obtain ⟨g, e⟩ := call_eq hu p
    rw [e] at h
    cases hd : (p (s.env 0)).den (s.withCaller c) with
    | ok r v => rw [hd] at h; cases h; exact .inl ⟨r, v, rfl, rfl⟩
    | raised c v => rw [hd] at h; cases h; exact .inr (.inl ⟨c, v, rfl, rfl⟩)
    | pending v => rw [hd] at h; cases h; exact .inr (.inr ⟨v, g, rfl, rfl⟩)
    | refused r => rw [hd] at h; cases h
    | fault f => rw [hd] at h; cases h

end Sys2Proof.Machine
end

