-- ==== Sys2Proof/Laws/Engine.lean ====
section
/-! SUPPORT. The protocol engine under an eager schedule: each part answers, with the frame it leaves and the bytes it
moves. `Parked` and `Link` say what a state looks like between two frames and inside one, up to the devices' own steps;
`Moves` which accesses were made. -/

namespace Sys2Proof.Machine

/-! The frame relation. -/

theorem State.SameRouter.refl (s : State) : s.SameRouter s := ⟨rfl, rfl, rfl, rfl, rfl, rfl, rfl, rfl, rfl⟩
theorem State.SameRouter.trans {s t u : State} (h : s.SameRouter t) (k : t.SameRouter u) : s.SameRouter u :=
  ⟨k.1.trans h.1, k.2.trans h.2, k.3.trans h.3, k.4.trans h.4, k.5.trans h.5, k.6.trans h.6, k.7.trans h.7,
    k.8.trans h.8, k.9.trans h.9⟩

theorem State.SameRest.refl (s : State) : s.SameRest s := ⟨rfl, rfl, rfl, rfl, rfl, rfl, rfl, rfl⟩
theorem State.SameRest.trans {s t u : State} (h : s.SameRest t) (k : t.SameRest u) : s.SameRest u :=
  ⟨k.1.trans h.1, k.2.trans h.2, k.3.trans h.3, k.4.trans h.4, k.5.trans h.5, k.6.trans h.6,
    k.7.trans h.7, k.8.trans h.8⟩

theorem State.EngineFrame.refl (s : State) : s.EngineFrame s :=
  ⟨.refl s, .refl s, rfl, rfl, rfl, rfl, rfl⟩
theorem State.EngineFrame.trans {s t u : State} (h : s.EngineFrame t) (k : t.EngineFrame u) : s.EngineFrame u :=
  ⟨h.1.trans k.1, h.2.trans k.2, k.3.trans h.3, k.4.trans h.4, k.5.trans h.5, k.6.trans h.6, k.7.trans h.7⟩

/-- The result of an operation is outside the frame. -/
theorem State.EngineFrame.withResult {s t : State} (h : s.EngineFrame t) (r : Result) :
    s.EngineFrame { t with result := r } :=
  ⟨⟨h.1.1, h.1.2, h.1.3, h.1.4, h.1.5, h.1.6, h.1.7, h.1.8, h.1.9⟩, ⟨h.2.1, h.2.2, h.2.3, h.2.4, h.2.5, h.2.6, h.2.7, h.2.8⟩,
    h.3, h.4, h.5, h.6, h.7⟩

theorem State.EngineFrame.eager {s t : State} (h : s.EngineFrame t) (e : s.Eager) : t.Eager :=
  ⟨h.rest.schedule.trans e.1, h.wedged.trans e.2, h.rest.cfg ▸ e.3⟩

/-- A program's environment is that of an eager state, and its loops make at least one iteration. -/
structure Runs (E : Env) (s : State) : Prop where
  eager : s.Eager
  cfg : E.cfg = s.cfg
  ctrl : E.ctrl = s.ctrl
  limit : ∃ n, E.pollLimit = n + 1

theorem State.EngineFrame.runs {E : Env} {s t : State} (h : s.EngineFrame t) (r : Runs E s) : Runs E t :=
  ⟨h.eager r.eager, r.cfg.trans h.rest.cfg.symm, r.ctrl.trans h.ctrl.symm, r.limit⟩

/-- The environment of a call in an eager state. -/
theorem State.Eager.runs {s : State} (h : s.Eager) (n : Nat) : Runs (s.env n) s := by
  refine ⟨h, rfl, rfl, ?_⟩
  simp only [Env.pollLimit, State.env]
  cases hb : s.cfg.pollBudget with
  | none => exact ⟨n + s.schedule.length + s.patience, by simp only; omega⟩
  | some b =>
    cases b with
    | zero => exact absurd hb (Cfg.inputs h.cfgOk).budget
    | succ b => exact ⟨b, rfl⟩

theorem State.EngineFrame.lanes {s t : State} (h : s.EngineFrame t) (l : s.bigEndianLanes = true) :
    t.bigEndianLanes = true := by
  simpa [State.bigEndianLanes, h.sfcr, h.rest.cfg] using l

theorem eagerStep_frame (s : State) : s.EngineFrame (eagerStep s) := by
  rw [eagerStep_eq]; exact ⟨⟨rfl, rfl, rfl, rfl, rfl, rfl, rfl, rfl, rfl⟩, ⟨rfl, rfl, rfl, rfl, rfl, rfl, rfl, rfl⟩,
    rfl, rfl, rfl, rfl, rfl⟩

theorem polled_frame (s : State) : s.EngineFrame s.polled := by
  rw [State.polled_eq]; exact ⟨⟨rfl, rfl, rfl, rfl, rfl, rfl, rfl, rfl, rfl⟩, ⟨rfl, rfl, rfl, rfl, rfl, rfl, rfl, rfl⟩,
    rfl, rfl, rfl, rfl, rfl⟩

theorem State.Eager.polled {s : State} (h : s.Eager) : s.polled.Eager := (polled_frame s).eager h

theorem State.Eager.polled_busy {s : State} (h : s.Eager) : s.polled.busy = false := by
  simp [State.polled_eq, h.wedged]

theorem Runs.polled_busy {E : Env} {s : State} (h : Runs E s) : s.polled.busy = false := h.eager.polled_busy

theorem Runs.ok {E : Env} {s : State} (h : Runs E s) : E.cfg.ok = true := h.cfg ▸ h.eager.cfgOk

theorem Runs.polled_cfg {E : Env} {s : State} (h : Runs E s) : s.polled.cfg = E.cfg :=
  (polled_frame s).rest.cfg.trans h.cfg.symm

/-! The program of an SPI primitive runs with its context inside (R43); nothing else of the state knows. -/

theorem State.Eager.inside {s : State} (h : s.Eager) (c : Option Nat) : (s.withCaller c).Eager := ⟨h.1, h.2, h.3⟩

theorem State.Ready.inside {s : State} (h : s.Ready) (c : Option Nat) : (s.withCaller c).Ready :=
  ⟨h.eager.inside c, h.attached, h.mutex, h.lanes⟩

theorem eagerStep_withCaller (s : State) (c : Option Nat) : eagerStep (s.withCaller c) = (eagerStep s).withCaller c := by
  rw [eagerStep_eq, eagerStep_eq]; rfl

theorem polled_withCaller (s : State) (c : Option Nat) : (s.withCaller c).polled = s.polled.withCaller c := by
  simp only [State.polled, eagerStep_withCaller]; rfl

/-- Closing the frame does not depend on who is inside an SPI primitive. -/
theorem closeFrame_caller (old : Sel) (s : State) (c : Option Nat) :
    closeFrame old (s.withCaller c) = (closeFrame old s).bind fun a t => .ok a (t.withCaller c) := by
  have close : ∀ x, devDeselect x (s.withCaller c) = (devDeselect x s).bind fun a t => .ok a (t.withCaller c) := by
    intro x
    simp only [devDeselect, State.withCaller_dev, State.withCaller_cfg, State.withCaller_draws]
    cases (s.dev x).deselect s.cfg (s.cfg.flashSize x) s.cfg.eraseSize s.draws with
    | ok p => cases x <;> rfl
    | error r => rfl
  cases old with
  | cs0 => exact close .cs0
  | cs1 => exact close .cs1
  | none | both => rfl

theorem closeFrame_withCaller {old : Sel} {s u : State} (h : closeFrame old s = .ok () u) (c : Option Nat) :
    closeFrame old (s.withCaller c) = .ok () (u.withCaller c) := by
  rw [closeFrame_caller, h]; rfl

theorem State.EngineFrame.ended {s t : State} {c : Option Nat} (h : (s.withCaller c).EngineFrame t)
    (hf : s.spiCaller = none) {op : Op} (ho : op.usesSpi = true) (r : Result) : s.EngineFrame (t.ended op r) := by
  rw [State.ended_spi ho]
  exact ⟨⟨h.1.1, h.1.2, h.1.3, h.1.4, h.1.5, h.1.6, h.1.7, h.1.8, h.1.9⟩,
    ⟨h.2.1, h.2.2, h.2.3, h.2.4, h.2.5, h.2.6, h.2.7, hf.symm⟩, h.3, h.4, h.5, h.6, h.7⟩

/-! Which accesses are made (R27). -/

/-- The frame of the engine, and the accesses that were made, polls left out. -/
structure State.Moves (T : List Touch) (s t : State) : Prop extends s.EngineFrame t where
  log : ∃ new, t.log = s.log ++ new ∧ touches new = T

theorem State.Moves.trans {s t u : State} {T U : List Touch} (h : State.Moves T s t) (k : State.Moves U t u) :
    State.Moves (T ++ U) s u := by
  obtain ⟨n, e, hn⟩ := h.log
  obtain ⟨m, e', hm⟩ := k.log
  exact ⟨h.toEngineFrame.trans k.toEngineFrame, n ++ m, by rw [e', e, List.append_assoc],
    by simp only [touches, List.filterMap_append] at hn hm ⊢; rw [hn, hm]⟩

theorem State.Moves.refl (s : State) : State.Moves [] s s := ⟨.refl s, [], by simp, rfl⟩

/-- A gated access: one poll, then the access. -/
theorem State.Moves.gated {s t : State} (f : s.EngineFrame t) (d : Dir) (r : Reg) (v : Word) {T : Touch}
    (h : t.log = s.polled.log ++ [⟨d, r, v⟩]) (ht : (⟨d, r, v⟩ : LogEntry).touch = some T) : State.Moves [T] s t := by
  refine ⟨f, [⟨.read, .sfcsr, (eagerStep s).sfcsr⟩, ⟨d, r, v⟩], ?_, ?_⟩
  · rw [h, State.polled_eq]; simp
  · have h0 : (⟨.read, .sfcsr, (eagerStep s).sfcsr⟩ : LogEntry).touch = none := rfl
    simp only [touches, List.filterMap_cons, h0, ht, List.filterMap_nil]

@[simp] theorem State.polled_sel (s : State) : s.polled.sel = s.sel := by
  simp [State.polled_eq, State.sel]

/-! Gated accesses (R98 to R100). -/

/-- The ready poll ends at its first read. -/
theorem waitReady_eager {E : Env} {s : State} (h : Runs E s) : (waitReady E).den s = .ok () s.polled := by
  obtain ⟨n, hn⟩ := h.limit
  have hc : (eagerStep s).cfg = s.cfg := (eagerStep_frame s).rest.cfg
  have hrdy : (eagerStep s).sfcsr.getLsbD E.cfg.bitRdy = true := by
    rw [h.cfg, ← hc, State.sfcsr_rdy (hc ▸ h.eager.cfgOk), eagerStep_eq]; simp [h.eager.wedged]
  simp only [waitReady, hn, pollReady, Prog.den_bind, Prog.den_reading, point_of_empty h.eager.schedule, regRead,
    sfcsrRead, Res.bind_ok, hrdy, if_true, Prog.den_ret, State.polled]

theorem gated32_eager {E : Env} {s : State} (h : Runs E s) (reg : GatedReg) (v : Word) :
    (gated32 E reg v).den s = regWrite (gatedReg reg) v s.polled := by
  simp only [gated32, Prog.den_bind, waitReady_eager h, Res.bind_ok, Prog.den_writing,
    point_of_empty h.eager.polled.schedule, eagerStep_polled]

theorem readGated_eager {E : Env} {s : State} (h : Runs E s) : (readGated E).den s = regRead .sfdr s.polled := by
  simp only [readGated, Prog.den_bind, waitReady_eager h, Res.bind_ok, Prog.den_reading,
    point_of_empty h.eager.polled.schedule, eagerStep_polled]

theorem takeGated_eager {E : Env} {s : State} (h : Runs E s) (n : Nat) :
    (takeGated E n).den s = (sfdrRead s.polled).bind fun lanes s => .ok (lanes.firsts n) s := by
  simp only [takeGated, Prog.den_bind, waitReady_eager h, Res.bind_ok, Prog.den_taking,
    point_of_empty h.eager.polled.schedule, eagerStep_polled]

/-! SFCSR words. -/

/-- A word with the chip-select bits `c0`, `c1` and the field `k` at their positions, and zeros elsewhere (R22, R52). -/
theorem fields_of_bits {cfg : Cfg} (h : cfg.ok = true) {v : Word} {c0 c1 : Bool} {k : BitVec 2}
    (hv : ∀ n, n < 32 → v.getLsbD n = (decide (cfg.bitCsb0 = n) && c0 || decide (cfg.bitCsb1 = n) && c1 ||
      decide (cfg.lenLo ≤ n) && k.getLsbD (n - cfg.lenLo))) :
    reservedSet cfg v = false ∧ v.getLsbD cfg.bitCsb0 = c0 ∧ v.getLsbD cfg.bitCsb1 = c1 ∧ v.extractLsb' cfg.lenLo 2 = k := by
  obtain ⟨p0, p1, _, pl, phi, _, p01, _, _, q0, q0', q1, q1', _, _⟩ := Cfg.bits h
  have out : ∀ n, n ≠ cfg.lenLo → n ≠ cfg.lenLo + 1 → (decide (cfg.lenLo ≤ n) && k.getLsbD (n - cfg.lenLo)) = false := by
    intro n h1 h2
    by_cases hl : cfg.lenLo ≤ n
    · rw [BitVec.getLsbD_of_ge _ _ (by omega), Bool.and_false]
    · simp [hl]
  refine ⟨?_, ?_, ?_, field_eq ?_ ?_⟩
  · simp only [reservedSet, List.any_eq_false, Bool.and_eq_true, not_and, Bool.not_eq_true, List.mem_range]
    intro n hn hm
    simp only [Cfg.sfcsrBits, phi, Bool.not_eq_true', List.contains_eq_mem, List.mem_cons, List.not_mem_nil, or_false,
      decide_eq_false_iff_not, not_or] at hm
    rw [hv n hn, out n hm.2.2.2.1 hm.2.2.1]
    simp [Ne.symm hm.1, Ne.symm hm.2.1]
  · rw [hv _ p0, out _ q0 q0']; simp [Ne.symm p01]
  · rw [hv _ p1, out _ q1 q1']; simp [p01]
  · rw [hv _ (by omega)]; simp [q0, q1]
  · rw [hv _ pl]; simp [q0', q1']

theorem lenField_getLsbD (cfg : Cfg) (k : Fin 4) {n : Nat} (hn : n < 32) : (lenField cfg (k.val + 1)).getLsbD n =
    (decide (cfg.lenLo ≤ n) && (BitVec.ofNat 2 k.val).getLsbD (n - cfg.lenLo)) := by
  have e : BitVec.ofNat 32 (k.val + 1 - 1) = (BitVec.ofNat 2 k.val).setWidth 32 := by revert k; decide
  rw [lenField, e, fieldAt_getLsbD]; simp [hn]

theorem lenField_one (cfg : Cfg) : lenField cfg 1 = 0#32 := by simp [lenField]

/-- The word that deselects: no reserved bit, both chip-selects deasserted, width 1 (R54). -/
theorem deselectWord_fields {cfg : Cfg} (h : cfg.ok = true) : reservedSet cfg (deselectWord cfg) = false ∧
    (deselectWord cfg).getLsbD cfg.bitCsb0 = true ∧ (deselectWord cfg).getLsbD cfg.bitCsb1 = true ∧
    (deselectWord cfg).extractLsb' cfg.lenLo 2 = 0#2 := by
  refine fields_of_bits h fun n hn => ?_
  simp only [deselectWord, csb0Word, csb1Word, lenField_one, BitVec.or_zero, BitVec.getLsbD_or, bit_getLsbD, hn]
  simp

/-- The word that selects a device with a width: no reserved bit, one chip-select, the field is the width minus one. -/
theorem widthWord_fields {cfg : Cfg} (h : cfg.ok = true) (c : ChipSel) (k : Fin 4) :
    reservedSet cfg (baseWord cfg c ||| lenField cfg (k.val + 1)) = false ∧
      (baseWord cfg c ||| lenField cfg (k.val + 1)).getLsbD cfg.bitCsb0 = (c == .cs1) ∧
      (baseWord cfg c ||| lenField cfg (k.val + 1)).getLsbD cfg.bitCsb1 = (c == .cs0) ∧
      (baseWord cfg c ||| lenField cfg (k.val + 1)).extractLsb' cfg.lenLo 2 = BitVec.ofNat 2 k.val := by
  refine fields_of_bits h fun n hn => ?_
  cases c <;>
    simp only [baseWord, csb0Word, csb1Word, lenField_one, BitVec.or_zero, BitVec.getLsbD_or, bit_getLsbD,
      lenField_getLsbD _ _ hn, hn] <;> simp [show (ChipSel.cs0 == ChipSel.cs1) = false from rfl,
      show (ChipSel.cs1 == ChipSel.cs0) = false from rfl]

theorem selOf_width (c : ChipSel) : selOf (c == .cs1) (c == .cs0) = c.sel := by cases c <;> rfl

/-! States between two frames and inside one. -/

/-- No device is selected; the devices, up to their own step. -/
structure Parked (dev : ChipSel → Device) (s : State) : Prop where
  sel : s.sel = .none
  dev : ∀ c, (s.dev c).finish = dev c

/-- A frame is open on `c`, with the width field `k`; the selected device and the other one, with no step of their own
to take. -/
structure Link (c : ChipSel) (k : BitVec 2) (d e : Device) (s : State) : Prop where
  sel : s.sel = c.sel
  len : s.len = k
  dev : s.dev c = d
  other : s.dev c.other = e
  settled : d.finish = d
  settled_other : e.finish = e

theorem Parked.settled {dev : ChipSel → Device} {s : State} (h : Parked dev s) (c : ChipSel) :
    (dev c).finish = dev c := by
  rw [← h.dev, Device.finish_finish]

theorem sel_none_csb {s : State} (h : s.sel = .none) : s.csb0 = true ∧ s.csb1 = true := by
  simp only [State.sel, selOf] at h
  split at h <;> simp_all

theorem sel_link_csb {s : State} {c : ChipSel} (h : s.sel = c.sel) : s.csb0 = (c == .cs1) ∧ s.csb1 = (c == .cs0) := by
  simp only [State.sel, selOf, ChipSel.sel] at h
  cases c <;> split at h <;> simp_all

@[simp] theorem devSelect_eq (c : ChipSel) (s : State) : devSelect c s = s.setDev c (s.dev c).select := rfl
@[simp] theorem devPut_eq (c : ChipSel) (b : Byte) (s : State) : devPut c b s = s.setDev c ((s.dev c).put b) := rfl

theorem State.setDev_other (s : State) (c : ChipSel) (d : Device) : (s.setDev c d).dev c.other = s.dev c.other := by
  cases c <;> rfl

theorem ChipSel.eq_or_other (c e : ChipSel) : e = c ∨ e = c.other := by cases c <;> cases e <;> simp [ChipSel.other]

theorem setDev_frame (s : State) (c : ChipSel) (d : Device) : s.EngineFrame (s.setDev c d) := by
  cases c <;> exact ⟨⟨rfl, rfl, rfl, rfl, rfl, rfl, rfl, rfl, rfl⟩, ⟨rfl, rfl, rfl, rfl, rfl, rfl, rfl, rfl⟩,
    rfl, rfl, rfl, rfl, rfl⟩

theorem withDraws_frame (s : State) (n : Nat) : s.EngineFrame (s.withDraws n) :=
  ⟨⟨rfl, rfl, rfl, rfl, rfl, rfl, rfl, rfl, rfl⟩, ⟨rfl, rfl, rfl, rfl, rfl, rfl, rfl, rfl⟩,
    rfl, rfl, rfl, rfl, rfl⟩

theorem withSelects_frame (s : State) (a b : Bool) : s.EngineFrame (s.withSelects a b) :=
  ⟨⟨rfl, rfl, rfl, rfl, rfl, rfl, rfl, rfl, rfl⟩, ⟨rfl, rfl, rfl, rfl, rfl, rfl, rfl, rfl⟩,
    rfl, rfl, rfl, rfl, rfl⟩
theorem withWidth_frame (s : State) (k : BitVec 2) : s.EngineFrame (s.withWidth k) :=
  ⟨⟨rfl, rfl, rfl, rfl, rfl, rfl, rfl, rfl, rfl⟩, ⟨rfl, rfl, rfl, rfl, rfl, rfl, rfl, rfl⟩,
    rfl, rfl, rfl, rfl, rfl⟩
theorem markBusy_frame (s : State) : s.EngineFrame s.markBusy :=
  ⟨⟨rfl, rfl, rfl, rfl, rfl, rfl, rfl, rfl, rfl⟩, ⟨rfl, rfl, rfl, rfl, rfl, rfl, rfl, rfl⟩,
    rfl, rfl, rfl, rfl, rfl⟩
theorem logged_frame (s : State) (d : Dir) (r : Reg) (v : Word) : s.EngineFrame (s.logged d r v) :=
  ⟨⟨rfl, rfl, rfl, rfl, rfl, rfl, rfl, rfl, rfl⟩, ⟨rfl, rfl, rfl, rfl, rfl, rfl, rfl, rfl⟩,
    rfl, rfl, rfl, rfl, rfl⟩
theorem draw_frame (s : State) : s.EngineFrame s.draw.2 :=
  ⟨⟨rfl, rfl, rfl, rfl, rfl, rfl, rfl, rfl, rfl⟩, ⟨rfl, rfl, rfl, rfl, rfl, rfl, rfl, rfl⟩,
    rfl, rfl, rfl, rfl, rfl⟩

theorem openFrame_sel (c : ChipSel) (s : State) : openFrame c.sel s = s.setDev c (s.dev c).select := by cases c <;> rfl

theorem devDeselect_frame {c : ChipSel} {s u : State} (h : devDeselect c s = .ok () u) : s.EngineFrame u := by
  simp only [devDeselect] at h
  split at h
  · injection h with _ h
    exact h ▸ (setDev_frame s c _).trans (withDraws_frame _ _)
  · cases h

theorem closeFrame_frame {old : Sel} {s u : State} (h : closeFrame old s = .ok () u) : s.EngineFrame u := by
  cases old <;> simp only [closeFrame] at h
  · injection h with _ h; exact h ▸ .refl s
  · exact devDeselect_frame h
  · exact devDeselect_frame h
  · injection h with _ h; exact h ▸ .refl s

/-- Closing a frame looks at the devices, the configuration and the index of the next free byte only. -/
theorem closeFrame_congr {old : Sel} {s t u : State} (h : closeFrame old s = .ok () u) (hd : ∀ c, t.dev c = s.dev c)
    (hc : t.cfg = s.cfg) (hr : t.draws = s.draws) :
    ∃ w, closeFrame old t = .ok () w ∧ (∀ c, w.dev c = u.dev c) ∧ t.EngineFrame w ∧ w.csb0 = t.csb0 ∧ w.csb1 = t.csb1 ∧
      w.busy = t.busy ∧ w.len = t.len ∧ w.draws = u.draws ∧ w.log = t.log := by
  have close : ∀ c, devDeselect c s = .ok () u → ∃ w, devDeselect c t = .ok () w ∧ (∀ c, w.dev c = u.dev c) ∧
      t.EngineFrame w ∧ w.csb0 = t.csb0 ∧ w.csb1 = t.csb1 ∧ w.busy = t.busy ∧ w.len = t.len ∧ w.draws = u.draws ∧
      w.log = t.log := by
    intro c h
    simp only [devDeselect, hd, hc, hr] at h ⊢
    split at h
    · rename_i d n hdn
      injection h with _ h
      subst h
      refine ⟨_, rfl, ?_, (setDev_frame t c _).trans (withDraws_frame _ _), ?_, ?_, ?_, ?_, rfl, ?_⟩
      · intro e
        rcases ChipSel.eq_or_other c e with rfl | rfl
        · exact (State.setDev_dev t e d).trans (State.setDev_dev s e d).symm
        · exact ((State.setDev_other t c d).trans (hd _)).trans (State.setDev_other s c d).symm
      all_goals cases c <;> rfl
    · cases h
  cases old <;> simp only [closeFrame] at h ⊢
  · injection h with _ h; subst h
    exact ⟨t, rfl, hd, .refl t, rfl, rfl, rfl, rfl, hr, rfl⟩
  · exact close _ h
  · exact close _ h
  · injection h with _ h; subst h
    exact ⟨t, rfl, hd, .refl t, rfl, rfl, rfl, rfl, hr, rfl⟩

/-- Closing the frame open on `c` is the device's `deselect`. -/
theorem closeFrame_link {c : ChipSel} {s : State} {d : Device} {n : Nat}
    (h : (s.dev c).deselect s.cfg (s.cfg.flashSize c) s.cfg.eraseSize s.draws = .ok (d, n)) :
    closeFrame c.sel s = .ok () ((s.setDev c d).withDraws n) := by
  cases c <;> simp [closeFrame, ChipSel.sel, devDeselect, h]

/-! The framing write (R87, R101). -/

/-- `spi_prep` answers when the open frame may be closed: no device is selected, the frame is closed (R101). -/
theorem prep_eager {s u : State} {E : Env} (h : Runs E s) (hc : closeFrame s.sel (eagerStep s) = .ok () u) :
    ∃ t, (prep E).den s = .ok (baseWord E.cfg s.ctrl.cs) t ∧ State.Moves [deselectTouch E.cfg] s t ∧ t.sel = .none ∧
      t.len = 0#2 ∧
      t.busy = true ∧
      (∀ c, t.dev c = u.dev c) ∧ t.draws = u.draws ∧
      t.log = s.log ++ [⟨.read, .sfcsr, (eagerStep s).sfcsr⟩, ⟨.write, .sfcsr, deselectWord E.cfg⟩] := by
  obtain ⟨f0, f1, f2, f3⟩ := deselectWord_fields h.ok
  have hw : ∃ w, setSelects true true s.polled = .ok () w ∧ (∀ c, w.dev c = u.dev c) ∧ s.polled.EngineFrame w ∧
      w.csb0 = true ∧ w.csb1 = true ∧ w.draws = u.draws ∧ w.log = s.polled.log := by
    by_cases hs : s.sel = .none
    · rw [hs] at hc
      simp only [closeFrame] at hc
      injection hc with _ hc
      subst hc
      refine ⟨s.polled.withSelects true true, ?_, ?_, withSelects_frame _ _ _, rfl, rfl, ?_, rfl⟩
      · simp [setSelects, hs, selOf]
      · intro c; cases c <;> rfl
      · rfl
    · obtain ⟨w, hw, hd, hf, c0, c1, _, _, hr, hl⟩ := closeFrame_congr
        (t := s.polled.withSelects true true) hc (by intro c; cases c <;> rfl) rfl rfl
      refine ⟨w, ?_, hd, (withSelects_frame _ _ _).trans hf, c0, c1, hr, hl⟩
      simp only [setSelects, selOf, State.polled_sel, if_neg hs, hw, Res.bind_ok, openFrame]
  obtain ⟨w, hw, hd, hf, c0, c1, hr, hl⟩ := hw
  refine ⟨(w.withWidth 0#2).logged .write .sfcsr (deselectWord E.cfg), ?_, ?_, ?_, rfl, rfl, ?_, hr, ?_⟩
  · simp only [prep, gated32_eager h, gatedReg, regWrite, sfcsrWrite, h.polled_busy, h.polled_cfg, f0, f1, f2, f3, hw,
      Prog.den_bind,
      Prog.den_ret, Res.bind_ok, Bool.false_eq_true, if_false, Bool.true_eq_false, false_and, h.ctrl]
  · exact .gated ((((polled_frame s).trans hf).trans (withWidth_frame _ _)).trans (logged_frame _ _ _ _))
      .write .sfcsr (deselectWord E.cfg) (by simp [hl]) rfl
  · simp [State.sel, c0, c1, selOf]
  · intro c; rw [← hd c]; simp
  · simp [hl, State.polled_eq]

/-- Setting the width from a parked state opens a frame (R54, R87, R102). -/
theorem setWidth_parked {s : State} {dev : ChipSel → Device} {E : Env} (h : Runs E s) (hp : Parked dev s)
    (c : ChipSel) (k : Fin 4) :
    ∃ t, (setWidth E (baseWord E.cfg c) (k.val + 1)).den s = .ok () t ∧ State.Moves [widthTouch E.cfg c (k.val + 1)] s t ∧
      Link c (BitVec.ofNat 2 k.val) (dev c).select (dev c.other) t := by
  obtain ⟨f0, f1, f2, f3⟩ := widthWord_fields h.ok c k
  have hne : ¬ s.polled.sel = selOf (c == .cs1) (c == .cs0) := by
    rw [State.polled_sel, hp.sel, selOf_width]; cases c <;> simp [ChipSel.sel]
  have hsel : setSelects (c == .cs1) (c == .cs0) s.polled =
      .ok () ((s.polled.withSelects (c == .cs1) (c == .cs0)).setDev c (s.dev c).finish.select) := by
    simp only [setSelects, if_neg hne]
    simp only [selOf_width, openFrame_sel, State.polled_sel, hp.sel, closeFrame, Res.bind_ok,
      State.withSelects_dev, State.polled_dev]
  refine ⟨(((s.polled.withSelects (c == .cs1) (c == .cs0)).setDev c (s.dev c).finish.select).withWidth
    (BitVec.ofNat 2 k.val)).logged .write .sfcsr (baseWord E.cfg c ||| lenField E.cfg (k.val + 1)), ?_, ?_, ?_⟩
  · simp only [setWidth, gated32_eager h, gatedReg, regWrite, sfcsrWrite, h.polled_busy, h.polled_cfg, f0, f1, f2, f3,
      Bool.false_eq_true, if_false, hsel, Res.bind_ok]
    rw [if_neg (by cases c <;> decide)]
  · exact .gated (((((polled_frame s).trans (withSelects_frame _ _ _)).trans (setDev_frame _ _ _)).trans
      (withWidth_frame _ _)).trans (logged_frame _ _ _ _)) .write .sfcsr
      (baseWord E.cfg c ||| lenField E.cfg (k.val + 1)) (by simp) rfl
  · refine ⟨?_, rfl, ?_, ?_, ?_, ?_⟩
    · simp [selOf_width]
    · simp [hp.dev]
    · simp [State.setDev_other, hp.dev]
    · simp [hp.settled]
    · exact hp.settled _

/-- Setting the width inside a frame keeps the frame (R87). -/
theorem setWidth_link {s : State} {c : ChipSel} {k0 : BitVec 2} {d e : Device} {E : Env} (h : Runs E s) (hl : Link c k0 d e s)
    (k : Fin 4) :
    ∃ t, (setWidth E (baseWord E.cfg c) (k.val + 1)).den s = .ok () t ∧ State.Moves [widthTouch E.cfg c (k.val + 1)] s t ∧
      Link c (BitVec.ofNat 2 k.val) d e t := by
  obtain ⟨f0, f1, f2, f3⟩ := widthWord_fields h.ok c k
  have heq : s.polled.sel = selOf (c == .cs1) (c == .cs0) := by rw [State.polled_sel, hl.sel, selOf_width]
  refine ⟨((s.polled.withSelects (c == .cs1) (c == .cs0)).withWidth (BitVec.ofNat 2 k.val)).logged .write .sfcsr
    (baseWord E.cfg c ||| lenField E.cfg (k.val + 1)), ?_, ?_, ?_⟩
  · simp only [setWidth, gated32_eager h, gatedReg, regWrite, sfcsrWrite, h.polled_busy, h.polled_cfg, f0, f1, f2, f3,
      Bool.false_eq_true, if_false, setSelects, if_pos heq, Res.bind_ok]
    rw [if_neg (by cases c <;> decide)]
  · exact .gated ((((polled_frame s).trans (withSelects_frame _ _ _)).trans (withWidth_frame _ _)).trans
      (logged_frame _ _ _ _)) .write .sfcsr (baseWord E.cfg c ||| lenField E.cfg (k.val + 1)) (by simp) rfl
  · refine ⟨?_, rfl, ?_, ?_, hl.settled, hl.settled_other⟩
    · simp [selOf_width]
    · simp [hl.dev, hl.settled]
    · simp [hl.other, hl.settled_other]

/-! Transfers (R32, R89, R90). -/

theorem shiftOutAll_eq (c : ChipSel) (bs : List Byte) : ∀ s : State,
    shiftOutAll (some c) bs s = s.setDev c ((s.dev c).puts bs) := by
  induction bs with
  | nil => intro s; simp [shiftOutAll]
  | cons b bs ih =>
    intro s
    have := ih (s.setDev c ((s.dev c).put b))
    simp only [shiftOutAll, List.foldl_cons, shiftOut, devPut_eq] at this ⊢
    rw [this]
    cases c <;> simp [Device.puts, State.setDev, State.dev]

theorem sfdrTarget_sel {c : ChipSel} {s : State} (h : s.sel = c.sel) : sfdrTarget s = .ok (some c) := by
  simp only [sfdrTarget, h]; cases c <;> rfl

theorem bigEndianLanes_polled (s : State) : s.polled.bigEndianLanes = s.bigEndianLanes := by
  simp [State.bigEndianLanes, State.polled_eq]

@[simp] theorem State.polled_len (s : State) : s.polled.len = s.len := by simp [State.polled_eq]

/-- A gated SFDR write inside a frame gives the device the lanes of its value (R89, R99). -/
theorem gatedSfdr_link {s : State} {c : ChipSel} {k : BitVec 2} {d e : Device} {E : Env} (h : Runs E s)
    (hb : s.bigEndianLanes = true) (hl : Link c k d e s) (v : Word) :
    ∃ t, (gated32 E .sfdr v).den s = .ok () t ∧ State.Moves [sendTouch v] s t ∧ Link c k (d.puts (writeLanes k v)) e t := by
  refine ⟨(s.polled.setDev c ((s.dev c).finish.puts (writeLanes k v))).markBusy.logged .write .sfdr v, ?_, ?_, ?_⟩
  · simp only [gated32_eager h, gatedReg, regWrite, sfdrWrite, h.polled_busy, bigEndianLanes_polled, hb,
      Bool.false_eq_true, if_false, Bool.true_eq_false, sfdrTarget_sel ((State.polled_sel s).trans hl.sel), shiftOutAll_eq,
      State.polled_len, hl.len, State.polled_dev]
  · exact .gated ((((polled_frame s).trans (setDev_frame _ _ _)).trans (markBusy_frame _)).trans (logged_frame _ _ _ _))
      .write .sfdr v (by simp) rfl
  · refine ⟨?_, ?_, ?_, ?_, ?_, hl.settled_other⟩
    · simp [hl.sel]
    · simp [hl.len]
    · simp [hl.dev, hl.settled]
    · simp [State.setDev_other, hl.other, hl.settled_other]
    · simp [hl.settled]

/-- What one byte taken from a device does: the device's read position advances, a byte a rule gives is the byte
returned (R90, R117). -/
theorem devGet_spec (c : ChipSel) (s : State) :
    s.EngineFrame (devGet c s).2 ∧ (devGet c s).2.dev c = (s.dev c).advance ∧
      (devGet c s).2.dev c.other = s.dev c.other ∧ (devGet c s).2.sel = s.sel ∧ (devGet c s).2.len = s.len ∧
      (devGet c s).2.log = s.log ∧ (devGet c s).2.busy = s.busy ∧
      ∀ b, (s.dev c).answer s.cfg (s.cfg.flashSize c) = some b → (devGet c s).1 = b := by
  simp only [devGet]
  split
  · rename_i b hb
    refine ⟨setDev_frame _ _ _, ?_, ?_, ?_, ?_, ?_, ?_, ?_⟩
    · simp
    · simp [State.setDev_other]
    · simp
    · simp
    · simp
    · simp
    · intro b' hb'; rw [hb] at hb'; exact Option.some.inj hb'
  · rename_i hb
    refine ⟨(setDev_frame _ _ _).trans (draw_frame _), ?_, ?_, ?_, ?_, ?_, ?_, ?_⟩
    · simp
    · simp [State.setDev_other]
    · simp
    · simp
    · simp
    · simp
    · intro b' hb'; rw [hb] at hb'; cases hb'

/-- A lane of a read: a byte of the transfer, or a free byte beyond the width (R90). -/
theorem readLane_spec (c : ChipSel) (j : Nat) (s : State) :
    s.EngineFrame (readLane (some c) j s).2 ∧
      (readLane (some c) j s).2.dev c = (if j ≤ s.len.toNat then (s.dev c).advance else s.dev c) ∧
      (readLane (some c) j s).2.dev c.other = s.dev c.other ∧ (readLane (some c) j s).2.sel = s.sel ∧
      (readLane (some c) j s).2.len = s.len ∧ (readLane (some c) j s).2.log = s.log ∧
      (readLane (some c) j s).2.busy = s.busy ∧
      (j ≤ s.len.toNat → ∀ b, (s.dev c).answer s.cfg (s.cfg.flashSize c) = some b → (readLane (some c) j s).1 = b) := by
  simp only [readLane, shiftIn]
  split
  · rename_i hj
    obtain ⟨h1, h2, h3, h4, h5, h6, h7, h8⟩ := devGet_spec c s
    exact ⟨h1, h2, h3, h4, h5, h6, h7, fun _ => h8⟩
  · rename_i hj
    exact ⟨draw_frame s, by simp, by simp, by simp, by simp, by simp, by simp, fun h => absurd h hj⟩

theorem Lanes.firsts_get (l : Lanes) :
    (∀ n, 0 < n → (l.firsts n)[0]? = some l.b0) ∧ (∀ n, 1 < n → (l.firsts n)[1]? = some l.b1) ∧
      (∀ n, 2 < n → (l.firsts n)[2]? = some l.b2) ∧ (∀ n, 3 < n → (l.firsts n)[3]? = some l.b3) := by
  refine ⟨?_, ?_, ?_, ?_⟩ <;> (intro n hn; simp [Lanes.firsts, hn])

theorem Lanes.firsts_length (l : Lanes) (n : Nat) : (l.firsts n).length = min n 4 := by simp [Lanes.firsts]

/-- The lanes of a read: the device's read position advances by the bytes of the transfer, and each lane of the transfer
holds the byte a rule gives (R90). -/
theorem readLanes_spec (c : ChipSel) (s : State) :
    s.EngineFrame (readLanes (some c) s).2 ∧
      (readLanes (some c) s).2.dev c = Device.advances (s.len.toNat + 1) (s.dev c) ∧
      (readLanes (some c) s).2.dev c.other = s.dev c.other ∧ (readLanes (some c) s).2.sel = s.sel ∧
      (readLanes (some c) s).2.len = s.len ∧ (readLanes (some c) s).2.log = s.log ∧
      (readLanes (some c) s).2.busy = s.busy ∧
      ∀ j, j ≤ s.len.toNat → ∀ b, (Device.advances j (s.dev c)).answer s.cfg (s.cfg.flashSize c) = some b →
        ((readLanes (some c) s).1.firsts (s.len.toNat + 1))[j]? = some b := by
  have hk : s.len.toNat < 4 := s.len.isLt
  obtain ⟨p1, p2, p3, p4, p5, p6, p7, p8⟩ := readLane_spec c 0 s
  have q := readLane_spec c 1 (readLane (some c) 0 s).2
  rw [p2, p3, p4, p5, p6, p7, p1.rest.cfg] at q
  obtain ⟨q1, q2, q3, q4, q5, q6, q7, q8⟩ := q
  have r := readLane_spec c 2 (readLane (some c) 1 (readLane (some c) 0 s).2).2
  rw [q2, q3, q4, q5, q6, q7, q1.rest.cfg, p1.rest.cfg] at r
  obtain ⟨r1, r2, r3, r4, r5, r6, r7, r8⟩ := r
  have u := readLane_spec c 3 (readLane (some c) 2 (readLane (some c) 1 (readLane (some c) 0 s).2).2).2
  rw [r2, r3, r4, r5, r6, r7, r1.rest.cfg, q1.rest.cfg, p1.rest.cfg] at u
  obtain ⟨u1, u2, u3, u4, u5, u6, u7, u8⟩ := u
  obtain ⟨g0, g1, g2, g3⟩ := Lanes.firsts_get (readLanes (some c) s).1
  refine ⟨((p1.trans q1).trans r1).trans u1, ?_, u3, u4, u5, u6, u7, ?_⟩
  · show (readLane (some c) 3 (readLane (some c) 2 (readLane (some c) 1 (readLane (some c) 0 s).2).2).2).2.dev c = _
    rw [u2]
    have hcases : s.len.toNat = 0 ∨ s.len.toNat = 1 ∨ s.len.toNat = 2 ∨ s.len.toNat = 3 := by omega
    rcases hcases with h | h | h | h <;> simp [h, Device.advances]
  · intro j hj b hb
    have hcases : j = 0 ∨ j = 1 ∨ j = 2 ∨ j = 3 := by omega
    rcases hcases with rfl | rfl | rfl | rfl
    · rw [g0 _ (by omega)]; exact congrArg some (p8 hj b hb)
    · rw [g1 _ (by omega)]
      refine congrArg some (q8 hj b ?_)
      simpa [Device.advances] using hb
    · rw [g2 _ (by omega)]
      refine congrArg some (r8 hj b ?_)
      have : 1 ≤ s.len.toNat := by omega
      simpa [Device.advances, this] using hb
    · rw [g3 _ (by omega)]
      refine congrArg some (u8 hj b ?_)
      have h1 : 1 ≤ s.len.toNat := by omega
      have h2 : 2 ≤ s.len.toNat := by omega
      simpa [Device.advances, h1, h2] using hb

/-- A gated SFDR read inside a frame (R90, R100), for all the bytes it moves. -/
theorem takeGated_link {s : State} {c : ChipSel} {k : BitVec 2} {d e : Device} {E : Env} (h : Runs E s)
    (hb : s.bigEndianLanes = true) (hl : Link c k d e s) :
    ∃ bs t, (takeGated E (k.toNat + 1)).den s = .ok bs t ∧ State.Moves [takeTouch] s t ∧
      Link c k (Device.advances (k.toNat + 1) d) e t ∧ bs.length = k.toNat + 1 ∧
      ∀ j, j ≤ k.toNat → ∀ b, (Device.advances j d).answer E.cfg (E.cfg.flashSize c) = some b →
        bs[j]? = some b := by
  obtain ⟨r1, r2, r3, r4, r5, r6, r7, r8⟩ := readLanes_spec c s.polled
  rw [State.polled_len, hl.len, State.polled_dev, hl.dev, hl.settled] at r2 r8
  rw [h.polled_cfg] at r8
  refine ⟨(readLanes (some c) s.polled).1.firsts (k.toNat + 1),
    (readLanes (some c) s.polled).2.markBusy.logged .read .sfdr (readLanes (some c) s.polled).1.word, ?_, ?_, ?_,
    by rw [Lanes.firsts_length]; have := k.isLt; omega, r8⟩
  · simp only [takeGated_eager h, sfdrRead, h.polled_busy, bigEndianLanes_polled, hb, Bool.false_eq_true, if_false,
      Bool.true_eq_false, sfdrTarget_sel ((State.polled_sel s).trans hl.sel), Res.bind_ok]
  · exact .gated ((((polled_frame s).trans r1).trans (markBusy_frame _)).trans (logged_frame _ _ _ _))
      .read .sfdr (readLanes (some c) s.polled).1.word (by simp [r6]) rfl
  · refine ⟨?_, ?_, ?_, ?_, ?_, hl.settled_other⟩
    · simp [r4, hl.sel]
    · simp [r5, hl.len]
    · simp [r2]
    · simp [r3, hl.other, hl.settled_other]
    · simp [hl.settled]

/-! Commands (R102). -/

/-- A lane as a number (R32). -/
theorem byteLane_toNat (v : Word) (k : Nat) : (byteLane v k).toNat = v.toNat / 2 ^ (24 - 8 * k) % 2 ^ 8 := by
  simp [byteLane, Nat.shiftRight_eq_div_pow]

theorem byteLane_eq_ofNat {v : Word} {k n : Nat} (h : v.toNat / 2 ^ (24 - 8 * k) % 2 ^ 8 = n % 2 ^ 8) :
    byteLane v k = BitVec.ofNat 8 n := by
  apply BitVec.eq_of_toNat_eq
  rw [byteLane_toNat, h, BitVec.toNat_ofNat]

theorem commandWord_toNat (b : Byte) : (commandWord b).toNat = b.toNat * 2 ^ 24 := by
  have := b.isLt
  simp only [commandWord, BitVec.toNat_shiftLeft, BitVec.toNat_setWidth, Nat.shiftLeft_eq]
  omega

/-- The single lane of a command word is its byte (R55). -/
theorem writeLanes_command (b : Byte) : writeLanes 0#2 (commandWord b) = [b] := by
  have h : byteLane (commandWord b) 0 = b := by
    apply BitVec.eq_of_toNat_eq
    have := b.isLt
    rw [byteLane_toNat, commandWord_toNat]
    omega
  simp [writeLanes, h]

theorem addrWord_three_toNat (a : Nat) : (addrWord .three (trunc32 a)).toNat = a % 2 ^ 24 * 2 ^ 8 := by
  simp only [addrWord, trunc32, BitVec.toNat_shiftLeft, BitVec.toNat_ofNat, Nat.shiftLeft_eq]
  omega

theorem addrWord_four_toNat (a : Nat) : (addrWord .four (trunc32 a)).toNat = a % 2 ^ 32 := by
  simp [addrWord, trunc32]

/-- The lanes of an address word are the address bytes, most significant first (R36). -/
theorem writeLanes_addr (m : AddrMode) (a : Nat) :
    writeLanes (BitVec.ofNat 2 (addrBytesOf m - 1)) (addrWord m (trunc32 a)) = addressBytes m a := by
  cases m
  · have h0 : byteLane (addrWord .three (trunc32 a)) 0 = BitVec.ofNat 8 (a / 2 ^ 16) :=
      byteLane_eq_ofNat (by rw [addrWord_three_toNat]; omega)
    have h1 : byteLane (addrWord .three (trunc32 a)) 1 = BitVec.ofNat 8 (a / 2 ^ 8) :=
      byteLane_eq_ofNat (by rw [addrWord_three_toNat]; omega)
    have h2 : byteLane (addrWord .three (trunc32 a)) 2 = BitVec.ofNat 8 a :=
      byteLane_eq_ofNat (by rw [addrWord_three_toNat]; omega)
    simp [writeLanes, addrBytesOf, addressBytes, h0, h1, h2]
  · have h0 : byteLane (addrWord .four (trunc32 a)) 0 = BitVec.ofNat 8 (a / 2 ^ 24) :=
      byteLane_eq_ofNat (by rw [addrWord_four_toNat]; omega)
    have h1 : byteLane (addrWord .four (trunc32 a)) 1 = BitVec.ofNat 8 (a / 2 ^ 16) :=
      byteLane_eq_ofNat (by rw [addrWord_four_toNat]; omega)
    have h2 : byteLane (addrWord .four (trunc32 a)) 2 = BitVec.ofNat 8 (a / 2 ^ 8) :=
      byteLane_eq_ofNat (by rw [addrWord_four_toNat]; omega)
    have h3 : byteLane (addrWord .four (trunc32 a)) 3 = BitVec.ofNat 8 a :=
      byteLane_eq_ofNat (by rw [addrWord_four_toNat]; omega)
    simp [writeLanes, addrBytesOf, addressBytes, h0, h1, h2, h3]

/-- The lanes of three bytes at their places in a word. -/
theorem byteLane_or3 (b0 b1 b2 : Byte) :
    byteLane (commandWord b0 ||| (b1.setWidth 32 <<< 16) ||| (b2.setWidth 32 <<< 8)) 0 = b0 ∧
      byteLane (commandWord b0 ||| (b1.setWidth 32 <<< 16) ||| (b2.setWidth 32 <<< 8)) 1 = b1 ∧
      byteLane (commandWord b0 ||| (b1.setWidth 32 <<< 16) ||| (b2.setWidth 32 <<< 8)) 2 = b2 := by
  refine ⟨?_, ?_, ?_⟩ <;>
    (apply BitVec.eq_of_getLsbD_eq
     intro i hi
     have h : i = 0 ∨ i = 1 ∨ i = 2 ∨ i = 3 ∨ i = 4 ∨ i = 5 ∨ i = 6 ∨ i = 7 := by omega
     rcases h with rfl | rfl | rfl | rfl | rfl | rfl | rfl | rfl <;>
       simp [byteLane, commandWord])

/-- The default word of two payload bytes holds the command, the first and the second byte from the top (R56). -/
theorem writeRegWord2_default {c : Cfg} (h : c.writeReg2 = Cfg.writeReg2Default) (op b0 b1 : Byte) :
    writeRegWord2 c op b0 b1 = commandWord op ||| (b0.setWidth 32 <<< 16) ||| (b1.setWidth 32 <<< 8) := by
  simp only [writeRegWord2, h, Cfg.writeReg2Default, List.foldl_cons, List.foldl_nil, payloadByte, commandWord,
    BitVec.zero_or]

/-- The lanes of a `write_reg` word are the command byte and the payload in buffer order, with the default word for two
payload bytes (R56, row 24). -/
theorem writeLanes_writeReg {c : Cfg} (op : Byte) {buf : List Byte} {len : Nat} (h : len ≤ 2) (hb : len ≤ buf.length)
    (hc : len = 2 → c.writeReg2 = Cfg.writeReg2Default) :
    writeLanes (BitVec.ofNat 2 len) (writeRegWord c op buf len) = op :: buf.take len := by
  have hl : len = 0 ∨ len = 1 ∨ len = 2 := by omega
  rcases hl with rfl | rfl | rfl
  · simpa [writeRegWord] using writeLanes_command op
  · obtain ⟨b0, rest, rfl⟩ : ∃ b0 rest, buf = b0 :: rest := by
      match buf, hb with
      | a :: r, _ => exact ⟨a, r, rfl⟩
    have hw : writeRegWord c op (b0 :: rest) 1 =
        commandWord op ||| (b0.setWidth 32 <<< 16) ||| ((0#8).setWidth 32 <<< 8) := by
      simp [writeRegWord]
    obtain ⟨h0, h1, _⟩ := byteLane_or3 op b0 0#8
    show [byteLane _ 0, byteLane _ 1] = _
    rw [hw, h0, h1]
    rfl
  · obtain ⟨b0, b1, rest, rfl⟩ : ∃ b0 b1 rest, buf = b0 :: b1 :: rest := by
      match buf, hb with
      | a :: b :: r, _ => exact ⟨a, b, r, rfl⟩
    have hw : writeRegWord c op (b0 :: b1 :: rest) 2 =
        commandWord op ||| (b0.setWidth 32 <<< 16) ||| (b1.setWidth 32 <<< 8) := writeRegWord2_default (hc rfl) op b0 b1
    obtain ⟨h0, h1, h2⟩ := byteLane_or3 op b0 b1
    show [byteLane _ 0, byteLane _ 1, byteLane _ 2] = _
    rw [hw, h0, h1, h2]
    rfl

/-- `issue_cmd` without an address from a parked state: a frame is open and holds the command byte (R102). -/
theorem issue_none_parked {s : State} {dev : ChipSel → Device} {E : Env} (h : Runs E s) (hb : s.bigEndianLanes = true)
    (hp : Parked dev s) (c : ChipSel) (op : Byte) :
    ∃ t, (issue E (baseWord E.cfg c) op none).den s = .ok () t ∧
      State.Moves [widthTouch E.cfg c 1, sendTouch (commandWord op)] s t ∧
      Link c 0#2 ((dev c).select.put op) (dev c.other) t := by
  obtain ⟨t1, e1, f1, l1⟩ := setWidth_parked h hp c 0
  obtain ⟨t2, e2, f2, l2⟩ := gatedSfdr_link (f1.runs h) (f1.lanes hb) l1 (commandWord op)
  refine ⟨t2, ?_, f1.trans f2, ?_⟩
  · simp only [Fin.val_zero, Nat.zero_add] at e1
    simp only [issue, Prog.den_bind, e1, Res.bind_ok, e2, Prog.den_ret]
  · have hw := writeLanes_command op
    have h0 : BitVec.ofNat 2 (0 : Fin 4).val = 0#2 := rfl
    rw [h0, hw] at l2
    exact l2

/-- `issue_cmd` with an address: the frame holds the command byte and the address bytes of the mode (R102). -/
theorem issue_some_parked {s : State} {dev : ChipSel → Device} {E : Env} (h : Runs E s) (hb : s.bigEndianLanes = true)
    (hp : Parked dev s) (c : ChipSel) (op : Byte) (a : Nat) :
    ∃ t k, (issue E (baseWord E.cfg c) op (some (trunc32 a))).den s = .ok () t ∧
      State.Moves [widthTouch E.cfg c 1, sendTouch (commandWord op), widthTouch E.cfg c (addrBytesOf s.ctrl.addrMode),
        sendTouch (addrWord s.ctrl.addrMode (trunc32 a))] s t ∧
      Link c k ((dev c).select.puts (op :: addressBytes s.ctrl.addrMode a)) (dev c.other) t := by
  obtain ⟨t1, e1, f1, l1⟩ := setWidth_parked h hp c 0
  obtain ⟨t2, e2, f2, l2⟩ := gatedSfdr_link (f1.runs h) (f1.lanes hb) l1 (commandWord op)
  have hw := writeLanes_command op
  have h0 : BitVec.ofNat 2 (0 : Fin 4).val = 0#2 := rfl
  rw [h0, hw] at l2
  have f12 := f1.trans f2
  have hlt : addrBytesOf s.ctrl.addrMode - 1 < 4 := by cases s.ctrl.addrMode <;> decide
  have hk : addrBytesOf s.ctrl.addrMode - 1 + 1 = addrBytesOf s.ctrl.addrMode := by cases s.ctrl.addrMode <;> rfl
  obtain ⟨t3, e3, f3, l3⟩ := setWidth_link (f12.runs h) l2 ⟨addrBytesOf s.ctrl.addrMode - 1, hlt⟩
  have f13 := f12.trans f3
  obtain ⟨t4, e4, f4, l4⟩ := gatedSfdr_link (f13.runs h) (f13.lanes hb) l3 (addrWord s.ctrl.addrMode (trunc32 a))
  simp only [hk] at e3
  refine ⟨t4, BitVec.ofNat 2 (addrBytesOf s.ctrl.addrMode - 1), ?_, ?_, ?_⟩
  · simp only [Fin.val_zero, Nat.zero_add] at e1
    simp only [issue, e1, Prog.den_bind, Res.bind_ok, e2, sendAddr, h.ctrl, e3, e4]
  · have := f13.trans f4
    simp only [hk] at this
    exact this
  · rw [writeLanes_addr] at l4
    exact l4

end Sys2Proof.Machine
end

