-- ==== Sys2Proof/Laws/Router.lean ====
section
/-! SUPPORT. The router: routing words and their nibbles (R49, R69), and what `dispatch` and `irq_entry` can do (R73,
R74). -/

namespace Sys2Proof.Machine

/-! Routing words. -/

/-- A routing word is legal when each of its nibbles is at most 5 (R69). -/
theorem legalNibbles_iff (v : Word) : legalNibbles v = true ↔ ∀ k, k < 8 → (nibble v k).toNat ≤ 5 := by
  simp only [legalNibbles, List.all_eq_true, Config.numLevels]
  constructor
  · intro h k hk; exact of_decide_eq_true (h k (by simp; omega))
  · intro h k hk; exact decide_eq_true (h k (by simp at hk; omega))

/-- A routing table that passes the constraint of R7 gives levels 1 to 5. -/
theorem routeLevel_range {c : Cfg} (h : c.ok = true) (f : Family) {src : Nat} (hs : src < 32) :
    1 ≤ c.routeLevel f src ∧ c.routeLevel f src ≤ 5 := by
  have key : ∀ table : List Nat, Cfg.tableOk table = true → 1 ≤ table.getD src 0 ∧ table.getD src 0 ≤ 5 := by
    intro table ht
    simp only [Cfg.tableOk, Bool.and_eq_true, beq_iff_eq, List.all_eq_true, decide_eq_true_eq, Config.numSources,
      Config.numLevels] at ht
    obtain ⟨hl, ha⟩ := ht
    rw [List.getD_eq_getElem _ _ (by omega)]
    have := ha _ (List.getElem_mem (by omega : src < table.length))
    exact ⟨this.1, of_decide_eq_true this.2⟩
  cases f
  · exact key _ (Cfg.inputs h).table838x
  · exact key _ (Cfg.inputs h).table839x

theorem or_foldl_getLsbD {α : Type} (g : α → Word) (n : Nat) (l : List α) : ∀ a : Word,
    (l.foldl (fun acc x => acc ||| g x) a).getLsbD n = (a.getLsbD n || l.any fun x => (g x).getLsbD n) := by
  induction l with
  | nil => intro a; simp
  | cons x l ih => intro a; simp only [List.foldl_cons, ih, BitVec.getLsbD_or, List.any_cons, Bool.or_assoc]

/-- A bit of a routing word is a bit of the level of a source that has its nibble there (R49). -/
theorem packRouting_bit {c : Cfg} (h : c.ok = true) (f : Family) (r : Fin 4) {n : Nat} (hn : n < 32) :
    (packRouting c f r).getLsbD n = true ↔ ∃ src, src < 32 ∧ c.irrIndex src = r ∧ c.irrShift src ≤ n ∧
      n < c.irrShift src + 4 ∧ (c.routeLevel f src).testBit (n - c.irrShift src) = true := by
  rw [packRouting, or_foldl_getLsbD, BitVec.getLsbD_zero, Bool.false_or]
  simp only [List.any_eq_true, List.mem_filter,
    List.mem_range, Config.numSources, beq_iff_eq, BitVec.getLsbD_shiftLeft, BitVec.getLsbD_ofNat, Bool.and_eq_true,
    decide_eq_true_eq, Bool.not_eq_true', decide_eq_false_iff_not, Nat.not_lt]
  constructor
  · rintro ⟨src, ⟨hs, hr⟩, ⟨_, hle⟩, _, hb⟩
    refine ⟨src, hs, hr, hle, ?_, hb⟩
    have := (routeLevel_range h f hs).2
    have hlt := Nat.ge_two_pow_of_testBit hb
    by_contra hge
    have : 2 ^ 4 ≤ 2 ^ (n - c.irrShift src) := Nat.pow_le_pow_right (by omega) (by omega)
    omega
  · rintro ⟨src, hs, hr, hle, _, hb⟩
    exact ⟨src, ⟨hs, hr⟩, ⟨hn, hle⟩, by omega, hb⟩

/-- The nibble of a source in its routing word is its level (R49). -/
theorem packRouting_level {c : Cfg} (h : c.ok = true) (f : Family) {src : Nat} (hs : src < 32) :
    ((packRouting c f (c.irrIndex src)).extractLsb' (c.irrShift src) 4).toNat = c.routeLevel f src := by
  have hsh := Cfg.irrShift_range h hs
  have hl := (routeLevel_range h f hs).2
  have e : (packRouting c f (c.irrIndex src)).extractLsb' (c.irrShift src) 4 = BitVec.ofNat 4 (c.routeLevel f src) := by
    apply BitVec.eq_of_getLsbD_eq
    intro i hi
    rw [BitVec.getLsbD_extractLsb', BitVec.getLsbD_ofNat]
    simp only [hi, decide_true, Bool.true_and]
    rw [Bool.eq_iff_iff, packRouting_bit h f _ (by omega)]
    constructor
    · rintro ⟨q, hq, hr, hle, hlt, hb⟩
      have hq4 := (Cfg.irrShift_range h hq).1
      have : c.irrShift q = c.irrShift src := by omega
      rw [Cfg.nibblePlace_injective h hq hs hr this] at hb
      simpa using hb
    · intro hb
      exact ⟨src, hs, rfl, by omega, by omega, by simpa using hb⟩
  rw [e, BitVec.toNat_ofNat]
  omega

/-- The routing words of a table within its constraint are legal (R7, R69). -/
theorem packRouting_legal {c : Cfg} (h : c.ok = true) (f : Family) (r : Fin 4) : legalNibbles (packRouting c f r) = true := by
  rw [legalNibbles_iff]
  intro k hk
  by_cases hex : ∃ src, src < 32 ∧ c.irrIndex src = r ∧ c.irrShift src = 4 * k
  · obtain ⟨src, hs, rfl, hsh⟩ := hex
    rw [nibble, ← hsh, packRouting_level h f hs]
    exact (routeLevel_range h f hs).2
  · have : nibble (packRouting c f r) k = 0#4 := by
      apply BitVec.eq_of_getLsbD_eq
      intro i hi
      rw [nibble, BitVec.getLsbD_extractLsb', BitVec.getLsbD_zero]
      simp only [hi, decide_true, Bool.true_and]
      rw [← Bool.not_eq_true, packRouting_bit h f _ (by omega)]
      rintro ⟨q, hq, hr, hle, hlt, _⟩
      have hq4 := (Cfg.irrShift_range h hq).1
      exact hex ⟨q, hq, hr, by omega⟩
    rw [this]; exact Nat.zero_le _

/-! The dispatch path. -/

/-- A monitored line is one that a level drives (D11). -/
theorem monitored_iff {c : Cfg} (h : c.ok = true) (k : Fin 8) :
    monitored c k = true ↔ ∃ level, c.lineOfLevel level = some k.val := by
  simp only [monitored, List.any_eq_true, beq_iff_eq]
  constructor
  · rintro ⟨l, _, hl⟩; exact ⟨l, hl⟩
  · rintro ⟨l, hl⟩
    have := Cfg.lineOfLevel_range h hl
    refine ⟨l, ?_, hl⟩
    simp only [List.mem_cons, List.not_mem_nil, or_false]; omega

/-- With the decided lines, the monitored ones are 2 to 6 (D6, D11). -/
theorem monitored_reference (k : Fin 8) : monitored Cfg.reference k = true ↔ 2 ≤ k.val ∧ k.val ≤ 6 := by
  revert k; decide +kernel

/-- What `dispatch` answers from mask AND status (R73). -/
def routeResult (p : Word) : Result := if p = 0#32 then .spurious else .selected (ctz32 p)

/-- What `dispatch` does once its line is routing: the mask is read, then the status, each after an interleaving point; then
the spurious return, or the selection (R73). -/
theorem routeLine_den (k : Fin 8) (s : State) :
    (routeLine k).den s = s.point.bind fun _ a => ((a.logged .read .gimr a.gimr).point).bind fun _ b =>
      .ok (routeResult (a.gimr &&& b.src)) (endRoute k (a.gimr &&& b.src) (b.logged .read .gisr b.src)) := by
  simp only [routeLine, Prog.den_bind, Prog.den_reading, regRead, gimrRead, gisrRead, Res.bind_assoc, Res.bind_ok,
    Prog.den_doing, Act.step_leave]
  congr 1; funext _ a; congr 1; funext _ b
  simp only [routeResult]
  split <;> rfl

/-- The end of `dispatch` on a monitored line (R73). -/
theorem endRoute_monitored {k : Fin 8} {s : State} (hm : monitored s.cfg k = true) (p : Word) : endRoute k p s =
    if p = 0#32 then s.countSpurious.setLine k .idle else (s.setLine k .dispatched).frameworkDispatch (ctz32 p) := by
  simp only [endRoute, hm, Bool.true_eq_false, if_false]

/-- The rest of `dispatch` when the other agents take no step but their completion steps: mask and status are those of the
state it starts in (R73, R170). -/
theorem routeLine_eager {k : Fin 8} {s : State} (h : s.schedule = []) (hm : monitored s.cfg k = true) :
    ∃ t, (routeLine k).den s = .ok (routeResult (s.gimr &&& s.src)) t ∧
      t.lineState = s.lineState.set k (if s.gimr &&& s.src = 0#32 then .idle else .dispatched) ∧
      t.frameworkCalls = s.frameworkCalls ++
        (if s.gimr &&& s.src = 0#32 then []
        else [(ctz32 (s.gimr &&& s.src), s.handlerOf (ctz32 (s.gimr &&& s.src)))]) ∧
      t.gimr = s.gimr ∧ t.src = s.src ∧ t.irr = s.irr ∧ t.irqLock = s.irqLock ∧ t.schedule = [] := by
  have h2 : ((eagerStep s).logged .read .gimr (eagerStep s).gimr).schedule = [] := by rw [eagerStep_eq]; exact h
  have e := routeLine_den k s
  rw [point_of_empty h, Res.bind_ok, point_of_empty h2, Res.bind_ok] at e
  have hp : (eagerStep s).gimr &&& (eagerStep ((eagerStep s).logged .read .gimr (eagerStep s).gimr)).src = s.gimr &&& s.src := by
    simp only [eagerStep_eq]; rfl
  rw [hp] at e
  refine ⟨_, e, ?_⟩
  rw [endRoute_monitored (by simp only [eagerStep_eq]; exact hm)]
  by_cases hz : s.gimr &&& s.src = 0#32
  · simp only [if_pos hz, eagerStep_eq, List.append_nil]
    exact ⟨rfl, rfl, rfl, rfl, rfl, rfl, h⟩
  · simp only [if_neg hz, eagerStep_eq]
    exact ⟨rfl, rfl, rfl, rfl, rfl, rfl, h⟩

/-- `dispatch` on a line it may enter (R73, R77). -/
theorem dispatchLine_den {k : Fin 8} {s : State} (hm : monitored s.cfg k = true) (hl : s.lineState[k] ≠ .dispatched)
    (hp : s.pathFree k = true) : (dispatchLine k).den s = (routeLine k).den (s.setLine k .routing) := by
  have hr : (Act.enter k).mayRun s = true := hp
  have : (Act.enter k).step s = .ok 0#32 (s.setLine k .routing) := by
    rw [Act.step_ready rfl hr]
    simp only [Act.perform, enterLine, hm, Bool.true_eq_false, if_false, if_neg hl, Res.bind_ok]
  simp only [dispatchLine, Prog.den_bind, Prog.den_doing, this, Res.bind_ok]

/-- `dispatch` refuses a line that no level drives, and a line that is dispatched (R73). -/
theorem dispatchLine_refused {k : Fin 8} {s : State} (hp : s.pathFree k = true) :
    (monitored s.cfg k = false → (dispatchLine k).den s = .refused .unmonitoredLine) ∧
      (monitored s.cfg k = true → s.lineState[k] = .dispatched → (dispatchLine k).den s = .refused .lineDispatched) := by
  have hr : (Act.enter k).mayRun s = true := hp
  have step := Act.step_ready (a := .enter k) (s := s) rfl hr
  refine ⟨fun hm => ?_, fun hm hl => ?_⟩
  · simp only [dispatchLine, Prog.den_bind, Prog.den_doing, step, Act.perform, enterLine, hm, if_true, Res.bind_refused]
  · simp only [dispatchLine, Prog.den_bind, Prog.den_doing, step, Act.perform, enterLine, hm, Bool.true_eq_false, if_false,
      hl, if_true, Res.bind_refused]

/-- A dispatched line is not on the path of any operation. -/
theorem pathFree_of_not_routing {s : State} {k : Fin 8} (h : s.lineState[k] ≠ .routing) : s.pathFree k = true := by
  have hb : (s.lineState[k] == .routing) = false := beq_eq_false_iff_ne.mpr h
  simp only [State.pathFree, hb, Bool.false_and, Bool.not_false]

/-- The lines `irq_entry` may choose (R74). -/
theorem mem_entryLines {s : State} {pending : Byte} {k : Fin 8} :
    k ∈ s.entryLines pending ↔ pending.getLsbD k.val = true ∧ monitored s.cfg k = true ∧ s.lineState[k] = .idle := by
  have hall : ∀ k : Fin 8, k ∈ ([0, 1, 2, 3, 4, 5, 6, 7] : List (Fin 8)) := by decide
  simp only [State.entryLines, List.mem_filter, Bool.and_eq_true, beq_iff_eq, hall k, true_and, and_assoc]

/-- The choice of `irq_entry`: none and a spurious interrupt, or one of its lines, now routing (R74, row 10). -/
theorem chooseLine_cases (pending : Byte) (s : State) :
    (s.entryLines pending = [] ∧ chooseLine pending s = (0#32, s.countSpurious)) ∨
      ∃ k n, k ∈ s.entryLines pending ∧
        chooseLine pending s = (BitVec.ofNat 32 (k.val + 1), (s.withPicks n).setLine k .routing) := by
  simp only [chooseLine]
  match h : s.entryLines pending with
  | [] => exact .inl ⟨rfl, rfl⟩
  | [k] => exact .inr ⟨k, s.picks, by simp, rfl⟩
  | k :: l :: ks =>
    refine .inr ⟨(k :: l :: ks).getD (Config.pickLine s.picks % (k :: l :: ks).length) k, s.picks + 1, ?_, rfl⟩
    have hlt : Config.pickLine s.picks % (k :: l :: ks).length < (k :: l :: ks).length :=
      Nat.mod_lt _ (by simp)
    rw [List.getD_eq_getElem _ _ hlt]
    exact List.getElem_mem _

/-- The answer of the choice names the line. -/
theorem lineOf_succ (k : Fin 8) : lineOf (BitVec.ofNat 32 (k.val + 1)) = some k := by revert k; decide

/-- `irq_entry` is spurious without a line to enter; otherwise it is the rest of the `dispatch` of one of the lines (R74,
row 10). -/
theorem enterIrq_cases (pending : Byte) (s : State) :
    (s.entryLines pending = [] ∧ (enterIrq pending).den s = .ok .spurious s.countSpurious) ∨
      ∃ k n, k ∈ s.entryLines pending ∧
        (enterIrq pending).den s = (routeLine k).den ((s.withPicks n).setLine k .routing) := by
  have step : (enterIrq pending).den s = (match lineOf (chooseLine pending s).1 with
      | none => (Prog.ret .spurious : Prog Result)
      | some k => routeLine k).den (chooseLine pending s).2 := by
    rw [enterIrq, Prog.den_act, Act.step_choose]; rfl
  rw [step]
  rcases chooseLine_cases pending s with ⟨h, e⟩ | ⟨k, n, hk, e⟩ <;> rw [e]
  · have h0 : lineOf 0#32 = none := by decide
    exact .inl ⟨h, by simp only [h0]; rfl⟩
  · exact .inr ⟨k, n, hk, by simp only [lineOf_succ]⟩

end Sys2Proof.Machine
end

