-- ==== Sys2Proof/Laws/Closure.lean ====
section
/-! SUPPORT. What every operation keeps. `Closed`: a property that each step of an operation and each move of the other
agents keeps is kept by the interleaving points, by every operation and by the step of the machine. `Tame`: for a program
whose gated accesses each follow a poll that shows ready, a property that the interleaving points and the program's own
steps keep is kept, and no access faults. -/

namespace Sys2Proof.Machine

/-! Properties of the states an answer ends in. -/

/-- Every state an answer ends in has the property. -/
def Res.All {α : Type} (P : State → Prop) : Res α → Prop
  | .ok _ s => P s
  | .raised _ s => P s
  | .pending s => P s
  | .refused _ => True
  | .fault _ => True

/-- Every state an answer ends in has the property, and the answer is no fault. -/
def Res.Safe {α : Type} (P : State → Prop) : Res α → Prop
  | .ok _ s => P s
  | .raised _ s => P s
  | .pending s => P s
  | .refused _ => True
  | .fault _ => False

theorem Res.All.bind {α β : Type} {P : State → Prop} {r : Res α} {f : α → State → Res β} (h : r.All P)
    (k : ∀ a s, r = .ok a s → P s → (f a s).All P) : (r.bind f).All P := by
  cases r with
  | ok a s => exact k a s rfl h
  | _ => exact h

theorem Res.Safe.bind {α β : Type} {P : State → Prop} {r : Res α} {f : α → State → Res β} (h : r.Safe P)
    (k : ∀ a s, r = .ok a s → P s → (f a s).Safe P) : (r.bind f).Safe P := by
  cases r with
  | ok a s => exact k a s rfl h
  | _ => exact h

theorem Res.Safe.mono {α : Type} {P Q : State → Prop} {r : Res α} (h : r.Safe P) (k : ∀ s, P s → Q s) : r.Safe Q := by
  cases r <;> first | exact k _ h | exact h

theorem Res.Safe.all {α : Type} {P : State → Prop} {r : Res α} (h : r.Safe P) : r.All P := by
  cases r <;> first | exact h | exact trivial

/-- An access's outcome: the property, when it does not depend on the result. -/
theorem Res.All.next {P : State → Prop} {r : Res Result} {t : State} (h : r.All P) (e : r.toOutcome = .next t)
    (hp : ∀ s res, P s → P { s with result := res }) : P t := by
  cases r with
  | ok a s | raised c s | pending s => cases e; exact hp _ _ h
  | refused r => cases e
  | fault f => cases e

/-! Properties that every step keeps. -/

/-- A property that every step of an operation keeps, every move of the environment, and the model's bookkeeping of who
runs what. -/
structure Closed (P : State → Prop) : Prop where
  perform : ∀ (a : Act) s, P s → (a.perform s).All P
  source : ∀ s src level, P s → P (setSource src level s)
  complete : ∀ s, P s → P (spiComplete s)
  finish : ∀ s c, P s → P (devFinish c s)
  model : ∀ s mutex caller ctx program schedule calls returned result, P s → P { s with
    spiMutex := mutex, spiCaller := caller, ctx := ctx, program := program, schedule := schedule, calls := calls,
    returned := returned, result := result }

theorem leaveOp_keeps {P : State → Prop} (hc : Closed P) (op : Op) {s : State} (h : P s) : P (s.leaveOp op) := by
  simp only [State.leaveOp]
  split
  · exact hc.model s _ _ _ _ _ _ _ _ h
  · exact h

theorem enterOp_all {P : State → Prop} (hc : Closed P) (op : Op) (ctx : Nat) {s : State} (h : P s) :
    (enterOp op ctx s).All P := by
  rcases enterOp_cases op ctx s with ⟨_, _, e⟩ | ⟨c, e, _⟩
  · rw [e]; trivial
  · rw [e]; exact hc.model s _ _ _ _ _ _ _ _ h

theorem settle_all {P : State → Prop} (hc : Closed P) (c : Call) {s : State} (h : P s) : (settle c s).All P := by
  simp only [settle]
  split <;> first | trivial | exact hc.model s _ _ _ _ _ _ _ _ h | exact hc.model _ _ _ _ _ _ _ _ _ (leaveOp_keeps hc c.op h)

theorem advance_all {P : State → Prop} (hc : Closed P) (c : Call) {s : State} (h : P s) : (advance c s).All P := by
  simp only [advance]
  split
  · split
    · exact (hc.perform _ _ (hc.model s _ _ _ _ _ _ _ _ h)).bind fun _ t _ ht => settle_all hc _ (hc.model t _ _ _ _ _ _ _ _ ht)
    · exact hc.model s _ _ _ _ _ _ _ _ h
  all_goals exact settle_all hc _ h

theorem called_all {P : State → Prop} (hc : Closed P) (c : Call) {s : State} (h : P s) : (called c s).All P := by
  simp only [called]
  split
  · exact advance_all hc c h
  · exact settle_all hc c h

/-- The steps of the other agents keep the property (R8). -/
theorem agentStep_all {P : State → Prop} (hc : Closed P) (a : AgentStep) {s : State} (h : P s) : (agentStep a s).All P := by
  cases a with
  | setSource src level => exact hc.source s _ _ h
  | spiComplete => exact hc.complete s h
  | finish c => exact hc.finish s c h
  | start ctx op =>
    simp only [agentStep]
    split
    · exact (enterOp_all hc op ctx h).bind fun _ _ _ h => called_all hc _ h
    · exact h
  | go ctx =>
    simp only [agentStep]
    split
    · exact advance_all hc _ (hc.model s _ _ _ _ _ _ _ _ h)
    · exact h
  | takeMutex ctx =>
    simp only [agentStep]
    split
    · exact hc.model s _ _ _ _ _ _ _ _ h
    · exact h
  | releaseMutex ctx =>
    simp only [agentStep]
    split
    · exact hc.model s _ _ _ _ _ _ _ _ h
    · exact h

theorem runBatch_all {P : State → Prop} (hc : Closed P) (batch : List AgentStep) : ∀ {s : State}, P s →
    (runBatch batch s).All P := by
  induction batch with
  | nil => intro s h; exact h
  | cons a rest ih => intro s h; exact (agentStep_all hc a h).bind fun _ _ _ h => ih h

/-- The interleaving point keeps the property (R40). -/
theorem point_all {P : State → Prop} (hc : Closed P) {s : State} (h : P s) : s.point.All P := by
  simp only [State.point]
  split
  · exact hc.finish _ _ (hc.finish _ _ (hc.complete _ h))
  · exact runBatch_all hc _ (hc.model s _ _ _ _ _ _ _ _ h)

theorem waitTurn_all {P : State → Prop} (hc : Closed P) (a : Act) (n : Nat) : ∀ {s : State}, P s →
    (waitTurn a n s).All P := by
  induction n with
  | zero => intro s h; simp only [waitTurn]; split <;> exact h
  | succ n ih =>
    intro s h
    simp only [waitTurn]
    split
    · exact h
    · exact (point_all hc h).bind fun _ _ _ h => ih h

theorem Act.step_all {P : State → Prop} (hc : Closed P) (a : Act) {s : State} (h : P s) : (a.step s).All P := by
  refine Res.All.bind (P := P) ?_ fun _ t _ ht => hc.perform a t ht
  cases a <;> first | exact point_all hc h | exact waitTurn_all hc _ _ h

/-- Every operation keeps the property. -/
theorem Prog.den_all {α : Type} {P : State → Prop} (hc : Closed P) (p : Prog α) : ∀ {s : State}, P s →
    (p.den s).All P := by
  induction p with
  | ret a => intro s h; exact h
  | raise c => intro s h; exact h
  | refuse r => intro s h; trivial
  | more => intro s h; exact h
  | act a k ih => intro s h; exact (a.step_all hc h).bind fun w _ _ h => ih w h

theorem Prog.run_keeps {P : State → Prop} (hc : Closed P) (p : Prog Result) {op : Op} {got : List Word} {s t : State}
    (h : P s) (e : p.run op got s = .next t) : P t := by
  obtain ⟨more, e'⟩ := p.run_eq op got s
  rw [e'] at e
  have hd := p.den_all hc h
  cases hr : p.den s with
  | ok a u | raised c u =>
    rw [hr] at e hd
    cases e
    exact hc.model _ _ _ _ _ _ _ _ _ (leaveOp_keeps hc op hd)
  | pending u =>
    rw [hr] at e hd
    cases e
    exact hc.model u _ _ _ _ _ _ _ _ hd
  | refused r => rw [hr] at e; cases e
  | fault f => rw [hr] at e; cases e

theorem call_keeps {P : State → Prop} (hc : Closed P) {op : Op} {p : Env → Prog Result} {s t : State} (h : P s)
    (e : call op p s = .next t) : P t := by
  rcases enterOp_cases op s.ctx s with ⟨h1, h2, _⟩ | ⟨c, hu, _⟩
  · rw [call_twoInPrimitives h1 h2] at e; cases e
  · rw [call, hu] at e
    exact (p (s.env 0)).run_keeps hc (hc.model s _ _ _ _ _ _ _ _ h) e

theorem read_keeps {P : State → Prop} (hc : Closed P) (r : Reg) {s t : State} (h : P s)
    (e : (regRead r s).returnValue = .next t) : P t :=
  Res.All.next (P := P) (r := (regRead r s).bind fun v s => .ok (.value v) s)
    ((hc.perform (.rd r) s h).bind fun _ _ _ h => h) e fun s _ h => hc.model s _ _ _ _ _ _ _ _ h

theorem write_keeps {P : State → Prop} (hc : Closed P) (r : Reg) (v : Word) {s t : State} (h : P s)
    (e : (regWrite r v s).returnOk = .next t) : P t := by
  have hw : ((regWrite r v s).bind fun _ s => .ok Result.ok s).All P := by
    have := hc.perform (.wr r v) s h
    simp only [Act.perform] at this
    cases hr : regWrite r v s <;> rw [hr] at this <;> exact this
  exact hw.next e fun s _ h => hc.model s _ _ _ _ _ _ _ _ h

/-! Programs whose gated accesses each follow a poll that shows ready (R93, R98 to R100). -/

/-- A step of an operation of the router. -/
def Act.isRouter : Act → Bool
  | .rd r => r.block == .router
  | .take _ => false
  | .wr r _ => r.block == .router
  | .lock | .unlock | .enter _ | .leave _ _ | .choose _ | .handled _ | .register _ _ => true
  | .needController | .needDetached | .record _ _ _ => false

/-- An access that faults while the controller is busy (R93). -/
def Act.gated : Act → Bool
  | .rd r => r == .sfdr
  | .take _ => true
  | .wr r _ => r == .sfcsr || r == .sfdr
  | _ => false

/-- A poll that shows the controller ready. -/
def Act.shows (cfg : Cfg) : Act → Word → Bool
  | .rd r, w => r == .sfcsr && w.getLsbD cfg.bitRdy
  | _, _ => false

/-- Every step is of the class, and every gated access directly follows a poll that shows ready: `r` says that one has
just been made, `m` that one has been made when the program returns. -/
def Prog.Gated {α : Type} (cfg : Cfg) (router : Bool) : Prog α → Bool → Bool → Prop
  | .ret _, r, m => m = true → r = true
  | .raise _, _, _ => True
  | .refuse _, _, _ => True
  | .more, _, _ => True
  | .act a next, r, m => a.isRouter = router ∧ (a.gated = true → r = true) ∧ ∀ w, (next w).Gated cfg router (a.shows cfg w) m

/-- An operation of the class, with its polls. -/
abbrev Prog.Polls {α : Type} (cfg : Cfg) (router : Bool) (p : Prog α) : Prop := p.Gated cfg router false false

theorem Prog.Gated.mono {α : Type} {cfg : Cfg} {b : Bool} {p : Prog α} {r r' m : Bool} (h : p.Gated cfg b r m)
    (k : r = true → r' = true) : p.Gated cfg b r' m := by
  cases p with
  | ret a => exact fun e => k (h e)
  | act a next => exact ⟨h.1, fun e => k (h.2.1 e), h.2.2⟩
  | _ => trivial

theorem Prog.Gated.bind {α β : Type} {cfg : Cfg} {b : Bool} {p : Prog α} {f : α → Prog β} {n m : Bool} : ∀ {r : Bool},
    p.Gated cfg b r n → (∀ a, (f a).Gated cfg b n m) → (p.bind f).Gated cfg b r m := by
  induction p with
  | ret a => intro r h k; exact (k a).mono h
  | act a next ih => intro r h k; exact ⟨h.1, h.2.1, fun w => ih w (h.2.2 w) k⟩
  | _ => intros; trivial

/-- Sequencing when nothing is known of the controller between the parts. -/
theorem Prog.Polls.bind {α β : Type} {cfg : Cfg} {b : Bool} {p : Prog α} {f : α → Prog β} (h : p.Polls cfg b)
    (k : ∀ a, (f a).Polls cfg b) : (p.bind f).Polls cfg b := Prog.Gated.bind h k

theorem Prog.Polls.ret {α : Type} {cfg : Cfg} {b : Bool} (a : α) : (Prog.ret a).Polls cfg b := id

/-- A property that the interleaving points keep, without a fault and without making the controller busy, and that the
steps of a class keep, without a fault where the controller is ready; the configuration is a legal one. -/
structure Tame (cfg : Cfg) (router : Bool) (P : State → Prop) : Prop where
  ok : cfg.ok = true
  cfg : ∀ s, P s → s.cfg = cfg
  point : ∀ s, P s → s.point.Safe fun t => P t ∧ (s.busy = false → t.busy = false)
  perform : ∀ (a : Act) s, P s → a.isRouter = router → (a.gated = true → s.busy = false) → (a.perform s).Safe P

theorem Act.step_tame {cfg : Cfg} {b : Bool} {P : State → Prop} (hc : Tame cfg b P) (a : Act) {s : State} (h : P s)
    (ha : a.isRouter = b) (hg : a.gated = true → s.busy = false) : (a.step s).Safe P := by
  have turn : ∀ n {s : State}, P s → (waitTurn a n s).Safe P := by
    intro n
    induction n with
    | zero => intro s h; simp only [waitTurn]; split <;> exact h
    | succ n ih =>
      intro s h
      simp only [waitTurn]
      split
      · exact h
      · exact Res.Safe.bind (P := P) ((hc.point s h).mono fun _ h => h.1) fun _ _ _ h => ih h
  have before : (a.before s).Safe fun t => P t ∧ (a.gated = true → t.busy = false) := by
    cases a with
    | rd r => exact (hc.point s h).mono fun t ht => ⟨ht.1, fun e => ht.2 (hg e)⟩
    | wr r v => exact (hc.point s h).mono fun t ht => ⟨ht.1, fun e => ht.2 (hg e)⟩
    | take n => exact (hc.point s h).mono fun t ht => ⟨ht.1, fun e => ht.2 (hg e)⟩
    | _ => exact (turn _ h).mono fun t ht => ⟨ht, fun e => by cases e⟩
  simp only [Act.step]
  cases hb : a.before s with
  | ok u t => rw [hb] at before; exact hc.perform a t before.1 ha before.2
  | raised c t | pending t => rw [hb] at before; exact before.1
  | refused r => trivial
  | fault f => rw [hb] at before; exact before

/-- A poll that shows ready leaves the controller ready. -/
theorem Act.shows_ready {a : Act} {s t : State} {w : Word} (hok : t.cfg.ok = true) (h : a.step s = .ok w t)
    (hs : a.shows t.cfg w = true) : t.busy = false := by
  cases a with
  | rd r =>
    simp only [Act.shows, Bool.and_eq_true, beq_iff_eq] at hs
    obtain ⟨rfl, hr⟩ := hs
    simp only [Act.step, Act.perform, regRead, sfcsrRead, Res.bind_eq_ok] at h
    obtain ⟨_, u, _, e⟩ := h
    injection e with e1 e2
    subst e1 e2
    rw [show (u.logged .read .sfcsr u.sfcsr).cfg = u.cfg from rfl] at hr hok
    rw [State.sfcsr_rdy hok] at hr
    show u.busy = false
    simpa using hr
  | _ => cases hs

/-- A program that polls before each gated access keeps the property, and does not fault (R93, R98). -/
theorem Prog.den_tame {α : Type} {cfg : Cfg} {b : Bool} {P : State → Prop} (hc : Tame cfg b P) (p : Prog α) :
    ∀ {r m : Bool} {s : State}, p.Gated cfg b r m → P s → (r = true → s.busy = false) → (p.den s).Safe P := by
  induction p with
  | ret a => intro r m s _ h _; exact h
  | raise c => intro r m s _ h _; exact h
  | refuse x => intro r m s _ h _; trivial
  | more => intro r m s _ h _; exact h
  | act a k ih =>
    intro r m s hg h hr
    exact (a.step_tame hc h hg.1 fun e => hr (hg.2.1 e)).bind fun w t e ht =>
      by
      have htc := hc.cfg t ht
      exact ih w (hg.2.2 w) ht fun hw => Act.shows_ready (htc ▸ hc.ok) e (htc ▸ hw)

/-- A call of such a program keeps the property, which does not depend on who is inside an SPI primitive, and does not
fault; what it ends in is such a state, but for the model's record of who runs what. -/
theorem call_tame {cfg : Cfg} {b : Bool} {P : State → Prop} (hc : Tame cfg b P) {op : Op} {p : Env → Prog Result}
    {s : State} (hg : (p (s.env 0)).Polls cfg b) (h : ∀ u, enterOp op s.ctx s = .ok () u → P u) :
    (∀ f, call op p s ≠ .fault f) ∧ ∀ t, call op p s = .next t → ∃ u res calls caller, P u ∧
    t = { u with result := res, calls := calls, spiCaller := caller } ∧ (op.usesSpi = false → caller = u.spiCaller) := by
  rcases enterOp_cases op s.ctx s with ⟨h1, h2, _⟩ | ⟨c, hu, _⟩
  · rw [call_twoInPrimitives h1 h2]
    exact ⟨fun f e => (by cases e), fun t e => (by cases e)⟩
  · have hd := Prog.den_tame hc (p (s.env 0)) hg (h _ hu) (by simp)
    obtain ⟨g, e⟩ := call_eq hu p
    rw [e]
    have ended : ∀ (u : State) (r : Result), ∃ res calls caller,
        u.ended op r = { u with result := res, calls := calls, spiCaller := caller } ∧
        (op.usesSpi = false → caller = u.spiCaller) := by
      intro u r
      cases ho : op.usesSpi with
      | false => exact ⟨r, u.calls, u.spiCaller, State.ended_other ho u r, fun _ => rfl⟩
      | true => exact ⟨r, u.calls, none, State.ended_spi ho u r, fun h => by cases h⟩
    cases hr : (p (s.env 0)).den (s.withCaller c) with
    | ok a u =>
      rw [hr] at hd
      refine ⟨fun f e => (by cases e), fun t e => ?_⟩
      cases e
      obtain ⟨x, y, z, he, hz⟩ := ended u a
      exact ⟨u, x, y, z, hd, he, hz⟩
    | raised k u =>
      rw [hr] at hd
      refine ⟨fun f e => (by cases e), fun t e => ?_⟩
      cases e
      obtain ⟨x, y, z, he, hz⟩ := ended u (raisedResult u.cfg k)
      exact ⟨u, x, y, z, hd, he, hz⟩
    | pending u =>
      rw [hr] at hd
      refine ⟨fun f e => (by cases e), fun t e => ?_⟩
      cases e
      exact ⟨u, _, _, _, hd, rfl, fun _ => rfl⟩
    | refused r => exact ⟨fun f e => (by cases e), fun t e => (by cases e)⟩
    | fault f => rw [hr] at hd; exact hd.elim

/-! The programs of the SPI side. -/

theorem reading_polls {cfg : Cfg} {b : Bool} {r : Reg} (h : (Act.rd r).isRouter = b) (hg : (Act.rd r).gated = false) :
    (Prog.reading r).Polls cfg b := ⟨h, by simp [hg], fun _ => by simp [Prog.Gated]⟩

theorem doing_polls {cfg : Cfg} {b : Bool} {a : Act} (h : a.isRouter = b) (hg : a.gated = false) :
    (Prog.doing a).Polls cfg b :=
  ⟨h, by simp [hg], fun _ => by simp [Prog.Gated]⟩

/-- A poll loop ends with the controller shown ready (R98). -/
theorem pollReady_gated (e : Env) (n : Nat) : ∀ r, (pollReady e n).Gated e.cfg false r true := by
  induction n with
  | zero => intro r; simp only [pollReady, Env.exhausted]; split <;> trivial
  | succ n ih =>
    intro r
    refine ⟨rfl, by simp [Act.gated], fun w => ?_⟩
    simp only [Prog.bind_ret]
    split
    · rename_i hw; intro _; simp [Act.shows, hw]
    · exact ih _

theorem waitReady_gated (e : Env) : (waitReady e).Gated e.cfg false false true := pollReady_gated e _ _

theorem waitReady_polls (e : Env) : (waitReady e).Polls e.cfg false := by
  have : ∀ n r, (pollReady e n).Gated e.cfg false r false := by
    intro n
    induction n with
    | zero => intro r; simp only [pollReady, Env.exhausted]; split <;> trivial
    | succ n ih =>
      intro r
      refine ⟨rfl, by simp [Act.gated], fun w => ?_⟩
      simp only [Prog.bind_ret]
      split
      · simp [Prog.Gated]
      · exact ih _
  exact this _ _

theorem gated32_polls (e : Env) (reg : GatedReg) (v : Word) : (gated32 e reg v).Polls e.cfg false :=
  (waitReady_gated e).bind fun _ => ⟨by cases reg <;> rfl, fun _ => rfl, fun _ => by simp [Prog.Gated]⟩

theorem readGated_polls (e : Env) : (readGated e).Polls e.cfg false :=
  (waitReady_gated e).bind fun _ => ⟨rfl, fun _ => rfl, fun _ => by simp [Prog.Gated]⟩

theorem takeGated_polls (e : Env) (n : Nat) : (takeGated e n).Polls e.cfg false :=
  (waitReady_gated e).bind fun _ => ⟨rfl, fun _ => rfl, fun _ => by simp [Prog.Gated]⟩

theorem prep_polls (e : Env) : (prep e).Polls e.cfg false := (gated32_polls e _ _).bind fun _ => .ret _

theorem issue_polls (e : Env) (base : Word) (op : Byte) (addr : Option Word) : (issue e base op addr).Polls e.cfg false :=
  (gated32_polls e _ _).bind fun _ => (gated32_polls e _ _).bind fun _ => by
    cases addr with
    | none => exact .ret _
    | some a => exact (gated32_polls e _ _).bind fun _ => gated32_polls e _ _

theorem readRegBytes_polls (e : Env) (op : Byte) (len : Nat) : (readRegBytes e op len).Polls e.cfg false :=
  (prep_polls e).bind fun _ => (issue_polls e _ _ _).bind fun _ => by
    split
    · exact .ret _
    · exact (gated32_polls e _ _).bind fun _ => takeGated_polls e _

theorem readReg_polls (e : Env) (op : Byte) (len : Nat) : (readReg e op len).Polls e.cfg false := by
  simp only [readReg]
  split
  · exact (readRegBytes_polls e _ _).bind fun _ => .ret _
  · trivial

theorem status_polls (e : Env) : (status e).Polls e.cfg false := (readRegBytes_polls e _ _).bind fun _ => .ret _

theorem writeReg_polls (e : Env) (op : Byte) (buf : List Byte) (len : Nat) : (writeReg e op buf len).Polls e.cfg false := by
  simp only [writeReg]
  split
  · trivial
  · split
    · trivial
    · exact ((prep_polls e).bind fun _ => (gated32_polls e _ _).bind fun _ => gated32_polls e _ _).bind fun _ => .ret _

theorem exhausted_polls {α : Type} (e : Env) (p : Poll) : (e.exhausted p : Prog α).Polls e.cfg false := by
  simp only [Env.exhausted]
  split <;> trivial

theorem waitIdle_polls (e : Env) : (waitIdle e).Polls e.cfg false := by
  have : ∀ n, (pollWip e n).Polls e.cfg false := by
    intro n
    induction n with
    | zero => exact exhausted_polls e _
    | succ n ih => exact (status_polls e).bind fun _ => by split; exact ih; exact .ret _
  exact this _

theorem pollWel_polls (e : Env) (n : Nat) : (pollWel e n).Polls e.cfg false := by
  induction n with
  | zero => exact exhausted_polls e _
  | succ n ih => exact (status_polls e).bind fun _ => by split; exact .ret _; exact ih

theorem handshake_polls (e : Env) : (handshake e).Polls e.cfg false :=
  (waitIdle_polls e).bind fun _ => (prep_polls e).bind fun _ => (issue_polls e _ _ _).bind fun _ => pollWel_polls e _

theorem sendDummies_polls (e : Env) (base : Word) (n : Nat) : (sendDummies e base n).Polls e.cfg false := by
  induction n with
  | zero => exact .ret _
  | succ n ih => exact (gated32_polls e _ _).bind fun _ => (gated32_polls e _ _).bind fun _ => ih

theorem readTimes_polls (e : Env) (k n : Nat) : (readTimes e k n).Polls e.cfg false := by
  induction n with
  | zero => exact .ret _
  | succ n ih => exact (takeGated_polls e _).bind fun _ => ih.bind fun _ => .ret _

theorem setWidthIf_polls (e : Env) (needed : Bool) (base : Word) (n : Nat) :
    (setWidthIf e needed base n).Polls e.cfg false := by
  simp only [setWidthIf]
  split
  · exact gated32_polls e _ _
  · exact .ret _

theorem readData_polls (e : Env) (base : Word) (n : Nat) : (readData e base n).Polls e.cfg false :=
  (setWidthIf_polls e _ _ _).bind fun _ => (readTimes_polls e _ _).bind fun _ =>
    (setWidthIf_polls e _ _ _).bind fun _ => (readTimes_polls e _ _).bind fun _ => .ret _

theorem readChunks_polls (e : Env) (k : Nat) : ∀ a left, (readChunks e k a left).Polls e.cfg false := by
  induction k with
  | zero => intro a left; exact .ret _
  | succ k ih =>
    intro a left
    exact ((prep_polls e).bind fun _ => (issue_polls e _ _ _).bind fun _ => (sendDummies_polls e _ _).bind fun _ =>
      readData_polls e _ _).bind fun _ => (ih _ _).bind fun _ => .ret _

theorem checkRange_polls (e : Env) (offset len : Nat) : (checkRange e offset len).Polls e.cfg false := by
  simp only [checkRange]
  split
  · trivial
  · exact .ret _

theorem readFlash_polls (e : Env) (offset len : Nat) : (readFlash e offset len).Polls e.cfg false :=
  (checkRange_polls e _ _).bind fun _ => (handshake_polls e).bind fun _ => (readChunks_polls e _ _ _).bind fun _ => .ret _

theorem sendWords_polls (e : Env) : ∀ bs : List Byte, (sendWords e bs).Polls e.cfg false
  | _ :: _ :: _ :: _ :: rest => (gated32_polls e _ _).bind fun _ => sendWords_polls e rest
  | [] => .ret _
  | [_] => .ret _
  | [_, _] => .ret _
  | [_, _, _] => .ret _

theorem sendTail_polls (e : Env) (bs : List Byte) : (sendTail e bs).Polls e.cfg false := by
  induction bs with
  | nil => exact .ret _
  | cons b bs ih => exact (gated32_polls e _ _).bind fun _ => ih

theorem sendData_polls (e : Env) (base : Word) (data : List Byte) : (sendData e base data).Polls e.cfg false :=
  (setWidthIf_polls e _ _ _).bind fun _ => (sendWords_polls e _).bind fun _ =>
    (setWidthIf_polls e _ _ _).bind fun _ => sendTail_polls e _

theorem writeChunks_polls (e : Env) (k : Nat) : ∀ a data, (writeChunks e k a data).Polls e.cfg false := by
  induction k with
  | zero => intro a data; exact .ret _
  | succ k ih =>
    intro a data
    exact ((handshake_polls e).bind fun _ => (prep_polls e).bind fun _ => (issue_polls e _ _ _).bind fun _ =>
      sendData_polls e _ _).bind fun _ => ih _ _

theorem writeFlash_polls (e : Env) (offset : Nat) (buf : List Byte) (len : Nat) :
    (writeFlash e offset buf len).Polls e.cfg false :=
  (checkRange_polls e _ _).bind fun _ => by
    split
    · trivial
    · exact (writeChunks_polls e _ _ _).bind fun _ => .ret _

theorem eraseFlash_polls (e : Env) (offset : Nat) : (eraseFlash e offset).Polls e.cfg false :=
  (checkRange_polls e _ _).bind fun _ => (handshake_polls e).bind fun _ => (prep_polls e).bind fun _ =>
    (issue_polls e _ _ _).bind fun _ => .ret _

theorem withController_polls {α : Type} {cfg : Cfg} {p : Prog α} (h : p.Polls cfg false) :
    (withController p).Polls cfg false :=
  (doing_polls rfl rfl).bind fun _ => h

theorem progAttach_polls (e : Env) (f : Family) (cs : Byte) (straps : Straps) :
    (progAttach e f cs straps).Polls e.cfg false := by
  simp only [progAttach]
  split
  · trivial
  · trivial
  · refine (doing_polls rfl rfl).bind fun _ => ?_
    simp only [attachController]
    split
    · trivial
    · exact (reading_polls rfl rfl).bind fun _ => (doing_polls rfl rfl).bind fun _ => (doing_polls rfl rfl).bind fun _ =>
        .ret _

/-- A frame polls before each of its accesses (R81, row 19). -/
theorem runFrame_polls (e : Env) (c : ChipSel) (op : Byte) (sent : List Byte) (reads : Nat) :
    (runFrame e c op sent reads).Polls e.cfg false :=
  (gated32_polls e _ _).bind fun _ => (gated32_polls e _ _).bind fun _ => (sendTail_polls e _).bind fun _ =>
    (readTimes_polls e _ _).bind fun _ => (gated32_polls e _ _).bind fun _ => .ret _

/-! The programs of the router. -/

theorem checkSource_polls {cfg : Cfg} (src : Nat) : (checkSource src).Polls cfg true := by
  simp only [checkSource]
  split
  · trivial
  · exact .ret _

theorem changeMask_polls {cfg : Cfg} (src : Nat) (f : Word → Word) : (changeMask src f).Polls cfg true :=
  (checkSource_polls src).bind fun _ => (doing_polls rfl rfl).bind fun _ => (reading_polls rfl rfl).bind fun _ =>
    (doing_polls rfl rfl).bind fun _ => (doing_polls rfl rfl).bind fun _ => .ret _

theorem registerHandler_polls {cfg : Cfg} (src : Nat) (h : Word) : (registerHandler src h).Polls cfg true :=
  (checkSource_polls src).bind fun _ => (doing_polls rfl rfl).bind fun _ => .ret _

theorem routeLine_polls {cfg : Cfg} (k : Fin 8) : (routeLine k).Polls cfg true :=
  (reading_polls rfl rfl).bind fun _ => (reading_polls rfl rfl).bind fun _ => (doing_polls rfl rfl).bind fun _ => by
    split <;> exact .ret _

theorem dispatchLine_polls {cfg : Cfg} (k : Fin 8) : (dispatchLine k).Polls cfg true :=
  (doing_polls rfl rfl).bind fun _ => routeLine_polls k

theorem enterIrq_polls {cfg : Cfg} (pending : Byte) : (enterIrq pending).Polls cfg true := by
  refine ⟨rfl, by simp [Act.gated], fun w => ?_⟩
  show Prog.Gated cfg true (match lineOf w with | none => _ | some k => _) false false
  split
  · exact Prog.Polls.ret _
  · exact routeLine_polls _

theorem handlerReturn_polls {cfg : Cfg} (k : Fin 8) :
    (handlerReturn k).Polls cfg true := (doing_polls rfl rfl).bind fun _ => .ret _

theorem progRouteInit_polls (e : Env) : (progRouteInit e).Polls e.cfg true := by
  have words : ∀ f rs, (writeRouting e.cfg f rs).Polls e.cfg true := by
    intro f rs
    induction rs with
    | nil => exact .ret _
    | cons r rs ih => exact (doing_polls rfl rfl).bind fun _ => ih
  simp only [progRouteInit]
  split
  · trivial
  · trivial
  · exact (words _ _).bind fun _ => (doing_polls rfl rfl).bind fun _ => .ret _

/-- Every operation is one register read, one register write, or a call of its program, whose accesses are of its block and
follow their polls (R2, R4, R93). -/
theorem exec_cases (i : Instr) (s : State) :
    (∃ r : Reg, (r.block == .router) = isRouterOp i ∧ exec i s = (regRead r s).returnValue) ∨
    (∃ (r : Reg) (v : Word), (r.block == .router) = isRouterOp i ∧ exec i s = (regWrite r v s).returnOk) ∨
    (exec i s = call (.instr i) (fun e => progInstr e i) s ∧ ∀ e, (progInstr e i).Polls e.cfg (isRouterOp i)) := by
  cases i with
  | gimrR => exact .inl ⟨.gimr, rfl, rfl⟩
  | gimrW v => exact .inr (.inl ⟨.gimr, v, rfl, rfl⟩)
  | gisrR => exact .inl ⟨.gisr, rfl, rfl⟩
  | gisrW v => exact .inr (.inl ⟨.gisr, v, rfl, rfl⟩)
  | irr0R => exact .inl ⟨.irr 0, rfl, rfl⟩
  | irr0W v => exact .inr (.inl ⟨.irr 0, v, rfl, rfl⟩)
  | irr1R => exact .inl ⟨.irr 1, rfl, rfl⟩
  | irr1W v => exact .inr (.inl ⟨.irr 1, v, rfl, rfl⟩)
  | irr2R => exact .inl ⟨.irr 2, rfl, rfl⟩
  | irr2W v => exact .inr (.inl ⟨.irr 2, v, rfl, rfl⟩)
  | irr3R => exact .inl ⟨.irr 3, rfl, rfl⟩
  | irr3W v => exact .inr (.inl ⟨.irr 3, v, rfl, rfl⟩)
  | sfcrR => exact .inl ⟨.sfcr, rfl, rfl⟩
  | sfcrW v => exact .inr (.inl ⟨.sfcr, v, rfl, rfl⟩)
  | sfcr2R => exact .inl ⟨.sfcr2, rfl, rfl⟩
  | sfcr2W v => exact .inr (.inl ⟨.sfcr2, v, rfl, rfl⟩)
  | sfcsrR => exact .inl ⟨.sfcsr, rfl, rfl⟩
  | sfcsrW v => exact .inr (.inl ⟨.sfcsr, v, rfl, rfl⟩)
  | sfdrR => exact .inl ⟨.sfdr, rfl, rfl⟩
  | sfdrW v => exact .inr (.inl ⟨.sfdr, v, rfl, rfl⟩)
  | routeInit => exact .inr (.inr ⟨rfl, fun _ => progRouteInit_polls _⟩)
  | enable src => exact .inr (.inr ⟨rfl, fun _ => changeMask_polls _ _⟩)
  | disable src => exact .inr (.inr ⟨rfl, fun _ => changeMask_polls _ _⟩)
  | dispatch line => exact .inr (.inr ⟨rfl, fun _ => dispatchLine_polls _⟩)
  | irqEntry pending => exact .inr (.inr ⟨rfl, fun _ => enterIrq_polls _⟩)
  | registerHandler src x => exact .inr (.inr ⟨rfl, fun _ => registerHandler_polls _ _⟩)
  | handlerReturn line => exact .inr (.inr ⟨rfl, fun _ => handlerReturn_polls _⟩)
  | attach family cs straps => exact .inr (.inr ⟨rfl, fun _ => progAttach_polls _ _ _ _⟩)
  | spiPrep => exact .inr (.inr ⟨rfl, fun _ => withController_polls ((prep_polls _).bind fun _ => .ret _)⟩)
  | waitReady => exact .inr (.inr ⟨rfl, fun _ => (waitReady_polls _).bind fun _ => .ret _⟩)
  | w32 reg v => exact .inr (.inr ⟨rfl, fun _ => (gated32_polls _ _ _).bind fun _ => .ret _⟩)
  | r32 => exact .inr (.inr ⟨rfl, fun _ => (readGated_polls _).bind fun _ => .ret _⟩)
  | readStatus => exact .inr (.inr ⟨rfl, fun _ => withController_polls ((status_polls _).bind fun _ => .ret _)⟩)
  | waitWip => exact .inr (.inr ⟨rfl, fun _ => withController_polls ((waitIdle_polls _).bind fun _ => .ret _)⟩)
  | writeEnable => exact .inr (.inr ⟨rfl, fun _ => withController_polls ((handshake_polls _).bind fun _ => .ret _)⟩)
  | readReg op len => exact .inr (.inr ⟨rfl, fun _ => withController_polls (readReg_polls _ _ _)⟩)
  | writeReg op buf len => exact .inr (.inr ⟨rfl, fun _ => withController_polls (writeReg_polls _ _ _ _)⟩)
  | read offset len => exact .inr (.inr ⟨rfl, fun _ => withController_polls (readFlash_polls _ _ _)⟩)
  | write offset buf len => exact .inr (.inr ⟨rfl, fun _ => withController_polls (writeFlash_polls _ _ _ _)⟩)
  | erase offset => exact .inr (.inr ⟨rfl, fun _ => withController_polls (eraseFlash_polls _ _)⟩)
  | issueCmd base op addr =>
    exact .inr (.inr ⟨rfl, fun _ => withController_polls ((issue_polls _ _ _ _).bind fun _ => .ret _)⟩)
  | wrsr c sent reads => exact .inr (.inr ⟨rfl, fun _ => runFrame_polls _ _ _ _ _⟩)
  | pp c sent reads => exact .inr (.inr ⟨rfl, fun _ => runFrame_polls _ _ _ _ _⟩)
  | rdsr c sent reads => exact .inr (.inr ⟨rfl, fun _ => runFrame_polls _ _ _ _ _⟩)
  | wren c sent reads => exact .inr (.inr ⟨rfl, fun _ => runFrame_polls _ _ _ _ _⟩)
  | fastRead c sent reads => exact .inr (.inr ⟨rfl, fun _ => runFrame_polls _ _ _ _ _⟩)
  | fastRead4b c sent reads => exact .inr (.inr ⟨rfl, fun _ => runFrame_polls _ _ _ _ _⟩)
  | pp4b c sent reads => exact .inr (.inr ⟨rfl, fun _ => runFrame_polls _ _ _ _ _⟩)
  | se c sent reads => exact .inr (.inr ⟨rfl, fun _ => runFrame_polls _ _ _ _ _⟩)
  | se4b c sent reads => exact .inr (.inr ⟨rfl, fun _ => runFrame_polls _ _ _ _ _⟩)

/-- A call runs its program (R4). -/
theorem exec_call {i : Instr} (h : isCall i = true) (s : State) : exec i s = call (.instr i) (fun e => progInstr e i) s := by
  cases i <;> first | rfl | cases h

/-- A command frame runs its program (R57, row 19). -/
theorem exec_frame (c : ChipSel) (sent : List Byte) (reads : Nat) (s : State) :
    exec (.wrsr c sent reads) s = call (.instr (.wrsr c sent reads)) (fun e => runFrame e c e.cfg.opWrsr sent reads) s ∧
    exec (.rdsr c sent reads) s = call (.instr (.rdsr c sent reads)) (fun e => runFrame e c e.cfg.opRdsr sent reads) s ∧
    exec (.wren c sent reads) s = call (.instr (.wren c sent reads)) (fun e => runFrame e c e.cfg.opWren sent reads) s ∧
    ∀ m, exec (programFrame m c sent reads) s =
        call (.instr (programFrame m c sent reads)) (fun e => runFrame e c (e.cfg.opPp m) sent reads) s ∧
      exec (eraseFrame m c sent reads) s =
        call (.instr (eraseFrame m c sent reads)) (fun e => runFrame e c (e.cfg.opSe m) sent reads) s := by
  refine ⟨rfl, rfl, rfl, fun m => ?_⟩
  cases m <;> exact ⟨rfl, rfl⟩

/-- Every operation keeps a closed property. -/
theorem exec_keeps {P : State → Prop} (hc : Closed P) {i : Instr} {s t : State} (h : P s) (e : exec i s = .next t) :
    P t := by
  rcases exec_cases i s with ⟨r, _, he⟩ | ⟨r, v, _, he⟩ | ⟨he, _⟩
  · exact read_keeps hc r h (he.symm.trans e)
  · exact write_keeps hc r v h (he.symm.trans e)
  · exact call_keeps hc h (he.symm.trans e)

/-- The step of the machine keeps the property. -/
theorem step_keeps {P : State → Prop} (hc : Closed P) {s t : State} (h : P s) (e : step s = .next t) : P t := by
  simp only [step] at e
  split at e
  · have hp := point_all hc h
    cases hs : s.point with
    | ok u a =>
      rw [hs] at e hp
      have ha : P a := hp
      have fetched : ∀ ctx rest (f : Except Refusal Op), runFetched (a.issued ctx rest) f = .next t → P t := by
        intro ctx rest f hf
        have hi : P (a.issued ctx rest) := hc.model a _ _ _ _ _ _ _ _ ha
        cases f with
        | error r => cases hf
        | ok op =>
          cases op with
          | instr i => exact exec_keeps hc hi hf
          | frame cmd c sent reads => exact call_keeps (p := fun e => progUnknown e cmd c sent reads) hc hi hf
      simp only [Res.finish, runNext] at e
      split at e
      · rename_i item rest _
        cases item with
        | op ctx code => exact fetched ctx rest _ e
        | bus ctx b => exact fetched ctx rest _ e
        | takeMutex ctx => cases e; exact hc.model a _ _ _ _ _ _ _ _ ha
        | releaseMutex ctx =>
          simp only [runItem, moveReleaseMutex] at e
          split at e
          · cases e; exact hc.model a _ _ _ _ _ _ _ _ ha
          · cases e
      · simp only [resumeFirst] at e
        split at e
        · cases e; exact ha
        · exact Prog.run_keeps hc _ (hc.model a _ _ _ _ _ _ _ _ ha) e
    | raised c u => rw [hs] at e hp; cases e; exact hc.model u _ _ _ _ _ _ _ _ hp
    | pending u => rw [hs] at e hp; cases e; exact hp
    | refused r => rw [hs] at e; cases e
    | fault f => rw [hs] at e; cases e
  · cases e

end Sys2Proof.Machine
end

