-- ==== Sys2Proof/Laws/Primitives.lean ====
section
/-! SUPPORT. The primitives under an eager schedule: register reads on any device; status, handshake, read, write and
erase on the reference device. -/

namespace Sys2Proof.Machine

/-! Framing from inside a frame and from any state. -/

/-- `spi_prep` from any state whose open frame may be closed. -/
theorem prep_parked {s u : State} {E : Env} (h : Runs E s) (hc : closeFrame s.sel (eagerStep s) = .ok () u) :
    ∃ t, (prep E).den s = .ok (baseWord E.cfg s.ctrl.cs) t ∧ State.Moves [deselectTouch E.cfg] s t ∧
      Parked (fun c => (u.dev c).finish) t ∧ t.draws = u.draws := by
  obtain ⟨t, e, f, hs, _, _, hd, hr, _⟩ := prep_eager h hc
  exact ⟨t, e, f, ⟨hs, fun c => by rw [hd c]⟩, hr⟩

theorem eagerStep_dev (s : State) (c : ChipSel) : (eagerStep s).dev c = (s.dev c).finish := by
  cases c <;> simp [eagerStep_eq, State.dev]

@[simp] theorem eagerStep_draws (s : State) : (eagerStep s).draws = s.draws := by simp [eagerStep_eq]
@[simp] theorem eagerStep_cfg (s : State) : (eagerStep s).cfg = s.cfg := by simp [eagerStep_eq]
@[simp] theorem eagerStep_ctrl (s : State) : (eagerStep s).ctrl = s.ctrl := by simp [eagerStep_eq]

/-- Closing the frame of a link. -/
theorem close_link {s : State} {c : ChipSel} {k : BitVec 2} {d e d' : Device} {n : Nat} {cfg : Cfg} (hcfg : cfg = s.cfg)
    (hl : Link c k d e s) (hd : d.deselect cfg (cfg.flashSize c) cfg.eraseSize s.draws = .ok (d', n)) :
    ∃ u, closeFrame s.sel (eagerStep s) = .ok () u ∧ u.dev c = d' ∧ u.dev c.other = e ∧ u.draws = n ∧ s.EngineFrame u := by
  have hd' : ((eagerStep s).dev c).deselect (eagerStep s).cfg ((eagerStep s).cfg.flashSize c) (eagerStep s).cfg.eraseSize
      (eagerStep s).draws = .ok (d', n) := by
    rw [eagerStep_dev, hl.dev, hl.settled, eagerStep_cfg, eagerStep_draws, ← hcfg]; exact hd
  refine ⟨_, by rw [hl.sel]; exact closeFrame_link hd', ?_, ?_, rfl, ?_⟩
  · simp
  · simp [State.setDev_other, eagerStep_dev, hl.other, hl.settled_other]
  · exact ((eagerStep_frame s).trans (setDev_frame _ _ _)).trans (withDraws_frame _ _)

/-! `read_reg` on any device (R106). -/

theorem readRegBytes_zero {s u : State} {E : Env} (h : Runs E s) (hb : s.bigEndianLanes = true)
    (hc : closeFrame s.sel (eagerStep s) = .ok () u) (op : Byte) :
    ∃ t, (readRegBytes E op 0).den s = .ok [] t ∧ State.Moves (commandTouches E.cfg s.ctrl.cs op) s t ∧
      Link s.ctrl.cs 0#2 ((u.dev s.ctrl.cs).finish.select.put op) (u.dev s.ctrl.cs.other).finish t := by
  obtain ⟨t1, e1, f1, p1, _⟩ := prep_parked h hc
  obtain ⟨t2, e2, f2, l2⟩ := issue_none_parked (f1.runs h) (f1.lanes hb) p1 s.ctrl.cs op
  exact ⟨t2, by simp only [readRegBytes, Prog.den_bind, e1, Res.bind_ok, e2, if_true, Prog.den_ret], f1.trans f2, l2⟩

theorem readRegBytes_succ {s u : State} {E : Env} (h : Runs E s) (hb : s.bigEndianLanes = true)
    (hc : closeFrame s.sel (eagerStep s) = .ok () u) (op : Byte) (n : Fin 4) :
    ∃ bs t, (readRegBytes E op (n.val + 1)).den s = .ok bs t ∧
      State.Moves (commandTouches E.cfg s.ctrl.cs op ++ [widthTouch E.cfg s.ctrl.cs (n.val + 1), takeTouch]) s t ∧
      Link s.ctrl.cs (BitVec.ofNat 2 n.val) (Device.advances (n.val + 1) ((u.dev s.ctrl.cs).finish.select.put op))
        (u.dev s.ctrl.cs.other).finish t ∧ bs.length = n.val + 1 ∧
      ∀ j, j ≤ n.val → ∀ b, (Device.advances j ((u.dev s.ctrl.cs).finish.select.put op)).answer
        E.cfg (E.cfg.flashSize s.ctrl.cs) = some b → bs[j]? = some b := by
  obtain ⟨t1, e1, f1, p1, _⟩ := prep_parked h hc
  obtain ⟨t2, e2, f2, l2⟩ := issue_none_parked (f1.runs h) (f1.lanes hb) p1 s.ctrl.cs op
  have f12 := f1.trans f2
  obtain ⟨t3, e3, f3, l3⟩ := setWidth_link (f12.runs h) l2 n
  have f13 := f12.trans f3
  obtain ⟨bs, t4, e4, f4, l4, hlen, hr⟩ := takeGated_link (f13.runs h) (f13.lanes hb) l3
  have hn : (BitVec.ofNat 2 n.val).toNat = n.val := by
    rw [BitVec.toNat_ofNat]; exact Nat.mod_eq_of_lt n.isLt
  rw [hn] at e4 l4 hlen hr
  refine ⟨bs, t4, ?_, f13.trans f4, l4, hlen, ?_⟩
  · simp only [readRegBytes, Prog.den_bind, e1, Res.bind_ok, e2, Nat.add_one_ne_zero, if_false, e3, e4]
  · intro j hj b hb'
    exact hr j hj b hb'

/-! The reference device. -/

/-- A frame that commits nothing: its command reads, or is no command that changes the device (R119, R121, R123). -/
def InertFrame (cfg : Cfg) (rx : List Byte) : Prop :=
  ∀ d : RefNor, d.rx = rx → ∀ size sector draws, d.commit cfg size sector draws = .ok (d, draws)

theorem inert_rdsr {cfg : Cfg} (h : cfg.ok = true) : InertFrame cfg [cfg.opRdsr] := by
  intro d hd size sector draws
  simp only [RefNor.commit, hd, Cfg.commands_distinct h, if_false]

theorem inert_read {cfg : Cfg} (h : cfg.ok = true) (m : AddrMode) (args : List Byte) :
    InertFrame cfg (cfg.opRead m :: args) := by
  intro d hd size sector draws
  cases m <;> simp only [RefNor.commit, hd, Cfg.opRead, Cfg.commands_distinct h, if_false]

/-- Closing an inert frame of an idle device changes only `open`. -/
theorem deselect_inert {cfg : Cfg} {d : RefNor} (hw : d.wip = false) (hi : InertFrame cfg d.rx) (size sector draws : Nat) :
    (Device.refNor d).deselect cfg size sector draws = .ok (.refNor { d with frameOpen := false }, draws) := by
  have : RefNor.commit { d with frameOpen := false } cfg size sector draws = .ok ({ d with frameOpen := false }, draws) :=
    hi { d with frameOpen := false } rfl size sector draws
  simp only [Device.deselect, RefNor.deselect]
  rw [if_neg (by simp [hw]), this]

theorem finish_idle {d : RefNor} (hw : d.wip = false) : (Device.refNor d).finish = .refNor d := by
  simp [Device.finish, RefNor.finish, hw]

/-- The reference device inside a frame of `rx`, having returned `n` bytes. -/
def RefNor.inFrame (d : RefNor) (rx : List Byte) (n : Nat) : RefNor :=
  { d with rx := rx, rdcount := n, frameOpen := true }

theorem select_puts (d : RefNor) (bs : List Byte) :
    (Device.refNor d).select.puts bs = .refNor (d.inFrame bs 0) := by
  have : ∀ (bs pre : List Byte), (Device.refNor (d.inFrame pre 0)).puts bs = .refNor (d.inFrame (pre ++ bs) 0) := by
    intro bs
    induction bs with
    | nil => intro pre; simp
    | cons b bs ih =>
      intro pre
      have h1 : (Device.refNor (d.inFrame pre 0)).put b = .refNor (d.inFrame (pre ++ [b]) 0) := by
        simp [Device.put, RefNor.put, RefNor.inFrame]
      rw [Device.puts_cons, h1, ih, List.append_assoc, List.singleton_append]
  simpa [RefNor.inFrame, Device.select, RefNor.select] using this bs []

theorem advances_inFrame (d : RefNor) (rx : List Byte) (n : Nat) : ∀ k,
    Device.advances n (.refNor (d.inFrame rx k)) = .refNor (d.inFrame rx (k + n)) := by
  induction n with
  | zero => intro k; rfl
  | succ n ih =>
    intro k
    have : (Device.refNor (d.inFrame rx k)).advance = .refNor (d.inFrame rx (k + 1)) := by
      simp [Device.advance, RefNor.advance, RefNor.inFrame]
    rw [Device.advances, this, ih]
    congr 2; omega

theorem statusByte_bits {cfg : Cfg} (h : cfg.ok = true) (d : RefNor) :
    (d.statusByte cfg).getLsbD cfg.srWip = d.wip ∧ (d.statusByte cfg).getLsbD cfg.srWel = d.wel := by
  obtain ⟨_, hne, hw, he⟩ := Cfg.commands h
  have one : ∀ (p n : Nat) (b : Bool), n < 8 →
      ((BitVec.ofBool b).setWidth 8 <<< p).getLsbD n = (decide (p = n) && b) := by
    intro p n b hn
    simp only [BitVec.getLsbD_shiftLeft, BitVec.getLsbD_setWidth, BitVec.getLsbD_ofBool]
    by_cases hp : p = n <;> by_cases hq : n < p <;> simp [hn, hp, hq] <;> omega
  simp only [RefNor.statusByte, BitVec.getLsbD_or, one _ _ _ hw, one _ _ _ he]
  simp [hne, Ne.symm hne]

/-- `read_status` on the reference device: the status byte; the status frame stays open (R103, R121). -/
theorem status_refNor {s u : State} {E : Env} (h : Runs E s) (hb : s.bigEndianLanes = true)
    (hc : closeFrame s.sel (eagerStep s) = .ok () u) {d : RefNor} (hd : (u.dev s.ctrl.cs).finish = .refNor d) :
    ∃ t, (status E).den s = .ok (d.statusByte E.cfg) t ∧ State.Moves (statusTouches E.cfg s.ctrl.cs) s t ∧
      Link s.ctrl.cs 0#2 (.refNor (d.inFrame [E.cfg.opRdsr] 1)) (u.dev s.ctrl.cs.other).finish t := by
  obtain ⟨bs, t, e, f, l, hlen, hr⟩ := readRegBytes_succ h hb hc E.cfg.opRdsr 0
  have hput : (Device.refNor d).select.put E.cfg.opRdsr = .refNor (d.inFrame [E.cfg.opRdsr] 0) :=
    select_puts d [E.cfg.opRdsr]
  rw [hd, hput] at l hr
  rw [advances_inFrame] at l
  have h0 := hr 0 (Nat.le_refl _) (d.statusByte E.cfg) (by
    simp [Device.advances, Device.answer, RefNor.answer, RefNor.inFrame, RefNor.answerRdsr, RefNor.statusByte])
  refine ⟨t, ?_, f, ?_⟩
  · have e' : (readRegBytes E E.cfg.opRdsr 1).den s = .ok bs t := e
    have hh : bs.headD 0#8 = (d.statusByte E.cfg) := by
      cases bs with
      | nil => simp at h0
      | cons b bs => simpa using h0
    simp only [status, e', Prog.den_bind, Prog.den_ret, Res.bind_ok, hh]
  · simpa using l

/-- The poll for WIP ends at its first status read when the device is idle (R104). -/
theorem waitIdle_refNor {s u : State} {E : Env} (h : Runs E s) (hb : s.bigEndianLanes = true)
    (hc : closeFrame s.sel (eagerStep s) = .ok () u) {d : RefNor} (hd : (u.dev s.ctrl.cs).finish = .refNor d)
    (hw : d.wip = false) :
    ∃ t, (waitIdle E).den s = .ok () t ∧ State.Moves (statusTouches E.cfg s.ctrl.cs) s t ∧
      Link s.ctrl.cs 0#2 (.refNor (d.inFrame [E.cfg.opRdsr] 1)) (u.dev s.ctrl.cs.other).finish t := by
  obtain ⟨t, e, f, l⟩ := status_refNor h hb hc hd
  obtain ⟨n, hn⟩ := h.limit
  refine ⟨t, ?_, f, l⟩
  have hbit : (d.statusByte E.cfg).getLsbD E.cfg.srWip = false := by rw [(statusByte_bits h.ok d).1, hw]
  simp only [waitIdle, hn, pollWip, e, Prog.den_bind, Prog.den_ret, Res.bind_ok, hbit, Bool.false_eq_true, if_false]

/-- The frame that was open is closed by a link's next `spi_prep`. -/
theorem prep_link {s : State} {c : ChipSel} {k : BitVec 2} {d e d' : Device} {n : Nat} {E : Env} (h : Runs E s)
    (hcs : s.ctrl.cs = c) (hl : Link c k d e s)
    (hd : d.deselect E.cfg (E.cfg.flashSize c) E.cfg.eraseSize s.draws = .ok (d', n)) :
    ∃ t, (prep E).den s = .ok (baseWord E.cfg c) t ∧ State.Moves [deselectTouch E.cfg] s t ∧
      Parked (fun x => if x = c then d'.finish else e) t ∧ t.draws = n := by
  obtain ⟨u, hu, u1, u2, u3, _⟩ := close_link h.cfg hl hd
  obtain ⟨t, e1, f1, p1, r1⟩ := prep_parked h hu
  refine ⟨t, hcs ▸ e1, f1, ⟨p1.sel, ?_⟩, r1.trans u3⟩
  intro x
  rw [p1.dev]
  rcases ChipSel.eq_or_other c x with rfl | rfl
  · simp [u1]
  · have : c.other ≠ c := by cases c <;> simp [ChipSel.other]
    simp [this, u2, hl.settled_other]

/-- The write-enable handshake on an idle reference device sets its latch (R105, R120). -/
theorem handshake_refNor {s u : State} {E : Env} (h : Runs E s) (hb : s.bigEndianLanes = true)
    (hc : closeFrame s.sel (eagerStep s) = .ok () u) {d : RefNor} (hd : (u.dev s.ctrl.cs).finish = .refNor d)
    (hw : d.wip = false) :
    ∃ t, (handshake E).den s = .ok () t ∧ State.Moves (handshakeTouches E.cfg s.ctrl.cs) s t ∧
      Link s.ctrl.cs 0#2 (.refNor ({ d with wel := true }.inFrame [E.cfg.opRdsr] 1)) (u.dev s.ctrl.cs.other).finish t := by
  obtain ⟨t1, e1, f1, l1⟩ := waitIdle_refNor h hb hc hd hw
  have hcs1 : t1.ctrl.cs = s.ctrl.cs := by rw [f1.ctrl]
  obtain ⟨t2, e2, f2, p2, _⟩ := prep_link (f1.runs h) hcs1 l1
    (deselect_inert (d := d.inFrame [E.cfg.opRdsr] 1) hw (inert_rdsr h.ok) _ _ _)
  have f12 := f1.trans f2
  obtain ⟨t3, e3, f3, l3⟩ := issue_none_parked (f12.runs h) (f12.lanes hb) p2 s.ctrl.cs E.cfg.opWren
  have f13 := f12.trans f3
  have hput : (Device.refNor { (d.inFrame [E.cfg.opRdsr] 1) with frameOpen := false }).finish.select.put E.cfg.opWren =
      .refNor (d.inFrame [E.cfg.opWren] 0) := by
    rw [finish_idle (by exact hw)]
    exact select_puts _ [E.cfg.opWren]
  simp only [if_true] at l3
  rw [hput] at l3
  have hne : s.ctrl.cs.other ≠ s.ctrl.cs := by cases s.ctrl.cs <;> simp [ChipSel.other]
  rw [if_neg hne] at l3
  have hdes : ∀ size sector draws, (Device.refNor (d.inFrame [E.cfg.opWren] 0)).deselect E.cfg size sector draws =
      .ok (.refNor { d.inFrame [E.cfg.opWren] 0 with frameOpen := false, wel := true }, draws) := by
    intro size sector draws
    simp [Device.deselect, RefNor.deselect, RefNor.commit, RefNor.inFrame, RefNor.commitWren, hw]
  obtain ⟨u3, hu3, v1, v2, _, _⟩ := close_link (f13.runs h).cfg l3 (hdes _ _ _)
  have hcs3 : t3.ctrl.cs = s.ctrl.cs := by rw [f13.ctrl]
  have hd3 : (u3.dev t3.ctrl.cs).finish = .refNor { d.inFrame [E.cfg.opWren] 0 with frameOpen := false, wel := true } := by
    rw [hcs3, v1]; exact finish_idle hw
  obtain ⟨t4, e4, f4, l4⟩ := status_refNor (f13.runs h) (f13.lanes hb) hu3 hd3
  rw [hcs3] at f4
  refine ⟨t4, ?_, ?_, ?_⟩
  · obtain ⟨n, hn⟩ := h.limit
    have hbit := (statusByte_bits h.ok { d.inFrame [E.cfg.opWren] 0 with frameOpen := false, wel := true }).2
    simp only [handshake, e1, Prog.den_bind, Prog.den_ret, Res.bind_ok, e2, e3, hn, pollWel, e4, hbit, if_true]
  · have := f13.trans f4
    simpa [handshakeTouches, commandTouches, List.append_assoc] using this
  · rw [hcs3] at l4
    rw [v2, l3.settled_other] at l4
    exact l4

/-! Streaming data in (R108). -/

/-- Bytes `bs` are `n` bytes, each the one a rule of the device gives where it gives one. -/
def Answers (cfg : Cfg) (size : Nat) (d : Device) (n : Nat) (bs : List Byte) : Prop :=
  bs.length = n ∧ ∀ j, j < n → ∀ b, (Device.advances j d).answer cfg size = some b → bs[j]? = some b

theorem Answers.append {cfg : Cfg} {size m n : Nat} {d : Device} {as bs : List Byte} (ha : Answers cfg size d m as)
    (hb : Answers cfg size (Device.advances m d) n bs) : Answers cfg size d (m + n) (as ++ bs) := by
  refine ⟨by rw [List.length_append, ha.1, hb.1], ?_⟩
  intro j hj b h
  by_cases hjm : j < m
  · rw [List.getElem?_append_left (by rw [ha.1]; exact hjm)]
    exact ha.2 j hjm b h
  · rw [List.getElem?_append_right (by rw [ha.1]; omega), ha.1]
    refine hb.2 (j - m) (by omega) b ?_
    rw [← Device.advances_add, show m + (j - m) = j by omega]
    exact h

theorem List.replicate_succ_append {α : Type} (n : Nat) (a : α) :
    List.replicate (n + 1) a = [a] ++ List.replicate n a := rfl

/-- Reading `n` times with the width field `k` takes `n` times `k + 1` bytes from the device. -/
theorem readTimes_link {E : Env} {k : BitVec 2} {w : Nat} (hk : k.toNat + 1 = w) (n : Nat) :
    ∀ {s : State} {c : ChipSel} {d e : Device}, Runs E s → s.bigEndianLanes = true → Link c k d e s →
    ∃ bs t, (readTimes E w n).den s = .ok bs t ∧ State.Moves (List.replicate n takeTouch) s t ∧
      Link c k (Device.advances (w * n) d) e t ∧ Answers E.cfg (E.cfg.flashSize c) d (w * n) bs := by
  induction n with
  | zero =>
    intro s c d e h hb hl
    exact ⟨[], s, rfl, .refl s, hl, rfl, fun j hj => absurd hj (by omega)⟩
  | succ n ih =>
    intro s c d e h hb hl
    obtain ⟨b1, t1, e1, f1, l1, n1, r1⟩ := takeGated_link h hb hl
    obtain ⟨bs, t2, e2, f2, l2, a2⟩ := ih (f1.runs h) (f1.lanes hb) l1
    have hw : w * (n + 1) = w + w * n := by rw [Nat.mul_succ, Nat.add_comm]
    rw [hk] at e1 l2 a2 n1
    refine ⟨b1 ++ bs, t2, ?_, f1.trans f2, ?_, ?_⟩
    · simp only [readTimes, Prog.den_bind, e1, Res.bind_ok, e2, Prog.den_ret]
    · rw [hw, Device.advances_add]; exact l2
    · rw [hw]
      refine Answers.append ⟨n1, ?_⟩ a2
      intro j hj b hb'
      exact r1 j (by omega) b hb'

/-- The data phase of a chunk takes `n` bytes from the device (R108). -/
theorem readData_link {s : State} {c : ChipSel} {k : BitVec 2} {d e : Device} {E : Env} (h : Runs E s)
    (hb : s.bigEndianLanes = true) (hl : Link c k d e s) (n : Nat) :
    ∃ bs t k', (readData E (baseWord E.cfg c) n).den s = .ok bs t ∧
      State.Moves (((if 4 ≤ n then [widthTouch E.cfg c 4] else []) ++ List.replicate (n / 4) takeTouch) ++
        ((if n % 4 = 0 then [] else [widthTouch E.cfg c 1]) ++ List.replicate (n % 4) takeTouch)) s t ∧
      Link c k' (Device.advances n d) e t ∧ Answers E.cfg (E.cfg.flashSize c) d n bs := by
  -- the full words
  have words : ∃ bs t0 t k', (setWidthIf E (4 ≤ n) (baseWord E.cfg c) 4).den s = .ok () t0 ∧
      (readWords E (n / 4)).den t0 = .ok bs t ∧
      State.Moves ((if 4 ≤ n then [widthTouch E.cfg c 4] else []) ++ List.replicate (n / 4) takeTouch) s t ∧
      Link c k' (Device.advances (4 * (n / 4)) d) e t ∧ Answers E.cfg (E.cfg.flashSize c) d (4 * (n / 4)) bs := by
    by_cases h4 : 4 ≤ n
    · obtain ⟨t1, e1, f1, l1⟩ := setWidth_link h hl 3
      obtain ⟨bs, t2, e2, f2, l2, a2⟩ := readTimes_link (w := 4) rfl (n / 4) (f1.runs h) (f1.lanes hb) l1
      refine ⟨bs, t1, t2, 3#2, ?_, e2, ?_, l2, a2⟩
      · simp only [setWidthIf, h4, decide_true, if_true]; exact e1
      · rw [if_pos h4]; exact f1.trans f2
    · have h0 : n / 4 = 0 := by omega
      refine ⟨[], s, s, k, ?_, by rw [h0]; rfl, ?_, by rw [h0]; exact hl,
        by rw [h0]; exact ⟨rfl, fun j hj => absurd hj (by omega)⟩⟩
      · simp only [setWidthIf, h4, decide_false, Bool.false_eq_true, if_false, Prog.den_ret]
      · rw [if_neg h4, h0]; exact .refl s
  obtain ⟨ws, t0, t1, k1, e0, e1, f1, l1, a1⟩ := words
  -- the tail
  have tail : ∃ bs u t k', (setWidthIf E (n % 4 != 0) (baseWord E.cfg c) 1).den t1 = .ok () u ∧
      (readTail E (n % 4)).den u = .ok bs t ∧
      State.Moves ((if n % 4 = 0 then [] else [widthTouch E.cfg c 1]) ++ List.replicate (n % 4) takeTouch) t1 t ∧
      Link c k' (Device.advances (n % 4) (Device.advances (4 * (n / 4)) d)) e t ∧
      Answers E.cfg (E.cfg.flashSize c) (Device.advances (4 * (n / 4)) d) (n % 4) bs := by
    by_cases h4 : n % 4 = 0
    · refine ⟨[], t1, t1, k1, ?_, by rw [h4]; rfl, ?_, by rw [h4]; exact l1,
        by rw [h4]; exact ⟨rfl, fun j hj => absurd hj (by omega)⟩⟩
      · simp only [setWidthIf, h4, bne_self_eq_false, Bool.false_eq_true, if_false, Prog.den_ret]
      · rw [if_pos h4, h4]; exact .refl t1
    · obtain ⟨t2, e2, f2, l2⟩ := setWidth_link (f1.runs h) l1 0
      obtain ⟨bs, t3, e3, f3, l3, a3⟩ := readTimes_link (w := 1) rfl (n % 4) (f2.runs (f1.runs h)) (f2.lanes (f1.lanes hb)) l2
      rw [Nat.one_mul] at l3 a3
      refine ⟨bs, t2, t3, 0#2, ?_, e3, ?_, l3, a3⟩
      · have hne : (n % 4 != 0) = true := by simp [h4]
        simp only [setWidthIf, hne, if_true]; exact e2
      · rw [if_neg h4]; exact f2.trans f3
  obtain ⟨ts, t2, t3, k2, e2, e3, f2, l2, a2⟩ := tail
  have hn : 4 * (n / 4) + n % 4 = n := by omega
  refine ⟨ws ++ ts, t3, k2, ?_, f1.trans f2, ?_, ?_⟩
  · simp only [readData, Prog.den_bind, e0, Res.bind_ok, e1, e2, e3, Prog.den_ret]
  · rw [← Device.advances_add, hn] at l2; exact l2
  · have := a1.append a2
    rwa [hn] at this

/-- The dummy bytes after the address (R55). -/
theorem sendDummies_link (n : Nat) {E : Env} : ∀ {s : State} {c : ChipSel} {k : BitVec 2} {d e : Device}, Runs E s →
    s.bigEndianLanes = true → Link c k d e s →
    ∃ t k', (sendDummies E (baseWord E.cfg c) n).den s = .ok () t ∧
      State.Moves (List.replicate n [widthTouch E.cfg c 1, sendTouch 0#32]).flatten s t ∧
      Link c k' (d.puts (List.replicate n 0#8)) e t := by
  induction n with
  | zero => intro s c k d e h hb hl; exact ⟨s, k, rfl, .refl s, hl⟩
  | succ n ih =>
    intro s c k d e h hb hl
    obtain ⟨t1, e1, f1, l1⟩ := setWidth_link h hl 0
    obtain ⟨t2, e2, f2, l2⟩ := gatedSfdr_link (f1.runs h) (f1.lanes hb) l1 0#32
    have f12 := f1.trans f2
    have hz : writeLanes (BitVec.ofNat 2 (0 : Fin 4).val) 0#32 = [0#8] := by decide
    rw [hz] at l2
    obtain ⟨t3, k3, e3, f3, l3⟩ := ih (f12.runs h) (f12.lanes hb) l2
    refine ⟨t3, k3, ?_, f12.trans f3, l3⟩
    have e1' : (setWidth E (baseWord E.cfg c) 1).den s = .ok () t1 := e1
    simp only [sendDummies, Prog.den_bind, e1', Res.bind_ok, e2, e3]

/-- The address bytes spell the address, when the mode reaches it (R36). -/
theorem bigEndian_addressBytes {m : AddrMode} {a : Nat} (h : a < 2 ^ (8 * addrBytesOf m)) :
    bigEndian (addressBytes m a) = a := by
  cases m
  · simp only [addrBytesOf] at h
    simp only [bigEndian, addressBytes, List.foldl, BitVec.toNat_ofNat]
    omega
  · simp only [addrBytesOf] at h
    simp only [bigEndian, addressBytes, List.foldl, BitVec.toNat_ofNat]
    omega

theorem addressBytes_length (m : AddrMode) (a : Nat) : (addressBytes m a).length = addrBytesOf m := by cases m <;> rfl

/-- The reference device answers a complete fast-read header with the bytes of the array (R123, R124). -/
theorem answer_read {cfg : Cfg} (h : cfg.ok = true) {d : RefNor} {m : AddrMode} {a size k : Nat} {dummies : List Byte}
    (hw : d.wip = false) (ha : a < 2 ^ (8 * addrBytesOf m)) (hd : cfg.numDummy ≤ dummies.length) :
    (Device.refNor (d.inFrame (cfg.opRead m :: (addressBytes m a ++ dummies)) k)).answer cfg size =
      some (d.mem.read ((a + k) % size)) := by
  have hlen : addrBytesOf m + cfg.numDummy ≤ (addressBytes m a ++ dummies).length := by
    rw [List.length_append, addressBytes_length]; omega
  have htake : (addressBytes m a ++ dummies).take (addrBytesOf m) = addressBytes m a := by
    rw [List.take_append_of_le_length (by rw [addressBytes_length]), List.take_of_length_le (by rw [addressBytes_length])]
  have harr : ∀ e : RefNor, e.mem = d.mem → e.rdcount = k →
      e.answerArray cfg size (addrBytesOf m) (addressBytes m a ++ dummies) = some (d.mem.read ((a + k) % size)) := by
    intro e hm hk
    simp only [RefNor.answerArray, if_pos hlen, htake, bigEndian_addressBytes ha, hm, hk]
  simp only [Device.answer, RefNor.answer, RefNor.inFrame, hw]
  cases m
  · simp only [Cfg.opRead, Cfg.commands_distinct h, if_false, if_true, Bool.false_eq_true]; exact harr _ rfl rfl
  · simp only [Cfg.opRead, Cfg.commands_distinct h, if_false, if_true, Bool.false_eq_true]; exact harr _ rfl rfl

/-- The idle reference device between two frames of the driver, up to `open`, `rx` and the read position. -/
structure Idles (cfg : Cfg) (c : ChipSel) (mem : Memory) (wel stuck : Bool) (e : Device) (s : State) : Prop where
  link : ∃ (d : RefNor) (k : BitVec 2), Link c k (.refNor d) e s ∧ d.wip = false ∧ d.wel = wel ∧ d.mem = mem ∧
    d.stuck = stuck ∧ InertFrame cfg d.rx

/-- One chunk of `read` returns the bytes of the array (R108, R114, R123). -/
theorem readChunk_refNor {s : State} {c : ChipSel} {mem : Memory} {wel stuck : Bool} {e : Device} {E : Env} (h : Runs E s)
    (hb : s.bigEndianLanes = true) (hcs : s.ctrl.cs = c) (hi : Idles E.cfg c mem wel stuck e s) {a n : Nat}
    (hsize : a + n ≤ E.cfg.flashSize c) (ha : a < 2 ^ (8 * addrBytesOf s.ctrl.addrMode)) :
    ∃ t, (readChunk E a n).den s = .ok ((List.range n).map fun i => mem.read (a + i)) t ∧
      State.Moves (readChunkTouches E.cfg c s.ctrl.addrMode a n) s t ∧
      Idles E.cfg c mem wel stuck e t := by
  obtain ⟨d, k, hl, hw, hwel, hmem, hst, hin⟩ := hi.link
  have he : e.finish = e := hl.settled_other
  obtain ⟨t1, e1, f1, p1, _⟩ := prep_link h hcs hl (deselect_inert hw hin _ _ _)
  obtain ⟨t2, k2, e2, f2, l2⟩ := issue_some_parked (f1.runs h) (f1.lanes hb) p1 c (E.cfg.opRead s.ctrl.addrMode) a
  have f12 := f1.trans f2
  rw [f1.ctrl] at l2
  have hne : c.other ≠ c := by cases c <;> simp [ChipSel.other]
  simp only [if_true, if_neg hne] at l2
  rw [finish_idle (by exact hw), select_puts] at l2
  obtain ⟨t3, k3, e3, f3, l3⟩ := sendDummies_link E.cfg.numDummy (f12.runs h) (f12.lanes hb) l2
  have f13 := f12.trans f3
  rw [← select_puts, ← Device.puts_append, select_puts, List.cons_append] at l3
  obtain ⟨bs, t4, k4, e4, f4, l4, hlen, hans⟩ := readData_link (f13.runs h) (f13.lanes hb) l3 n
  rw [advances_inFrame] at l4
  have hbs : bs = (List.range n).map fun i => mem.read (a + i) := by
    apply List.ext_getElem?
    intro j
    by_cases hj : j < n
    · rw [hans j hj (mem.read (a + j)) ?_]
      · simp [hj]
      · rw [advances_inFrame]
        refine (answer_read h.ok (by exact hw) ha (by simp)).trans ?_
        simp only [hmem]
        congr 2
        rw [Nat.zero_add, Nat.mod_eq_of_lt (by omega)]
    · rw [List.getElem?_eq_none (by omega), List.getElem?_eq_none (by simp; omega)]
  refine ⟨t4, ?_, ?_, ⟨_, k4, l4, hw, hwel, hmem, hst, inert_read h.ok _ _⟩⟩
  · simp only [readChunk, Prog.den_bind, e1, Res.bind_ok, h.ctrl, e2, e3, e4, hbs]
  · have := f13.trans f4
    rw [f1.ctrl] at this
    simpa [readChunkTouches, commandTouches, List.append_assoc] using this

/-- The first chunk, and the others (R114). -/
theorem chunkTouches_step (cfg : Cfg) (c : ChipSel) (m : AddrMode) (a : Nat) {left : Nat} (h : 0 < left) :
    chunkTouches cfg c m a left = readChunkTouches cfg c m a (min Config.chunk left) ++
      chunkTouches cfg c m (a + min Config.chunk left) (left - min Config.chunk left) := by
  have hc : chunkCount left = chunkCount (left - min Config.chunk left) + 1 := by
    simp only [chunkCount, Config.chunk]; omega
  have hf : ∀ i, readChunkTouches cfg c m (a + Config.chunk * (i + 1)) (min Config.chunk (left - Config.chunk * (i + 1))) =
      readChunkTouches cfg c m (a + min Config.chunk left + Config.chunk * i)
        (min Config.chunk (left - min Config.chunk left - Config.chunk * i)) ∨
      ¬ i < chunkCount (left - min Config.chunk left) := by
    intro i
    by_cases hi : i < chunkCount (left - min Config.chunk left)
    · refine .inl ?_
      simp only [chunkCount, Config.chunk] at hi ⊢
      rw [show a + 256 * (i + 1) = a + min 256 left + 256 * i by omega,
        show left - 256 * (i + 1) = left - min 256 left - 256 * i by omega]
    · exact .inr hi
  rw [chunkTouches, hc, List.range_succ_eq_map, List.flatMap_cons, List.flatMap_map, chunkTouches, Nat.mul_zero,
    Nat.add_zero, Nat.sub_zero]
  congr 1
  apply List.flatMap_congr
  intro i hi
  exact (hf i).resolve_right (not_not_intro (List.mem_range.mp hi))

/-- The chunks of `read`, in order (R114). -/
theorem readChunks_refNor (k : Nat) {E : Env} : ∀ {s : State} {c : ChipSel} {mem : Memory} {wel stuck : Bool} {e : Device}
    {a left : Nat}, Runs E s → s.bigEndianLanes = true → s.ctrl.cs = c → Idles E.cfg c mem wel stuck e s →
    a + left ≤ E.cfg.flashSize c → a + left ≤ 2 ^ (8 * addrBytesOf s.ctrl.addrMode) →
    k = chunkCount left →
    ∃ t, (readChunks E k a left).den s = .ok ((List.range left).map fun i => mem.read (a + i)) t ∧
      State.Moves (chunkTouches E.cfg c s.ctrl.addrMode a left) s t ∧
      Idles E.cfg c mem wel stuck e t := by
  induction k with
  | zero =>
    intro s c mem wel stuck e a left h hb hcs hi hs ha hk
    have : left = 0 := by simp only [chunkCount, Config.chunk] at hk; omega
    subst this
    exact ⟨s, rfl, .refl s, hi⟩
  | succ k ih =>
    intro s c mem wel stuck e a left h hb hcs hi hs ha hk
    simp only [chunkCount, Config.chunk] at hk
    have hpos : 0 < left := by omega
    have hmin : min Config.chunk left ≤ left := Nat.min_le_right _ _
    have hmp : 0 < min Config.chunk left := by simp only [Config.chunk]; omega
    obtain ⟨t1, e1, f1, i1⟩ := readChunk_refNor h hb hcs hi (a := a) (n := min Config.chunk left) (by omega) (by omega)
    have hcs1 : t1.ctrl.cs = c := by rw [f1.ctrl]; exact hcs
    obtain ⟨t2, e2, f2, i2⟩ := ih (a := a + min Config.chunk left) (left := left - min Config.chunk left)
      (f1.runs h) (f1.lanes hb) hcs1 i1 (by omega) (by rw [f1.ctrl]; omega)
      (by simp only [chunkCount, Config.chunk]; omega)
    refine ⟨t2, ?_, ?_, i2⟩
    rotate_left
    · have := f1.trans f2
      rw [f1.ctrl] at this
      rw [chunkTouches_step E.cfg c _ a hpos]
      exact this
    simp only [readChunks, Prog.den_bind, e1, Res.bind_ok, e2, Prog.den_ret]
    congr 1
    have hsplit : left = min Config.chunk left + (left - min Config.chunk left) := by omega
    conv_rhs => rw [hsplit, List.range_add, List.map_append, List.map_map]
    congr 1
    apply List.map_congr_left
    intro i _
    simp [Nat.add_assoc]

/-- `read` on the reference device (R108): the bytes of the array, the latch left set (R162). -/
theorem readFlash_refNor {s u : State} {offset len : Nat} {E : Env} (h : Runs E s) (hb : s.bigEndianLanes = true)
    (hr : offset + len ≤ rangeLimit E.cfg s.ctrl) (hc : closeFrame s.sel (eagerStep s) = .ok () u) {d : RefNor}
    (hd : (u.dev s.ctrl.cs).finish = .refNor d) (hw : d.wip = false) :
    ∃ t, (readFlash E offset len).den s = .ok (.count len ((List.range len).map fun i => d.mem.read (offset + i))) t ∧
      State.Moves (handshakeTouches E.cfg s.ctrl.cs ++ chunkTouches E.cfg s.ctrl.cs s.ctrl.addrMode offset len) s t ∧
      Idles E.cfg s.ctrl.cs d.mem true d.stuck (u.dev s.ctrl.cs.other).finish t := by
  obtain ⟨t1, e1, f1, l1⟩ := handshake_refNor h hb hc hd hw
  have hi : Idles E.cfg s.ctrl.cs d.mem true d.stuck (u.dev s.ctrl.cs.other).finish t1 :=
    ⟨_, _, l1, hw, rfl, rfl, rfl, (inert_rdsr h.ok)⟩
  have hs : offset + len ≤ E.cfg.flashSize s.ctrl.cs := Nat.le_trans hr (Nat.min_le_left _ _)
  have ha : offset + len ≤ 2 ^ (8 * addrBytesOf s.ctrl.addrMode) := Nat.le_trans hr (Nat.min_le_right _ _)
  obtain ⟨t2, e2, f2, i2⟩ := readChunks_refNor (chunkCount len) (f1.runs h) (f1.lanes hb) (by rw [f1.ctrl]) hi
    (a := offset) (left := len) hs (by rw [f1.ctrl]; exact ha) rfl
  refine ⟨t2, ?_, ?_, i2⟩
  · simp only [readFlash, checkRange, h.ctrl, if_neg (Nat.not_lt.mpr hr), Prog.den_bind, Prog.den_ret, Res.bind_ok,
      e1, e2]
  · have := f1.trans f2
    rw [f1.ctrl] at this
    exact this

/-! Streaming data out (R109). -/

theorem writeLanes_payload (b0 b1 b2 b3 : Byte) : writeLanes 3#2 (payloadWord b0 b1 b2 b3) = [b0, b1, b2, b3] := by
  obtain ⟨h0, h1, h2, h3⟩ := byteLane_word ⟨b0, b1, b2, b3⟩
  simp only [Lanes.word] at h0 h1 h2 h3
  simp [writeLanes, payloadWord, h0, h1, h2, h3]

theorem sendWords_link (n : Nat) {E : Env} : ∀ {bs : List Byte} {s : State} {c : ChipSel} {d e : Device}, Runs E s →
    s.bigEndianLanes = true → Link c 3#2 d e s → bs.length = 4 * n →
    ∃ t, (sendWords E bs).den s = .ok () t ∧ s.EngineFrame t ∧ Link c 3#2 (d.puts bs) e t := by
  induction n with
  | zero =>
    intro bs s c d e h hb hl hn
    have : bs = [] := List.eq_nil_of_length_eq_zero (by omega)
    subst this
    exact ⟨s, rfl, .refl s, hl⟩
  | succ n ih =>
    intro bs s c d e h hb hl hn
    match bs, hn with
    | b0 :: b1 :: b2 :: b3 :: rest, hn =>
      obtain ⟨t1, e1, f1, l1⟩ := gatedSfdr_link h hb hl (payloadWord b0 b1 b2 b3)
      rw [writeLanes_payload] at l1
      obtain ⟨t2, e2, f2, l2⟩ := ih (f1.runs h) (f1.lanes hb) l1 (bs := rest) (by simp only [List.length_cons] at hn; omega)
      refine ⟨t2, ?_, f1.toEngineFrame.trans f2, ?_⟩
      · simp only [sendWords, Prog.den_bind, e1, Res.bind_ok, e2]
      · rw [← Device.puts_append] at l2; exact l2
    | [], hn => simp at hn
    | [_], hn => simp only [List.length_cons, List.length_nil] at hn; omega
    | [_, _], hn => simp only [List.length_cons, List.length_nil] at hn; omega
    | [_, _, _], hn => simp only [List.length_cons, List.length_nil] at hn; omega

theorem sendTail_link (bs : List Byte) {E : Env} : ∀ {s : State} {c : ChipSel} {d e : Device}, Runs E s →
    s.bigEndianLanes = true → Link c 0#2 d e s →
    ∃ t, (sendTail E bs).den s = .ok () t ∧ State.Moves (bs.map fun b => sendTouch (commandWord b)) s t ∧
      Link c 0#2 (d.puts bs) e t := by
  induction bs with
  | nil => intro s c d e h hb hl; exact ⟨s, rfl, .refl s, hl⟩
  | cons b bs ih =>
    intro s c d e h hb hl
    obtain ⟨t1, e1, f1, l1⟩ := gatedSfdr_link h hb hl (commandWord b)
    rw [writeLanes_command] at l1
    obtain ⟨t2, e2, f2, l2⟩ := ih (f1.runs h) (f1.lanes hb) l1
    exact ⟨t2, by simp only [sendTail, Prog.den_bind, e1, Res.bind_ok, e2], f1.trans f2, l2⟩

/-- The payload of a chunk reaches the device in buffer order (R109, C12). -/
theorem sendData_link {s : State} {c : ChipSel} {k : BitVec 2} {d e : Device} {E : Env} (h : Runs E s)
    (hb : s.bigEndianLanes = true) (hl : Link c k d e s) (data : List Byte) :
    ∃ t k', (sendData E (baseWord E.cfg c) data).den s = .ok () t ∧ s.EngineFrame t ∧ Link c k' (d.puts data) e t := by
  have hlen : (data.take (data.length / 4 * 4)).length = 4 * (data.length / 4) := by
    rw [List.length_take]; omega
  have words : ∃ u t k', (setWidthIf E (4 ≤ data.length) (baseWord E.cfg c) 4).den s = .ok () u ∧
      (sendWords E (data.take (data.length / 4 * 4))).den u = .ok () t ∧ s.EngineFrame t ∧
      Link c k' (d.puts (data.take (data.length / 4 * 4))) e t := by
    by_cases h4 : 4 ≤ data.length
    · obtain ⟨t1, e1, f1, l1⟩ := setWidth_link h hl 3
      obtain ⟨t2, e2, f2, l2⟩ := sendWords_link (data.length / 4) (f1.runs h) (f1.lanes hb) l1 hlen
      refine ⟨t1, t2, 3#2, ?_, e2, f1.toEngineFrame.trans f2, l2⟩
      simp only [setWidthIf, h4, decide_true, if_true]; exact e1
    · have h0 : data.length / 4 * 4 = 0 := by omega
      refine ⟨s, s, k, ?_, by rw [h0]; rfl, .refl s, by rw [h0]; simpa using hl⟩
      simp only [setWidthIf, h4, decide_false, Bool.false_eq_true, if_false, Prog.den_ret]
  obtain ⟨u1, t1, k1, e0, e1, f1, l1⟩ := words
  have tail : ∃ u t k', (setWidthIf E (data.length % 4 != 0) (baseWord E.cfg c) 1).den t1 = .ok () u ∧
      (sendTail E (data.drop (data.length / 4 * 4))).den u = .ok () t ∧ t1.EngineFrame t ∧
      Link c k' ((d.puts (data.take (data.length / 4 * 4))).puts (data.drop (data.length / 4 * 4))) e t := by
    by_cases h4 : data.length % 4 = 0
    · have hdrop : data.drop (data.length / 4 * 4) = [] := List.drop_eq_nil_of_le (by omega)
      refine ⟨t1, t1, k1, ?_, by rw [hdrop]; rfl, .refl t1, by rw [hdrop]; exact l1⟩
      simp only [setWidthIf, h4, bne_self_eq_false, Bool.false_eq_true, if_false, Prog.den_ret]
    · obtain ⟨t2, e2, f2, l2⟩ := setWidth_link (f1.runs h) l1 0
      obtain ⟨t3, e3, f3, l3⟩ := sendTail_link (data.drop (data.length / 4 * 4)) (f2.runs (f1.runs h))
        (f2.lanes (f1.lanes hb)) l2
      refine ⟨t2, t3, 0#2, ?_, e3, f2.toEngineFrame.trans f3.toEngineFrame, l3⟩
      have hne : (data.length % 4 != 0) = true := by simp [h4]
      simp only [setWidthIf, hne, if_true]; exact e2
  obtain ⟨u2, t2, k2, e2, e3, f2, l2⟩ := tail
  refine ⟨t2, k2, ?_, f1.trans f2, ?_⟩
  · simp only [sendData, Prog.den_bind, e0, Res.bind_ok, e1, e2, e3]
  · rw [← Device.puts_append, List.take_append_drop] at l2; exact l2

/-- A page-program frame is open and not yet committed (R161): the array is still `mem`. -/
structure Pending (c : ChipSel) (mem : Memory) (stuck : Bool) (op : Byte) (args : List Byte) (e : Device) (s : State) :
    Prop where
  link : ∃ (d : RefNor) (k : BitVec 2), Link c k (.refNor (d.inFrame (op :: args) 0)) e s ∧ d.wip = false ∧
    d.wel = true ∧ d.mem = mem ∧ d.stuck = stuck

/-- A write-enabled frame with a command, an address and data is left open (R109, R110). -/
theorem openCommand_refNor {s u : State} {E : Env} (h : Runs E s) (hb : s.bigEndianLanes = true)
    (hc : closeFrame s.sel (eagerStep s) = .ok () u) {d : RefNor} (hd : (u.dev s.ctrl.cs).finish = .refNor d)
    (hw : d.wip = false) (op : Byte) (a : Nat) :
    ∃ t1 t2 t3, (handshake E).den s = .ok () t1 ∧ (prep E).den t1 = .ok (baseWord E.cfg s.ctrl.cs) t2 ∧
      (issue E (baseWord E.cfg s.ctrl.cs) op (some (trunc32 a))).den t2 = .ok () t3 ∧ t2.ctrl = s.ctrl ∧ s.EngineFrame t3 ∧
      Pending s.ctrl.cs d.mem d.stuck op (addressBytes s.ctrl.addrMode a) (u.dev s.ctrl.cs.other).finish t3 := by
  obtain ⟨t1, e1, f1, l1⟩ := handshake_refNor h hb hc hd hw
  have hcs1 : t1.ctrl.cs = s.ctrl.cs := by rw [f1.ctrl]
  obtain ⟨t2, e2, f2, p2, _⟩ := prep_link (f1.runs h) hcs1 l1
    (deselect_inert (d := { d with wel := true }.inFrame [E.cfg.opRdsr] 1) hw (inert_rdsr h.ok) _ _ _)
  have f12 := f1.trans f2
  obtain ⟨t3, k3, e3, f3, l3⟩ := issue_some_parked (f12.runs h) (f12.lanes hb) p2 s.ctrl.cs op a
  have hne : s.ctrl.cs.other ≠ s.ctrl.cs := by cases s.ctrl.cs <;> simp [ChipSel.other]
  rw [f12.ctrl] at l3
  simp only [if_true, if_neg hne] at l3
  rw [finish_idle (by exact hw), select_puts] at l3
  exact ⟨t1, t2, t3, e1, e2, e3, f12.ctrl, f12.toEngineFrame.trans f3.toEngineFrame, ⟨_, k3, l3, hw, rfl, rfl, rfl⟩⟩

/-- One chunk of `write` leaves its program frame open with the payload (R109, R161). -/
theorem writeChunk_refNor {s u : State} {E : Env} (h : Runs E s) (hb : s.bigEndianLanes = true)
    (hc : closeFrame s.sel (eagerStep s) = .ok () u) {d : RefNor} (hd : (u.dev s.ctrl.cs).finish = .refNor d)
    (hw : d.wip = false) (a : Nat) (data : List Byte) :
    ∃ t, (writeChunk E a data).den s = .ok () t ∧ s.EngineFrame t ∧
      Pending s.ctrl.cs d.mem d.stuck (E.cfg.opPp s.ctrl.addrMode) (addressBytes s.ctrl.addrMode a ++ data)
        (u.dev s.ctrl.cs.other).finish t := by
  obtain ⟨t1, t2, t3, e1, e2, e3, hm, f3, hp⟩ := openCommand_refNor h hb hc hd hw (E.cfg.opPp s.ctrl.addrMode) a
  obtain ⟨d3, k3, l3, w3, wel3, mem3, st3⟩ := hp.link
  obtain ⟨t4, k4, e4, f4, l4⟩ := sendData_link (f3.runs h) (f3.lanes hb) l3 data
  refine ⟨t4, ?_, f3.trans f4, ⟨d3, k4, ?_, w3, wel3, mem3, st3⟩⟩
  · simp only [writeChunk, Prog.den_bind, e1, Res.bind_ok, e2, h.ctrl, e3, e4]
  · rw [← select_puts, ← Device.puts_append, select_puts] at l4
    simpa using l4

/-- Closing a program frame that fits programs the array and starts an operation (R125, R126). -/
theorem deselect_program {cfg : Cfg} (h : cfg.ok = true) {d : RefNor} {m : AddrMode} {a : Nat} {data : List Byte}
    {size sector draws : Nat}
    (hw : d.wip = false) (hwel : d.wel = true) (ha : a < 2 ^ (8 * addrBytesOf m)) (hne : data ≠ [])
    (hfit : programFits size a data.length = true) :
    (Device.refNor (d.inFrame (cfg.opPp m :: (addressBytes m a ++ data)) 0)).deselect cfg size sector draws =
      .ok (.refNor { d.inFrame (cfg.opPp m :: (addressBytes m a ++ data)) 0 with
        frameOpen := false, mem := (programBytes d.mem a data draws).1, wip := true },
        (programBytes d.mem a data draws).2) := by
  have hlen := addressBytes_length m a
  have htake : (addressBytes m a ++ data).take (addrBytesOf m) = addressBytes m a := by
    rw [List.take_append_of_le_length (by rw [hlen]), List.take_of_length_le (by rw [hlen])]
  have hdrop : (addressBytes m a ++ data).drop (addrBytesOf m) = data := by
    rw [← hlen, List.drop_left]
  have hlt : ¬ (addressBytes m a ++ data).length ≤ addrBytesOf m := by
    have : data.length ≠ 0 := fun e => hne (List.eq_nil_of_length_eq_zero e)
    rw [List.length_append, hlen]; omega
  have hcommit : ∀ e : RefNor, e.wel = true → e.mem = d.mem →
      e.commitProgram size (addrBytesOf m) (addressBytes m a ++ data) draws =
        .ok ({ e with mem := (programBytes d.mem a data draws).1, wip := true }, (programBytes d.mem a data draws).2) := by
    intro e he hm
    simp only [RefNor.commitProgram, he, hlt, htake, hdrop, bigEndian_addressBytes ha, hfit, hm]
    simp
  simp only [Device.deselect, RefNor.deselect]
  rw [if_neg (by simp [RefNor.inFrame, hw])]
  simp only [RefNor.commit, RefNor.inFrame]
  cases m
  · simp only [Cfg.opPp, Cfg.commands_distinct h, if_false, if_true, RefNor.commitPp]
    have := hcommit { d with rx := cfg.opPp .three :: (addressBytes .three a ++ data), rdcount := 0, frameOpen :=
      false } hwel rfl
    simp only [addrBytesOf, Cfg.opPp] at this
    rw [this]
  · simp only [Cfg.opPp, Cfg.commands_distinct h, if_false, if_true, RefNor.commitPp4b]
    have := hcommit { d with rx := cfg.opPp .four :: (addressBytes .four a ++ data), rdcount := 0, frameOpen :=
      false } hwel rfl
    simp only [addrBytesOf, Cfg.opPp] at this
    rw [this]

/-- What closing a pending program frame gives: an idle device, after its own step, with the data programmed. -/
theorem close_pending {cfg : Cfg} {s : State} {c : ChipSel} {mem : Memory} {a : Nat} {data : List Byte} {e : Device}
    (hcfg : cfg = s.cfg) (h : cfg.ok = true) (hm : c = s.ctrl.cs)
    (hp : Pending c mem false (cfg.opPp s.ctrl.addrMode) (addressBytes s.ctrl.addrMode a ++ data) e s)
    (ha : a < 2 ^ (8 * addrBytesOf s.ctrl.addrMode)) (hne : data ≠ [])
    (hfit : programFits (cfg.flashSize c) a data.length = true) :
    ∃ u d, closeFrame s.sel (eagerStep s) = .ok () u ∧ (u.dev s.ctrl.cs).finish = .refNor d ∧ d.wip = false ∧
      d.stuck = false ∧ d.mem = (programBytes mem a data s.draws).1 ∧ (u.dev c.other).finish = e := by
  subst hm
  obtain ⟨d, k, hl, hw, hwel, hmem, hst⟩ := hp.link
  obtain ⟨u, hu, u1, u2, _, _⟩ := close_link hcfg hl (deselect_program h hw hwel ha hne hfit)
  refine ⟨u, ⟨false, false, (programBytes mem a data s.draws).1,
    cfg.opPp s.ctrl.addrMode :: (addressBytes s.ctrl.addrMode a ++ data), 0, false, false⟩, hu, ?_, rfl, rfl, rfl, ?_⟩
  · rw [u1]
    simp [Device.finish, RefNor.finish, RefNor.inFrame, hst, hmem]
  · rw [u2, hl.settled_other]

/-- The conditions of R125 on a program frame. -/
theorem programFits_iff {size a n : Nat} :
    programFits size a n = true ↔ n ≤ 256 ∧ a % 256 + n ≤ 256 ∧ a + n ≤ size := by
  simp only [programFits, Bool.and_eq_true, decide_eq_true_eq, and_assoc]
  exact Iff.rfl

/-- What a call of `write` has done to the array once its last frame is closed (R109, R125): every byte that was erased
holds its data byte, every other address is untouched. -/
def Programmed (before after : Memory) (a : Nat) (data : List Byte) : Prop :=
  (∀ i, i < data.length → before.read (a + i) = Config.erasedByte → after.read (a + i) = data.getD i 0#8) ∧
    ∀ x, ¬ (a ≤ x ∧ x < a + data.length) → after.read x = before.read x

theorem programBytes_programmed {mem : Memory} (h : mem.wf = true) (a draws : Nat) (data : List Byte) :
    Programmed mem (programBytes mem a data draws).1 a data :=
  ⟨fun i hi he => programBytes_read_byte data a draws i h hi he, fun x hx => programBytes_read_outside data mem a draws x hx⟩

theorem Programmed.append {m0 m1 m2 : Memory} {a : Nat} {xs ys : List Byte} (h : Programmed m0 m1 a xs)
    (k : Programmed m1 m2 (a + xs.length) ys) : Programmed m0 m2 a (xs ++ ys) := by
  refine ⟨?_, ?_⟩
  · intro i hi he
    rw [List.length_append] at hi
    by_cases hx : i < xs.length
    · rw [k.2 _ (by omega), h.1 i hx he, List.getD_append _ _ _ _ hx]
    · have h1 : m1.read (a + i) = Config.erasedByte := by rw [h.2 _ (by omega)]; exact he
      have := k.1 (i - xs.length) (by omega) (by rw [show a + xs.length + (i - xs.length) = a + i by omega]; exact h1)
      rw [show a + xs.length + (i - xs.length) = a + i by omega] at this
      rw [this, List.getD_append_right _ _ _ _ (by omega)]
  · intro x hx
    rw [List.length_append] at hx
    rw [k.2 _ (by omega), h.2 _ (by omega)]

/-- The chunks of `write`: the last one is left pending, the earlier ones are programmed (R109, R161). -/
theorem writeChunks_refNor (k : Nat) {E : Env} : ∀ {s u : State} {d : RefNor} {a : Nat} {data : List Byte}, Runs E s →
    s.bigEndianLanes = true → closeFrame s.sel (eagerStep s) = .ok () u → (u.dev s.ctrl.cs).finish = .refNor d →
    d.wip = false → d.stuck = false → d.mem.wf = true → k + 1 = chunkCount data.length →
    a + data.length ≤ E.cfg.flashSize s.ctrl.cs → a + data.length ≤ 2 ^ (8 * addrBytesOf s.ctrl.addrMode) →
    (a % 256 = 0 ∨ a % 256 + data.length ≤ 256) →
    ∃ t mem' a' data', (writeChunks E (k + 1) a data).den s = .ok () t ∧ s.EngineFrame t ∧
      Pending s.ctrl.cs mem' false (E.cfg.opPp s.ctrl.addrMode) (addressBytes s.ctrl.addrMode a' ++ data')
        (u.dev s.ctrl.cs.other).finish t ∧
      mem'.wf = true ∧ data' ≠ [] ∧ a' < 2 ^ (8 * addrBytesOf s.ctrl.addrMode) ∧
      programFits (E.cfg.flashSize s.ctrl.cs) a' data'.length = true ∧
      a' = a + 256 * k ∧ a' + data'.length = a + data.length ∧
      (∀ x, ¬ (a ≤ x ∧ x < a') → mem'.read x = d.mem.read x) ∧
      ∀ draws, Programmed d.mem (programBytes mem' a' data' draws).1 a data := by
  induction k with
  | zero =>
    intro s u d a data h hb hc hd hw hst hwf hk hs ha hpage
    simp only [chunkCount, Config.chunk] at hk
    have htake : data.take Config.chunk = data := List.take_of_length_le (by simp only [Config.chunk]; omega)
    obtain ⟨t, e1, f1, p1⟩ := writeChunk_refNor h hb hc hd hw a data
    rw [hst] at p1
    refine ⟨t, d.mem, a, data, ?_, f1, p1, hwf, ?_, by omega, ?_, by omega, rfl, fun x _ => rfl, ?_⟩
    · simp only [writeChunks, htake, Prog.den_bind, e1, Res.bind_ok, Prog.den_ret]
    · intro e; rw [e] at hk; simp at hk
    · rw [programFits_iff]; omega
    · intro draws; exact programBytes_programmed hwf a draws data
  | succ k ih =>
    intro s u d a data h hb hc hd hw hst hwf hk hs ha hpage
    simp only [chunkCount, Config.chunk] at hk
    have hl1 : (data.take Config.chunk).length = 256 := by simp only [Config.chunk, List.length_take]; omega
    have hl2 : (data.drop Config.chunk).length = data.length - 256 := by simp only [Config.chunk, List.length_drop]
    obtain ⟨t, e1, f1, p1⟩ := writeChunk_refNor h hb hc hd hw a (data.take Config.chunk)
    rw [hst, ← f1.ctrl] at p1
    obtain ⟨u1, d1, hu1, hd1, w1, st1, m1, o1⟩ := close_pending (f1.runs h).cfg h.ok (by rw [f1.ctrl]) p1 (by rw [f1.ctrl]; omega)
      (by intro e; rw [e] at hl1; simp at hl1)
      (by rw [programFits_iff, hl1, f1.ctrl]; omega)
    have hwf1 : d1.mem.wf = true := by rw [m1]; exact programBytes_wf _ _ _ hwf
    obtain ⟨t2, mem', a', data', e2, f2, p2, hwf', hne', ha', hfit', hk', hend, hout, hprog⟩ :=
      ih (a := a + 256) (data := data.drop Config.chunk) (f1.runs h) (f1.lanes hb) hu1 hd1 w1 st1 hwf1
        (by simp only [chunkCount, Config.chunk, hl2] at *; omega)
        (by rw [f1.ctrl, hl2]; omega) (by rw [f1.ctrl, hl2]; omega) (by left; omega)
    have hp1 : Programmed d.mem d1.mem a (data.take Config.chunk) := by
      rw [m1]; exact programBytes_programmed hwf a _ _
    rw [f1.ctrl] at p2 ha'
    rw [f1.ctrl] at o1
    rw [f1.ctrl] at hfit'
    rw [o1] at p2
    refine ⟨t2, mem', a', data', ?_, f1.trans f2, p2, hwf', hne', ha', hfit', by omega, by rw [hend, hl2]; omega, ?_, ?_⟩
    · rw [writeChunks, Prog.den_bind, e1, Res.bind_ok, hl1, e2]
    · intro x hx
      rw [hout x (by omega), hp1.2 x (by rw [hl1]; omega)]
    · intro draws
      have := hp1.append (by rw [hl1]; exact hprog draws)
      rwa [List.take_append_drop] at this

end Sys2Proof.Machine
end

