-- ==== Sys2Proof/Laws/Blocks.lean ====
section
/-! SUPPORT. What each step of an operation leaves alone: a step of the SPI side leaves the router alone, a step of the
router leaves the SPI side alone (R2), and with no other host context acting an interleaving point neither faults nor makes
the controller busy. -/

namespace Sys2Proof.Machine

/-! The accesses of the SPI side stay in the frame of the engine. -/

/-- A move of the chip-selects stays in the frame (R87). -/
theorem setSelects_frame (csb0 csb1 : Bool) (s : State) : (setSelects csb0 csb1 s).Safe s.EngineFrame := by
  have closed : ∀ (old : Sel) (s : State), (closeFrame old s).Safe s.EngineFrame := by
    intro old s
    cases h : closeFrame old s with
    | ok u t => exact closeFrame_frame h
    | refused r => trivial
    | raised c t | pending t | fault c =>
      exfalso
      revert h
      cases old <;> simp only [closeFrame, devDeselect] <;> first | (intro h; cases h) | (split <;> intro h <;> cases h)
  simp only [setSelects]
  split
  · exact withSelects_frame _ _ _
  · refine Res.Safe.bind (P := s.EngineFrame) ((closed _ _).mono fun _ h => (withSelects_frame s _ _).trans h)
      fun _ t _ h => ?_
    show s.EngineFrame (openFrame (selOf csb0 csb1) t)
    generalize selOf csb0 csb1 = new
    cases new
    · exact h
    · exact h.trans (setDev_frame _ .cs0 _)
    · exact h.trans (setDev_frame _ .cs1 _)
    · exact h

/-- The lanes of a read stay in the frame (R90). -/
theorem readLanes_frame (target : Option ChipSel) (s : State) : s.EngineFrame (readLanes target s).2 := by
  cases target with
  | some c => exact (readLanes_spec c s).1
  | none =>
    have : ∀ j s, readLane none j s = s.draw := by intro j s; simp [readLane, shiftIn]
    simp only [readLanes, this]
    exact (((draw_frame _).trans (draw_frame _)).trans (draw_frame _)).trans (draw_frame _)

theorem shiftOutAll_frame (target : Option ChipSel) (bs : List Byte) (s : State) :
    s.EngineFrame (shiftOutAll target bs s) := by
  cases target with
  | some c => rw [shiftOutAll_eq]; exact setDev_frame _ _ _
  | none =>
    have : shiftOutAll none bs s = s := by induction bs <;> simp_all [shiftOutAll, shiftOut]
    rw [this]; exact .refl s

/-- A write of SFCSR on a ready controller stays in the frame, and does not fault (R87). -/
theorem sfcsrWrite_frame (v : Word) {s : State} (h : s.busy = false) : (sfcsrWrite v s).Safe s.EngineFrame := by
  simp only [sfcsrWrite, h, Bool.false_eq_true, if_false]
  split
  · trivial
  · split
    · trivial
    · exact (setSelects_frame _ _ s).bind fun _ _ _ f => f.trans ((withWidth_frame _ _).trans (logged_frame _ _ _ _))

/-- A write of SFDR on a ready controller stays in the frame, and does not fault (R89). -/
theorem sfdrWrite_frame (v : Word) {s : State} (h : s.busy = false) : (sfdrWrite v s).Safe s.EngineFrame := by
  simp only [sfdrWrite, h, Bool.false_eq_true, if_false]
  split
  · trivial
  · split
    · trivial
    · exact (shiftOutAll_frame _ _ s).trans ((markBusy_frame _).trans (logged_frame _ _ _ _))

/-- A read of SFDR on a ready controller stays in the frame, and does not fault (R90). -/
theorem sfdrRead_frame {s : State} (h : s.busy = false) : (sfdrRead s).Safe s.EngineFrame := by
  simp only [sfdrRead, h, Bool.false_eq_true, if_false]
  split
  · trivial
  · split
    · trivial
    · exact (readLanes_frame _ s).trans ((markBusy_frame _).trans (logged_frame _ _ _ _))

/-! Each block leaves the other alone (R2). -/

/-- What the steps of the SPI side leave alone. -/
structure State.SpiFrame (s t : State) : Prop where
  router : s.SameRouter t
  rest : s.SameRest t
  wedged : t.wedged = s.wedged
  spiMutex : t.spiMutex = s.spiMutex
  ctrl : s.ctrl.attached = true → t.ctrl = s.ctrl

theorem State.EngineFrame.spi {s t : State} (h : s.EngineFrame t) : s.SpiFrame t :=
  ⟨h.router, h.rest, h.wedged, h.spiMutex, fun _ => h.ctrl⟩

/-- A step of the SPI side leaves the router alone, and does not fault on a ready controller. -/
theorem perform_spi {a : Act} {s : State} (ha : a.isRouter = false) (hg : a.gated = true → s.busy = false) :
    (a.perform s).Safe s.SpiFrame := by
  have spi : ∀ {α : Type} {r : Res α}, r.Safe s.EngineFrame → r.Safe s.SpiFrame := fun h => h.mono fun _ f => f.spi
  have logged : ∀ d r v, s.SpiFrame (s.logged d r v) := fun d r v => (logged_frame s d r v).spi
  cases a with
  | rd r =>
    cases r with
    | gimr | gisr | irr n => cases ha
    | sfcr | sfcr2 | sfcsr => exact logged _ _ _
    | sfdr => exact Res.Safe.bind (spi (sfdrRead_frame (hg rfl))) fun _ _ _ h => h
  | wr r v =>
    cases r with
    | gimr | gisr | irr n => cases ha
    | sfcr | sfcr2 =>
      exact ⟨⟨rfl, rfl, rfl, rfl, rfl, rfl, rfl, rfl, rfl⟩, ⟨rfl, rfl, rfl, rfl, rfl, rfl, rfl, rfl⟩, rfl, rfl, fun _ => rfl⟩
    | sfcsr => exact Res.Safe.bind (spi (sfcsrWrite_frame v (hg rfl))) fun _ _ _ h => h
    | sfdr => exact Res.Safe.bind (spi (sfdrWrite_frame v (hg rfl))) fun _ _ _ h => h
  | take n => exact Res.Safe.bind (spi (sfdrRead_frame (hg rfl))) fun _ _ _ h => h
  | needController =>
    simp only [Act.perform, checkController, checkMutex]
    split <;> (try split) <;> first | exact (State.EngineFrame.refl s).spi | trivial
  | needDetached =>
    simp only [Act.perform, checkDetached, checkMutex]
    split <;> (try split) <;> first | exact (State.EngineFrame.refl s).spi | trivial
  | record base cs mode =>
    simp only [Act.perform, fixController]
    split
    · trivial
    · rename_i hn
      exact ⟨⟨rfl, rfl, rfl, rfl, rfl, rfl, rfl, rfl, rfl⟩, ⟨rfl, rfl, rfl, rfl, rfl, rfl, rfl, rfl⟩, rfl, rfl,
        fun h => absurd h hn⟩
  | _ => cases ha

/-- What the steps of the router leave alone. -/
structure State.RouterFrame (s t : State) : Prop where
  spi : s.SameSpi t
  rest : s.SameRest t
  busy : t.busy = s.busy
  dev0 : t.dev0 = s.dev0
  dev1 : t.dev1 = s.dev1

theorem State.SameSpi.refl (s : State) : s.SameSpi s := ⟨rfl, rfl, rfl, rfl, rfl, rfl, rfl, rfl, rfl⟩

theorem State.SameSpi.trans {s t u : State} (h : s.SameSpi t) (k : t.SameSpi u) : s.SameSpi u :=
  ⟨k.1.trans h.1, k.2.trans h.2, k.3.trans h.3, k.4.trans h.4, k.5.trans h.5, k.6.trans h.6, k.7.trans h.7,
    k.8.trans h.8, k.9.trans h.9⟩

theorem State.RouterFrame.refl (s : State) : s.RouterFrame s := ⟨.refl s, .refl s, rfl, rfl, rfl⟩

theorem State.RouterFrame.trans {s t u : State} (h : s.RouterFrame t) (k : t.RouterFrame u) : s.RouterFrame u :=
  ⟨h.1.trans k.1, h.2.trans k.2, k.3.trans h.3, k.4.trans h.4, k.5.trans h.5⟩

/-- A step of the router leaves the SPI side alone, and does not fault. -/
theorem perform_router {a : Act} {s : State} (ha : a.isRouter = true) : (a.perform s).Safe s.RouterFrame := by
  have one : ∀ s t : State, (∃ gimr irr lines handler lock spurious log picks calls, t = { s with
      gimr := gimr, irr := irr, lineState := lines, handler := handler, irqLock := lock, spuriousCount := spurious,
      log := log, picks := picks, frameworkCalls := calls }) → s.RouterFrame t := by
    rintro s _ ⟨_, _, _, _, _, _, _, _, _, rfl⟩
    exact ⟨⟨rfl, rfl, rfl, rfl, rfl, rfl, rfl, rfl, rfl⟩, ⟨rfl, rfl, rfl, rfl, rfl, rfl, rfl, rfl⟩, rfl, rfl, rfl⟩
  cases a with
  | rd r =>
    cases r with
    | gimr | gisr | irr n => exact one _ _ ⟨_, _, _, _, _, _, _, _, _, rfl⟩
    | _ => cases ha
  | wr r v =>
    cases r with
    | gimr | gisr => exact one _ _ ⟨_, _, _, _, _, _, _, _, _, rfl⟩
    | irr n =>
      simp only [Act.perform, regWrite, irrWrite]
      split
      · exact one _ _ ⟨_, _, _, _, _, _, _, _, _, rfl⟩
      · trivial
    | _ => cases ha
  | lock | unlock => exact one _ _ ⟨_, _, _, _, _, _, _, _, _, rfl⟩
  | enter k =>
    simp only [Act.perform, enterLine]
    split
    · trivial
    · split
      · trivial
      · exact one _ _ ⟨_, _, _, _, _, _, _, _, _, rfl⟩
  | leave k p =>
    show s.RouterFrame (endRoute k p s)
    simp only [endRoute]
    split
    · exact .refl s
    · split <;> exact one _ _ ⟨_, _, _, _, _, _, _, _, _, rfl⟩
  | choose p =>
    show s.RouterFrame (chooseLine p s).2
    rcases chooseLine_cases p s with ⟨_, e⟩ | ⟨k, n, _, e⟩ <;> rw [e] <;> exact one _ _ ⟨_, _, _, _, _, _, _, _, _, rfl⟩
  | handled k =>
    show s.RouterFrame (endHandler k s)
    simp only [endHandler]
    split
    · exact one _ _ ⟨_, _, _, _, _, _, _, _, _, rfl⟩
    · exact .refl s
  | register src h =>
    show s.RouterFrame (s.setHandler src h)
    simp only [State.setHandler]
    split
    · exact one _ _ ⟨_, _, _, _, _, _, _, _, _, rfl⟩
    · exact .refl s
  | _ => cases ha

/-- A gated access on a busy controller faults (R93). -/
theorem perform_fault {a : Act} {s : State} (h : a.gated = true ∧ s.busy = true) : ∃ f, a.perform s = .fault f := by
  obtain ⟨hg, hb⟩ := h
  cases a with
  | rd r =>
    have : r = .sfdr := by simpa [Act.gated] using hg
    subst this
    exact ⟨.accessWhileBusy .read .sfdr, by simp only [Act.perform, regRead, sfdrRead, hb, if_true, Res.bind_fault]⟩
  | wr r v =>
    have : r = .sfcsr ∨ r = .sfdr := by simpa [Act.gated] using hg
    rcases this with rfl | rfl
    · exact ⟨.accessWhileBusy .write .sfcsr, by simp only [Act.perform, regWrite, sfcsrWrite, hb, if_true, Res.bind_fault]⟩
    · exact ⟨.accessWhileBusy .write .sfdr, by simp only [Act.perform, regWrite, sfdrWrite, hb, if_true, Res.bind_fault]⟩
  | take n => exact ⟨.accessWhileBusy .read .sfdr, by simp only [Act.perform, sfdrRead, hb, if_true, Res.bind_fault]⟩
  | _ => cases hg

/-- A step of an operation, of either block, leaves the configuration, the fault-injection input and the record of an
attached controller alone (R25, R97, R111). -/
theorem perform_fixed (a : Act) (s : State) : (a.perform s).All fun t =>
    t.cfg = s.cfg ∧ t.wedged = s.wedged ∧ (s.ctrl.attached = true → t.ctrl = s.ctrl) := by
  cases hr : a.isRouter with
  | true => exact ((perform_router hr).mono fun t h => ⟨h.rest.cfg, h.spi.wedged, fun _ => h.spi.ctrl⟩).all
  | false =>
    by_cases hg : a.gated = true → s.busy = false
    · exact ((perform_spi hr hg).mono fun t h => ⟨h.rest.cfg, h.wedged, h.ctrl⟩).all
    · obtain ⟨f, e⟩ := perform_fault (a := a) (s := s) (by simpa using hg)
      rw [e]; trivial

/-- A step of an operation, of either block, leaves the configuration, the context, the program, the schedule and the
operations in progress alone. -/
theorem perform_rest (a : Act) (s : State) : (a.perform s).All s.SameRest := by
  cases hr : a.isRouter with
  | true => exact ((perform_router hr).mono fun t h => h.rest).all
  | false =>
    by_cases hg : a.gated = true → s.busy = false
    · exact ((perform_spi hr hg).mono fun t h => h.rest).all
    · obtain ⟨f, e⟩ := perform_fault (a := a) (s := s) (by simpa using hg)
      rw [e]; trivial

/-! An access, and an interleaving point, answers or stops: it neither raises a condition nor waits. -/

/-- The answer is a value, or the model stops. -/
def Res.Settled {α : Type} : Res α → Prop
  | .ok _ _ => True
  | .raised _ _ => False
  | .pending _ => False
  | .refused _ => True
  | .fault _ => True

theorem Res.Settled.bind {α β : Type} {r : Res α} {f : α → State → Res β} (h : r.Settled)
    (k : ∀ a s, r = .ok a s → (f a s).Settled) : (r.bind f).Settled := by
  cases r with
  | ok a s => exact k a s rfl
  | _ => exact h

theorem closeFrame_settled (old : Sel) (s : State) : (closeFrame old s).Settled := by
  cases old <;> simp only [closeFrame, devDeselect] <;> first | trivial | (split <;> trivial)

theorem sfdrRead_settled (s : State) : (sfdrRead s).Settled := by
  simp only [sfdrRead]
  split
  · trivial
  · split
    · trivial
    · split <;> trivial

theorem regRead_settled (r : Reg) (s : State) : (regRead r s).Settled := by
  cases r <;> try trivial
  exact (sfdrRead_settled s).bind fun _ _ _ => trivial

theorem regWrite_settled (r : Reg) (v : Word) (s : State) : (regWrite r v s).Settled := by
  cases r <;> try trivial
  · simp only [regWrite, irrWrite]; split <;> trivial
  · simp only [regWrite, sfcsrWrite]
    split
    · trivial
    · split
      · trivial
      · split
        · trivial
        · refine Res.Settled.bind ?_ fun _ _ _ => trivial
          simp only [setSelects]
          split
          · trivial
          · exact (closeFrame_settled _ _).bind fun _ _ _ => trivial
  · simp only [regWrite, sfdrWrite]
    split
    · trivial
    · split
      · trivial
      · split <;> trivial

/-- A step of an operation answers, or the model stops. -/
theorem perform_settled (a : Act) (s : State) : (a.perform s).Settled := by
  cases a with
  | rd r => exact regRead_settled r s
  | take n => exact (sfdrRead_settled s).bind fun _ _ _ => trivial
  | wr r v => exact (regWrite_settled r v s).bind fun _ _ _ => trivial
  | enter k => simp only [Act.perform, enterLine]; split <;> (try split) <;> trivial
  | needController => simp only [Act.perform, checkController, checkMutex]; split <;> (try split) <;> trivial
  | needDetached => simp only [Act.perform, checkDetached, checkMutex]; split <;> (try split) <;> trivial
  | record base cs mode => simp only [Act.perform, fixController]; split <;> trivial
  | _ => trivial

theorem settle_settled (c : Call) (s : State) :
    (settle c s).Settled ∧ (settle c s).All fun t => t.schedule = s.schedule := by
  simp only [settle]
  split <;> exact ⟨trivial, by first | rfl | trivial | exact State.leaveOp_schedule s c.op⟩

theorem advance_settled (c : Call) (s : State) :
    (advance c s).Settled ∧ (advance c s).All fun t => t.schedule = s.schedule := by
  simp only [advance]
  split
  · split
    · rename_i a next _ _
      have hs := perform_settled a (s.withCtx c.ctx)
      have hr := perform_rest a (s.withCtx c.ctx)
      cases hp : a.perform (s.withCtx c.ctx) with
      | ok w t =>
        rw [hp] at hr
        have h := settle_settled { c with got := c.got ++ [w] } (t.withCtx s.ctx)
        have he : (t.withCtx s.ctx).schedule = s.schedule := hr.schedule
        exact ⟨h.1, he ▸ h.2⟩
      | raised _ _ | pending _ => rw [hp] at hs; exact hs.elim
      | refused _ | fault _ => exact ⟨trivial, trivial⟩
    · exact ⟨trivial, rfl⟩
  all_goals exact settle_settled _ s

/-- The steps of the other agents leave the schedule alone; the model may stop. -/
theorem agentStep_settled (a : AgentStep) (s : State) :
    (agentStep a s).Settled ∧ (agentStep a s).All fun t => t.schedule = s.schedule := by
  cases a with
  | spiComplete => exact ⟨trivial, by simp only [agentStep, spiComplete]; split <;> exact rfl⟩
  | setSource src level => exact ⟨trivial, rfl⟩
  | finish c => exact ⟨trivial, by cases c <;> exact rfl⟩
  | start ctx op =>
    simp only [agentStep]
    split
    · rcases enterOp_cases op ctx s with ⟨_, _, e⟩ | ⟨c, e, _⟩ <;> rw [e]
      · exact ⟨trivial, trivial⟩
      · simp only [Res.bind_ok, called]
        split
        · exact advance_settled _ (s.withCaller c)
        · exact settle_settled _ (s.withCaller c)
    · exact ⟨trivial, rfl⟩
  | go ctx =>
    simp only [agentStep]
    split
    · exact advance_settled _ (s.dropCall ctx)
    · exact ⟨trivial, rfl⟩
  | takeMutex ctx => simp only [agentStep]; split <;> exact ⟨trivial, rfl⟩
  | releaseMutex ctx => simp only [agentStep]; split <;> exact ⟨trivial, rfl⟩

/-- An interleaving point answers or stops, and takes one batch off the schedule (R40, row 11). -/
theorem point_settled (s : State) : s.point.Settled ∧ s.point.All fun t => t.schedule = s.schedule.tail := by
  have batch : ∀ (b : List AgentStep) (s : State),
      (runBatch b s).Settled ∧ (runBatch b s).All fun t => t.schedule = s.schedule := by
    intro b
    induction b with
    | nil => intro s; exact ⟨trivial, rfl⟩
    | cons a b ih =>
      intro s
      obtain ⟨h1, h2⟩ := agentStep_settled a s
      cases ha : agentStep a s with
      | ok u t =>
        rw [ha] at h2
        have h2 : t.schedule = s.schedule := h2
        simp only [runBatch, ha, Res.bind_ok]
        exact h2 ▸ ih t
      | raised _ _ | pending _ => rw [ha] at h1; exact h1.elim
      | refused _ | fault _ => simp only [runBatch, ha]; exact ⟨trivial, trivial⟩
  simp only [State.point]
  split
  · rename_i hs
    refine ⟨trivial, ?_⟩
    show (eagerStep s).schedule = _
    rw [eagerStep_eq, hs]; rfl
  · rename_i b rest hs
    have := batch b { s with schedule := rest }
    rw [hs]
    exact this

/-! The interleaving point with no other host context acting (R40). -/

/-- A step of the environment never stops the machine. -/
theorem agentStep_env {a : AgentStep} (h : a.isHost = false) (s : State) :
    (∃ src level, agentStep a s = .ok () (setSource src level s)) ∨ agentStep a s = .ok () (spiComplete s) ∨
      ∃ c, agentStep a s = .ok () (devFinish c s) := by
  cases a <;> try cases h
  · exact .inl ⟨_, _, rfl⟩
  · exact .inr (.inl rfl)
  · exact .inr (.inr ⟨_, rfl⟩)

/-- With no other host context acting, an interleaving point answers: it leaves a property that source lines, the
controller's and the devices' own steps, and the schedule leave, and a ready controller ready. -/
theorem point_alone {P : State → Prop} (hsrc : ∀ s src level, P s → P (setSource src level s))
    (hspi : ∀ s, P s → P (spiComplete s)) (hfin : ∀ s c, P s → P (devFinish c s))
    (hsched : ∀ s rest, P s → P { s with schedule := rest }) {s : State} (ha : s.alone = true) (h : P s) :
    ∃ t, s.point = .ok () t ∧ t.alone = true ∧ P t ∧ (s.busy = false → t.busy = false) := by
  have batch : ∀ (b : List AgentStep) (s : State), b.all (fun a => !a.isHost) = true → s.alone = true → P s →
      ∃ t, runBatch b s = .ok () t ∧ t.alone = true ∧ P t ∧ (s.busy = false → t.busy = false) := by
    intro b
    induction b with
    | nil => intro s _ ha h; exact ⟨s, rfl, ha, h, id⟩
    | cons a b ih =>
      intro s hb ha h
      simp only [List.all_cons, Bool.and_eq_true, Bool.not_eq_true'] at hb
      have one : ∃ t, agentStep a s = .ok () t ∧ t.alone = true ∧ P t ∧ (s.busy = false → t.busy = false) := by
        rcases agentStep_env hb.1 s with ⟨src, level, e⟩ | e | ⟨c, e⟩
        · exact ⟨_, e, ha, hsrc s _ _ h, id⟩
        · refine ⟨_, e, ?_, hspi s h, fun hb => ?_⟩
          · simp only [spiComplete]; split <;> exact ha
          · simp [spiComplete, hb]
        · exact ⟨_, e, by cases c <;> exact ha, hfin s c h, fun hb => by cases c <;> exact hb⟩
      obtain ⟨t, e, ta, tp, tb⟩ := one
      obtain ⟨u, e', ua, up, ub⟩ := ih t hb.2 ta tp
      exact ⟨u, by simp only [runBatch, e, Res.bind_ok, e'], ua, up, fun h => ub (tb h)⟩
  simp only [State.point]
  split
  · refine ⟨_, rfl, ?_, hfin _ _ (hfin _ _ (hspi s h)), fun hb => by simp [eagerStep_eq, hb]⟩
    rw [eagerStep_eq]; exact ha
  · rename_i b rest hs
    have hall := ha
    simp only [State.alone, hs, List.all_cons, Bool.and_eq_true] at hall
    exact batch b _ hall.1 hall.2 (hsched s rest h)

end Sys2Proof.Machine
end

