-- ==== Sys2Proof/Laws/Encoding.lean ====
section
/-! SUPPORT. Operand bytes: reading back what was spelled, low byte first; the codes of R47 and the command bytes of R62
name their operations. -/

namespace Sys2Proof

@[simp] theorem natBytes_length (k n : Nat) : (natBytes k n).length = k := by
  induction k generalizing n with
  | zero => rfl
  | succ k ih => simp [natBytes, ih]

theorem bytesNat_natBytes (k : Nat) : ∀ n : Nat, bytesNat (natBytes k n) = n % 256 ^ k := by
  induction k with
  | zero => intro n; simp [natBytes, bytesNat, Nat.mod_one]
  | succ k ih =>
    intro n
    simp only [natBytes, bytesNat, ih, BitVec.toNat_ofNat]
    rw [show 256 ^ (k + 1) = 256 * 256 ^ k by rw [Nat.pow_succ, Nat.mul_comm], Nat.mod_mul]

/-- Bytes that hold a number that fits spell it. -/
theorem bytesNat_natBytes_of_lt {k n : Nat} (h : n < 256 ^ k) : bytesNat (natBytes k n) = n := by
  rw [bytesNat_natBytes, Nat.mod_eq_of_lt h]

@[simp] theorem wordBytes_length (w : Word) : (wordBytes w).length = 4 := natBytes_length 4 _

@[simp] theorem bytesWord_wordBytes (w : Word) : bytesWord (wordBytes w) = w := by
  have h : w.toNat < 256 ^ 4 := w.isLt
  simp [bytesWord, wordBytes, bytesNat_natBytes_of_lt h]

/-- The bytes of a number at a position of an operand string. -/
theorem natAt_append (pre rest : List Byte) {k n : Nat} (h : n < 256 ^ k) :
    natAt (pre ++ (natBytes k n ++ rest)) pre.length k = n := by
  simp only [natAt, List.drop_left]
  rw [List.take_append_of_le_length (by simp), List.take_of_length_le (by simp), bytesNat_natBytes_of_lt h]

/-- The bytes of a word at a position of an operand string. -/
theorem wordAt_append (pre rest : List Byte) (w : Word) : wordAt (pre ++ (wordBytes w ++ rest)) pre.length = w := by
  simp only [wordAt, List.drop_left]
  rw [List.take_append_of_le_length (by simp), List.take_of_length_le (by simp), bytesWord_wordBytes]

/-- A code of R47 spells its block, direction and offset. -/
theorem mmioCode_injective {b b' : Block} {d d' : Dir} {o o' : Byte} (h : mmioCode b d o = mmioCode b' d' o') :
    b = b' ∧ d = d' ∧ o = o' := by
  have ho : o = o' := by
    have := congrArg (BitVec.extractLsb' 0 8) h
    rwa [mmioCode, mmioCode, BitVec.extractLsb'_append_eq_right, BitVec.extractLsb'_append_eq_right] at this
  subst ho
  cases b <;> cases b' <;> cases d <;> cases d' <;> first | exact ⟨rfl, rfl, rfl⟩ | (exfalso; revert h; revert o; decide)

theorem mem_allRegs (r : Reg) : r ∈ allRegs := by
  cases r with
  | irr n => revert n; decide
  | _ => decide

theorem find_unique {α : Type} {p : α → Bool} {l : List α} {a : α} (ha : a ∈ l) (hp : p a = true)
    (hu : ∀ b, p b = true → b = a) : l.find? p = some a := by
  cases h : l.find? p with
  | none => exact absurd hp (List.find?_eq_none.mp h a ha)
  | some b => rw [hu b (List.find?_some h)]

/-- The decoder finds each code's direction and register (R47). -/
theorem regOfCode_mmioCode {cfg : Cfg} (h : cfg.ok = true) (d : Dir) (r : Reg) :
    regOfCode cfg (mmioCode r.block d (r.offset cfg)) = some (d, r) := by
  have hit : ∀ d, allRegs.find? (fun q => mmioCode q.block d (q.offset cfg) == mmioCode r.block d (r.offset cfg)) = some r := by
    intro d
    refine find_unique (mem_allRegs r) (by simp) fun q hq => ?_
    obtain ⟨hb, _, ho⟩ := mmioCode_injective (by simpa using hq)
    exact Reg.offset_injective h hb ho
  cases d with
  | read => simp only [regOfCode, hit]
  | write =>
    have miss : allRegs.find? (fun q => mmioCode q.block .read (q.offset cfg) == mmioCode r.block .write (r.offset cfg)) =
        none := by
      refine List.find?_eq_none.mpr fun q _ hq => ?_
      have := (mmioCode_injective (by simpa using hq)).2.1
      cases this
    simp only [regOfCode, miss, hit]

/-- The command byte selects its frame (R62). -/
theorem frameInstr_command {cfg : Cfg} (h : cfg.ok = true) (c : ChipSel) (sent : List Byte) (reads : Nat) :
    frameInstr cfg cfg.opWrsr c sent reads = .ok (.wrsr c sent reads) ∧
    frameInstr cfg cfg.opPp3 c sent reads = .ok (.pp c sent reads) ∧
    frameInstr cfg cfg.opRdsr c sent reads = .ok (.rdsr c sent reads) ∧
    frameInstr cfg cfg.opWren c sent reads = .ok (.wren c sent reads) ∧
    frameInstr cfg cfg.opRead3 c sent reads = .ok (.fastRead c sent reads) ∧
    frameInstr cfg cfg.opRead4 c sent reads = .ok (.fastRead4b c sent reads) ∧
    frameInstr cfg cfg.opPp4 c sent reads = .ok (.pp4b c sent reads) ∧
    frameInstr cfg cfg.opSe3 c sent reads = .ok (.se c sent reads) ∧
    frameInstr cfg cfg.opSe4 c sent reads = .ok (.se4b c sent reads) := by
  simp only [frameInstr, Cfg.commands_distinct h, if_true, if_false, and_self]

end Sys2Proof
end

