-- ==== Sys2Proof/Laws/Exclusion.lean ====
section
/-! SUPPORT. The mutual exclusion of the SPI primitives (R43): who is inside one agrees with the operations in progress,
the running context's among them, over every step of an operation and every interleaving point. -/

namespace Sys2Proof.Machine

/-- Operations in progress, and who is inside an SPI primitive. -/
structure Owns (calls : List Call) (caller : Option Nat) : Prop where
  distinct : calls.Pairwise fun a b => a.ctx ≠ b.ctx
  inside : ∀ ctx, caller = some ctx ↔ ∃ c, c ∈ calls ∧ c.ctx = ctx ∧ c.op.usesSpi = true

theorem exclusive_iff {s : State} : s.Exclusive ↔ Owns s.calls s.spiCaller := ⟨fun h => ⟨h.1, h.2⟩, fun h => ⟨h.1, h.2⟩⟩

theorem Owns.perm {l m : List Call} {o : Option Nat} (h : Owns l o) (p : l.Perm m) : Owns m o :=
  ⟨(p.pairwise_iff fun h => Ne.symm h).mp h.distinct, fun x => by simp only [h.inside x, p.mem_iff]⟩

/-- A context without an operation in progress calls one. -/
theorem Owns.enter {l : List Call} {o : Option Nat} (h : Owns l o) {c : Call} (hc : ∀ d, d ∈ l → d.ctx ≠ c.ctx)
    (hs : c.op.usesSpi = true → o = none) : Owns (l ++ [c]) (if c.op.usesSpi then some c.ctx else o) := by
  refine ⟨?_, fun x => ?_⟩
  · rw [List.pairwise_append]
    exact ⟨h.distinct, by simp, fun d hd e he => by simp only [List.mem_singleton] at he; exact he ▸ hc d hd⟩
  · simp only [List.mem_append, List.mem_singleton]
    cases hu : c.op.usesSpi with
    | false =>
      simp only [Bool.false_eq_true, if_false, h.inside x]
      constructor
      · rintro ⟨d, hd, h1, h2⟩; exact ⟨d, .inl hd, h1, h2⟩
      · rintro ⟨d, hd | rfl, h1, h2⟩
        · exact ⟨d, hd, h1, h2⟩
        · rw [hu] at h2; cases h2
    | true =>
      simp only [if_true, Option.some.injEq]
      constructor
      · rintro rfl; exact ⟨c, .inr rfl, rfl, hu⟩
      · rintro ⟨d, hd | rfl, h1, h2⟩
        · have := (h.inside d.ctx).mpr ⟨d, hd, rfl, h2⟩
          rw [hs hu] at this; cases this
        · exact h1

/-- The operation of a context is the only one of that context. -/
theorem Owns.only {l : List Call} {o : Option Nat} (h : Owns l o) {c d : Call} (hc : c ∈ l) (hd : d ∈ l)
    (e : d.ctx = c.ctx) : d = c := by
  by_contra hne
  have : Std.Symm fun a b : Call => a.ctx ≠ b.ctx := ⟨fun _ _ => Ne.symm⟩
  exact h.distinct.forall hd hc hne e

/-- An operation in progress goes on. -/
theorem Owns.keep {l : List Call} {o : Option Nat} (h : Owns l o) {c d : Call} (hc : c ∈ l) (hx : d.ctx = c.ctx)
    (ho : d.op = c.op) : Owns (l.filter (fun e => e.ctx != c.ctx) ++ [d]) o := by
  refine ⟨?_, fun x => ?_⟩
  · rw [List.pairwise_append]
    refine ⟨h.distinct.filter _, by simp, fun a ha b hb => ?_⟩
    simp only [List.mem_filter, bne_iff_ne, ne_eq, List.mem_singleton] at ha hb
    rw [hb, hx]; exact ha.2
  · rw [h.inside x]
    simp only [List.mem_append, List.mem_filter, bne_iff_ne, ne_eq, List.mem_singleton]
    constructor
    · rintro ⟨e, he, h1, h2⟩
      by_cases hk : e.ctx = c.ctx
      · have := h.only hc he hk
        subst this
        exact ⟨d, .inr rfl, hx.trans h1, ho ▸ h2⟩
      · exact ⟨e, .inl ⟨he, hk⟩, h1, h2⟩
    · rintro ⟨e, ⟨he, _⟩ | rfl, h1, h2⟩
      · exact ⟨e, he, h1, h2⟩
      · exact ⟨c, hc, hx.symm.trans h1, ho ▸ h2⟩

/-- An operation in progress returns. -/
theorem Owns.leave {l : List Call} {o : Option Nat} (h : Owns l o) {c : Call} (hc : c ∈ l) :
    Owns (l.filter fun e => e.ctx != c.ctx) (if c.op.usesSpi then none else o) := by
  refine ⟨h.distinct.filter _, fun x => ?_⟩
  simp only [List.mem_filter, bne_iff_ne, ne_eq]
  cases hu : c.op.usesSpi with
  | false =>
    simp only [Bool.false_eq_true, if_false, h.inside x]
    constructor
    · rintro ⟨e, he, h1, h2⟩
      refine ⟨e, ⟨he, fun hk => ?_⟩, h1, h2⟩
      rw [h.only hc he hk, hu] at h2; cases h2
    · rintro ⟨e, ⟨he, _⟩, h1, h2⟩; exact ⟨e, he, h1, h2⟩
  | true =>
    simp only [if_true, reduceCtorEq, false_iff]
    rintro ⟨e, ⟨he, hk⟩, h1, h2⟩
    have a := (h.inside e.ctx).mpr ⟨e, he, rfl, h2⟩
    have b := (h.inside c.ctx).mpr ⟨c, hc, rfl, hu⟩
    rw [a] at b
    exact hk (Option.some.inj b)

/-! The other agents. -/

/-- The operations in progress with the running context's, `r`, agree with who is inside. -/
def Held (r : List Call) (s : State) : Prop := Owns (r ++ s.calls) s.spiCaller

theorem Held.congr {r : List Call} {s t : State} (h : Held r s) (hc : t.calls = s.calls) (ho : t.spiCaller = s.spiCaller) :
    Held r t := by
  simp only [Held, hc, ho]; exact h

theorem callOf_mem {s : State} {ctx : Nat} {c : Call} (h : s.callOf ctx = some c) : c ∈ s.calls ∧ c.ctx = ctx :=
  ⟨List.mem_of_find?_eq_some h, by simpa using List.find?_some h⟩

theorem callOf_none {s : State} {ctx : Nat} (h : s.callOf ctx = none) : ∀ d, d ∈ s.calls → d.ctx ≠ ctx := by
  intro d hd e
  have := List.find?_eq_none.mp h d hd
  simp [e] at this

/-- An operation that has taken a step: it stays in progress or it returns. -/
theorem settle_held {r : List Call} {s : State} {c : Call} (hk : Held r (s.keepCall c))
    (hl : Held r (s.leaveOp c.op)) : (settle c s).All fun t => t.ctx = s.ctx ∧ Held r t := by
  simp only [settle]
  split
  · exact ⟨by simp, hl⟩
  · exact ⟨by simp, hl⟩
  · trivial
  · exact ⟨by simp, hk⟩
  · exact ⟨by simp, hk⟩

/-- An operation that may stay in progress and may return takes a step. -/
theorem advance_held {r : List Call} {s : State} {c : Call} (keep : ∀ (t : State) (d : Call), t.calls = s.calls →
    t.spiCaller = s.spiCaller → d.ctx = c.ctx → d.op = c.op → Held r (t.keepCall d) ∧ Held r (t.leaveOp d.op)) :
    (advance c s).All fun t => t.ctx = s.ctx ∧ Held r t := by
  simp only [advance]
  split
  · split
    · rename_i a next _ _
      have hp := perform_rest a (s.withCtx c.ctx)
      cases he : a.perform (s.withCtx c.ctx) with
      | ok w t =>
        rw [he] at hp
        have := keep (t.withCtx s.ctx) { c with got := c.got ++ [w] } hp.calls hp.spiCaller rfl rfl
        exact settle_held this.1 this.2
      | raised k t | pending t =>
        have hs := perform_settled a (s.withCtx c.ctx)
        rw [he] at hs; exact hs.elim
      | refused _ | fault _ => trivial
    · exact ⟨rfl, (keep s c rfl rfl rfl rfl).1⟩
  all_goals exact settle_held (keep s c rfl rfl rfl rfl).1 (keep s c rfl rfl rfl rfl).2

theorem called_held {r : List Call} {s : State} {c : Call} (keep : ∀ (t : State) (d : Call), t.calls = s.calls →
    t.spiCaller = s.spiCaller → d.ctx = c.ctx → d.op = c.op → Held r (t.keepCall d) ∧ Held r (t.leaveOp d.op)) :
    (called c s).All fun t => t.ctx = s.ctx ∧ Held r t := by
  simp only [called]
  split
  · exact advance_held keep
  · exact settle_held (keep s c rfl rfl rfl rfl).1 (keep s c rfl rfl rfl rfl).2

/-- The steps of the other agents keep the exclusion (R43). -/
theorem agentStep_held (a : AgentStep) {r : List Call} {s : State} (hr : ∀ c, c ∈ r → c.ctx = s.ctx) (h : Held r s) :
    (agentStep a s).All fun t => t.ctx = s.ctx ∧ Held r t := by
  cases a with
  | setSource src level => exact ⟨rfl, h⟩
  | spiComplete => simp only [agentStep, spiComplete]; split <;> exact ⟨rfl, h⟩
  | finish c => cases c <;> exact ⟨rfl, h⟩
  | takeMutex ctx => simp only [agentStep]; split <;> exact ⟨rfl, h⟩
  | releaseMutex ctx => simp only [agentStep]; split <;> exact ⟨rfl, h⟩
  | start ctx op =>
    simp only [agentStep]
    split
    · rename_i hx
      have hn : ∀ d, d ∈ r ++ s.calls → d.ctx ≠ ctx := by
        intro d hd
        rcases List.mem_append.mp hd with hd | hd
        · rw [hr d hd]; exact fun e => hx.1 e.symm
        · exact callOf_none hx.2.1 d hd
      rcases enterOp_cases op ctx s with ⟨_, _, e⟩ | ⟨o, e, ho⟩
      · rw [e]; trivial
      · rw [e]
        refine called_held (s := s.withCaller o) fun t d h1 h2 h3 h4 => ⟨?_, ?_⟩
        · have hnew := Owns.enter (c := d) h (h3 ▸ hn) (by rw [h4]; rcases ho with ⟨h1, _⟩ | ⟨_, h2, _⟩ <;> simp_all)
          show Owns (r ++ (t.calls ++ [d])) t.spiCaller
          rw [h1, h2]
          rw [h3, h4] at hnew
          rcases ho with ⟨g1, g2⟩ | ⟨g1, _, g2⟩ <;> simpa [g1, g2, List.append_assoc] using hnew
        · refine h.congr (by simp [h1]) ?_
          rw [h4]
          rcases ho with ⟨g1, g2⟩ | ⟨g1, g2, _⟩ <;> simp [*]
    · exact ⟨rfl, h⟩
  | go ctx =>
    simp only [agentStep]
    split
    · rename_i c hc
      obtain ⟨hm, hx⟩ := callOf_mem hc
      have hm' : c ∈ r ++ s.calls := List.mem_append_right _ hm
      have hf : (r ++ s.calls).filter (fun e => e.ctx != c.ctx) = r ++ (s.dropCall ctx).calls := by
        rw [List.filter_append, hx]
        congr 1
        rw [List.filter_eq_self]
        intro d hd
        have := (List.pairwise_append.mp h.distinct).2.2 d hd c hm
        rw [hx] at this
        simpa using this
      have keep : ∀ (t : State) (d : Call), t.calls = (s.dropCall ctx).calls → t.spiCaller = s.spiCaller → d.ctx = c.ctx →
          d.op = c.op → Held r (t.keepCall d) ∧ Held r (t.leaveOp d.op) := by
        intro t d h1 h2 h3 h4
        have k1 := Owns.keep h hm' h3 h4
        have k2 := Owns.leave h hm'
        rw [hf] at k1 k2
        refine ⟨?_, ?_⟩
        · show Owns (r ++ (t.calls ++ [d])) t.spiCaller
          rw [h1, h2, ← List.append_assoc]; exact k1
        · show Owns (r ++ (t.leaveOp d.op).calls) (t.leaveOp d.op).spiCaller
          simpa [h1, h2, h4] using k2
      exact advance_held (s := s.dropCall ctx) keep
    · exact ⟨rfl, h⟩

/-- The interleaving point keeps the exclusion (R40, R43). -/
theorem point_held {r : List Call} {s : State} (hr : ∀ c, c ∈ r → c.ctx = s.ctx) (h : Held r s) :
    s.point.All fun t => t.ctx = s.ctx ∧ Held r t := by
  have batch : ∀ (b : List AgentStep) (s : State), (∀ c, c ∈ r → c.ctx = s.ctx) → Held r s →
      (runBatch b s).All fun t => t.ctx = s.ctx ∧ Held r t := by
    intro b
    induction b with
    | nil => intro s _ h; exact ⟨rfl, h⟩
    | cons a b ih =>
      intro s hr h
      have ha := agentStep_held a hr h
      simp only [runBatch]
      cases he : agentStep a s with
      | ok u t =>
        rw [he] at ha
        obtain ⟨hx, ht⟩ := ha
        have := ih t (fun c hc => (hr c hc).trans hx.symm) ht
        rwa [hx] at this
      | raised k t | pending t => rw [he] at ha; exact ha
      | refused _ | fault _ => trivial
  simp only [State.point]
  split
  · rw [eagerStep_eq]; exact ⟨rfl, h⟩
  · exact batch _ _ hr h

theorem waitTurn_held (a : Act) (n : Nat) {r : List Call} : ∀ {s : State}, (∀ c, c ∈ r → c.ctx = s.ctx) → Held r s →
    (waitTurn a n s).All fun t => t.ctx = s.ctx ∧ Held r t := by
  induction n with
  | zero => intro s _ h; simp only [waitTurn]; split <;> exact ⟨rfl, h⟩
  | succ n ih =>
    intro s hr h
    simp only [waitTurn]
    split
    · exact ⟨rfl, h⟩
    · refine Res.All.bind (point_held hr h) fun _ t _ ht => ?_
      have := ih (fun c hc => (hr c hc).trans ht.1.symm) ht.2
      rwa [ht.1] at this

theorem Act.step_held (a : Act) {r : List Call} {s : State} (hr : ∀ c, c ∈ r → c.ctx = s.ctx) (h : Held r s) :
    (a.step s).All fun t => t.ctx = s.ctx ∧ Held r t := by
  have before : (a.before s).All fun t => t.ctx = s.ctx ∧ Held r t := by
    cases a <;> first | exact point_held hr h | exact waitTurn_held _ _ hr h
  refine before.bind fun _ t _ ht => ?_
  have hp := perform_rest a t
  cases he : a.perform t with
  | ok w u | raised k u | pending u =>
    rw [he] at hp
    exact ⟨hp.ctx.trans ht.1, ht.2.congr hp.calls hp.spiCaller⟩
  | refused _ | fault _ => trivial

/-- Every operation keeps the exclusion while it runs (R43). -/
theorem Prog.den_held {α : Type} (p : Prog α) {r : List Call} : ∀ {s : State}, (∀ c, c ∈ r → c.ctx = s.ctx) → Held r s →
    (p.den s).All fun t => t.ctx = s.ctx ∧ Held r t := by
  induction p with
  | ret a => intro s _ h; exact ⟨rfl, h⟩
  | raise c => intro s _ h; exact ⟨rfl, h⟩
  | refuse x => intro s _ h; trivial
  | more => intro s _ h; exact ⟨rfl, h⟩
  | act a k ih =>
    intro s hr h
    refine (a.step_held hr h).bind fun w t _ ht => ?_
    have := ih w (fun c hc => (hr c hc).trans ht.1.symm) ht.2
    rwa [ht.1] at this

/-- An operation that goes on, with who is inside as its operation in progress says, ends with the exclusion kept. -/
theorem Prog.run_exclusive (p : Prog Result) {op : Op} {got : List Word} {s t : State} (h : Held [⟨s.ctx, op, []⟩] s)
    (e : p.run op got s = .next t) : t.Exclusive := by
  obtain ⟨more, e'⟩ := p.run_eq op got s
  rw [e'] at e
  have hd := p.den_held (r := [⟨s.ctx, op, []⟩]) (by simp) h
  have hm : ∀ u : State, (⟨s.ctx, op, []⟩ : Call) ∈ ([⟨s.ctx, op, []⟩] : List Call) ++ u.calls := by simp
  have hf : ∀ u : State, Held [⟨s.ctx, op, []⟩] u →
      (([⟨s.ctx, op, []⟩] : List Call) ++ u.calls).filter (fun c => c.ctx != s.ctx) = u.calls := by
    intro u hu
    have hne := (List.pairwise_cons.mp hu.distinct).1
    simp only [List.singleton_append, List.filter_cons, bne_self_eq_false, Bool.false_eq_true, if_false]
    rw [List.filter_eq_self]
    intro d hd
    have := hne d hd
    simpa using Ne.symm this
  cases hr : p.den s with
  | ok a u | raised c u =>
    rw [hr] at hd e
    cases e
    have := Owns.leave hd.2 (hm u)
    rw [hf u hd.2] at this
    exact exclusive_iff.mpr (by simpa using this)
  | pending u =>
    rw [hr] at hd e
    cases e
    have := Owns.keep hd.2 (hm u) (d := ⟨u.ctx, op, got ++ more⟩) hd.1 rfl
    rw [hf u hd.2] at this
    exact exclusive_iff.mpr this
  | refused r => rw [hr] at e; cases e
  | fault f => rw [hr] at e; cases e

/-- A call by a context without an operation in progress keeps the exclusion (R43). -/
theorem call_exclusive {op : Op} {p : Env → Prog Result} {s t : State} (h : s.Exclusive)
    (hn : ∀ c, c ∈ s.calls → c.ctx ≠ s.ctx) (e : call op p s = .next t) : t.Exclusive := by
  rcases enterOp_cases op s.ctx s with ⟨h1, h2, _⟩ | ⟨o, hu, ho⟩
  · rw [call_twoInPrimitives h1 h2] at e; cases e
  · rw [call, hu] at e
    have hnew := Owns.enter (c := ⟨s.ctx, op, []⟩) (exclusive_iff.mp h) hn
      (by rcases ho with ⟨h1, _⟩ | ⟨_, h2, _⟩ <;> simp_all)
    refine Prog.run_exclusive (s := s.withCaller o) _ (Owns.perm (l :=
      s.calls ++ [⟨s.ctx, op, []⟩]) ?_ List.perm_append_comm) e
    rcases ho with ⟨h1, h2⟩ | ⟨h1, _, h2⟩ <;> simpa [h1, h2] using hnew

/-- An operation in progress that goes on as the running context's keeps the exclusion (R43, R137). -/
theorem resume_exclusive {c : Call} {rest : List Call} {s t : State} (h : s.Exclusive) (hc : s.calls = c :: rest)
    (e : resume c { s with calls := rest } = .next t) : t.Exclusive := by
  refine Prog.run_exclusive (s := State.withCtx { s with calls := rest } c.ctx) _ ?_ e
  have ho := exclusive_iff.mp h
  rw [hc] at ho
  have := Owns.keep ho (List.mem_cons_self ..) (d := ⟨c.ctx, c.op, []⟩) rfl rfl
  refine this.perm ?_
  have hf : (c :: rest).filter (fun e => e.ctx != c.ctx) = rest := by
    have hne := (List.pairwise_cons.mp ho.distinct).1
    simp only [List.filter_cons, bne_self_eq_false, Bool.false_eq_true, if_false]
    rw [List.filter_eq_self]
    intro d hd
    simpa using Ne.symm (hne d hd)
  rw [hf]
  exact List.perm_append_comm

/-- An item that is picked does not wait: its context has no operation in progress (row 16). -/
theorem pick_ready {s : State} : ∀ {prog : List Issue} {passed : List Nat} {i : Issue} {rest : List Issue},
    s.pick passed prog = some (i, rest) → ∀ c, c ∈ s.calls → c.ctx ≠ issueCtx i := by
  intro prog
  induction prog with
  | nil => intro passed i rest h; cases h
  | cons j prog ih =>
    intro passed i rest h
    simp only [State.pick] at h
    split at h
    · cases hp : s.pick (issueCtx j :: passed) prog with
      | none => rw [hp] at h; cases h
      | some q => rw [hp] at h; cases h; exact ih hp
    · rename_i hw
      cases h
      simp only [State.waits, Bool.or_eq_true, not_or, List.any_eq_true, not_exists, not_and] at hw
      intro c hc e
      exact hw.2.1 c hc (by simpa using e)

/-- The exclusion is a matter of the operations in progress and of who is inside alone. -/
theorem State.Exclusive.congr {s t : State} (h : s.Exclusive) (hc : t.calls = s.calls) (ho : t.spiCaller = s.spiCaller) :
    t.Exclusive :=
  exclusive_iff.mpr (by rw [hc, ho]; exact exclusive_iff.mp h)

theorem Res.All.exclusive {α : Type} {s : State} {r : Res α} (hp : r.All s.SameRest) (h : s.Exclusive) :
    r.All State.Exclusive := by
  cases r <;> first | exact h.congr hp.calls hp.spiCaller | trivial

/-- An operation of a context without one in progress keeps the exclusion (R43): a register access touches neither side of
it, a call keeps it. -/
theorem exec_exclusive {i : Instr} {s t : State} (h : s.Exclusive) (hn : ∀ c, c ∈ s.calls → c.ctx ≠ s.ctx)
    (e : exec i s = .next t) : t.Exclusive := by
  rcases exec_cases i s with ⟨r, _, he⟩ | ⟨r, v, _, he⟩ | ⟨he, _⟩
  · have hp : (regRead r s).All State.Exclusive := Res.All.exclusive (perform_rest (.rd r) s) h
    rw [he] at e
    cases hr : regRead r s <;> rw [hr] at e hp <;> cases e <;> exact hp.congr rfl rfl
  · have hp : ((regWrite r v s).bind fun _ s => .ok 0#32 s).All State.Exclusive :=
      Res.All.exclusive (perform_rest (.wr r v) s) h
    rw [he] at e
    cases hr : regWrite r v s <;> rw [hr] at e hp <;> cases e <;> exact hp.congr rfl rfl
  · exact call_exclusive h hn (he.symm.trans e)

/-- Every SPI primitive is a call of its program. -/
theorem exec_spi {i : Instr} (h : isSpiPrimitive i = true) (s : State) :
    exec i s = call (.instr i) (fun e => progInstr e i) s := by
  cases i <;> first | rfl | cases h

/-- Another context that calls an SPI primitive while a context is inside one is refused (R43). -/
theorem start_twoInPrimitives {s : State} {ctx : Nat} {i : Instr} (hi : isSpiPrimitive i = true)
    (hw : WellFormed i = true) (hx : ctx ≠ s.ctx) (hn : s.callOf ctx = none) (hc : s.spiCaller ≠ none) :
    agentStep (.start ctx (.instr i)) s = .refused .twoInPrimitives := by
  simp only [agentStep, Op.wellFormed, hx, hn, hw, ne_eq, not_false_eq_true, and_self, if_true]
  rw [enterOp_refused (op := .instr i) hi hc]; rfl

end Sys2Proof.Machine
end

