-- ==== Sys2Proof/Laws/Frames.lean ====
section
/-! SUPPORT. A whole frame on a device (tier T3): everything it can do under an eager schedule (R57, R81, R119, row 19). -/

namespace Sys2Proof.Machine

/-- The write that deasserts both chip-selects closes the frame that is open (R87, R101). -/
theorem deselect_eager {E : Env} {s u : State} (h : Runs E s) (hc : closeFrame s.sel (eagerStep s) = .ok () u) :
    ∃ t, (gated32 E .sfcsr (deselectWord E.cfg)).den s = .ok () t ∧ State.Moves [deselectTouch E.cfg] s t ∧ t.sel = .none ∧
      t.len = 0#2 ∧ t.busy = true ∧ (∀ c, t.dev c = u.dev c) ∧ t.draws = u.draws := by
  obtain ⟨t, e, f, hs, hl, hb, hd, hr, _⟩ := prep_eager h hc
  simp only [prep, Prog.den_bind, Prog.den_ret, Res.bind_eq_ok] at e
  obtain ⟨_, w, e, hw⟩ := e
  injection hw with _ hw
  subst hw
  exact ⟨w, e, f, hs, hl, hb, hd, hr⟩

/-- The write that would close a frame whose commit the device refuses is refused (R125). -/
theorem deselect_refused {E : Env} {s : State} {c : ChipSel} {k : BitVec 2} {d e : Device} {r : Refusal} (h : Runs E s)
    (hl : Link c k d e s) (hd : d.deselect E.cfg (E.cfg.flashSize c) E.cfg.eraseSize s.draws = .error r) :
    (gated32 E .sfcsr (deselectWord E.cfg)).den s = .refused r := by
  obtain ⟨f0, f1, f2, f3⟩ := deselectWord_fields h.ok
  have hset : setSelects true true s.polled = .refused r := by
    have hne : ¬ s.polled.sel = selOf true true := by
      rw [State.polled_sel, hl.sel]; cases c <;> simp [ChipSel.sel, selOf]
    have hdev : ((s.polled.withSelects true true).dev c).deselect (s.polled.withSelects true true).cfg
        ((s.polled.withSelects true true).cfg.flashSize c) (s.polled.withSelects true true).cfg.eraseSize
        (s.polled.withSelects true true).draws = .error r := by
      have h1 : (s.polled.withSelects true true).dev c = d := by simp [hl.dev, hl.settled]
      have h2 : (s.polled.withSelects true true).cfg = E.cfg := h.polled_cfg
      have h3 : (s.polled.withSelects true true).draws = s.draws := by simp [State.polled_eq]
      rw [h1, h2, h3]; exact hd
    rw [setSelects, if_neg hne, State.polled_sel, hl.sel]
    cases c <;> simp only [ChipSel.sel, closeFrame, devDeselect, hdev, Res.bind_refused]
  simp only [gated32_eager h, gatedReg, regWrite, sfcsrWrite, h.polled_busy, h.polled_cfg, f0, f1, f2, f3, hset,
    Bool.false_eq_true,
    if_false, Bool.true_eq_false, false_and, Res.bind_refused]

/-- Everything a whole frame can do under an eager schedule, from a state whose open frame may be closed: the device
receives the command byte and the bytes sent, gives `reads` bytes, and is deselected; it stops only where the device
refuses its frame (R57, R87, R119, R125). -/
theorem runFrame_spec {E : Env} {s u : State} (h : Runs E s) (hb : s.bigEndianLanes = true)
    (hc : closeFrame s.sel (eagerStep s) = .ok () u) (c : ChipSel) (op : Byte) (sent : List Byte) (reads : Nat) :
    ∃ bs draws, Answers E.cfg (E.cfg.flashSize c) ((u.dev c).finish.select.puts (op :: sent)) reads bs ∧
      (∀ r, (Device.advances reads ((u.dev c).finish.select.puts (op :: sent))).deselect E.cfg (E.cfg.flashSize c)
        E.cfg.eraseSize draws = .error r → (runFrame E c op sent reads).den s = .refused r) ∧
      ∀ d' n, (Device.advances reads ((u.dev c).finish.select.puts (op :: sent))).deselect E.cfg (E.cfg.flashSize c)
        E.cfg.eraseSize draws = .ok (d', n) →
        ∃ t, (runFrame E c op sent reads).den s = .ok (.bytes bs) t ∧ t.dev c = d' ∧
          t.dev c.other = (u.dev c.other).finish ∧ t.csb0 = true ∧ t.csb1 = true ∧ t.len = 0#2 ∧ t.busy = true ∧
          State.Moves (frameTouches E.cfg c op sent reads) s t := by
  obtain ⟨t1, e1, f1, s1, _, _, d1, _⟩ := deselect_eager h hc
  obtain ⟨t2, e2, f2, l2⟩ := setWidth_parked (f1.runs h) ⟨s1, fun x => by rw [d1 x]⟩ c 0
  have f12 := f1.trans f2
  obtain ⟨t3, e3, f3, l3⟩ := sendTail_link (op :: sent) (f12.runs h) (f12.lanes hb) l2
  have f13 := f12.trans f3
  obtain ⟨bs, t4, e4, f4, l4, a4⟩ := readTimes_link (w := 1) rfl reads (f13.runs h) (f13.lanes hb) l3
  have f14 := f13.trans f4
  rw [Nat.one_mul] at l4 a4
  have e2' : (setWidth E (baseWord E.cfg c) 1).den t1 = .ok () t2 := e2
  refine ⟨bs, t4.draws, a4, ?_, ?_⟩
  · intro r hr
    simp only [runFrame, Prog.den_bind, e1, Res.bind_ok, e2', e3, readTail, e4, deselect_refused (f14.runs h) l4 hr,
      Res.bind_refused]
  · intro d' n hd
    obtain ⟨w, hw, w1, w2, _, _⟩ := close_link (f14.runs h).cfg l4 hd
    obtain ⟨t5, e5, f5, s5, k5, b5, d5, _⟩ := deselect_eager (f14.runs h) hw
    obtain ⟨c0, c1⟩ := sel_none_csb s5
    refine ⟨t5, ?_, by rw [d5, w1], by rw [d5, w2], c0, c1, k5, b5, ?_⟩
    · simp only [runFrame, Prog.den_bind, e1, Res.bind_ok, e2', e3, readTail, e4, e5, Prog.den_ret]
    · have := f14.trans f5
      simpa [frameTouches, List.append_assoc] using this

end Sys2Proof.Machine
end

