-- ==== Sys2Proof/Laws/Invariant.lean ====
section
/-! SUPPORT. The invariant of the machine: what the devices' operations do to the canonical forms and to the open frame,
and that the moves of the router and the accesses of the engine keep it. -/

namespace Sys2Proof.Machine

/-! The devices. -/

theorem Device.frameAgrees_finish {b : Bool} {d : Device} (h : d.frameAgrees b = true) : d.finish.frameAgrees b = true := by
  cases d with
  | refNor d => simp only [Device.finish, RefNor.finish]; split <;> exact h
  | simReg d => exact h
  | absent => exact h

theorem Device.frameAgrees_put {b : Bool} {d : Device} (x : Byte) (h : d.frameAgrees b = true) :
    (d.put x).frameAgrees b = true := by
  cases d with
  | refNor d => simp only [Device.put, RefNor.put]; split <;> exact h
  | simReg d => exact h
  | absent => exact h

theorem Device.puts_keeps (bs : List Byte) {b : Bool} : ∀ {d : Device}, d.wf = true → d.frameAgrees b = true →
    (d.puts bs).wf = true ∧ (d.puts bs).frameAgrees b = true := by
  induction bs with
  | nil => intro d h k; exact ⟨h, k⟩
  | cons x bs ih => intro d h k; exact ih (Device.wf_put x h) (Device.frameAgrees_put x k)

theorem Device.advances_keeps (n : Nat) {b : Bool} : ∀ {d : Device}, d.wf = true → d.frameAgrees b = true →
    (Device.advances n d).wf = true ∧ (Device.advances n d).frameAgrees b = true := by
  induction n with
  | zero => intro d h k; exact ⟨h, k⟩
  | succ n ih => intro d h k; exact ih (Device.wf_advance h) (by cases d <;> exact k)

theorem Device.frameAgrees_select (d : Device) : d.select.frameAgrees true = true := by cases d <;> rfl

theorem RefNor.commit_frameOpen {cfg : Cfg} {d e : RefNor} {size sector draws draws' : Nat}
    (h : d.commit cfg size sector draws = .ok (e, draws')) : e.frameOpen = d.frameOpen := by
  have erase : ∀ n args, (d.commitErase size sector n args).frameOpen = d.frameOpen := by
    intro n args; simp only [RefNor.commitErase]; split <;> rfl
  have prog : ∀ n args, d.commitProgram size n args draws = .ok (e, draws') → e.frameOpen = d.frameOpen := by
    intro n args hp
    simp only [RefNor.commitProgram] at hp
    split at hp
    · cases hp; rfl
    · split at hp
      · cases hp; rfl
      · cases hp
  simp only [RefNor.commit] at h
  split at h
  · cases h; rfl
  · split at h
    · cases h; simp only [RefNor.commitWren]; split <;> rfl
    · split at h
      · cases h; simp only [RefNor.commitWrsr]; split <;> rfl
      · split at h
        · exact prog _ _ h
        · split at h
          · exact prog _ _ h
          · split at h
            · cases h; exact erase _ _
            · split at h
              · cases h; exact erase _ _
              · cases h; rfl

/-- Closing a frame leaves none open (R119). -/
theorem Device.frameAgrees_deselect {cfg : Cfg} {d e : Device} {size sector draws draws' : Nat}
    (h : d.deselect cfg size sector draws = .ok (e, draws')) : e.frameAgrees false = true := by
  cases d with
  | absent => cases h; rfl
  | simReg d => cases h; rfl
  | refNor d =>
    simp only [Device.deselect] at h
    split at h
    · rename_i d' n hd
      cases h
      simp only [RefNor.deselect] at hd
      split at hd
      · cases hd; rfl
      · simp only [Device.frameAgrees, RefNor.commit_frameOpen hd]; rfl
    · cases h

/-! The invariant. -/

theorem State.Inv.dev {s : State} (h : s.Inv) (c : ChipSel) :
    (s.dev c).wf = true ∧ (s.dev c).frameAgrees (s.sel == c.sel) = true := by
  cases c
  · exact ⟨h.wf0, h.frame0⟩
  · exact ⟨h.wf1, h.frame1⟩

theorem State.Inv.of_dev {s : State} (hd : ∀ c, (s.dev c).wf = true ∧ (s.dev c).frameAgrees (s.sel == c.sel) = true)
    (hb : s.sel ≠ .both) (hr : ∀ n : Fin 4, legalNibbles s.irr[n] = true)
    (hl : ∀ k : Fin 8, monitored s.cfg k = false → s.lineState[k] = .idle) : s.Inv :=
  ⟨(hd .cs0).1, (hd .cs1).1, hr, hb, (hd .cs0).2, (hd .cs1).2, hl⟩

/-- The invariant depends on the devices, the chip-selects, the routing registers and the lines. -/
theorem State.Inv.congr {s t : State} (h : s.Inv) (h0 : t.dev0 = s.dev0) (h1 : t.dev1 = s.dev1) (hc0 : t.csb0 = s.csb0)
    (hc1 : t.csb1 = s.csb1) (hr : ∀ n : Fin 4, legalNibbles t.irr[n] = true)
    (hl : ∀ k : Fin 8, monitored t.cfg k = false → t.lineState[k] = .idle) : t.Inv := by
  have hs : t.sel = s.sel := by simp only [State.sel, hc0, hc1]
  exact ⟨h0 ▸ h.wf0, h1 ▸ h.wf1, hr, hs ▸ h.notBoth, by rw [h0, hs]; exact h.frame0, by rw [h1, hs]; exact h.frame1, hl⟩

theorem State.Inv.setDev {s : State} (h : s.Inv) {c : ChipSel} {d : Device} (hw : d.wf = true)
    (hf : d.frameAgrees (s.sel == c.sel) = true) : (s.setDev c d).Inv := by
  refine .of_dev ?_ ?_ ?_ ?_
  · intro x
    cases c <;> cases x <;> first | exact ⟨hw, hf⟩ | exact h.dev .cs0 | exact h.dev .cs1
  · cases c <;> exact h.notBoth
  · cases c <;> exact h.routing
  · cases c <;> exact h.lines

/-- A line that a level drives, or a line made idle, keeps the invariant (R77). -/
theorem State.Inv.setLine {s : State} (h : s.Inv) {k : Fin 8} {l : LineState} (hk : monitored s.cfg k = true ∨ l = .idle) :
    (s.setLine k l).Inv := by
  refine h.congr rfl rfl rfl rfl h.routing ?_
  intro m hm
  have hm : monitored s.cfg m = false := hm
  show (s.lineState.set k l)[m] = _
  by_cases e : k = m
  · subst e
    rcases hk with hk | hk
    · rw [hk] at hm; cases hm
    · simp [hk]
  · have hne : (k : Nat) ≠ m := fun x => e (Fin.ext x)
    exact (Vector.getElem_set_ne (xs := s.lineState) (x := l) k.isLt m.isLt hne).trans (h.lines m hm)

theorem irrWrite_inv {s : State} (h : s.Inv) (n : Fin 4) (v : Word) : (irrWrite n v s).All State.Inv := by
  simp only [irrWrite]
  split
  · rename_i hv
    refine State.Inv.congr (s := s) h rfl rfl rfl rfl ?_ h.lines
    intro m
    show legalNibbles ((s.irr.set n v)[m]) = true
    by_cases e : n = m
    · subst e; simp [hv]
    · have hne : (n : Nat) ≠ m := fun k => e (Fin.ext k)
      exact (congrArg legalNibbles (Vector.getElem_set_ne (xs := s.irr) (x := v) n.isLt m.isLt hne)).trans (h.routing m)
  · trivial

theorem devFinish_inv {s : State} (h : s.Inv) (c : ChipSel) : (devFinish c s).Inv :=
  h.setDev (Device.wf_finish (h.dev c).1) (Device.frameAgrees_finish (h.dev c).2)

theorem spiComplete_inv {s : State} (h : s.Inv) : (spiComplete s).Inv := by
  simp only [spiComplete]
  split
  · exact h.congr rfl rfl rfl rfl h.routing h.lines
  · exact h

/-- A move of the chip-selects that does not assert both keeps the invariant (R87, R88). -/
theorem setSelects_inv {s : State} (h : s.Inv) {csb0 csb1 : Bool} (hb : selOf csb0 csb1 ≠ .both) :
    (setSelects csb0 csb1 s).All State.Inv := by
  simp only [setSelects]
  split
  · rename_i he
    have hs : (s.withSelects csb0 csb1).sel = s.sel := he.symm
    refine .of_dev ?_ (by rw [hs]; exact h.notBoth) h.routing h.lines
    intro c
    rw [hs]
    cases c
    · exact h.dev .cs0
    · exact h.dev .cs1
  · rename_i hne
    have hs : (s.withSelects csb0 csb1).sel = selOf csb0 csb1 := rfl
    generalize hnew : selOf csb0 csb1 = new at *
    have closed : ∀ c : ChipSel, s.sel = c.sel → (∃ r, devDeselect c (s.withSelects csb0 csb1) = .refused r) ∨
        ∃ t, devDeselect c (s.withSelects csb0 csb1) = .ok () t ∧ t.sel = new ∧ (t.dev c).wf = true ∧
          (t.dev c).frameAgrees false = true ∧ t.dev c.other = s.dev c.other ∧ t.irr = s.irr ∧
          t.lineState = s.lineState ∧ t.cfg = s.cfg := by
      intro c hc
      simp only [devDeselect]
      split
      · rename_i d n hd
        have hw : ((s.withSelects csb0 csb1).dev c).wf = true := by
          cases c
          · exact (h.dev .cs0).1
          · exact (h.dev .cs1).1
        have w := Device.wf_deselect hw hd
        have f := Device.frameAgrees_deselect hd
        refine .inr ⟨_, rfl, ?_⟩
        cases c <;> exact ⟨hs, w, f, rfl, rfl, rfl, rfl⟩
      · exact .inl ⟨_, rfl⟩
    have opened : ∀ t : State, t.sel = new → (∀ c, (t.dev c).wf = true ∧ (t.dev c).frameAgrees false = true) →
        t.irr = s.irr → t.lineState = s.lineState → t.cfg = s.cfg → (openFrame new t).Inv := by
      intro t ht hd hi hl hg
      have hr : ∀ n : Fin 4, legalNibbles t.irr[n] = true := by rw [hi]; exact h.routing
      have hm : ∀ k : Fin 8, monitored t.cfg k = false → t.lineState[k] = .idle := by rw [hl, hg]; exact h.lines
      cases new with
      | none =>
        refine .of_dev ?_ (by simp only [openFrame, ht]; decide) hr hm
        intro c
        simp only [openFrame, ht]
        cases c <;> exact hd _
      | both => exact absurd rfl hb
      | cs0 =>
        have hsel : (openFrame .cs0 t).sel = .cs0 := ht
        refine .of_dev ?_ (by rw [hsel]; decide) hr hm
        intro c
        rw [hsel]
        cases c
        · exact ⟨Device.wf_select (hd .cs0).1, Device.frameAgrees_select _⟩
        · exact hd .cs1
      | cs1 =>
        have hsel : (openFrame .cs1 t).sel = .cs1 := ht
        refine .of_dev ?_ (by rw [hsel]; decide) hr hm
        intro c
        rw [hsel]
        cases c
        · exact hd .cs0
        · exact ⟨Device.wf_select (hd .cs1).1, Device.frameAgrees_select _⟩
    have h0 := h.dev .cs0
    have h1 := h.dev .cs1
    cases hq : s.sel with
    | both => exact absurd hq h.notBoth
    | none =>
      rw [hq] at h0 h1
      exact opened _ hs (by intro c; cases c; exact h0; exact h1) rfl rfl rfl
    | cs0 =>
      rw [hq] at h1
      rcases closed .cs0 hq with ⟨r, e⟩ | ⟨t, e, ts, tw, tf, te, ti, tl, tg⟩
      · simp only [closeFrame, e]; trivial
      · simp only [closeFrame, e, Res.bind_ok]
        refine opened t ts ?_ ti tl tg
        intro c
        cases c
        · exact ⟨tw, tf⟩
        · rw [show t.dev .cs1 = s.dev .cs1 from te]; exact h1
    | cs1 =>
      rw [hq] at h0
      rcases closed .cs1 hq with ⟨r, e⟩ | ⟨t, e, ts, tw, tf, te, ti, tl, tg⟩
      · simp only [closeFrame, e]; trivial
      · simp only [closeFrame, e, Res.bind_ok]
        refine opened t ts ?_ ti tl tg
        intro c
        cases c
        · rw [show t.dev .cs0 = s.dev .cs0 from te]; exact h0
        · exact ⟨tw, tf⟩

/-- Bytes shifted in keep the invariant (R90). -/
theorem devGet_inv {s : State} (h : s.Inv) (c : ChipSel) : (devGet c s).2.Inv := by
  have hk := Device.advances_keeps 1 (h.dev c).1 (h.dev c).2
  have hi : (s.setDev c (s.dev c).advance).Inv := h.setDev hk.1 hk.2
  simp only [devGet]
  split
  · exact hi
  · exact hi.congr rfl rfl rfl rfl hi.routing hi.lines

theorem shiftOutAll_inv {s : State} (h : s.Inv) (c : ChipSel) (bs : List Byte) : (shiftOutAll (some c) bs s).Inv := by
  rw [shiftOutAll_eq]
  have hk := Device.puts_keeps bs (h.dev c).1 (h.dev c).2
  exact h.setDev hk.1 hk.2

theorem readLanes_inv {s : State} (h : s.Inv) (target : Option ChipSel) : (readLanes target s).2.Inv := by
  have one : ∀ k {s : State}, s.Inv → (readLane target k s).2.Inv := by
    intro k s h
    have hd : s.draw.2.Inv := h.congr rfl rfl rfl rfl h.routing h.lines
    simp only [readLane]
    split
    · cases target with
      | none => exact hd
      | some c => exact devGet_inv h c
    · exact hd
  exact one 3 (one 2 (one 1 (one 0 h)))

theorem sfcsrWrite_inv {s : State} (h : s.Inv) (v : Word) : (sfcsrWrite v s).All State.Inv := by
  simp only [sfcsrWrite]
  split
  · trivial
  · split
    · trivial
    · split
      · trivial
      · rename_i hb
        have hsel : selOf (v.getLsbD s.cfg.bitCsb0) (v.getLsbD s.cfg.bitCsb1) ≠ .both := by
          revert hb
          cases v.getLsbD s.cfg.bitCsb0 <;> cases v.getLsbD s.cfg.bitCsb1 <;> simp [selOf]
        refine Res.All.bind (setSelects_inv h hsel) fun _ t _ ht => ?_
        exact State.Inv.congr (s := t) (t := (t.withWidth _).logged _ _ _) ht rfl rfl rfl rfl ht.routing ht.lines

theorem sfdrWrite_inv {s : State} (h : s.Inv) (v : Word) : (sfdrWrite v s).All State.Inv := by
  simp only [sfdrWrite]
  split
  · trivial
  · split
    · trivial
    · split
      · trivial
      · rename_i target _
        have hi : (shiftOutAll target (writeLanes s.len v) s).Inv := by
          cases target with
          | none =>
            have : ∀ bs, shiftOutAll none bs s = s := by intro bs; induction bs <;> simp_all [shiftOutAll, shiftOut]
            rw [this]; exact h
          | some c => exact shiftOutAll_inv h c _
        generalize shiftOutAll target (writeLanes s.len v) s = u at hi ⊢
        exact State.Inv.congr (s := u) hi rfl rfl rfl rfl hi.routing hi.lines

theorem sfdrRead_inv {s : State} (h : s.Inv) : (sfdrRead s).All State.Inv := by
  simp only [sfdrRead]
  split
  · trivial
  · split
    · trivial
    · split
      · trivial
      · rename_i target _
        have hi := readLanes_inv h target
        generalize readLanes target s = p at hi ⊢
        exact State.Inv.congr (s := p.2) hi rfl rfl rfl rfl hi.routing hi.lines

theorem unitResult_all {P : State → Prop} {r : Res Unit} (h : r.All P) : (r.bind fun _ s => .ok 0#32 s).All P :=
  h.bind fun _ _ _ h => h

/-- Every step of an operation keeps the invariant. -/
theorem perform_inv (a : Act) {s : State} (h : s.Inv) : (a.perform s).All State.Inv := by
  cases a with
  | rd r =>
    cases r with
    | sfdr => exact (sfdrRead_inv h).bind fun _ _ _ h => h
    | _ => exact h.congr rfl rfl rfl rfl h.routing h.lines
  | wr r v =>
    cases r with
    | irr n => exact unitResult_all (irrWrite_inv h n v)
    | sfcsr => exact unitResult_all (sfcsrWrite_inv h v)
    | sfdr => exact unitResult_all (sfdrWrite_inv h v)
    | _ => exact h.congr rfl rfl rfl rfl h.routing h.lines
  | take n => exact (sfdrRead_inv h).bind fun _ _ _ h => h
  | lock | unlock => exact h.congr rfl rfl rfl rfl h.routing h.lines
  | enter k =>
    refine unitResult_all (P := State.Inv) ?_
    simp only [enterLine]
    split
    · trivial
    · split
      · trivial
      · rename_i hm _
        exact h.setLine (.inl (by simpa using hm))
  | leave k p =>
    show (endRoute k p s).Inv
    simp only [endRoute]
    split
    · exact h
    · rename_i hm
      have hm : monitored s.cfg k = true := by simpa using hm
      split
      · have hs : s.countSpurious.Inv := h.congr rfl rfl rfl rfl h.routing h.lines
        exact hs.setLine (.inl hm)
      · have hs := h.setLine (k := k) (l := .dispatched) (.inl hm)
        exact hs.congr rfl rfl rfl rfl hs.routing hs.lines
  | choose p =>
    show (chooseLine p s).2.Inv
    rcases chooseLine_cases p s with ⟨_, e⟩ | ⟨k, n, hk, e⟩ <;> rw [e]
    · exact h.congr rfl rfl rfl rfl h.routing h.lines
    · have hs : (s.withPicks n).Inv := h.congr rfl rfl rfl rfl h.routing h.lines
      exact hs.setLine (.inl (mem_entryLines.mp hk).2.1)
  | handled k =>
    show (endHandler k s).Inv
    simp only [endHandler]
    split
    · exact h.setLine (.inr rfl)
    · exact h
  | register src x =>
    show (s.setHandler src x).Inv
    simp only [State.setHandler]
    split
    · exact h.congr rfl rfl rfl rfl h.routing h.lines
    · exact h
  | needController =>
    simp only [Act.perform, checkController, checkMutex]
    split <;> (try split) <;> first | exact h | trivial
  | needDetached =>
    simp only [Act.perform, checkDetached, checkMutex]
    split <;> (try split) <;> first | exact h | trivial
  | record base cs mode =>
    simp only [Act.perform, fixController]
    split
    · trivial
    · exact State.Inv.congr (s := s) h rfl rfl rfl rfl h.routing h.lines

end Sys2Proof.Machine
end

