-- ==== Sys2Proof/Laws/Mask.lean ====
section
/-! SUPPORT. A source whose mask bit is clear (R72, R73, R80): what the steps of an operation, its interleaving points and
its result can do to it while no other host context acts. -/

namespace Sys2Proof.Machine

/-! The end of the dispatch path. -/

/-- `dispatch` answers no source that is clear in the mask it read (R73). -/
theorem routeResult_masked {m st : Word} {src : Nat} (h : m.getLsbD src = false) :
    routeResult (m &&& st) ≠ .selected src := by
  simp only [routeResult]
  split
  · exact fun e => by cases e
  · rename_i hz
    intro e
    injection e with e
    have := (ctz32_spec hz).2.1
    rw [e] at this
    simp [h] at this

/-- The end of the dispatch path hands over no source that is clear in mask AND status (R73). -/
theorem endRoute_masked {k : Fin 8} {p : Word} {src : Nat} {s : State} (h : p.getLsbD src = false) {x : Option Word}
    (hx : (src, x) ∈ (endRoute k p s).frameworkCalls) : (src, x) ∈ s.frameworkCalls := by
  simp only [endRoute] at hx
  split at hx
  · exact hx
  · split at hx
    · exact hx
    · rename_i hz
      simp only [State.frameworkDispatch, State.setLine, List.mem_append, List.mem_singleton, Prod.mk.injEq] at hx
      rcases hx with hx | ⟨e, _⟩
      · exact hx
      · have := (ctz32_spec hz).2.1
        rw [← e] at this
        simp [h] at this

/-! A masked source: the states, the steps and the programs that keep it so. -/

/-- No other host context acts, the mask bit of the source is clear, and the framework has had the source at most as often as
`calls` says. -/
structure State.Masked (src : Nat) (calls : List (Nat × Option Word)) (s : State) : Prop where
  alone : s.alone = true
  clear : s.gimr.getLsbD src = false
  handed : ∀ h, (src, h) ∈ s.frameworkCalls → (src, h) ∈ calls

/-- A step of an operation neither sets the mask bit of the source nor ends a dispatch path with it. -/
def Act.masks (src : Nat) : Act → Prop
  | .wr .gimr v => v.getLsbD src = false
  | .leave _ p => p.getLsbD src = false
  | _ => True

/-- Such steps only, as long as each mask that is read has the bit clear; and the source is not the result. -/
def Prog.Masks (src : Nat) : Prog Result → Prop
  | .ret r => r ≠ .selected src
  | .raise _ => True
  | .refuse _ => True
  | .more => True
  | .act a next => a.masks src ∧ ∀ w, (a = .rd .gimr → w.getLsbD src = false) → (next w).Masks src

/-- The source is not the result, whatever the steps answer. -/
def Prog.NeverSelects (src : Nat) : Prog Result → Prop
  | .ret r => r ≠ .selected src
  | .raise _ => True
  | .refuse _ => True
  | .more => True
  | .act _ next => ∀ w, (next w).NeverSelects src

theorem Prog.NeverSelects.bind {α : Type} {src : Nat} (p : Prog α) {f : α → Prog Result}
    (h : ∀ a, (f a).NeverSelects src) : (p.bind f).NeverSelects src := by
  induction p with
  | ret a => exact h a
  | act a k ih => exact fun w => ih w
  | _ => trivial

/-- An operation of the SPI side has no step that touches the mask. -/
theorem Prog.Masks.of_polls {src : Nat} {cfg : Cfg} (p : Prog Result) : ∀ {r m : Bool}, p.Gated cfg false r m →
    p.NeverSelects src → p.Masks src := by
  induction p with
  | act a k ih =>
    intro r m h hn
    refine ⟨?_, fun w _ => ih w (h.2.2 w) (hn w)⟩
    have := h.1
    cases a with
    | wr r v => cases r <;> trivial
    | _ => trivial
  | ret r => intro _ _ _ h; exact h
  | _ => intros; trivial

/-- An interleaving point answers, and keeps the source masked (R40). -/
theorem point_masked {src : Nat} {F : List (Nat × Option Word)} {s : State} (h : s.Masked src F) :
    ∃ t, s.point = .ok () t ∧ t.Masked src F := by
  obtain ⟨t, e, ta, ⟨h1, h2⟩, _⟩ := point_alone
    (P := fun t => t.gimr.getLsbD src = false ∧ ∀ h, (src, h) ∈ t.frameworkCalls → (src, h) ∈ F)
    (fun _ _ _ h => h) (fun s h => by simp only [spiComplete]; split <;> exact h) (fun s c h => by cases c <;> exact h)
    (fun _ _ h => h) h.alone ⟨h.clear, h.handed⟩
  exact ⟨t, e, ta, h1, h2⟩

/-- A step of an operation that masks the source keeps it masked. -/
theorem perform_masked {src : Nat} {F : List (Nat × Option Word)} {a : Act} {s : State} (ha : a.masks src)
    (h : s.Masked src F) : (a.perform s).All (State.Masked src F) := by
  have same : ∀ t : State, t.schedule = s.schedule → t.gimr = s.gimr → t.frameworkCalls = s.frameworkCalls →
      t.Masked src F := fun t h1 h2 h3 =>
    ⟨by simpa only [State.alone, h1] using h.alone, by rw [h2]; exact h.clear, by rw [h3]; exact h.handed⟩
  cases hr : a.isRouter with
  | false =>
    by_cases hg : a.gated = true → s.busy = false
    · exact ((perform_spi hr hg).mono fun t f => same t f.rest.schedule f.router.gimr f.router.frameworkCalls).all
    · obtain ⟨f, e⟩ := perform_fault (a := a) (s := s) (by simpa using hg)
      rw [e]; trivial
  | true =>
    cases a with
    | rd r => cases r <;> first | exact same _ rfl rfl rfl | cases hr
    | wr r v =>
      cases r with
      | gimr => exact ⟨h.alone, ha, h.handed⟩
      | gisr => exact same _ rfl rfl rfl
      | irr n => simp only [Act.perform, regWrite, irrWrite]; split <;> first | exact same _ rfl rfl rfl | trivial
      | _ => cases hr
    | lock | unlock => exact same _ rfl rfl rfl
    | enter k => simp only [Act.perform, enterLine]; split <;> (try split) <;> first | trivial | exact same _ rfl rfl rfl
    | leave k p =>
      show (endRoute k p s).Masked src F
      refine ⟨?_, ?_, fun x hx => h.handed x (endRoute_masked ha hx)⟩ <;> simp only [endRoute] <;>
        split <;> (try split) <;> first | exact h.alone | exact h.clear
    | choose p =>
      show (chooseLine p s).2.Masked src F
      rcases chooseLine_cases p s with ⟨_, e⟩ | ⟨k, n, _, e⟩ <;> rw [e] <;> exact same _ rfl rfl rfl
    | handled k => show (endHandler k s).Masked src F; simp only [endHandler]; split <;> exact same _ rfl rfl rfl
    | register m x => show (s.setHandler m x).Masked src F; simp only [State.setHandler]; split <;> exact same _ rfl rfl rfl
    | _ => cases hr

/-- What comes before a step keeps the source masked. -/
theorem before_masked {src : Nat} {F : List (Nat × Option Word)} {a : Act} {s : State} (h : s.Masked src F) :
    (a.before s).All (State.Masked src F) := by
  have turn : ∀ n {s : State}, s.Masked src F → (waitTurn a n s).All (State.Masked src F) := by
    intro n
    induction n with
    | zero => intro s h; simp only [waitTurn]; split <;> exact h
    | succ n ih =>
      intro s h
      simp only [waitTurn]
      split
      · exact h
      · obtain ⟨t, e, ht⟩ := point_masked h
        rw [e]; exact ih ht
  have point : s.point.All (State.Masked src F) := by
    obtain ⟨t, e, ht⟩ := point_masked h
    rw [e]; exact ht
  cases a <;> first | exact point | exact turn _ h

/-- An operation that masks the source keeps it masked, and does not answer it. -/
theorem Prog.den_masked {src : Nat} {F : List (Nat × Option Word)} (p : Prog Result) : ∀ {s : State}, p.Masks src →
    s.Masked src F → (p.den s).All (State.Masked src F) ∧ ∀ r t, p.den s = .ok r t → r ≠ .selected src := by
  induction p with
  | ret r => intro s hg h; exact ⟨h, fun r t e => by cases e; exact hg⟩
  | raise c => intro s hg h; exact ⟨h, fun r t e => by cases e⟩
  | refuse c => intro s hg h; exact ⟨trivial, fun r t e => by cases e⟩
  | more => intro s hg h; exact ⟨h, fun r t e => by cases e⟩
  | act a k ih =>
    intro s hg h
    have hb := before_masked (a := a) h
    rw [Prog.den_act, Act.step]
    cases he : a.before s with
    | ok u v =>
      rw [he] at hb
      have hv : v.Masked src F := hb
      have hp := perform_masked hg.1 hv
      rw [Res.bind_ok]
      cases hw : a.perform v with
      | ok w z =>
        rw [hw] at hp
        refine ih w (hg.2 w ?_) hp
        rintro rfl
        injection hw with e1 e2
        rw [← e1]; exact hv.clear
      | refused _ | fault _ => exact ⟨trivial, fun r t e => by cases e⟩
      | raised _ _ | pending _ => rw [hw] at hp; exact ⟨hp, fun r t e => by cases e⟩
    | refused _ | fault _ => exact ⟨trivial, fun r t e => by cases e⟩
    | raised _ _ | pending _ => rw [he] at hb; exact ⟨hb, fun r t e => by cases e⟩

/-- A call of such an operation keeps the source masked, and does not return it. -/
theorem call_masked {src : Nat} {F : List (Nat × Option Word)} {op : Op} {p : Env → Prog Result} {s t : State}
    (hg : (p (s.env 0)).Masks src) (h : s.Masked src F) (e : call op p s = .next t) :
    t.Masked src F ∧ t.result ≠ .selected src := by
  obtain ⟨u, hu, h'⟩ := call_eq_next e
  have qu : u.Masked src F := by
    rcases enterOp_cases op s.ctx s with ⟨_, _, e⟩ | ⟨c, e, _⟩ <;> rw [e] at hu <;> cases hu
    exact ⟨h.alone, h.clear, h.handed⟩
  have leave : ∀ v : State, v.Masked src F → ∀ r, (v.ended op r).Masked src F := by
    intro v hv r; simp only [State.ended, State.leaveOp]; split <;> exact ⟨hv.alone, hv.clear, hv.handed⟩
  obtain ⟨d1, d2⟩ := Prog.den_masked _ hg qu
  rcases h' with ⟨r, v, hd, rfl⟩ | ⟨c, v, hd, rfl⟩ | ⟨v, g, hd, rfl⟩ <;> rw [hd] at d1
  · exact ⟨leave v d1 _, d2 r v hd⟩
  · exact ⟨leave v d1 _, by simp only [State.ended]; cases c <;> simp [raisedResult]⟩
  · exact ⟨⟨d1.alone, d1.clear, d1.handed⟩, by simp [State.suspend]⟩

/-! The programs of the router. -/

/-- The rest of `dispatch` masks every source (R73). -/
theorem routeLine_masks (src : Nat) (k : Fin 8) : (routeLine k).Masks src := by
  refine ⟨trivial, fun m hm => ⟨trivial, fun st _ => ?_⟩⟩
  have hm := hm rfl
  refine ⟨by simp [Act.masks, hm], fun w _ => ?_⟩
  show Prog.Masks src (if m &&& st = 0#32 then .ret .spurious else .ret (.selected (ctz32 (m &&& st))))
  have := routeResult_masked (st := st) hm
  simp only [routeResult] at this
  split <;> rename_i hz
  · simp [Prog.Masks]
  · rw [if_neg hz] at this; exact this

/-- A change of the mask that leaves the bit clear masks the source (R71, R72). -/
theorem changeMask_masks {src m : Nat} {f : Word → Word}
    (hf : m < 32 → ∀ v : Word, v.getLsbD src = false → (f v).getLsbD src = false) : (changeMask m f).Masks src := by
  simp only [changeMask, checkSource]
  split
  · trivial
  · exact ⟨trivial, fun _ _ => ⟨trivial, fun v hv => ⟨hf (by omega) v (hv rfl), fun _ _ =>
      ⟨trivial, fun _ _ => by simp [Prog.Masks]⟩⟩⟩⟩

end Sys2Proof.Machine
end

