-- ==== Sys2Proof/Laws/PerInstr.lean ====
section
/-! SUPPORT. The per-instruction family `OpcodeNumber`: the encoding of every operation has the format of its row of the
opcode table and begins with the number the row gives. -/

namespace Sys2Proof.Laws.OpcodeNumber

/-- The format and the number of each row of the opcode table. -/
def row : Instr → Format × Nat
  | .gimrR => (.mmio32, 0x0000)
  | .gimrW _ => (.mmio32, 0x0100)
  | .gisrR => (.mmio32, 0x0004)
  | .gisrW _ => (.mmio32, 0x0104)
  | .irr0R => (.mmio32, 0x0008)
  | .irr0W _ => (.mmio32, 0x0108)
  | .irr1R => (.mmio32, 0x000C)
  | .irr1W _ => (.mmio32, 0x010C)
  | .irr2R => (.mmio32, 0x0010)
  | .irr2W _ => (.mmio32, 0x0110)
  | .irr3R => (.mmio32, 0x0014)
  | .irr3W _ => (.mmio32, 0x0114)
  | .sfcrR => (.mmio32, 0x1000)
  | .sfcrW _ => (.mmio32, 0x1100)
  | .sfcr2R => (.mmio32, 0x1004)
  | .sfcr2W _ => (.mmio32, 0x1104)
  | .sfcsrR => (.mmio32, 0x1008)
  | .sfcsrW _ => (.mmio32, 0x1108)
  | .sfdrR => (.mmio32, 0x100C)
  | .sfdrW _ => (.mmio32, 0x110C)
  | .routeInit => (.call, 0x00)
  | .enable _ => (.call, 0x01)
  | .disable _ => (.call, 0x02)
  | .dispatch _ => (.call, 0x03)
  | .irqEntry _ => (.call, 0x04)
  | .registerHandler _ _ => (.call, 0x05)
  | .handlerReturn _ => (.call, 0x06)
  | .attach _ _ _ => (.call, 0x10)
  | .spiPrep => (.call, 0x11)
  | .waitReady => (.call, 0x12)
  | .w32 _ _ => (.call, 0x13)
  | .r32 => (.call, 0x14)
  | .readStatus => (.call, 0x15)
  | .waitWip => (.call, 0x16)
  | .writeEnable => (.call, 0x17)
  | .readReg _ _ => (.call, 0x18)
  | .writeReg _ _ _ => (.call, 0x19)
  | .read _ _ => (.call, 0x1A)
  | .write _ _ _ => (.call, 0x1B)
  | .erase _ => (.call, 0x1C)
  | .issueCmd _ _ _ => (.call, 0x1D)
  | .wrsr _ _ _ => (.norframe, 0x01)
  | .pp _ _ _ => (.norframe, 0x02)
  | .rdsr _ _ _ => (.norframe, 0x05)
  | .wren _ _ _ => (.norframe, 0x06)
  | .fastRead _ _ _ => (.norframe, 0x0B)
  | .fastRead4b _ _ _ => (.norframe, 0x0C)
  | .pp4b _ _ _ => (.norframe, 0x12)
  | .se _ _ _ => (.norframe, 0xD8)
  | .se4b _ _ _ => (.norframe, 0xDC)

/-- How many bytes the number of a format takes. -/
def width : Format → Nat
  | .mmio32 => 2
  | .call => 1
  | .norframe => 1

/-- With the values of R6, whose offsets and command bytes the table's numbers are made of, the encoding has the row's
format and begins with the row's number. -/
def Statement (i : Instr) : Prop :=
  (encode Cfg.reference i).format = (row i).1 ∧
    (encode Cfg.reference i).bytes.take (width (row i).1) = natBytes (width (row i).1) (row i).2

theorem gimrR : Statement (.gimrR) := ⟨rfl, rfl⟩
theorem gimrW (v : Word) : Statement (.gimrW v) := ⟨rfl, rfl⟩
theorem gisrR : Statement (.gisrR) := ⟨rfl, rfl⟩
theorem gisrW (v : Word) : Statement (.gisrW v) := ⟨rfl, rfl⟩
theorem irr0R : Statement (.irr0R) := ⟨rfl, rfl⟩
theorem irr0W (v : Word) : Statement (.irr0W v) := ⟨rfl, rfl⟩
theorem irr1R : Statement (.irr1R) := ⟨rfl, rfl⟩
theorem irr1W (v : Word) : Statement (.irr1W v) := ⟨rfl, rfl⟩
theorem irr2R : Statement (.irr2R) := ⟨rfl, rfl⟩
theorem irr2W (v : Word) : Statement (.irr2W v) := ⟨rfl, rfl⟩
theorem irr3R : Statement (.irr3R) := ⟨rfl, rfl⟩
theorem irr3W (v : Word) : Statement (.irr3W v) := ⟨rfl, rfl⟩
theorem sfcrR : Statement (.sfcrR) := ⟨rfl, rfl⟩
theorem sfcrW (v : Word) : Statement (.sfcrW v) := ⟨rfl, rfl⟩
theorem sfcr2R : Statement (.sfcr2R) := ⟨rfl, rfl⟩
theorem sfcr2W (v : Word) : Statement (.sfcr2W v) := ⟨rfl, rfl⟩
theorem sfcsrR : Statement (.sfcsrR) := ⟨rfl, rfl⟩
theorem sfcsrW (v : Word) : Statement (.sfcsrW v) := ⟨rfl, rfl⟩
theorem sfdrR : Statement (.sfdrR) := ⟨rfl, rfl⟩
theorem sfdrW (v : Word) : Statement (.sfdrW v) := ⟨rfl, rfl⟩
theorem routeInit : Statement (.routeInit) := ⟨rfl, rfl⟩
theorem enable (src : Nat) : Statement (.enable src) := ⟨rfl, rfl⟩
theorem disable (src : Nat) : Statement (.disable src) := ⟨rfl, rfl⟩
theorem dispatch (line : Fin 8) : Statement (.dispatch line) := ⟨rfl, rfl⟩
theorem irqEntry (pending : Byte) : Statement (.irqEntry pending) := ⟨rfl, rfl⟩
theorem registerHandler (src : Nat) (h : Word) : Statement (.registerHandler src h) := ⟨rfl, rfl⟩
theorem handlerReturn (line : Fin 8) : Statement (.handlerReturn line) := ⟨rfl, rfl⟩
theorem attach (family : Family) (cs : Byte) (straps : Straps) : Statement (.attach family cs straps) := ⟨rfl, rfl⟩
theorem spiPrep : Statement (.spiPrep) := ⟨rfl, rfl⟩
theorem waitReady : Statement (.waitReady) := ⟨rfl, rfl⟩
theorem w32 (reg : GatedReg) (v : Word) : Statement (.w32 reg v) := ⟨rfl, rfl⟩
theorem r32 : Statement (.r32) := ⟨rfl, rfl⟩
theorem readStatus : Statement (.readStatus) := ⟨rfl, rfl⟩
theorem waitWip : Statement (.waitWip) := ⟨rfl, rfl⟩
theorem writeEnable : Statement (.writeEnable) := ⟨rfl, rfl⟩
theorem readReg (op : Byte) (len : Nat) : Statement (.readReg op len) := ⟨rfl, rfl⟩
theorem writeReg (op : Byte) (buf : List Byte) (len : Nat) : Statement (.writeReg op buf len) := ⟨rfl, rfl⟩
theorem read (offset : Nat) (len : Nat) : Statement (.read offset len) := ⟨rfl, rfl⟩
theorem write (offset : Nat) (buf : List Byte) (len : Nat) : Statement (.write offset buf len) := ⟨rfl, rfl⟩
theorem erase (offset : Nat) : Statement (.erase offset) := ⟨rfl, rfl⟩
theorem issueCmd (base : Word) (op : Byte) (addr : Option Word) : Statement (.issueCmd base op addr) := ⟨rfl, rfl⟩
theorem wrsr (c : ChipSel) (sent : List Byte) (reads : Nat) : Statement (.wrsr c sent reads) := ⟨rfl, rfl⟩
theorem pp (c : ChipSel) (sent : List Byte) (reads : Nat) : Statement (.pp c sent reads) := ⟨rfl, rfl⟩
theorem rdsr (c : ChipSel) (sent : List Byte) (reads : Nat) : Statement (.rdsr c sent reads) := ⟨rfl, rfl⟩
theorem wren (c : ChipSel) (sent : List Byte) (reads : Nat) : Statement (.wren c sent reads) := ⟨rfl, rfl⟩
theorem fastRead (c : ChipSel) (sent : List Byte) (reads : Nat) : Statement (.fastRead c sent reads) := ⟨rfl, rfl⟩
theorem fastRead4b (c : ChipSel) (sent : List Byte) (reads : Nat) : Statement (.fastRead4b c sent reads) := ⟨rfl, rfl⟩
theorem pp4b (c : ChipSel) (sent : List Byte) (reads : Nat) : Statement (.pp4b c sent reads) := ⟨rfl, rfl⟩
theorem se (c : ChipSel) (sent : List Byte) (reads : Nat) : Statement (.se c sent reads) := ⟨rfl, rfl⟩
theorem se4b (c : ChipSel) (sent : List Byte) (reads : Nat) : Statement (.se4b c sent reads) := ⟨rfl, rfl⟩

end Sys2Proof.Laws.OpcodeNumber
end

