-- ==== Sys2Proof/Tests/Slice0.lean ====
section
/-! SUPPORT. Our own tests: ill-formed operands, the encodings of the opcode table written out, the vectors of
95_test_vectors.md and hand calculation from the rules, and for every statement a state that meets its hypotheses. -/

namespace Sys2Proof.Machine.Tests

set_option Elab.async false

/-! States. -/

/-- The state an outcome continues in. -/
def after : Host.Outcome State Fault Refusal → State
  | .next s => s
  | .fault _ => State.reset
  | .refused _ => State.reset

/-- The refusal an outcome is, if it is one. -/
def refusal : Host.Outcome State Fault Refusal → Option Refusal
  | .refused r => some r
  | .next _ => none
  | .fault _ => none

/-- The fault an outcome is, if it is one. -/
def faulted : Host.Outcome State Fault Refusal → Option Fault
  | .fault f => some f
  | .next _ => none
  | .refused _ => none

/-- After `attach` on chip-select 0, 3-byte mode, the mutex held, the byte order set. -/
def attached : State :=
  { State.reset with
    sfcr := 0x10000000#32, ctrl := ⟨0xB8001200#32, .cs0, .three, true⟩, spiMutex := .held 0 }

/-- The same with a reference device that holds `mem` and the status bits. -/
def withNor (wip wel : Bool) (mem : Memory) : State :=
  { attached with dev0 := .refNor ⟨wip, wel, mem, [], 0, false, false⟩ }

/-- A reference device whose frame is open on chip-select 0. -/
def selected (rx : List Byte) (len : BitVec 2) : State :=
  { attached with csb0 := false, len := len, dev0 := .refNor ⟨false, true, [], rx, 0, true, false⟩ }

/-- The router with the test table loaded (vectors, part 2.2). -/
def routed (gimr src : Word) : State :=
  { State.reset with
    irr := #v[0x21543215#32, 0x43215432#32, 0x15432154#32, 0x32154321#32], gimr := gimr, src := src }

/-- Another context's whole operation, taken at one interleaving point: its call, then its steps. -/
def byOther (ctx : Nat) (i : Instr) (steps : Nat) : List AgentStep :=
  .start ctx (.instr i) :: List.replicate steps (.go ctx)

/-- The controller wedged and busy, polls without a bound. -/
def wedgedForever : State :=
  { attached with wedged := true, busy := true, cfg := { Cfg.reference with pollBudget := none } }

/-- Another context waits for the dispatch path of line 5 with its `dispatch`. -/
def onPath : State :=
  { State.reset.setLine 5 .routing with calls := [⟨1, .instr (.dispatch 5), [0#32]⟩] }

theorem driven_reference (k : Fin 8) (h : 2 ≤ k.val ∧ k.val ≤ 6) : Driven Cfg.reference k :=
  ⟨k.val - 1, by omega, by omega, by revert h; revert k; decide⟩

theorem undriven_reference (k : Fin 8) (h : k.val < 2 ∨ 6 < k.val) : ¬ Driven Cfg.reference k := fun ⟨_, _, _, hl⟩ => by
  have := (monitored_reference k).1 ((monitored_iff (by decide +kernel) k).2 ⟨_, hl⟩)
  omega

theorem attached_ready : attached.Ready := by
  refine ⟨⟨rfl, rfl, ?_⟩, rfl, rfl, ?_⟩ <;> decide +kernel

/-! WellFormed: each check refuses an ill-formed operand. -/

theorem smoke_enable : WellFormed (.enable 0x100000000) = false := by decide
theorem smoke_disable : WellFormed (.disable 0x100000000) = false := by decide
theorem smoke_registerHandler : WellFormed (.registerHandler 0x100000000 0#32) = false := by decide
theorem smoke_readReg : WellFormed (.readReg 5#8 (2 ^ 64)) = false := by decide
theorem smoke_writeReg_length : WellFormed (.writeReg 1#8 [] (2 ^ 64)) = false := by decide
theorem smoke_writeReg_buffer : WellFormed (.writeReg 1#8 [0xAB#8] 2) = false := by decide
theorem smoke_read_offset : WellFormed (.read (2 ^ 64) 0) = false := by decide
theorem smoke_read_length : WellFormed (.read 0 (2 ^ 64)) = false := by decide
theorem smoke_write_offset : WellFormed (.write (2 ^ 64) [] 0) = false := by decide
theorem smoke_write_length : WellFormed (.write 0 [] (2 ^ 64)) = false := by decide
theorem smoke_write_buffer : WellFormed (.write 0 [1#8] 2) = false := by decide
theorem smoke_erase : WellFormed (.erase (2 ^ 64)) = false := by decide
theorem smoke_frames : WellFormed (.wrsr .cs0 [] 65536) = false ∧ WellFormed (.pp .cs0 [] 65536) = false ∧
    WellFormed (.rdsr .cs0 [] 65536) = false ∧ WellFormed (.wren .cs0 [] 65536) = false ∧
    WellFormed (.fastRead .cs0 [] 65536) = false ∧ WellFormed (.fastRead4b .cs0 [] 65536) = false ∧
    WellFormed (.pp4b .cs0 [] 65536) = false ∧ WellFormed (.se .cs0 [] 65536) = false ∧
    WellFormed (.se4b .cs0 [] 65536) = false := by decide
theorem smoke_wellFormed : WellFormed (.enable 0xFFFFFFFF) = true ∧ WellFormed (.enable 32) = true ∧
    WellFormed (.readReg 5#8 3) = true ∧ WellFormed (.writeReg 1#8 [] 3) = true ∧
    WellFormed (.write 0 [1#8, 2#8] 2) = true := by decide

/-! Decoding: the numbers of opcode_table.json (R47, R59, R62), with operands in the layout of row 17. -/

theorem test_decode_router_registers :
    decode Cfg.reference ⟨.mmio32, [0x00#8, 0x00#8, 0#8, 0#8, 0#8, 0#8]⟩ = .ok .gimrR ∧
    decode Cfg.reference ⟨.mmio32, [0x00#8, 0x01#8, 0x08#8, 0x00#8, 0x00#8, 0xA0#8]⟩ = .ok (.gimrW 0xA0000008#32) ∧
    decode Cfg.reference ⟨.mmio32, [0x04#8, 0x00#8, 0#8, 0#8, 0#8, 0#8]⟩ = .ok .gisrR ∧
    decode Cfg.reference ⟨.mmio32, [0x04#8, 0x01#8, 0xFF#8, 0xFF#8, 0xFF#8, 0xFF#8]⟩ = .ok (.gisrW 0xFFFFFFFF#32) ∧
    decode Cfg.reference ⟨.mmio32, [0x08#8, 0x00#8, 0#8, 0#8, 0#8, 0#8]⟩ = .ok .irr0R ∧
    decode Cfg.reference ⟨.mmio32, [0x08#8, 0x01#8, 0x15#8, 0x32#8, 0x54#8, 0x21#8]⟩ = .ok (.irr0W 0x21543215#32) ∧
    decode Cfg.reference ⟨.mmio32, [0x0C#8, 0x00#8, 0#8, 0#8, 0#8, 0#8]⟩ = .ok .irr1R ∧
    decode Cfg.reference ⟨.mmio32, [0x0C#8, 0x01#8, 0x32#8, 0x54#8, 0x21#8, 0x43#8]⟩ = .ok (.irr1W 0x43215432#32) ∧
    decode Cfg.reference ⟨.mmio32, [0x10#8, 0x00#8, 0#8, 0#8, 0#8, 0#8]⟩ = .ok .irr2R ∧
    decode Cfg.reference ⟨.mmio32, [0x10#8, 0x01#8, 0x54#8, 0x21#8, 0x43#8, 0x15#8]⟩ = .ok (.irr2W 0x15432154#32) ∧
    decode Cfg.reference ⟨.mmio32, [0x14#8, 0x00#8, 0#8, 0#8, 0#8, 0#8]⟩ = .ok .irr3R ∧
    decode Cfg.reference ⟨.mmio32, [0x14#8, 0x01#8, 0x21#8, 0x43#8, 0x15#8, 0x32#8]⟩ = .ok (.irr3W 0x32154321#32) := by decide

theorem test_decode_spi_registers :
    decode Cfg.reference ⟨.mmio32, [0x00#8, 0x10#8, 0#8, 0#8, 0#8, 0#8]⟩ = .ok .sfcrR ∧
    decode Cfg.reference ⟨.mmio32, [0x00#8, 0x11#8, 0#8, 0#8, 0#8, 0x10#8]⟩ = .ok (.sfcrW 0x10000000#32) ∧
    decode Cfg.reference ⟨.mmio32, [0x04#8, 0x10#8, 0#8, 0#8, 0#8, 0#8]⟩ = .ok .sfcr2R ∧
    decode Cfg.reference ⟨.mmio32, [0x04#8, 0x11#8, 1#8, 2#8, 3#8, 4#8]⟩ = .ok (.sfcr2W 0x04030201#32) ∧
    decode Cfg.reference ⟨.mmio32, [0x08#8, 0x10#8, 0#8, 0#8, 0#8, 0#8]⟩ = .ok .sfcsrR ∧
    decode Cfg.reference ⟨.mmio32, [0x08#8, 0x11#8, 0#8, 0#8, 0#8, 0xC0#8]⟩ = .ok (.sfcsrW 0xC0000000#32) ∧
    decode Cfg.reference ⟨.mmio32, [0x0C#8, 0x10#8, 0#8, 0#8, 0#8, 0#8]⟩ = .ok .sfdrR ∧
    decode Cfg.reference ⟨.mmio32, [0x0C#8, 0x11#8, 0x44#8, 0x33#8, 0x22#8, 0x11#8]⟩ = .ok (.sfdrW 0x11223344#32) := by decide

theorem test_decode_router_calls :
    decode Cfg.reference ⟨.call, [0x00#8]⟩ = .ok .routeInit ∧
    decode Cfg.reference ⟨.call, [0x01#8, 3#8, 0#8, 0#8, 0#8]⟩ = .ok (.enable 3) ∧
    decode Cfg.reference ⟨.call, [0x02#8, 0x28#8, 0#8, 0#8, 0#8]⟩ = .ok (.disable 40) ∧
    decode Cfg.reference ⟨.call, [0x03#8, 7#8]⟩ = .ok (.dispatch 7) ∧
    decode Cfg.reference ⟨.call, [0x04#8, 0x83#8]⟩ = .ok (.irqEntry 0x83#8) ∧
    decode Cfg.reference ⟨.call, [0x05#8, 3#8, 0#8, 0#8, 0#8, 0x78#8, 0x56#8, 0x34#8, 0x12#8]⟩ =
      .ok (.registerHandler 3 0x12345678#32) ∧
    decode Cfg.reference ⟨.call, [0x06#8, 5#8]⟩ = .ok (.handlerReturn 5) := by decide

theorem test_decode_spi_calls :
    decode Cfg.reference ⟨.call, [0x10#8, 1#8, 1#8, 1#8, 0#8, 0#8, 0#8, 2#8, 0#8, 0#8, 0#8, 3#8, 0#8, 0#8, 0#8]⟩ =
      .ok (.attach .rtl839x 1#8 ⟨1#32, 2#32, 3#32⟩) ∧
    decode Cfg.reference ⟨.call, [0x11#8]⟩ = .ok .spiPrep ∧
    decode Cfg.reference ⟨.call, [0x12#8]⟩ = .ok .waitReady ∧
    decode Cfg.reference ⟨.call, [0x13#8, 1#8, 0#8, 0#8, 0#8, 0x05#8]⟩ = .ok (.w32 .sfdr 0x05000000#32) ∧
    decode Cfg.reference ⟨.call, [0x14#8]⟩ = .ok .r32 ∧
    decode Cfg.reference ⟨.call, [0x15#8]⟩ = .ok .readStatus ∧
    decode Cfg.reference ⟨.call, [0x16#8]⟩ = .ok .waitWip ∧
    decode Cfg.reference ⟨.call, [0x17#8]⟩ = .ok .writeEnable ∧
    decode Cfg.reference ⟨.call, [0x18#8, 0x05#8, 1#8, 0#8, 0#8, 0#8, 0#8, 0#8, 0#8, 0#8]⟩ = .ok (.readReg 0x05#8 1) ∧
    decode Cfg.reference ⟨.call, [0x19#8, 0x01#8, 1#8, 0#8, 0#8, 0#8, 0#8, 0#8, 0#8, 0#8, 0xAB#8]⟩ =
      .ok (.writeReg 0x01#8 [0xAB#8] 1) ∧
    decode Cfg.reference ⟨.call, [0x1A#8, 0x10#8, 0#8, 0#8, 0#8, 0#8, 0#8, 0#8, 0#8, 0x03#8, 0x01#8, 0#8, 0#8, 0#8, 0#8, 0#8, 0#8]⟩ =
      .ok (.read 0x10 259) ∧
    decode Cfg.reference ⟨.call, [0x1B#8, 0#8, 1#8, 0#8, 0#8, 0#8, 0#8, 0#8, 0#8, 1#8, 0#8, 0#8, 0#8, 0#8, 0#8, 0#8, 0#8, 0x11#8]⟩ =
      .ok (.write 0x100 [0x11#8] 1) ∧
    decode Cfg.reference ⟨.call, [0x1C#8, 0#8, 0#8, 1#8, 0#8, 0#8, 0#8, 0#8, 0#8]⟩ = .ok (.erase 0x10000) ∧
    decode Cfg.reference ⟨.call, [0x1D#8, 0#8, 0#8, 0#8, 0x40#8, 0xD8#8, 1#8, 0x56#8, 0x34#8, 0x12#8, 0#8]⟩ =
      .ok (.issueCmd 0x40000000#32 0xD8#8 (some 0x123456#32)) ∧
    decode Cfg.reference ⟨.call, [0x1D#8, 0#8, 0#8, 0#8, 0x40#8, 0x05#8, 0#8, 0#8, 0#8, 0#8, 0#8]⟩ =
      .ok (.issueCmd 0x40000000#32 0x05#8 none) := by decide

theorem test_decode_frames :
    decode Cfg.reference ⟨.norframe, [0x01#8, 0#8, 0#8, 0#8, 0x00#8]⟩ = .ok (.wrsr .cs0 [0x00#8] 0) ∧
    decode Cfg.reference ⟨.norframe, [0x02#8, 0#8, 0#8, 0#8, 0#8, 1#8, 0#8, 0x11#8]⟩ = .ok (.pp .cs0 [0#8, 1#8, 0#8, 0x11#8] 0) ∧
    decode Cfg.reference ⟨.norframe, [0x05#8, 1#8, 2#8, 1#8]⟩ = .ok (.rdsr .cs1 [] 258) ∧
    decode Cfg.reference ⟨.norframe, [0x06#8, 0#8, 0#8, 0#8]⟩ = .ok (.wren .cs0 [] 0) ∧
    decode Cfg.reference ⟨.norframe, [0x0B#8, 0#8, 2#8, 0#8, 0#8, 1#8, 0#8, 0#8]⟩ = .ok (.fastRead .cs0 [0#8, 1#8, 0#8, 0#8] 2) ∧
    decode Cfg.reference ⟨.norframe, [0x0C#8, 0#8, 1#8, 0#8, 1#8, 0#8, 0#8, 0#8, 0#8]⟩ =
      .ok (.fastRead4b .cs0 [1#8, 0#8, 0#8, 0#8, 0#8] 1) ∧
    decode Cfg.reference ⟨.norframe, [0x12#8, 0#8, 0#8, 0#8, 0#8, 0#8, 1#8, 0#8, 0x11#8]⟩ =
      .ok (.pp4b .cs0 [0#8, 0#8, 1#8, 0#8, 0x11#8] 0) ∧
    decode Cfg.reference ⟨.norframe, [0xD8#8, 0#8, 0#8, 0#8, 1#8, 0x23#8, 0x45#8]⟩ = .ok (.se .cs0 [1#8, 0x23#8, 0x45#8] 0) ∧
    decode Cfg.reference ⟨.norframe, [0xDC#8, 0#8, 0#8, 0#8, 0#8, 1#8, 0#8, 0#8]⟩ = .ok (.se4b .cs0 [0#8, 1#8, 0#8, 0#8] 0) := by
  decide

/-- The word of an encoded read is ignored (row 17). -/
theorem test_decode_read_word :
    decode Cfg.reference ⟨.mmio32, [0x0C#8, 0x10#8, 0xFF#8, 0xFF#8, 0xFF#8, 0xFF#8]⟩ = .ok .sfdrR := by decide

theorem test_decode_rejects :
    decode Cfg.reference ⟨.mmio32, [0x18#8, 0x00#8, 0#8, 0#8, 0#8, 0#8]⟩ = .error .unknownCode ∧
    decode Cfg.reference ⟨.mmio32, [0x00#8, 0x02#8, 0#8, 0#8, 0#8, 0#8]⟩ = .error .unknownCode ∧
    decode Cfg.reference ⟨.call, [0x07#8]⟩ = .error .unknownCall ∧ decode Cfg.reference ⟨.call, [0x1E#8]⟩ = .error .unknownCall ∧
    decode Cfg.reference ⟨.call, [0x03#8, 8#8]⟩ = .error .badLine ∧ decode Cfg.reference ⟨.call, [0x11#8, 0#8]⟩ = .error .badLength ∧
    decode Cfg.reference ⟨.norframe, [0x9F#8, 0#8, 1#8, 0#8]⟩ = .error .unknownCommand := by decide

/-- Vectors 2.1: a bus write at SPI_BASE + 8 is SFCSR.W, a bus read at INTC_BASE + 4 is GISR.R (R47); other widths,
alignments and addresses are refused (R30, R33). -/
theorem test_bus :
    decodeBus Cfg.reference ⟨.write, 0xB8001208#32, 32, 0xC0000000#32⟩ =
      .ok (.sfcsrW 0xC0000000#32) ∧
    decodeBus Cfg.reference ⟨.read, 0xB8003004#32, 32, 7#32⟩ = .ok .gisrR ∧
    decodeBus Cfg.reference ⟨.read, 0xB8003004#32, 8, 0#32⟩ = .error .badWidth ∧
    decodeBus Cfg.reference ⟨.read, 0xB8003002#32, 32, 0#32⟩ = .error .misaligned ∧
    decodeBus Cfg.reference ⟨.read, 0xB8003018#32, 32, 0#32⟩ = .error .outsideBlocks := by
  decide

/-! Encodings of operands (vectors 2.1). -/

theorem test_pack :
    packRouting Cfg.reference .rtl838x 0 = 0x21543215#32 ∧ packRouting Cfg.reference .rtl838x 1 = 0x43215432#32 ∧
    packRouting Cfg.reference .rtl838x 2 = 0x15432154#32 ∧ packRouting Cfg.reference .rtl838x 3 = 0x32154321#32 := by
  decide +kernel

theorem test_words :
    baseWord Cfg.reference .cs0 = 0x40000000#32 ∧ baseWord Cfg.reference .cs1 = 0x80000000#32 ∧
    deselectWord Cfg.reference = 0xC0000000#32 ∧ baseWord Cfg.reference .cs0 ||| lenField Cfg.reference 4 = 0x70000000#32 ∧
    baseWord Cfg.reference .cs1 ||| lenField Cfg.reference 3 = 0xA0000000#32 ∧
    commandWord 0xD8#8 = 0xD8000000#32 ∧ addrWord .three 0x123456#32 = 0x12345600#32 ∧
    addrWord .four 0x123456#32 = 0x123456#32 ∧ writeRegWord Cfg.reference 1#8 [] 0 = 0x01000000#32 ∧
    writeRegWord Cfg.reference 1#8 [0xAB#8] 1 = 0x01AB0000#32 ∧
    writeRegWord Cfg.reference 1#8 [0xAB#8, 0xCD#8] 2 = 0x01ABCD00#32 := by decide

/-! The router (vectors 2.2). -/

theorem test_cpuLines :
    (routed 0x00000000#32 0xFFFFFFFF#32).cpuLines = 0x00#8 ∧ (routed 0x00000001#32 0x00000001#32).cpuLines = 0x04#8 ∧
    (routed 0x00000088#32 0x00000088#32).cpuLines = 0x30#8 ∧ (routed 0xA0000000#32 0x20000000#32).cpuLines = 0x40#8 ∧
    (routed 0xFFFFFFFF#32 0xFFFFFFFF#32).cpuLines = 0x7C#8 := by decide +kernel

theorem test_gimrR : (after (exec .gimrR State.reset)).result = .value 0#32 := by decide
theorem test_gimrW : (after (exec (.gimrW 0xA0000008#32) State.reset)).gimr = 0xA0000008#32 := by decide
theorem test_gisrR : (after (exec .gisrR (routed 0#32 0x88#32))).result = .value 0x88#32 := by decide
theorem test_gisrW : (after (exec (.gisrW 0xFFFFFFFF#32) (routed 0#32 8#32))).src = 8#32 := by decide
theorem test_irr0R : (after (exec .irr0R (routed 0#32 0#32))).result = .value 0x21543215#32 := by decide
theorem test_irr1R : (after (exec .irr1R (routed 0#32 0#32))).result = .value 0x43215432#32 := by decide
theorem test_irr2R : (after (exec .irr2R (routed 0#32 0#32))).result = .value 0x15432154#32 := by decide
theorem test_irr3R : (after (exec .irr3R (routed 0#32 0#32))).result = .value 0x32154321#32 := by decide
theorem test_irr0W : (after (exec (.irr0W 0x50000000#32) State.reset)).irr[0] = 0x50000000#32 := by decide
theorem test_irr1W : (after (exec (.irr1W 0x500#32) State.reset)).irr[1] = 0x500#32 := by decide
theorem test_irr1W_reserved : refusal (exec (.irr1W 0x600#32) State.reset) = some .reservedNibble := by decide
theorem test_irr2W : (after (exec (.irr2W 0x5#32) State.reset)).irr[2] = 0x5#32 := by decide
theorem test_irr3W : (after (exec (.irr3W 0x32154321#32) State.reset)).irr[3] = 0x32154321#32 := by decide
theorem test_routeInit : (after (exec .routeInit { State.reset with gimr := 0xFFFFFFFF#32 })).gimr = 0xA0000000#32 ∧
    (after (exec .routeInit State.reset)).irr = #v[0x21543215#32, 0x43215432#32, 0x15432154#32, 0x32154321#32] := by
  decide +kernel
theorem test_routeInit_fatal :
    refusal (exec .routeInit { State.reset with cfg := { Cfg.reference with family := none } }) =
      some (.fatalBoot .familyRecord) ∧
    refusal (exec .routeInit { State.reset with cfg := { Cfg.reference with intcBase := none } }) =
      some (.fatalBoot .intcBase) := by decide +kernel
theorem test_enable : (after (exec (.enable 3) (routed 0xA0000000#32 0#32))).log =
    [⟨.read, .gimr, 0xA0000000#32⟩, ⟨.write, .gimr, 0xA0000008#32⟩] ∧
    (after (exec (.enable 32) State.reset)).result = .raised (-22) (.invalidArgument [32]) := by decide
theorem test_disable : (after (exec (.disable 31) (routed 0xFFFFFFFF#32 0#32))).gimr = 0x7FFFFFFF#32 ∧
    (after (exec (.disable 3) (after (exec (.disable 3) (routed 0xA0000008#32 0#32))))).gimr = 0xA0000000#32 := by decide
/-- While another context holds the lock, `enable` waits; it goes on once the lock is free (R42). -/
theorem test_enable_waits :
    (after (exec (.enable 3) { State.reset with irqLock := .held 1 })).calls = [⟨0, .instr (.enable 3), []⟩] ∧
    (after (step { after (exec (.enable 3) { State.reset with irqLock := .held 1 }) with irqLock := .free })).gimr =
      8#32 := by decide +kernel
theorem test_dispatch : (after (exec (.dispatch 4) (routed 0x88#32 0x88#32))).result = .selected 3 ∧
    (after (exec (.dispatch 4) (routed 0x88#32 0x88#32))).lineState[4] = .dispatched ∧
    (after (exec (.dispatch 5) (routed 0x80#32 0x08#32))).result = .spurious ∧
    (after (exec (.dispatch 5) (routed 0x80#32 0x08#32))).spuriousCount = 1 ∧
    (after (exec (.dispatch 5) onPath)).calls.map (·.ctx) = [1, 0] ∧
    (after (exec (.dispatch 5) onPath)).lineState[5] = .routing := by decide +kernel
/-- A race of the vectors: another context disables source 3 between the two reads of `dispatch` (R35). -/
theorem test_dispatch_race :
    (after (exec (.dispatch 5) { routed 8#32 8#32 with schedule := [[], byOther 1 (.disable 3) 4] })).result =
      .selected 3 ∧
    (after (exec (.dispatch 5) { routed 8#32 8#32 with schedule := [byOther 1 (.disable 3) 4, []] })).result =
      .spurious ∧
    (after (exec (.dispatch 5) { routed 8#32 8#32 with schedule := [byOther 1 (.disable 3) 4, []] })).returned =
      [(1, .ok)] := by decide +kernel
theorem test_irqEntry : (after (exec (.irqEntry 0x20#8) (routed 0xA0000008#32 0x88#32))).result = .selected 3 := by
  decide +kernel
theorem test_irqEntry_spurious : (after (exec (.irqEntry 0x83#8) State.reset)).result = .spurious := by decide
theorem test_registerHandler : (after (exec (.registerHandler 3 7#32) State.reset)).handler[3] = some 7#32 := by decide
theorem test_handlerReturn : (after (exec (.handlerReturn 5) (State.reset.setLine 5 .dispatched))).lineState[5] = .idle ∧
    (after (exec (.handlerReturn 5) (State.reset.setLine 5 .routing))).lineState[5] = .routing := by decide +kernel

/-! The SPI controller (vectors 2.3). -/

theorem test_sfcrR : (after (exec .sfcrR attached)).result = .value 0x10000000#32 := by decide
theorem test_sfcrW : (after (exec (.sfcrW 0x8000F00F#32) { attached with busy := true })).sfcr = 0x8000F00F#32 := by decide
theorem test_sfcr2R : (after (exec .sfcr2R { attached with sfcr2 := 5#32 })).result = .value 5#32 := by decide
theorem test_sfcr2W : (after (exec (.sfcr2W 9#32) attached)).sfcr2 = 9#32 := by decide
theorem test_sfcsrR : (after (exec .sfcsrR State.reset)).result = .value 0xC8000000#32 := by decide
theorem test_sfcsrR_busy : (after (exec .sfcsrR { selected [] 3#2 with busy := true })).result = .value 0x70000000#32 := by
  decide
theorem test_sfcsrW_width : (after (exec (.sfcsrW 0x60000000#32) (selected [5#8] 0#2))).len = 2#2 ∧
    (after (exec (.sfcsrW 0x60000000#32) (selected [5#8] 0#2))).dev0 = (selected [5#8] 0#2).dev0 := by decide +kernel
theorem test_sfcsrW_moves :
    (after (exec (.sfcsrW 0x80000000#32) { selected [5#8] 0#2 with dev1 := .refNor RefNor.initial })).dev1 =
      .refNor { RefNor.initial with frameOpen := true } ∧
    refusal (exec (.sfcsrW 0x00000000#32) attached) = some .bothSelected ∧
    refusal (exec (.sfcsrW 0x40000001#32) attached) = some .reservedBits := by decide +kernel
theorem test_sfdrW : (after (exec (.sfdrW 0x12345678#32) (selected [] 2#2))).dev0 =
    .refNor ⟨false, true, [], [0x12#8, 0x34#8, 0x56#8], 0, true, false⟩ := by decide +kernel
theorem test_sfdrW_faults :
    faulted (exec (.sfdrW 0#32) { attached with busy := true }) = some (.accessWhileBusy .write .sfdr) ∧
    refusal (exec (.sfdrW 0#32) State.reset) = some .byteOrderOff := by decide
theorem test_sfdrR : (after (exec .sfdrR (selected [0x05#8] 3#2))).result = .value 0x02020202#32 := by decide +kernel

/-! The primitives (vectors 2.4, eager schedule). -/

theorem test_attach : (after (exec (.attach .rtl839x 1#8 ⟨1#32, 0#32, 0#32⟩)
      { State.reset with sfcr := 0x8000F00F#32, spiMutex := .held 0 })).ctrl = ⟨0xB8001200#32, .cs1, .four, true⟩ ∧
    (after (exec (.attach .rtl839x 1#8 ⟨1#32, 0#32, 0#32⟩)
      { State.reset with sfcr := 0x8000F00F#32, spiMutex := .held 0 })).sfcr = 0x9000F00F#32 := by decide +kernel
theorem test_attach_raises : (after (exec (.attach .rtl838x 2#8 ⟨0#32, 0#32, 0#32⟩)
    { State.reset with spiMutex := .held 0 })).result = .raised (-22) (.invalidArgument [2]) := by decide +kernel
theorem test_spiPrep : (after (exec .spiPrep attached)).log =
    [⟨.read, .sfcsr, 0xC8000000#32⟩, ⟨.write, .sfcsr, 0xC0000000#32⟩] := by decide +kernel
theorem test_waitReady : (after (exec .waitReady { attached with busy := true })).result = .ok ∧
    (after (exec .waitReady
      { attached with busy := true, wedged := true, cfg := { Cfg.reference with pollBudget := some 3 } })).result =
        .raised (-110) (.timeout .ready) := by decide +kernel
/-- A context polls a wedged controller without a bound and stays inside: its next item is not run, another context's
operation of the router is, another context's SPI primitive is refused (R43, R92, R98, R137). -/
theorem test_waitReady_forever :
    (after (step (after (step { wedgedForever with program := [.op 1 ⟨.call, [0x12#8]⟩,
      .op 1 ⟨.call, [0x01#8, 3#8, 0#8, 0#8, 0#8]⟩, .op 2 ⟨.call, [0x01#8, 5#8, 0#8, 0#8, 0#8]⟩] })))).gimr = 0x20#32 ∧
    refusal (step (after (step { wedgedForever with program := [.op 1 ⟨.call, [0x12#8]⟩, .op 2 ⟨.call, [0x12#8]⟩] }))) =
      some .twoInPrimitives := by decide +kernel
theorem test_w32 : (after (exec (.w32 .sfcsr 0x40000000#32) attached)).sel = .cs0 := by decide +kernel
/-- Another context between the poll and the write of a gated write: its gated write is refused (R43); its raw write is
made, and the write that polled finds the controller busy (R40, R93). -/
theorem test_w32_race :
    refusal (exec (.w32 .sfcsr 0xC0000000#32)
      { attached with schedule := [[], byOther 1 (.w32 .sfcsr 0xC0000000#32) 2] }) = some .twoInPrimitives ∧
    faulted (exec (.w32 .sfcsr 0xC0000000#32)
      { attached with schedule := [[], byOther 1 (.sfcsrW 0xC0000000#32) 1] }) =
      some (.accessWhileBusy .write .sfcsr) := by decide +kernel
theorem test_r32 : (after (exec .r32 (selected [0x05#8] 3#2))).result = .value 0x02020202#32 := by decide +kernel
theorem test_readStatus : (after (exec .readStatus (withNor false true []))).result = .status 2#8 := by decide +kernel
theorem test_waitWip : (after (exec .waitWip (withNor true true []))).result = .ok := by decide +kernel
theorem test_writeEnable : (after (exec .writeEnable (withNor false false []))).dev0 =
    .refNor ⟨false, true, [], [0x05#8], 1, true, false⟩ := by decide +kernel
theorem test_readReg : (after (exec (.readReg 0x05#8 4) (withNor false true []))).result =
    .bytes [2#8, 2#8, 2#8, 2#8] := by decide +kernel
theorem test_readReg_raises : (after (exec (.readReg 0x05#8 3) attached)).result = .raised (-22) (.invalidArgument [3]) := by
  decide +kernel
theorem test_writeReg :
    (after (exec (.writeReg 0x01#8 [0xAB#8] 1) { attached with dev0 := .simReg SimRegDev.initial })).dev0 =
    .simReg ⟨[], [0x01#8, 0xAB#8], 0⟩ := by decide +kernel
/-- The source's round trip, program P2 of the vectors. -/
theorem test_roundTrip :
    (after (exec (.readReg 0x01#8 1)
      (after (exec (.writeReg 0x01#8 [0xAB#8] 1) { attached with dev0 := .simReg SimRegDev.initial })))).result =
      .bytes [0xAB#8] := by decide +kernel
theorem test_read : (after (exec (.read 0x20 6)
      (withNor false false [(0x20, 0xA0#8), (0x21, 0xA1#8), (0x22, 0xA2#8), (0x23, 0xA3#8), (0x24, 0xA4#8)]))).result =
    .count 6 [0xA0#8, 0xA1#8, 0xA2#8, 0xA3#8, 0xA4#8, 0xFF#8] := by decide +kernel
theorem test_read_raises : (after (exec (.read 0xFFFFFF 2) attached)).result =
    .raised (-22) (.invalidArgument [0xFFFFFF, 2]) := by decide +kernel
theorem test_write : (after (exec (.write 0x100 [0x11#8, 0x22#8, 0x33#8, 0x44#8, 0x55#8] 5) attached)).dev0 =
    .refNor ⟨false, true, [], [0x02#8, 0x00#8, 0x01#8, 0x00#8, 0x11#8, 0x22#8, 0x33#8, 0x44#8, 0x55#8], 0, true, false⟩ := by
  decide +kernel
theorem test_write_nothing : (after (exec (.write 0 [] 0) attached)).log = [] := by decide +kernel
theorem test_erase : (after (exec (.erase 0x10000) attached)).dev0 =
    .refNor ⟨false, true, [], [0xD8#8, 0x01#8, 0x00#8, 0x00#8], 0, true, false⟩ := by decide +kernel
theorem test_erase_raises : (after (exec (.erase 0x1000000) attached)).result =
    .raised (-22) (.invalidArgument [0x1000000, 1]) := by decide +kernel
theorem test_issueCmd : (after (exec (.issueCmd 0x40000000#32 0xD8#8 (some 0x123456#32)) attached)).dev0 =
    .refNor ⟨false, false, [], [0xD8#8, 0x12#8, 0x34#8, 0x56#8], 0, true, false⟩ := by decide +kernel

/-- The numbers callers receive (R116, R133; D33). -/
theorem test_codes :
    (after (exec (.erase 0x1000000) attached)).result.code = some (-22) ∧
    (after (exec (.erase 0x10000) attached)).result.code = some 0 ∧
    (after (exec (.readReg 0x05#8 4) (withNor false true []))).result.code = some 0 ∧
    (after (exec (.read 0x20 6) attached)).result.code = some 6 ∧
    (after (exec .waitReady
      { attached with busy := true, wedged := true, cfg := { Cfg.reference with pollBudget := some 3 } })).result.code =
        some (-110) := by decide +kernel

/-- A condition of another context's operation is returned to it with its code. -/
theorem test_returned_code : (after (exec .spiPrep { attached with schedule := [byOther 1 (.enable 32) 0] })).returned =
    [(1, .raised (-22) (.invalidArgument [32]))] := by decide +kernel

/-! Frames (vectors 2.5). -/

theorem test_wren : (after (exec (.wren .cs0 [] 0) (withNor false false []))).dev0 =
    .refNor ⟨false, true, [], [0x06#8], 0, false, false⟩ := by decide +kernel
theorem test_wren_extra : (after (exec (.wren .cs0 [0#8] 0) (withNor false false []))).dev0 =
    .refNor ⟨false, false, [], [0x06#8, 0#8], 0, false, false⟩ ∧
    refusal (exec (.wren .cs0 [] 0) State.reset) = some .byteOrderOff := by decide +kernel
theorem test_rdsr : (after (exec (.rdsr .cs0 [] 2) (withNor false true []))).result = .bytes [2#8, 2#8] := by decide +kernel
/-- A device that finishes between two bytes of a frame: the status bytes differ (R130). -/
theorem test_rdsr_finishes :
    (after (exec (.rdsr .cs0 [] 2) { withNor true true [] with schedule :=
      [[], [.spiComplete], [.spiComplete], [.spiComplete], [.spiComplete], [.spiComplete], [.spiComplete],
        [.spiComplete], [.spiComplete, .finish .cs0], [.spiComplete], [.spiComplete], [.spiComplete],
        [.spiComplete]] })).result = .bytes [3#8, 0#8] := by decide +kernel
/-- A frame with a command byte that is none of the nine (vectors 2.5): ignored (R61, R129). -/
theorem test_unknownFrame :
    (after (step { withNor false true [] with program := [.op 0 ⟨.norframe, [0x9F#8, 0#8, 1#8, 0#8]⟩] })).dev0 =
      .refNor ⟨false, true, [], [0x9F#8], 1, false, false⟩ := by decide +kernel
theorem test_wrsr : (after (exec (.wrsr .cs0 [0#8] 0) (withNor false true []))).dev0 =
    .refNor ⟨true, true, [], [0x01#8, 0#8], 0, false, false⟩ := by decide +kernel
theorem test_fastRead : (after (exec (.fastRead .cs0 [0#8, 1#8, 0#8, 0#8] 2)
    (withNor false false [(0x100, 0x11#8), (0x101, 0x22#8)]))).result = .bytes [0x11#8, 0x22#8] := by decide +kernel
theorem test_fastRead4b : (after (exec (.fastRead4b .cs0 [1#8, 0#8, 0#8, 0#8, 0#8] 1)
    { withNor false false [(0x1000000, 0xB0#8)] with
      cfg := { Cfg.reference with flashSize0 := 0x2000000 } })).result = .bytes [0xB0#8] := by decide +kernel
theorem test_pp : (after (exec (.pp .cs0 [0#8, 1#8, 0#8, 0x11#8, 0x22#8] 0) (withNor false true []))).dev0 =
    .refNor ⟨true, true, [(0x100, 0x11#8), (0x101, 0x22#8)], [0x02#8, 0#8, 1#8, 0#8, 0x11#8, 0x22#8], 0, false, false⟩ := by
  decide +kernel
theorem test_pp_page : refusal (exec (.pp .cs0 [0#8, 0#8, 0xFF#8, 0x11#8, 0x22#8] 0) (withNor false true [])) =
    some .programOutsidePage := by decide +kernel
theorem test_pp4b : (after (exec (.pp4b .cs0 [0#8, 0#8, 1#8, 0#8, 0x11#8] 0) (withNor false true []))).dev0 =
    .refNor ⟨true, true, [(0x100, 0x11#8)], [0x12#8, 0#8, 0#8, 1#8, 0#8, 0x11#8], 0, false, false⟩ := by decide +kernel
theorem test_se : (after (exec (.se .cs0 [1#8, 0x23#8, 0x45#8] 0)
    (withNor false true [(0xFFFF, 1#8), (0x10000, 2#8), (0x1FFFF, 3#8), (0x20000, 4#8)]))).dev0 =
    .refNor ⟨true, true, [(0xFFFF, 1#8), (0x20000, 4#8)], [0xD8#8, 1#8, 0x23#8, 0x45#8], 0, false, false⟩ := by
  decide +kernel
theorem test_se_short : (after (exec (.se .cs0 [1#8, 0x23#8] 0) (withNor false true [(0x10000, 2#8)]))).dev0 =
    .refNor ⟨false, true, [(0x10000, 2#8)], [0xD8#8, 1#8, 0x23#8], 0, false, false⟩ := by decide +kernel
theorem test_se4b : (after (exec (.se4b .cs0 [0#8, 1#8, 0#8, 0#8] 0) (withNor false true [(0x10000, 2#8)]))).dev0 =
    .refNor ⟨true, true, [], [0xDC#8, 0#8, 1#8, 0#8, 0#8], 0, false, false⟩ := by decide +kernel

/-! Configurations other than the reference (R6, R7). -/

/-- A legal record with other SFCSR positions, other offsets and another command byte. -/
def otherCfg : Cfg :=
  { Cfg.reference with bitCsb0 := 3, bitCsb1 := 2, lenHi := 1, lenLo := 0, bitRdy := 4, bitBo := 0, offSfcr := 0x0C#8
                       offSfdr := 0x00#8, opRdsr := 0x35#8, cs := 1, eInval := -1 }

theorem test_otherCfg : otherCfg.ok = true ∧
    (after (exec .sfcsrR { State.reset with cfg := otherCfg })).result = .value 0x1C#32 ∧
    baseWord otherCfg .cs0 ||| lenField otherCfg 4 = 0x07#32 ∧
    decodeBus otherCfg ⟨.read, 0xB8001200#32, 32, 0#32⟩ = .ok .sfdrR ∧
    decode otherCfg ⟨.norframe, [0x35#8, 0#8, 1#8, 0#8]⟩ = .ok (.rdsr .cs0 [] 1) ∧
    (after (exec (.enable 32) { State.reset with cfg := otherCfg })).result.code = some (-1) := by decide +kernel

/-- A step refuses a record that R7 does not allow. -/
theorem test_badConfig :
    refusal (step { State.reset with cfg := { Cfg.reference with cs := 2 } }) = some .badConfig ∧
    refusal (step { State.reset with cfg := { Cfg.reference with bitBo := 32 } }) = some .badConfig ∧
    refusal (step { State.reset with cfg := { Cfg.reference with lenLo := 26 } }) = some .badConfig ∧
    refusal (step { State.reset with cfg := { Cfg.reference with offSfcr2 := 0x0C#8 } }) = some .badConfig := by
  decide +kernel

/-- The first step after reset runs the operation that `withFetchWord` places. -/
theorem test_fetch : (after (step (State.reset.withFetchWord 8 0x00))).gimr = 0xA0000000#32 := by decide +kernel

/-! Witnesses: for every statement with hypotheses, states and operands that meet them together, for each clause. -/

/-- The reference device on chip-select 0 of `withNor`, idle. -/
def nor : RefNor := ⟨false, true, [(0x100, 0x11#8)], [], 0, false, false⟩

/-- `attached` with `nor` on chip-select 0. -/
def onNor : State := withNor false true [(0x100, 0x11#8)]

theorem onNor_ready : onNor.Ready := by
  refine ⟨⟨rfl, rfl, ?_⟩, rfl, rfl, ?_⟩ <;> decide +kernel

/-- `attached` with `nor` busy for ever. -/
def onStuck : State := { attached with dev0 := .refNor ⟨true, true, [], [], 0, false, true⟩ }

theorem onStuck_ready : onStuck.Ready := by
  refine ⟨⟨rfl, rfl, ?_⟩, rfl, rfl, ?_⟩ <;> decide +kernel

/-- `attached` with a simulated register device on chip-select 0. -/
def onSim : State := { attached with dev0 := .simReg SimRegDev.initial }

theorem onSim_ready : onSim.Ready := by
  refine ⟨⟨rfl, rfl, ?_⟩, rfl, rfl, ?_⟩ <;> decide +kernel

/-- `onNor` with its frame open. -/
def onOpen : State := selected [0x05#8] 0#2

theorem onOpen_ready : onOpen.Ready := by
  refine ⟨⟨rfl, rfl, ?_⟩, rfl, rfl, ?_⟩ <;> decide +kernel

/-- A state that issues `enable(3)` as an encoded operation. -/
def issuing : State := { State.reset with program := [.op 1 ⟨.call, [0x01#8, 3#8, 0#8, 0#8, 0#8]⟩] }

theorem witness_StepKeepsInvariant : ∃ s t : State, s.Inv ∧ s.Exclusive ∧ step s = .next t ∧ t.gimr = 8#32 := by
  refine ⟨issuing, after (step issuing), ⟨?_, ?_, ?_, ?_, ?_, ?_, ?_⟩, ⟨.nil, ?_⟩, rfl, ?_⟩ <;>
    first | decide +kernel | simp [issuing, State.reset]

theorem witness_StepKeepsInvariant_inside : ∃ s t : State, s.Exclusive ∧ step s = .next t ∧ t.spiCaller = some 1 := by
  refine ⟨{ wedgedForever with spiCaller := some 1, calls := [⟨1, .instr .waitReady, []⟩] },
    after (step { wedgedForever with spiCaller := some 1, calls := [⟨1, .instr .waitReady, []⟩] }), ⟨?_, ?_⟩, rfl, ?_⟩
  · simp
  · simp [Op.usesSpi, isSpiPrimitive]
  · decide +kernel

theorem witness_AttachedControllerIsFixed : ∃ s t : State, step s = .next t ∧ s.ctrl.attached = true :=
  ⟨{ attached with program := [.op 0 ⟨.call, [0x11#8]⟩] },
    after (step { attached with program := [.op 0 ⟨.call, [0x11#8]⟩] }), rfl, rfl⟩

theorem witness_StepRunsDecoded_op : ∃ (s p : State) (ctx : Nat) (code : Code) (rest : List Issue) (i : Instr),
    s.cfg.ok = true ∧ s.point = .ok () p ∧ (∀ c, c ∈ p.calls → c.ctx ≠ ctx) ∧ p.program = .op ctx code :: rest ∧
      decode p.cfg code = .ok i := by
  refine ⟨issuing, eagerStep issuing, 1, ⟨.call, [0x01#8, 3#8, 0#8, 0#8, 0#8]⟩, [], .enable 3, ?_, rfl, ?_, rfl, ?_⟩ <;>
    decide +kernel

theorem witness_StepRunsDecoded_encode : ∃ (s p : State) (ctx : Nat) (rest : List Issue) (i : Instr),
    s.cfg.ok = true ∧ s.point = .ok () p ∧ (∀ c, c ∈ p.calls → c.ctx ≠ ctx) ∧ WellFormed i = true ∧
      p.program = .op ctx (encode p.cfg i) :: rest := by
  refine ⟨issuing, eagerStep issuing, 1, [], .enable 3, ?_, rfl, ?_, ?_, ?_⟩ <;> decide +kernel

theorem witness_StepRunsDecoded_bus : ∃ (s p : State) (ctx : Nat) (a : BusAccess) (rest : List Issue) (i : Instr),
    s.cfg.ok = true ∧ s.point = .ok () p ∧ (∀ c, c ∈ p.calls → c.ctx ≠ ctx) ∧ p.program = .bus ctx a :: rest ∧
      decodeBus p.cfg a = .ok i := by
  refine ⟨{ State.reset with program := [.bus 1 ⟨.read, 0xB8003014#32, 32, 0#32⟩] },
    eagerStep { State.reset with program := [.bus 1 ⟨.read, 0xB8003014#32, 32, 0#32⟩] }, 1,
    ⟨.read, 0xB8003014#32, 32, 0#32⟩, [], .irr3R, ?_, rfl, ?_, rfl, ?_⟩ <;> decide +kernel

theorem witness_DecodeEncode : Cfg.reference.ok = true ∧ WellFormed (.enable 0xFFFFFFFF) = true ∧ WellFormed (.read 0 (2 ^ 64 - 1)) = true ∧
    WellFormed (.rdsr .cs1 [] 65535) = true := by decide +kernel

theorem witness_BusSelectsRegister_inside : ∃ (cfg : Cfg) (b0 b1 : Word), cfg.ok = true ∧ cfg.intcBase = some b0 ∧
    cfg.spiBase = some b1 ∧ b0.toNat % 4 = 0 ∧ b1.toNat % 4 = 0 ∧
    b0.toNat + 0x18 ≤ 2 ^ 32 ∧ b1.toNat + 0x10 ≤ 2 ^ 32 ∧
    (b0.toNat + 0x18 ≤ b1.toNat ∨ b1.toNat + 0x10 ≤ b0.toNat) :=
  ⟨{ Cfg.reference with intcBase := some 0xFFFFFFE8#32, spiBase := some 0#32 }, 0xFFFFFFE8#32, 0#32, by decide +kernel⟩

theorem witness_BusSelectsRegister_outside : ∃ (cfg : Cfg) (t : BusAccess),
    (∀ b, cfg.intcBase = some b → t.addr.toNat < b.toNat ∨ b.toNat + 0x18 ≤ t.addr.toNat) ∧
      ∀ b, cfg.spiBase = some b → t.addr.toNat < b.toNat ∨ b.toNat + 0x10 ≤ t.addr.toNat :=
  ⟨{ Cfg.reference with spiBase := none }, ⟨.read, 0xB8003018#32, 32, 0#32⟩, by rintro b ⟨rfl⟩; decide, by rintro b h; cases h⟩

theorem witness_RoutingWrites : ∃ v w : Word, (∀ k, k < 8 → (v.extractLsb' (4 * k) 4).toNat ≤ 5) ∧
    ∃ k, k < 8 ∧ 5 < (w.extractLsb' (4 * k) 4).toNat := by
  refine ⟨0x55555550#32, 0x60000000#32, ?_, 7, ?_⟩ <;> decide

theorem witness_StatusWriteKeepsFrame : ∃ (s : State) (v : Word), s.busy = false ∧ OnlyFields s.cfg v ∧
    s.sel ≠ .both ∧ s.sel = selOf (v.getLsbD s.cfg.bitCsb0) (v.getLsbD s.cfg.bitCsb1) :=
  ⟨onOpen, 0x78000000#32, by decide +kernel⟩

theorem witness_StatusWriteMovesFrame : ∃ (s u : State) (v : Word), s.busy = false ∧ OnlyFields s.cfg v ∧
    s.sel ≠ selOf (v.getLsbD s.cfg.bitCsb0) (v.getLsbD s.cfg.bitCsb1) ∧ selOf (v.getLsbD s.cfg.bitCsb0) (v.getLsbD s.cfg.bitCsb1) ≠ .both ∧
    closeFrame s.sel s = .ok () u := by
  refine ⟨onOpen, { onOpen.setDev .cs0 (.refNor ⟨false, true, [], [0x05#8], 0, false, false⟩) with draws := 0 },
    0x80000000#32, ?_, ?_, ?_, ?_, rfl⟩ <;> decide +kernel

theorem witness_StatusWriteMovesFrame_none : ∃ s : State, s.sel = .none := ⟨attached, by decide⟩

theorem witness_StatusWriteMovesFrame_close : ∃ (s : State) (c : ChipSel) (d : Device) (n : Nat), s.sel = c.sel ∧
    (s.dev c).deselect s.cfg (s.cfg.flashSize c) s.cfg.eraseSize s.draws = .ok (d, n) :=
  ⟨onOpen, .cs0, .refNor ⟨false, true, [], [0x05#8], 0, false, false⟩, 0, rfl, rfl⟩

theorem witness_SpiAccessStops : (∃ s : State, s.busy = true) ∧
    (∃ (s : State) (v : Word), s.busy = false ∧ ¬ OnlyFields s.cfg v) ∧
    (∃ (s : State) (v : Word), s.busy = false ∧ OnlyFields s.cfg v ∧ v.getLsbD s.cfg.bitCsb0 = false ∧
    v.getLsbD s.cfg.bitCsb1 = false) ∧
    ∃ (s : State) (c : ChipSel) (v : Word), s.sel = c.sel ∧ s.busy = false ∧ OnlyFields s.cfg v ∧
      s.sel ≠ selOf (v.getLsbD s.cfg.bitCsb0) (v.getLsbD s.cfg.bitCsb1) ∧ selOf (v.getLsbD s.cfg.bitCsb0) (v.getLsbD s.cfg.bitCsb1) ≠ .both ∧
      (s.dev c).deselect s.cfg (s.cfg.flashSize c) s.cfg.eraseSize s.draws = .error .programOutsidePage := by
  refine ⟨⟨{ attached with busy := true }, rfl⟩, ⟨attached, 0x04000000#32, ?_⟩, ⟨attached, 0x30000000#32, ?_⟩,
    ⟨selected [0x02#8, 0#8, 0#8, 0xFF#8, 1#8, 2#8] 0#2, .cs0, 0xC0000000#32, ?_⟩⟩ <;> decide +kernel

theorem witness_DataWrite : (∃ (s : State) (c : ChipSel), s.busy = false ∧ s.sfcr.getLsbD s.cfg.bitBo = true ∧ s.sel = c.sel) ∧
    ∃ s : State, s.busy = false ∧ s.sfcr.getLsbD s.cfg.bitBo = true ∧ s.sel = .none :=
  ⟨⟨onOpen, .cs0, by decide⟩, attached, by decide⟩

theorem witness_DataWrite_stops : (∃ s : State, s.busy = true) ∧ ∃ s : State, s.busy = false ∧
    s.sfcr.getLsbD s.cfg.bitBo = false :=
  ⟨⟨{ attached with busy := true }, rfl⟩, State.reset, by decide⟩

theorem witness_DataRead : ∃ s : State, s.busy = false ∧ s.sfcr.getLsbD s.cfg.bitBo = true ∧ s.sel ≠ .both ∧
    s.sel = ChipSel.cs0.sel ∧
    (Device.advances 0 (s.dev .cs0)).answer s.cfg (s.cfg.flashSize .cs0) = some 0x02#8 := ⟨onOpen, by decide +kernel⟩

theorem witness_DataRead_stops : (∃ s : State, s.busy = true) ∧ ∃ s : State, s.busy = false ∧
    s.sfcr.getLsbD s.cfg.bitBo = false :=
  ⟨⟨{ attached with busy := true }, rfl⟩, State.reset, by decide⟩

theorem witness_SpiAccessStops_both : ∃ s : State, s.busy = false ∧ s.sfcr.getLsbD s.cfg.bitBo = true ∧ s.sel = .both :=
  ⟨{ attached with csb0 := false, csb1 := false }, by decide⟩

theorem witness_FaultsExactlyWhileBusy : ∃ (i : Instr) (s : State) (f : Fault), s.cfg.ok = true ∧ s.alone = true ∧
    exec i s = .fault f :=
  ⟨.sfdrR, { attached with busy := true }, .accessWhileBusy .read .sfdr, by decide +kernel, rfl, rfl⟩

theorem witness_CpuLines : ∃ (s : State) (k : Nat), k < 8 ∧ s.cfg.ok = true ∧ s.cfg.levelLines = Cfg.decidedLines ∧
    s.cpuLines.getLsbD k = true := ⟨routed 8#32 8#32, 5, by decide +kernel⟩

theorem witness_StatusRead : ∃ s : State, s.cfg.ok = true ∧ s.cfg.sfcsrBits = [31, 30, 29, 28, 27] :=
  ⟨State.reset, by decide +kernel⟩

/-- The four refused records of the statement: each alone fails one check of R7. -/
theorem witness_ResetMeetsInvariant_refused : (∃ s : State, 1 < s.cfg.cs) ∧ (∃ s : State, ¬ s.cfg.commandBytes.Nodup) ∧
    (∃ (s : State) (a b : Nat), a < b ∧ b < 32 ∧ s.cfg.irrIndex a = s.cfg.irrIndex b ∧
      s.cfg.irrShift a = s.cfg.irrShift b) ∧
    ∃ (s : State) (l m k : Nat), l < m ∧ s.cfg.lineOfLevel l = some k ∧ s.cfg.lineOfLevel m = some k :=
  ⟨⟨{ State.reset with cfg := { Cfg.reference with cs := 2 } }, by decide⟩,
    ⟨{ State.reset with cfg := { Cfg.reference with opRead4 := 0x0B#8 } }, by decide⟩,
    ⟨{ State.reset with cfg := { Cfg.reference with nibblePlaces := (2, 28) :: Cfg.decidedPlaces.tail } }, 0, 15,
      by decide +kernel⟩,
    { State.reset with cfg := { Cfg.reference with levelLines := [2, 3, 4, 5, 2] } }, 1, 5, 2, by decide⟩

theorem witness_RouteInit : ∃ (s : State) (f : Family) (b : Word), s.schedule = [] ∧ s.cfg.ok = true ∧
    s.cfg.family = some f ∧ s.cfg.intcBase = some b :=
  ⟨State.reset, .rtl838x, 0xB8003000#32, rfl, by decide +kernel, rfl, rfl⟩

theorem witness_RouteInit_fatal : (∃ s : State, s.cfg.family = none) ∧
    ∃ s : State, s.cfg.family ≠ none ∧ s.cfg.intcBase = none :=
  ⟨⟨{ State.reset with cfg := { Cfg.reference with family := none } }, rfl⟩,
    { State.reset with cfg := { Cfg.reference with intcBase := none } }, by decide, rfl⟩

theorem witness_EverySourceIsRouted : ∃ (s : State) (f : Family) (b : Word), s.schedule = [] ∧ s.cfg.ok = true ∧
    s.cfg.family = some f ∧ s.cfg.intcBase = some b := witness_RouteInit

theorem witness_MaskChangesUnderLock : ∃ (s a b : State) (src : Nat), src < 32 ∧ s.irqLock = .free ∧
    State.point { s with irqLock := .held s.ctx } = .ok () a ∧
    State.point { a with log := a.log ++ [⟨.read, .gimr, a.gimr⟩] } = .ok () b :=
  ⟨{ State.reset with schedule := [[.setSource 3 true], []] },
    { State.reset with irqLock := .held 0, src := 8#32, schedule := [[]] },
    { State.reset with irqLock := .held 0, src := 8#32, log := [⟨.read, .gimr, 0#32⟩] }, 31, by decide, rfl, rfl, rfl⟩

theorem witness_MaskChangesUnderLock_waits :
    (∃ (s : State) (src : Nat), src < 32 ∧ s.irqLock ≠ .free ∧ s.schedule = []) ∧
    ∃ (s p : State) (src : Nat), src < 32 ∧ s.irqLock ≠ .free ∧ s.schedule ≠ [] ∧ s.point = .ok () p :=
  ⟨⟨{ State.reset with irqLock := .held 1 }, 31, by decide, by decide, rfl⟩,
    { State.reset with irqLock := .held 1, schedule := [[.setSource 3 true]] },
    { State.reset with irqLock := .held 1, src := 8#32 }, 31, by decide, by decide, by simp, rfl⟩

theorem witness_LockExcludes : (∃ (s : State) (ctx src : Nat) (i : Instr), s.irqLock ≠ .free ∧ src < 32 ∧
      i = .enable src ∧ ctx ≠ s.ctx ∧ s.callOf ctx = none) ∧
    ∃ (s : State) (ctx src : Nat) (i : Instr), s.irqLock ≠ .free ∧ src < 32 ∧ i = .disable src ∧
      s.callOf ctx = some ⟨ctx, .instr i, []⟩ :=
  ⟨⟨{ State.reset with irqLock := .held 0 }, 1, 31, _, by decide, by decide, rfl, by decide, rfl⟩,
    { State.reset with irqLock := .held 0, calls := [⟨1, .instr (.disable 31), []⟩] }, 1, 31, _, by decide, by decide, rfl,
    rfl⟩

theorem witness_LockExcludes_point : ∃ s : State, s.irqLock ≠ .free ∧ s.calls ≠ [] ∧ s.schedule ≠ [] ∧
    (∀ c, c ∈ s.calls → c.got = [] ∧ ∃ src, src < 32 ∧ (c.op = .instr (.enable src) ∨ c.op = .instr (.disable src))) ∧
    ∀ batch, batch ∈ s.schedule → ∀ a, a ∈ batch → a.isHost = false ∨ (∃ ctx, a = .go ctx) ∨
      ∃ ctx src, src < 32 ∧ (a = .start ctx (.instr (.enable src)) ∨ a = .start ctx (.instr (.disable src))) := by
  refine ⟨{ State.reset with
    irqLock := .held 0, calls := [⟨1, .instr (.disable 31), []⟩],
    schedule := [[.go 1, .setSource 4 true, .start 2 (.instr (.enable 5))]] }, by decide, by simp, by simp, ?_, ?_⟩
  · intro c hc
    simp only [List.mem_singleton] at hc
    subst hc
    exact ⟨rfl, 31, by decide, .inr rfl⟩
  · intro batch hb a ha
    simp only [List.mem_singleton] at hb
    subst hb
    simp only [List.mem_cons, List.not_mem_nil, or_false] at ha
    rcases ha with rfl | rfl | rfl
    · exact .inr (.inl ⟨1, rfl⟩)
    · exact .inl rfl
    · exact .inr (.inr ⟨2, 5, by decide, .inl rfl⟩)

theorem witness_BadSourceRaises : 31 < 32 := by decide

theorem witness_Dispatch : (∃ (s a b : State) (k : Fin 8), Driven s.cfg k ∧ s.lineState[k] ≠ .dispatched ∧
      s.pathFree k = true ∧ State.point { s with lineState := s.lineState.set k .routing } = .ok () a ∧
      State.point { a with log := a.log ++ [⟨.read, .gimr, a.gimr⟩] } = .ok () b ∧ a.gimr &&& b.src = 0#32) ∧
    ∃ (s a b : State) (k : Fin 8), Driven s.cfg k ∧ s.lineState[k] ≠ .dispatched ∧ s.pathFree k = true ∧
      State.point { s with lineState := s.lineState.set k .routing } = .ok () a ∧
      State.point { a with log := a.log ++ [⟨.read, .gimr, a.gimr⟩] } = .ok () b ∧ a.gimr &&& b.src ≠ 0#32 := by
  refine ⟨⟨State.reset, _, _, 2, driven_reference 2 (by decide), ?_, ?_, rfl, rfl, ?_⟩,
    ⟨routed 0x88#32 0x88#32, _, _, 6, driven_reference 6 (by decide), ?_, ?_, rfl, rfl, ?_⟩⟩ <;> decide +kernel

theorem witness_Dispatch_stops : (∃ (s : State) (k l : Fin 8), k < l ∧ ¬ Driven s.cfg k ∧ s.pathFree k = true ∧
      ¬ Driven s.cfg l ∧ s.pathFree l = true) ∧
    ∃ (s : State) (k : Fin 8), Driven s.cfg k ∧ s.lineState[k] = .dispatched := by
  refine ⟨⟨State.reset, 1, 7, by decide, undriven_reference 1 (by decide), rfl, undriven_reference 7 (by decide), rfl⟩,
    ⟨State.reset.setLine 5 .dispatched, 5, driven_reference 5 (by decide), by decide +kernel⟩⟩

theorem witness_IrqEntry : (∃ (s : State) (pending : Byte), ∀ k : Fin 8, Driven s.cfg k →
      pending.getLsbD k = true → s.lineState[k] ≠ .idle) ∧
    ∃ (s : State) (pending : Byte), s.schedule = [] ∧ ∃ k : Fin 8, Driven s.cfg k ∧ pending.getLsbD k = true ∧
      s.lineState[k] = .idle := by
  refine ⟨⟨State.reset, 0x83#8, fun k hd hp => ?_⟩, State.reset, 0x40#8, rfl, 6, driven_reference 6 (by decide), ?_⟩
  · exact absurd hd (undriven_reference k (by revert hp; clear hd; revert k; decide))
  · decide +kernel

theorem witness_HandlerTableAndReturn : (∃ (s : State) (k : Fin 8), s.lineState[k] = .dispatched) ∧
    (∃ (s : State) (k : Fin 8), s.lineState[k] ≠ .dispatched) ∧
    ∃ (s : State) (k : Fin 8) (c : Call), s.schedule = [] ∧ s.lineState[k] = .routing ∧ c ∈ s.calls ∧
      c.op = .instr (.dispatch k) := by
  refine ⟨⟨State.reset.setLine 6 .dispatched, 6, ?_⟩, ⟨State.reset, 6, ?_⟩,
    ⟨onPath, 5, ⟨1, .instr (.dispatch 5), [0#32]⟩, rfl, ?_⟩⟩ <;> decide +kernel

/-- Sources 3 and 7 requesting; their lines move and the controller completes while an operation runs. -/
def moving (gimr : Word) : State :=
  { routed gimr 0x88#32 with schedule := [[.setSource 3 false], [.setSource 3 true, .spiComplete], []] }

theorem witness_MaskWinsOverPending : (∃ (s t : State) (src : Nat), src < 32 ∧ s.alone = true ∧ s.irqLock = .free ∧
      s.schedule ≠ [] ∧ exec (.disable src) s = .next t ∧ t.src.getLsbD src = true) ∧
    ∃ (i j : Instr) (s t u : State) (src : Nat), src < 32 ∧ s.alone = true ∧ s.gimr.getLsbD src = false ∧
      s.src.getLsbD src = true ∧ i = .dispatch 5 ∧ exec i s = .next t ∧ t.result = .selected 7 ∧
      j = .gimrW 0xFFFFFFF7#32 ∧ exec j s = .next u :=
  ⟨⟨moving 0x88#32, after (exec (.disable 3) (moving 0x88#32)), 3, by decide, by decide, rfl, by simp [moving], rfl,
      by decide +kernel⟩,
    _, _, moving 0x80#32, after (exec (.dispatch 5) (moving 0x80#32)), after (exec (.gimrW 0xFFFFFFF7#32) (moving 0x80#32)), 3,
    by decide, by decide, by decide, by decide, rfl, rfl, by decide +kernel, rfl, rfl⟩

/-- Another context disables source 3 at the interleaving point before the mask is read. -/
def disabledMeanwhile : State := { routed 0x88#32 0x88#32 with schedule := [byOther 1 (.disable 3) 4, []] }

theorem witness_MaskWinsOverPending_dispatch : ∃ (s a b t : State) (k : Fin 8) (src : Nat), src < 32 ∧
    s.gimr.getLsbD src = true ∧ s.pathFree k = true ∧
    State.point { s with lineState := s.lineState.set k .routing } = .ok () a ∧ a.gimr.getLsbD src = false ∧
    State.point { a with log := a.log ++ [⟨.read, .gimr, a.gimr⟩] } = .ok () b ∧ exec (.dispatch k) s = .next t :=
  ⟨disabledMeanwhile, _, _, after (exec (.dispatch 5) disabledMeanwhile), 5, 3, by decide, by decide, by decide, rfl,
    by decide +kernel, rfl, rfl⟩

theorem witness_MaskWinsOverPending_irqEntry : ∃ (s t : State) (pending : Byte) (src : Nat), src < 32 ∧
    (∀ (k : Fin 8) (n : Nat) (a : State),
      State.point { s with picks := n, lineState := s.lineState.set k .routing } = .ok () a → a.gimr.getLsbD src = false) ∧
    exec (.irqEntry pending) s = .next t ∧ t.result = .selected 7 := by
  refine ⟨routed 0x80#32 0x88#32, after (exec (.irqEntry 0x20#8) (routed 0x80#32 0x88#32)), 0x20#8, 3, by decide, ?_, rfl,
    by decide +kernel⟩
  intro k n a h
  rw [point_of_empty rfl] at h
  cases h
  rw [eagerStep_eq]
  show (0x80#32).getLsbD 3 = false
  decide

theorem witness_EnabledSourceIsSelected : ∃ (s : State) (src : Nat) (k : Fin 8), src < 32 ∧ s.schedule = [] ∧
    s.irqLock = .free ∧ s.gimr = 0#32 ∧ s.src = 1#32 <<< src ∧ Driven s.cfg k ∧
    s.lineState[k] ≠ .dispatched ∧ s.pathFree k = true := by
  refine ⟨routed 0#32 0x80000000#32, 31, 3, by decide, rfl, rfl, rfl, by decide, driven_reference 3 (by decide), ?_⟩
  decide +kernel

theorem witness_DisableIsIdempotent : ∃ (s : State) (src : Nat), src < 32 ∧ s.schedule = [] ∧ s.irqLock = .free :=
  ⟨routed 0xA0000008#32 0#32, 3, by decide, rfl, rfl⟩

theorem witness_LineReFires : ∃ (s : State) (k : Fin 8) (src : Nat), s.cfg.ok = true ∧ s.schedule = [] ∧
    s.lineState[k] = .dispatched ∧ src < 32 ∧ s.cfg.lineOfLevel (s.route src).toNat = some k.val ∧ s.src.getLsbD src = true ∧
    s.gimr.getLsbD src = true := by
  refine ⟨(routed 0xA0000008#32 8#32).setLine 5 .dispatched, 5, 3, ?_⟩
  decide +kernel

theorem witness_BlocksAreIndependent : ∃ (i j : Instr) (s t u : State), s.cfg.ok = true ∧ s.schedule = [] ∧ exec i s = .next t ∧
    isRouterOp i = true ∧ exec j s = .next u ∧ isRouterOp j = false :=
  ⟨.enable 3, .spiPrep, attached, after (exec (.enable 3) attached), after (exec .spiPrep attached), by decide +kernel, rfl, rfl, rfl,
    rfl, rfl⟩

theorem witness_ReadyPoll : ∃ s : State, s.cfg.ok = true ∧ s.alone = true ∧ s.spiCaller = none ∧
    s.cfg.pollBudget = some 1 ∧ s.schedule ≠ [] :=
  ⟨{ attached with cfg := { Cfg.reference with pollBudget := some 1 }, schedule := [[.setSource 3 true]] },
    by decide +kernel, rfl, rfl, rfl, by simp⟩

theorem witness_ReadyPoll_unbounded : ∃ s : State, s.cfg.ok = true ∧ s.alone = true ∧ s.spiCaller = none ∧
    s.cfg.pollBudget = none := ⟨wedgedForever, by decide +kernel, rfl, rfl, rfl⟩

theorem witness_WedgedControllerNeverReady : (∃ s : State, s.cfg.ok = true ∧ s.schedule = [] ∧ s.wedged = true ∧
      s.busy = true ∧ s.cfg.pollBudget = some (0 + 1) ∧ s.spiCaller = none) ∧
    ∃ (s : State) (got : List Word), s.cfg.ok = true ∧ s.schedule = [] ∧ s.wedged = true ∧ s.busy = true ∧
      s.cfg.pollBudget = none ∧ s.spiCaller = none ∧ got ≠ [] ∧ ∀ w, w ∈ got → w.getLsbD s.cfg.bitRdy = false :=
  ⟨⟨{ attached with wedged := true, busy := true, cfg := { Cfg.reference with pollBudget := some 1 } }, by decide +kernel, rfl,
      rfl, rfl, rfl, rfl⟩,
    wedgedForever, [0xC0000000#32], by decide +kernel, rfl, rfl, rfl, rfl, rfl, by simp,
    fun w hw => by rw [List.mem_singleton.1 hw]; decide⟩

theorem witness_GatedAccesses : ∃ (s u : State) (v : Word), s.Eager ∧ s.spiCaller = none ∧ s.sfcr.getLsbD s.cfg.bitBo = true ∧
    s.sel ≠ .both ∧
    OnlyFields s.cfg v ∧ selOf (v.getLsbD s.cfg.bitCsb0) (v.getLsbD s.cfg.bitCsb1) ≠ .both ∧
    closeFrame s.sel (eagerStep s) = .ok () u := by
  refine ⟨onOpen, { (eagerStep onOpen).setDev .cs0 (.refNor ⟨false, true, [], [0x05#8], 0, false, false⟩) with draws := 0 },
    0xF0000000#32, onOpen_ready.eager, rfl, ?_, ?_, ?_, ?_, rfl⟩ <;> decide +kernel

theorem witness_Attach : (∃ (s a b : State) (base : Word) (cs : Byte) (c : ChipSel), s.spiCaller = none ∧
    s.cfg.family ≠ none ∧
      s.cfg.spiBase = some base ∧ s.ctrl.attached = false ∧ s.spiMutex = .held s.ctx ∧
      cs = (match c with | .cs0 => 0#8 | .cs1 => 1#8) ∧ State.point { s with spiCaller := some s.ctx } = .ok () a ∧
      State.point { a with log := a.log ++ [⟨.read, .sfcr, a.sfcr⟩] } = .ok () b ∧ b.ctrl.attached = false) ∧
    ∃ (s : State) (base : Word) (cs : Byte), s.spiCaller = none ∧ s.cfg.family ≠ none ∧ s.cfg.spiBase = some base ∧
      s.ctrl.attached = false ∧ s.spiMutex = .held s.ctx ∧ 1 < cs.toNat :=
  ⟨⟨{ State.reset with spiMutex := .held 0 }, _, _, 0xB8001200#32, 1#8, .cs1, rfl, by decide, rfl, rfl, rfl, rfl, rfl, rfl, rfl⟩,
    { State.reset with spiMutex := .held 0 }, 0xB8001200#32, 2#8, rfl, by decide, rfl, rfl, rfl, by decide⟩

theorem witness_Attach_stops : (∃ s : State, s.spiCaller = none ∧ s.cfg.family = none) ∧
    (∃ s : State, s.spiCaller = none ∧ s.cfg.family ≠ none ∧ s.cfg.spiBase = none) ∧
    (∃ s : State, s.spiCaller = none ∧ s.cfg.family ≠ none ∧ s.cfg.spiBase ≠ none ∧ s.ctrl.attached = true) ∧
    ∃ s : State, s.spiCaller = none ∧ s.cfg.family ≠ none ∧ s.cfg.spiBase ≠ none ∧ s.ctrl.attached = false ∧
      s.spiMutex ≠ .held s.ctx :=
  ⟨⟨{ State.reset with cfg := { Cfg.reference with family := none } }, rfl, rfl⟩,
    ⟨{ State.reset with cfg := { Cfg.reference with spiBase := none } }, rfl, by decide, rfl⟩,
    ⟨attached, by decide⟩, State.reset, by decide⟩

theorem witness_PrimitivesNeedController : (∃ s : State, s.spiCaller = none ∧ s.ctrl.attached = false) ∧
    ∃ s : State, s.spiCaller = none ∧ s.ctrl.attached = true ∧ s.spiMutex ≠ .held s.ctx :=
  ⟨⟨State.reset, rfl, rfl⟩, { attached with spiMutex := .held 1 }, rfl, rfl, by decide⟩

theorem witness_PrimitivesNeedController_inside : ∃ (i : Instr) (s : State) (ctx : Nat), isSpiPrimitive i = true ∧
    s.spiCaller ≠ none ∧ ctx ≠ s.ctx ∧ s.callOf ctx = none ∧ WellFormed i = true :=
  ⟨.r32, { attached with spiCaller := some 2 }, 1, rfl, by decide, by decide, rfl, rfl⟩

theorem witness_PrimitivesNeedController_schedule : ∃ (i j : Instr) (s : State) (ctx : Nat) (batch : List AgentStep)
    (rest : List (List AgentStep)), s.spiCaller = none ∧ s.cfg.pollBudget ≠ some 0 ∧ s.ctrl.attached = true ∧
    s.spiMutex = .held s.ctx ∧ i = .spiPrep ∧ isSpiPrimitive j = true ∧ WellFormed j = true ∧ ctx ≠ s.ctx ∧
    s.callOf ctx = none ∧ s.schedule = (.start ctx (.instr j) :: batch) :: rest :=
  ⟨.spiPrep, .waitReady, { attached with schedule := [[.start 1 (.instr .waitReady)]] }, 1, [], [], rfl, by decide, rfl, rfl,
    rfl, rfl, rfl, by decide, rfl, rfl⟩

theorem witness_PrimitivesNeedController_other : ∃ (i a : Instr) (s t u v : State) (ctx : Nat), WellFormed i = true ∧
    i = .erase 7 ∧ a = .attach .rtl838x 2#8 ⟨0#32, 0#32, 0#32⟩ ∧ s.spiCaller = none ∧ ctx ≠ s.ctx ∧ s.callOf ctx = none ∧
    s.cfg.family ≠ none ∧ s.cfg.spiBase ≠ none ∧ s.ctrl.attached = false ∧ s.spiMutex ≠ .held ctx ∧
    t = { s with ctrl := ⟨0xB8001200#32, .cs0, .three, true⟩ } ∧ t.ctrl.attached = true ∧ t.spiMutex ≠ .held ctx ∧
    agentStep (.takeMutex ctx) t = .ok () u ∧ u.ctrl.attached = true ∧ u.spiMutex = .held ctx ∧
    u.cfg.pollBudget ≠ some 0 ∧ agentStep (.start ctx (.instr .spiPrep)) u = .ok () v ∧ v.spiCaller = some ctx :=
  ⟨_, _, State.reset, _, _, _, 1, by decide, rfl, rfl, rfl, by decide, rfl, by decide, by decide, rfl, by decide, rfl, rfl,
    by decide, rfl, rfl, rfl, by decide, rfl, rfl⟩

/-- Another context's calls without `attach`, without the mutex, and with it (R43, R97). -/
theorem test_start_needs_mutex :
    refusal (exec (.enable 3) { attached with schedule := [byOther 1 .readStatus 1] }) = some .mutexNotHeld ∧
    refusal (exec .routeInit { State.reset with schedule := [byOther 1 (.erase 0) 1] }) = some .notAttached ∧
    refusal (exec (.enable 3) { attached with schedule := [byOther 1 (.attach .rtl838x 2#8 ⟨0#32, 0#32, 0#32⟩) 1] }) =
      some .alreadyAttached ∧
    (after (exec (.enable 3) { attached with spiMutex := .free, schedule := [.takeMutex 1 :: byOther 1 .spiPrep 4] })).returned =
      [(1, .value 0x40000000#32)] := by decide +kernel

theorem witness_BadArgumentRaises : ∃ s : State, s.ctrl.attached = true ∧ s.spiMutex = .held s.ctx ∧ s.spiCaller = none ∧
    min (s.cfg.flashSize s.ctrl.cs) (2 ^ (8 * addrBytesOf s.ctrl.addrMode)) < 0xFFFFFF + 2 ∧
    min (s.cfg.flashSize s.ctrl.cs) (2 ^ (8 * addrBytesOf s.ctrl.addrMode)) < 0x1000000 + 1 :=
  ⟨attached, by decide⟩

theorem witness_SpiPrep : ∃ s u : State, s.Eager ∧ s.ctrl.attached = true ∧ s.spiMutex = .held s.ctx ∧
    s.spiCaller = none ∧
    closeFrame s.sel (eagerStep s) = .ok () u := ⟨onNor, eagerStep onNor, onNor_ready.eager, rfl, rfl, rfl, rfl⟩

theorem witness_IssueCmd : (∃ (s : State) (d : Device), s.Ready ∧ s.spiCaller = none ∧ s.sel = .none ∧
      d = (s.dev s.ctrl.cs).finish.select) ∧
    ∃ (s : State) (d : Device), s.Ready ∧ s.spiCaller = none ∧ s.sel = s.ctrl.cs.sel ∧ d = (s.dev s.ctrl.cs).finish :=
  ⟨⟨onNor, _, onNor_ready, rfl, rfl, rfl⟩, onOpen, _, onOpen_ready, rfl, rfl, rfl⟩

theorem witness_ReadReg : ∃ (s u : State) (len : Nat), s.Ready ∧ s.spiCaller = none ∧
    closeFrame s.sel (eagerStep s) = .ok () u ∧
    (len = 0 ∨ len = 1 ∨ len = 2 ∨ len = 4) := ⟨onNor, eagerStep onNor, 4, onNor_ready, rfl, rfl, by decide⟩

theorem witness_WriteReg : ∃ (s u : State) (buf : List Byte) (len : Nat), s.Ready ∧ s.spiCaller = none ∧
    closeFrame s.sel (eagerStep s) = .ok () u ∧ len ≤ 2 ∧ len ≤ buf.length ∧
    (len = 2 → s.cfg.writeReg2 = Cfg.writeReg2Default) :=
  ⟨onSim, eagerStep onSim, [0xAB#8, 0xCD#8], 2, onSim_ready, rfl, rfl, by decide, by decide, fun _ => rfl⟩

theorem witness_RegisterRoundTrip : ∃ (s u : State) (d : SimRegDev) (buf : List Byte) (len : Nat), s.Ready ∧
    s.spiCaller = none ∧
    closeFrame s.sel (eagerStep s) = .ok () u ∧ u.dev s.ctrl.cs = .simReg d ∧ (len = 1 ∨ len = 2) ∧ len ≤ buf.length ∧
    (len = 2 → s.cfg.writeReg2 = Cfg.writeReg2Default) :=
  ⟨onSim, eagerStep onSim, SimRegDev.initial, [0xAB#8, 0xCD#8], 2, onSim_ready, rfl, rfl, rfl, by decide, by decide, fun _ => rfl⟩

theorem witness_ReadStatus : ∃ (s u : State) (d : RefNor), s.Ready ∧ s.spiCaller = none ∧
    closeFrame s.sel (eagerStep s) = .ok () u ∧
    (u.dev s.ctrl.cs).finish = .refNor d := ⟨onNor, eagerStep onNor, nor, onNor_ready, rfl, rfl, rfl⟩

theorem witness_StuckDeviceTimesOut : (∃ (s u : State) (d : RefNor) (b : Nat), s.Ready ∧ s.spiCaller = none ∧
      closeFrame s.sel (eagerStep s) = .ok () u ∧ u.dev s.ctrl.cs = .refNor d ∧ d.wip = true ∧ d.stuck = true ∧
      s.cfg.pollBudget = some b) ∧
    ∃ (s u : State) (d : RefNor), s.Ready ∧ s.spiCaller = none ∧ closeFrame s.sel (eagerStep s) = .ok () u ∧
      u.dev s.ctrl.cs = .refNor d ∧ d.wip = true ∧ d.stuck = true ∧ s.cfg.pollBudget = none := by
  refine ⟨⟨onStuck, eagerStep onStuck, ⟨true, true, [], [], 0, false, true⟩, 1000, onStuck_ready, rfl, rfl, rfl, rfl, rfl, rfl⟩,
    { onStuck with cfg := { Cfg.reference with pollBudget := none } },
    eagerStep { onStuck with cfg := { Cfg.reference with pollBudget := none } }, ⟨true, true, [], [], 0, false, true⟩,
    ⟨⟨rfl, rfl, ?_⟩, rfl, rfl, ?_⟩, rfl, rfl, rfl, rfl, rfl, rfl⟩ <;> decide

theorem witness_WriteEnableHandshake : ∃ (s u : State) (d : RefNor), s.Ready ∧ s.spiCaller = none ∧
    closeFrame s.sel (eagerStep s) = .ok () u ∧ (u.dev s.ctrl.cs).finish = .refNor d ∧ d.wip = false :=
  ⟨onNor, eagerStep onNor, nor, onNor_ready, rfl, rfl, rfl, rfl⟩

theorem witness_ReadReturnsArray : ∃ (s u : State) (d : RefNor) (offset len : Nat), s.Ready ∧ s.spiCaller = none ∧
    closeFrame s.sel (eagerStep s) = .ok () u ∧ (u.dev s.ctrl.cs).finish = .refNor d ∧ d.wip = false ∧
    offset + len ≤ min (s.cfg.flashSize s.ctrl.cs) (2 ^ (8 * addrBytesOf s.ctrl.addrMode)) :=
  ⟨onNor, eagerStep onNor, nor, 0xFFFFFF, 1, onNor_ready, rfl, rfl, rfl, rfl, by decide⟩

theorem witness_WriteLeavesLastChunkOpen : ∃ (s u : State) (d : RefNor) (buf : List Byte), s.Ready ∧ s.spiCaller = none ∧
    closeFrame s.sel (eagerStep s) = .ok () u ∧ (u.dev s.ctrl.cs).finish = .refNor d ∧ d.wip = false ∧
    d.stuck = false ∧ d.mem.wf = true ∧ 0 < 300 ∧ 300 ≤ buf.length ∧
    0x200 + 300 ≤ min (s.cfg.flashSize s.ctrl.cs) (2 ^ (8 * addrBytesOf s.ctrl.addrMode)) ∧
    (0x200 % 256 = 0 ∨ 0x200 % 256 + 300 ≤ 256) :=
  ⟨onNor, eagerStep onNor, nor, List.replicate 300 7#8, onNor_ready, rfl, rfl, rfl, rfl, rfl, by decide, by decide,
    by rw [List.length_replicate],
    by decide, by decide⟩

theorem witness_WriteThenRead : ∃ (s u : State) (d : RefNor) (offset : Nat) (buf : List Byte) (len : Nat), s.Ready ∧
    s.spiCaller = none ∧
    closeFrame s.sel (eagerStep s) = .ok () u ∧ (u.dev s.ctrl.cs).finish = .refNor d ∧ d.wip = false ∧
    d.stuck = false ∧ d.mem.wf = true ∧ len ≤ buf.length ∧
    offset + len ≤ min (s.cfg.flashSize s.ctrl.cs) (2 ^ (8 * addrBytesOf s.ctrl.addrMode)) ∧
    (offset % 256 = 0 ∨ offset % 256 + len ≤ 256) ∧ ∀ i, i < len → d.mem.read (offset + i) = 0xFF#8 :=
  ⟨onNor, eagerStep onNor, nor, 0x101, [1#8, 2#8, 3#8], 3, onNor_ready, rfl, rfl, rfl, rfl, rfl, by decide, by decide,
    by decide, by decide, by decide⟩

theorem witness_EraseTakesEffectAtNextPrep : ∃ (s u : State) (d : RefNor) (offset : Nat), s.Ready ∧ s.spiCaller = none ∧
    closeFrame s.sel (eagerStep s) = .ok () u ∧ (u.dev s.ctrl.cs).finish = .refNor d ∧ d.wip = false ∧
    offset + 1 ≤ min (s.cfg.flashSize s.ctrl.cs) (2 ^ (8 * addrBytesOf s.ctrl.addrMode)) :=
  ⟨onNor, eagerStep onNor, nor, 0xFFFFFF, onNor_ready, rfl, rfl, rfl, rfl, by decide⟩

theorem witness_FrameReadStatus :
    ∃ (s u : State) (c : ChipSel) (d : RefNor) (sent : List Byte), s.Eager ∧ s.spiCaller = none ∧
    s.sfcr.getLsbD s.cfg.bitBo = true ∧
    closeFrame s.sel (eagerStep s) = .ok () u ∧ (u.dev c).finish = .refNor d ∧ sent = [] :=
  ⟨onNor, eagerStep onNor, .cs0, nor, [], onNor_ready.eager, rfl, by decide, rfl, rfl, rfl⟩

theorem witness_FrameLatchCommands : ∃ (s u : State) (c : ChipSel) (d : RefNor), s.Eager ∧ s.spiCaller = none ∧
    s.sfcr.getLsbD s.cfg.bitBo = true ∧
    closeFrame s.sel (eagerStep s) = .ok () u ∧ (u.dev c).finish = .refNor d ∧ d.wip = false :=
  ⟨onNor, eagerStep onNor, .cs0, nor, onNor_ready.eager, rfl, by decide, rfl, rfl, rfl⟩

theorem witness_FrameFastRead :
    ∃ (s u : State) (c : ChipSel) (d : RefNor) (a b : Nat) (sent : List Byte), s.Eager ∧ s.spiCaller = none ∧
    s.sfcr.getLsbD s.cfg.bitBo = true ∧
    closeFrame s.sel (eagerStep s) = .ok () u ∧ (u.dev c).finish = .refNor d ∧
    d.wip = false ∧ a < 2 ^ 24 ∧ [0x5A#8].length = s.cfg.numDummy ∧ sent = addressBytes .three a ++ [0x5A#8] ∧
    b < 2 ^ 32 :=
  ⟨onNor, eagerStep onNor, .cs0, nor, 0xFFFFFF, 0xFFFFFFFF, _, onNor_ready.eager, rfl, by decide, rfl, rfl, rfl, by decide, rfl, rfl,
    by decide⟩

theorem witness_FramePageProgram : ∃ (s u : State) (c : ChipSel) (d : RefNor), s.Eager ∧ s.spiCaller = none ∧
    s.sfcr.getLsbD s.cfg.bitBo = true ∧
    closeFrame s.sel (eagerStep s) = .ok () u ∧ (u.dev c).finish = .refNor d ∧
    d.wip = false ∧ d.mem.wf = true ∧ d.wel = true ∧ 0x1FF < 2 ^ (8 * addrBytesOf .three) ∧
    0x1FF % 256 + [0x11#8].length ≤ 256 ∧ 0x1FF + [0x11#8].length ≤ s.cfg.flashSize c ∧
    256 < 0x1FF % 256 + [0x11#8, 0x22#8].length ∧ (addressBytes .three 0x1FF).length ≤ addrBytesOf .three :=
  ⟨onNor, eagerStep onNor, .cs0, nor, onNor_ready.eager, rfl, by decide, rfl, rfl, rfl, by decide, rfl, by decide, by decide,
    by decide, by decide, by decide⟩

theorem witness_FrameSectorErase : ∃ (s u : State) (c : ChipSel) (d : RefNor), s.Eager ∧ s.spiCaller = none ∧
    s.sfcr.getLsbD s.cfg.bitBo = true ∧
    closeFrame s.sel (eagerStep s) = .ok () u ∧ (u.dev c).finish = .refNor d ∧
    d.wip = false ∧ d.wel = true ∧ 0xFFFFFF < 2 ^ (8 * addrBytesOf .three) ∧
    0xFFFFFF < s.cfg.flashSize c ∧ [1#8, 2#8].length ≠ addrBytesOf .three :=
  ⟨onNor, eagerStep onNor, .cs0, nor, onNor_ready.eager, rfl, by decide, rfl, rfl, rfl, rfl, by decide, by decide, by decide⟩

theorem witness_BusyDeviceIgnores : ∃ (s u : State) (c : ChipSel) (d : RefNor) (i : Instr), s.Eager ∧
    s.spiCaller = none ∧
    s.sfcr.getLsbD s.cfg.bitBo = true ∧ closeFrame s.sel (eagerStep s) = .ok () u ∧ u.dev c = .refNor d ∧ d.wip = true ∧
    d.stuck = true ∧ i = .wren c [] 0 :=
  ⟨onStuck, eagerStep onStuck, .cs0, ⟨true, true, [], [], 0, false, true⟩, _, onStuck_ready.eager, rfl, by decide, rfl, rfl, rfl,
    rfl, rfl⟩

theorem witness_UnknownFrameIgnored : ∃ (s u : State) (ctx : Nat) (rest : List Issue) (cmd : Byte) (c : ChipSel)
    (sent : List Byte) (reads : Nat) (d : RefNor), s.cfg.ok = true ∧ s.Eager ∧ s.spiCaller = none ∧
    s.sfcr.getLsbD s.cfg.bitBo = true ∧
    (∀ k, k ∈ s.calls → k.ctx ≠ ctx) ∧
    cmd ∉ s.cfg.commandBytes ∧ reads < 2 ^ 16 ∧
    s.program = .op ctx ⟨.norframe, [cmd, chipSelByte c, BitVec.ofNat 8 reads, BitVec.ofNat 8 (reads / 256)] ++ sent⟩ ::
      rest ∧
    closeFrame s.sel (eagerStep s) = .ok () u ∧ (u.dev c).finish = .refNor d :=
  ⟨{ onNor with program := [.op 1 ⟨.norframe, [0x9F#8, 0#8, 1#8, 0#8, 0x5A#8]⟩] },
    eagerStep { onNor with program := [.op 1 ⟨.norframe, [0x9F#8, 0#8, 1#8, 0#8, 0x5A#8]⟩] }, 1, [], 0x9F#8, .cs0, [0x5A#8], 1,
    nor, by decide +kernel, ⟨rfl, rfl, by decide +kernel⟩, rfl, by decide, by simp [onNor, withNor, attached, State.reset], by decide,
    by decide, rfl, rfl, rfl⟩

theorem witness_FramesOnOtherDevices : (∃ (s u : State) (c : ChipSel), s.Eager ∧ s.spiCaller = none ∧
    s.sfcr.getLsbD s.cfg.bitBo = true ∧
      closeFrame s.sel (eagerStep s) = .ok () u ∧ u.dev c = .absent) ∧
    ∃ (s u : State) (c : ChipSel) (d : SimRegDev), s.Eager ∧ s.spiCaller = none ∧ s.sfcr.getLsbD s.cfg.bitBo = true ∧
      closeFrame s.sel (eagerStep s) = .ok () u ∧ u.dev c = .simReg d :=
  ⟨⟨onNor, eagerStep onNor, .cs1, onNor_ready.eager, rfl, by decide, rfl, rfl⟩, onSim, eagerStep onSim, .cs0, SimRegDev.initial,
    onSim_ready.eager, rfl, by decide, rfl, rfl⟩

theorem witness_DeviceFinish : (∃ (s : State) (c : ChipSel) (d : RefNor), s.dev c = .refNor d ∧ d.wip = true ∧
      d.stuck = false) ∧ (∃ (s : State) (c : ChipSel) (d : RefNor), s.dev c = .refNor d ∧ d.stuck = true) ∧
    (∃ (s : State) (c : ChipSel) (d : SimRegDev), s.dev c = .simReg d) ∧
    ∃ (s : State) (c : ChipSel), s.dev c = .absent :=
  ⟨⟨withNor true true [], .cs0, ⟨true, true, [], [], 0, false, false⟩, rfl, rfl, rfl⟩,
    ⟨onStuck, .cs0, ⟨true, true, [], [], 0, false, true⟩, rfl, rfl⟩, ⟨onSim, .cs0, SimRegDev.initial, rfl⟩, onSim, .cs1, rfl⟩

theorem witness_DeviceFinish_controller : (∃ s : State, s.busy = true ∧ s.wedged = false) ∧ (∃ s : State, s.busy = false) ∧
    ∃ s : State, s.busy = true ∧ s.wedged = true :=
  ⟨⟨{ attached with busy := true }, rfl, rfl⟩, ⟨attached, rfl⟩, wedgedForever, rfl, rfl⟩

theorem witness_DeviceFinish_mutex : (∃ (s : State) (ctx : Nat), ctx ≠ s.ctx ∧ s.spiMutex = .free) ∧
    (∃ s : State, s.spiMutex ≠ .free) ∧
    (∃ (s : State) (ctx : Nat), ctx ≠ s.ctx ∧ s.spiMutex = .held ctx ∧ ∀ c, c ∈ s.calls → c.ctx ≠ ctx) ∧
    ∃ (s : State) (ctx : Nat) (c : Call), ctx ≠ s.ctx ∧ s.spiMutex = .held ctx ∧ c ∈ s.calls ∧ c.ctx = ctx :=
  ⟨⟨State.reset, 1, by decide, rfl⟩, ⟨attached, by decide⟩,
    ⟨{ attached with spiMutex := .held 1, calls := [⟨2, .instr .waitReady, []⟩] }, 1, by decide, rfl, by simp⟩,
    { attached with spiMutex := .held 1, calls := [⟨1, .instr .waitReady, []⟩] }, 1, ⟨1, .instr .waitReady, []⟩,
    by decide, rfl, by simp, rfl⟩

theorem witness_DeviceFinish_items : (∃ (s p : State) (ctx : Nat) (rest : List Issue), s.cfg.ok = true ∧
      s.point = .ok () p ∧ (∀ c, c ∈ p.calls → c.ctx ≠ ctx) ∧ p.program = .takeMutex ctx :: rest ∧ p.spiMutex = .free) ∧
    (∃ (s p : State) (ctx : Nat), s.cfg.ok = true ∧ s.point = .ok () p ∧ p.program = [.takeMutex ctx] ∧
      p.spiMutex ≠ .free ∧ p.calls = []) ∧
    ∃ (s p : State) (ctx : Nat) (rest : List Issue), s.cfg.ok = true ∧ s.point = .ok () p ∧
      (∀ c, c ∈ p.calls → c.ctx ≠ ctx) ∧ p.program = .releaseMutex ctx :: rest ∧ p.spiMutex = .held ctx :=
  ⟨⟨{ State.reset with program := [.takeMutex 0] }, _, 0, [], by decide +kernel, rfl, by simp [State.reset, eagerStep_eq], rfl,
      rfl⟩,
    ⟨{ attached with program := [.takeMutex 1] }, _, 1, by decide +kernel, rfl, rfl, by decide, rfl⟩,
    { attached with program := [.releaseMutex 0] }, _, 0, [], by decide +kernel, rfl,
    by simp [attached, State.reset, eagerStep_eq], rfl, rfl⟩

theorem witness_DeviceFinish_refused : ∃ (s p : State) (ctx : Nat) (rest : List Issue), s.cfg.ok = true ∧
    s.point = .ok () p ∧ (∀ c, c ∈ p.calls → c.ctx ≠ ctx) ∧ p.program = .releaseMutex ctx :: rest ∧ p.spiMutex ≠ .held ctx :=
  ⟨{ attached with program := [.releaseMutex 1] }, _, 1, [], by decide +kernel, rfl,
    by simp [attached, State.reset, eagerStep_eq], rfl, by decide⟩

end Sys2Proof.Machine.Tests
end

/-! The blocks are independent (R2), and the reset state meets the invariant (R154).

Independence rests on one fact about `Tame` properties: an operation of a block keeps a property that the interleaving
points and the steps of that block keep. It is used twice: for the SPI side as an operation of the router leaves it, and for
the router as any other operation leaves it. -/

section

namespace Sys2Proof.Machine

/-! An operation keeps a property that is tame for its block. -/

/-- The operations of the router are none of the SPI primitives (R2, R43). -/
theorem not_isSpiPrimitive_of_isRouterOp {i : Instr} (h : isRouterOp i = true) : isSpiPrimitive i = false := by
  cases i <;> first | rfl | cases h

/-- A step of a block's operation keeps a property that is tame for the block: a gated access on a busy controller, where
tameness is silent, faults (R93). -/
theorem Tame.perform_all {cfg : Cfg} {b : Bool} {P : State → Prop} (hc : Tame cfg b P) {a : Act} (ha : a.isRouter = b)
    {s : State} (h : P s) : (a.perform s).All P := by
  by_cases hg : a.gated = true → s.busy = false
  · exact (hc.perform a s h ha hg).all
  · obtain ⟨f, e⟩ := perform_fault (a := a) (s := s) (by simpa using hg)
    rw [e]; trivial

/-- An access as an operation ends in a state that the access ends in, but for the result. -/
theorem Res.All.next_result {P : State → Prop} {r : Res Result} {t : State} (h : r.All P) (e : r.toOutcome = .next t) :
    ∃ u res, P u ∧ t = { u with result := res } := by
  cases r with
  | ok a u | raised c u | pending u => cases e; exact ⟨u, _, h, rfl⟩
  | refused r | fault f => cases e

/-- The outcome of an operation has a property that is tame for its block, but for the model's record of who runs what; an
operation of the router leaves the record of who is inside an SPI primitive. -/
theorem exec_tame {b : Bool} {P : State → Prop} {i : Instr} {s t : State} (hc : Tame s.cfg b P) (hi : isRouterOp i = b)
    (h : ∀ caller, (b = true → caller = s.spiCaller) → P (s.withCaller caller)) (e : exec i s = .next t) :
    ∃ u res calls caller, P u ∧ t = { u with result := res, calls := calls, spiCaller := caller } ∧
      (b = true → caller = u.spiCaller) := by
  have hs : P s := h s.spiCaller fun _ => rfl
  rcases exec_cases i s with ⟨r, hr, he⟩ | ⟨r, v, hr, he⟩ | ⟨he, hp⟩
  · have hread : ((regRead r s).bind fun v s => .ok (Result.value v) s).All P :=
      Res.All.bind (P := P) (hc.perform_all (a := .rd r) (hr.trans hi) hs) fun _ _ _ hu => hu
    obtain ⟨u, res, hu, rfl⟩ := hread.next_result (he.symm.trans e)
    exact ⟨u, res, _, _, hu, rfl, fun _ => rfl⟩
  · have hwrite : ((regWrite r v s).bind fun _ s => .ok Result.ok s).All P := by
      have hw := hc.perform_all (a := .wr r v) (hr.trans hi) hs
      simp only [Act.perform] at hw
      cases hv : regWrite r v s <;> rw [hv] at hw <;> exact hw
    obtain ⟨u, res, hu, rfl⟩ := hwrite.next_result (he.symm.trans e)
    exact ⟨u, res, _, _, hu, rfl, fun _ => rfl⟩
  · have enter : ∀ u, enterOp (.instr i) s.ctx s = .ok () u → P u := by
      intro u hu
      rcases enterOp_cases (.instr i) s.ctx s with ⟨_, _, hx⟩ | ⟨c, hx, hcase⟩ <;> rw [hx] at hu <;> cases hu
      refine h c fun hb => ?_
      rcases hcase with ⟨_, hsame⟩ | ⟨hspi, _⟩
      · exact hsame
      · exact absurd hspi (by simp [Op.usesSpi, not_isSpiPrimitive_of_isRouterOp (hi.trans hb)])
    obtain ⟨u, res, calls, caller, hu, ht, hcaller⟩ :=
      (call_tame hc (hi ▸ hp (s.env 0)) enter).2 t (he.symm.trans e)
    exact ⟨u, res, calls, caller, hu, ht, fun hb => hcaller (not_isSpiPrimitive_of_isRouterOp (hi.trans hb))⟩

/-! The completion steps (R91, R130). -/

theorem eagerStep_busy (s : State) : (eagerStep s).busy = (s.busy && s.wedged) := by rw [eagerStep_eq]

/-- Completion steps change nothing of the SPI side but `busy` and the devices. -/
theorem eagerStep_sameSpi (s : State) : s.SameSpi (eagerStep s) := by
  rw [eagerStep_eq]; exact ⟨rfl, rfl, rfl, rfl, rfl, rfl, rfl, rfl, rfl⟩

/-! The SPI side, as an operation of the router leaves it. -/

/-- With no other agent left to act, the SPI side is that of `s` with the same context inside an SPI primitive, up to
completion steps of the controller and the devices. -/
structure State.SpiKept (s t : State) : Prop where
  schedule : t.schedule = []
  cfg : t.cfg = s.cfg
  spi : s.SameSpi t
  caller : t.spiCaller = s.spiCaller
  busy : t.busy = s.busy ∨ t.busy = (eagerStep s).busy
  dev : ∀ c, t.dev c = s.dev c ∨ t.dev c = (s.dev c).finish

theorem State.SpiKept.refl {s : State} (h : s.schedule = []) : s.SpiKept s :=
  ⟨h, rfl, .refl s, rfl, .inl rfl, fun _ => .inl rfl⟩

/-- A second round of completion steps does no more than the first. -/
theorem State.SpiKept.eagerStep {s t : State} (h : s.SpiKept t) : s.SpiKept (eagerStep t) where
  schedule := by rw [eagerStep_eq]; exact h.schedule
  cfg := by rw [eagerStep_eq]; exact h.cfg
  spi := h.spi.trans (eagerStep_sameSpi t)
  caller := by rw [eagerStep_eq]; exact h.caller
  busy := by
    simp only [eagerStep_busy, h.spi.wedged]
    rcases h.busy with e | e <;> simp [e, eagerStep_busy]
  dev c := by
    rw [eagerStep_dev]
    rcases h.dev c with e | e <;> simp [e]

theorem State.RouterFrame.dev {s t : State} (h : s.RouterFrame t) : ∀ c, t.dev c = s.dev c
  | .cs0 => h.dev0
  | .cs1 => h.dev1

theorem State.SpiKept.routerFrame {s t u : State} (h : s.SpiKept t) (k : t.RouterFrame u) : s.SpiKept u where
  schedule := k.rest.schedule.trans h.schedule
  cfg := k.rest.cfg.trans h.cfg
  spi := h.spi.trans k.spi
  caller := k.rest.spiCaller.trans h.caller
  busy := by rw [k.busy]; exact h.busy
  dev c := by rw [k.dev c]; exact h.dev c

/-- The steps of the router, and the interleaving points, keep the SPI side up to completion steps (R2, R40). -/
theorem spiKept_tame {s : State} (hok : s.cfg.ok = true) : Tame s.cfg true s.SpiKept where
  ok := hok
  cfg _ h := h.cfg
  point t h := by
    rw [point_of_empty h.schedule]
    exact ⟨h.eagerStep, fun hb => by rw [eagerStep_busy, hb, Bool.false_and]⟩
  perform _ _ h ha _ := (perform_router ha).mono fun _ => h.routerFrame

/-! The router, as every other operation leaves it. -/

/-- With no other agent left to act, the router is that of `s`. -/
structure State.RouterKept (s t : State) : Prop where
  schedule : t.schedule = []
  cfg : t.cfg = s.cfg
  router : s.SameRouter t

/-- The steps of the SPI side, and the interleaving points, keep the router (R2, R40). -/
theorem routerKept_tame {s : State} (hok : s.cfg.ok = true) : Tame s.cfg false s.RouterKept where
  ok := hok
  cfg _ h := h.cfg
  point t h := by
    have f := eagerStep_frame t
    rw [point_of_empty h.schedule]
    exact ⟨⟨f.rest.schedule.trans h.schedule, f.rest.cfg.trans h.cfg, h.router.trans f.router⟩,
      fun hb => by rw [eagerStep_busy, hb, Bool.false_and]⟩
  perform _ _ h ha hg := (perform_spi ha hg).mono fun _ f =>
    ⟨f.rest.schedule.trans h.schedule, f.rest.cfg.trans h.cfg, h.router.trans f.router⟩

/-- With no other agent acting, an operation of the router keeps the SPI side up to completion steps (R2). -/
theorem exec_router_spiKept {i : Instr} {s t : State} (hok : s.cfg.ok = true) (hs : s.schedule = [])
    (hi : isRouterOp i = true) (e : exec i s = .next t) : s.SpiKept t := by
  obtain ⟨u, res, calls, caller, hu, rfl, hcaller⟩ := exec_tame (spiKept_tame hok) hi
    (fun caller hc => by rw [hc rfl, State.withCaller_same]; exact .refl hs) e
  refine ⟨hu.schedule, hu.cfg, hu.spi.trans ⟨rfl, rfl, rfl, rfl, rfl, rfl, rfl, rfl, rfl⟩,
    (hcaller rfl).trans hu.caller, hu.busy, fun c => ?_⟩
  cases c with
  | cs0 => exact hu.dev .cs0
  | cs1 => exact hu.dev .cs1

/-- With no other agent acting, an operation that is none of the router's keeps the router (R2). -/
theorem exec_spi_sameRouter {i : Instr} {s t : State} (hok : s.cfg.ok = true) (hs : s.schedule = [])
    (hi : isRouterOp i = false) (e : exec i s = .next t) : s.SameRouter t := by
  obtain ⟨u, res, calls, caller, hu, rfl, _⟩ := exec_tame (routerKept_tame hok) hi
    (fun caller _ => ⟨hs, rfl, ⟨rfl, rfl, rfl, rfl, rfl, rfl, rfl, rfl, rfl⟩⟩) e
  exact hu.router.trans ⟨rfl, rfl, rfl, rfl, rfl, rfl, rfl, rfl, rfl⟩

/-- Settles O33: each block's steps are tame for the other block's state. -/
theorem blocksAreIndependent : Obligations.BlocksAreIndependent := by
  intro i s t hok hs e
  constructor
  · intro hi
    have h := exec_router_spiKept hok hs hi e
    exact ⟨h.spi, h.caller, h.busy, h.dev⟩
  · intro hi
    exact exec_spi_sameRouter hok hs hi e

/-! The reset state. -/

/-- The reset state meets the invariant: arrays and maps are canonical, every nibble is 0, no device is selected and no
frame is open, every line is idle (R154). -/
theorem reset_inv : State.reset.Inv where
  wf0 := reset_memory_wf.1
  wf1 := reset_memory_wf.2
  routing := by decide
  notBoth := by decide
  frame0 := by decide
  frame1 := by decide
  lines k _ := by simp [State.reset]

/-- With no operation in progress and no context inside an SPI primitive, the primitives exclude each other (R43). -/
theorem State.Exclusive.of_idle {s : State} (hcalls : s.calls = []) (hcaller : s.spiCaller = none) : s.Exclusive where
  distinct := by rw [hcalls]; exact .nil
  inside ctx := by simp [hcalls, hcaller]

/-- A step in a state whose configuration cannot meet R7 is refused. -/
theorem step_badConfig {s : State} (h : s.cfg.ok = true → False) : step s = .refused .badConfig := by
  rw [step, if_neg h]

/-- Settles O2: the values of R6 by evaluation, the refusals from what a legal configuration is like. -/
theorem resetMeetsInvariant : Obligations.ResetMeetsInvariant := by
  have lines : ∀ l, 1 ≤ l → l ≤ 5 → State.reset.cfg.lineOfLevel l = some (l + 1) := fun l h1 h5 =>
    reference_lines ⟨l, by omega⟩ (Fin.ne_of_val_ne (Nat.ne_of_gt h1))
  refine ⟨reset_inv, .of_idle rfl rfl, rfl, rfl, reference_ok, reference_places, lines, rfl, rfl, rfl, rfl, rfl, rfl, rfl,
    rfl, rfl, rfl, fun s => ⟨?cs, ?commands, ?places, ?levels⟩⟩
  case cs => exact fun h => step_badConfig fun hok => Nat.not_lt.mpr (Cfg.inputs hok).cs h
  case commands => exact fun h => step_badConfig fun hok => h (Cfg.commands hok).nodup
  case places =>
    intro a b hab hb hindex hshift
    exact step_badConfig fun hok => hab.ne (Cfg.nibblePlace_injective hok (hab.trans hb) hb hindex hshift)
  case levels =>
    intro l m k hlm hl hm
    exact step_badConfig fun hok => hlm.ne (Cfg.lineOfLevel_injective hok hl hm)

end Sys2Proof.Machine

end

/-! What an attached controller keeps (R25, R97, R111), along every step of the machine.

`perform_fixed` says it of one step of an operation, of whatever context; here it is the `Closed` property that
`step_keeps` carries through a whole step of the machine, the moves of the other agents included. -/

section

namespace Sys2Proof.Machine

/-- `t` has the configuration and the fault-injection input of `s` (rows 1, 31), and its controller record once that is
attached (R97). -/
structure State.KeepsRecord (s t : State) : Prop where
  cfg : t.cfg = s.cfg
  wedged : t.wedged = s.wedged
  ctrl : s.ctrl.attached = true → t.ctrl = s.ctrl

theorem State.KeepsRecord.refl (s : State) : s.KeepsRecord s := ⟨rfl, rfl, fun _ => rfl⟩

/-- A record that is attached is attached in every later state, so it stays the same from one to the next. -/
theorem State.KeepsRecord.trans {s t u : State} (h : s.KeepsRecord t) (k : t.KeepsRecord u) : s.KeepsRecord u where
  cfg := k.cfg.trans h.cfg
  wedged := k.wedged.trans h.wedged
  ctrl ha := by
    have ht : t.ctrl = s.ctrl := h.ctrl ha
    have hu : u.ctrl = t.ctrl := k.ctrl (ht ▸ ha)
    exact hu.trans ht

theorem keepsRecord_setSource (s : State) (src : Nat) (level : Bool) : s.KeepsRecord (setSource src level s) :=
  ⟨rfl, rfl, fun _ => rfl⟩

theorem keepsRecord_spiComplete (s : State) : s.KeepsRecord (spiComplete s) := by
  simp only [spiComplete]
  split
  · exact ⟨rfl, rfl, fun _ => rfl⟩
  · exact .refl s

theorem keepsRecord_devFinish (c : ChipSel) (s : State) : s.KeepsRecord (devFinish c s) := by
  cases c <;> exact ⟨rfl, rfl, fun _ => rfl⟩

theorem Res.All.mono {α : Type} {P Q : State → Prop} {r : Res α} (h : r.All P) (k : ∀ s, P s → Q s) : r.All Q := by
  cases r with
  | ok _ s | raised _ s | pending s => exact k s h
  | refused _ | fault _ => trivial

theorem keepsRecord_perform (a : Act) (s : State) : (a.perform s).All s.KeepsRecord :=
  Res.All.mono (perform_fixed a s) fun _ ⟨hcfg, hwedged, hctrl⟩ => ⟨hcfg, hwedged, hctrl⟩

/-- Every step of an operation, every move of the environment and the bookkeeping of who runs what keep the record. -/
theorem keepsRecord_closed (s : State) : Closed s.KeepsRecord where
  perform a t h := (keepsRecord_perform a t).mono fun _ => h.trans
  source t src level h := h.trans (keepsRecord_setSource t src level)
  complete t h := h.trans (keepsRecord_spiComplete t)
  finish t c h := h.trans (keepsRecord_devFinish c t)
  model _ _ _ _ _ _ _ _ _ h := ⟨h.cfg, h.wedged, h.ctrl⟩

/-- Settles O4: the step of the machine keeps the closed property of having the record of the state before. -/
theorem attachedControllerIsFixed : Obligations.AttachedControllerIsFixed := by
  intro s t e
  have h : s.KeepsRecord t := step_keeps (keepsRecord_closed s) (.refl s) e
  exact ⟨h.ctrl, h.cfg, h.wedged⟩

end Sys2Proof.Machine

end

/-! SPI primitives as their callers run them: what `exec` comes to in a `Ready` state, in terms of the protocol engine's
programs; then `write` followed by `read` (R108, R109, R125), and `issue_cmd` (R102). -/

section

namespace Sys2Proof.Machine

/-! A primitive whose preconditions hold (R43, R97). -/

/-- The program of a primitive runs with its caller inside. -/
theorem State.Ready.runs {s : State} (h : s.Ready) : Runs (s.env 0) (s.withCaller (some s.ctx)) :=
  (h.eager.inside (some s.ctx)).runs 0

/-- What a primitive leaves alone includes what the next one needs. -/
theorem State.EngineFrame.ready {s t : State} (f : s.EngineFrame t) (h : s.Ready) : t.Ready where
  eager := f.eager h.eager
  attached := by rw [f.ctrl]; exact h.attached
  mutex := by rw [f.spiMutex, f.rest.ctx]; exact h.mutex
  lanes := f.lanes h.lanes

/-- A primitive whose preconditions hold returns what its program answers with the caller inside. -/
theorem exec_ready {i : Instr} {p : Env → Prog Result} (hi : isSpiPrimitive i = true)
    (hp : ∀ e, progInstr e i = withController (p e)) {s t : State} {r : Result} (h : s.Ready) (hf : s.spiCaller = none)
    (e : (p (s.env 0)).den (s.withCaller (some s.ctx)) = .ok r t) : exec i s = .next (t.ended (.instr i) r) := by
  have ready := h.inside (some s.ctx)
  rw [exec_spi hi]
  refine call_ok (enterOp_spi (op := .instr i) hi hf s.ctx) ?_
  rw [hp, withController_ready _ ready.attached ready.mutex]
  exact e

/-- Who is inside does not matter for closing the open frame. -/
theorem closeFrame_inside {s u : State} (hc : closeFrame s.sel (eagerStep s) = .ok () u) (c : Option Nat) :
    closeFrame (s.withCaller c).sel (eagerStep (s.withCaller c)) = .ok () (u.withCaller c) := by
  rw [eagerStep_withCaller]
  exact closeFrame_withCaller hc c

/-- Closing the open frame after a primitive that changed no register and no device is closing it before. -/
theorem closeFrame_ended {s u : State} (hc : closeFrame s.sel (eagerStep s) = .ok () u) (c : Option Nat) (op : Op)
    (r : Result) : ∃ v, closeFrame ((s.withCaller c).ended op r).sel (eagerStep ((s.withCaller c).ended op r)) = .ok () v ∧
      ∀ x, v.dev x = u.dev x := by
  obtain ⟨v, hv, hdev, _⟩ := closeFrame_congr (t := eagerStep ((s.withCaller c).ended op r)) hc
    (fun x => by simp [eagerStep_dev]) (by simp) (by simp)
  exact ⟨v, by simpa using hv, hdev⟩

/-- An open frame stays open when its operation returns. -/
theorem Link.ended {c : ChipSel} {k : BitVec 2} {d e : Device} {s : State} (h : Link c k d e s) (op : Op) (r : Result) :
    Link c k d e (s.ended op r) :=
  ⟨by simp [h.sel], by simp [h.len], by simp [h.dev], by simp [h.other], h.settled, h.settled_other⟩

theorem Pending.ended {c : ChipSel} {mem : Memory} {stuck : Bool} {cmd : Byte} {args : List Byte} {e : Device} {s : State}
    (h : Pending c mem stuck cmd args e s) (op : Op) (r : Result) : Pending c mem stuck cmd args e (s.ended op r) := by
  obtain ⟨d, k, l, hd⟩ := h.link
  exact ⟨d, k, l.ended op r, hd⟩

/-! `read` and `write` on the reference device. -/

/-- `read` returns the bytes of the array and leaves the device idle, the array as it was (R108, R162). -/
theorem exec_read {s u : State} {d : RefNor} {offset len : Nat} (h : s.Ready) (hf : s.spiCaller = none)
    (hc : closeFrame s.sel (eagerStep s) = .ok () u) (hd : (u.dev s.ctrl.cs).finish = .refNor d) (hw : d.wip = false)
    (hr : offset + len ≤ rangeLimit s.cfg s.ctrl) :
    ∃ t, exec (.read offset len) s = .next (t.ended (.instr (.read offset len))
        (.count len ((List.range len).map fun i => d.mem.read (offset + i)))) ∧
      State.Moves (handshakeTouches s.cfg s.ctrl.cs ++ chunkTouches s.cfg s.ctrl.cs s.ctrl.addrMode offset len)
        (s.withCaller (some s.ctx)) t ∧
      Idles s.cfg s.ctrl.cs d.mem true d.stuck (u.dev s.ctrl.cs.other).finish t := by
  obtain ⟨t, e, m, i⟩ := readFlash_refNor h.runs (h.inside _).lanes hr (closeFrame_inside hc _)
    (by simpa using hd) hw
  refine ⟨t, exec_ready (p := fun e => readFlash e offset len) rfl (fun _ => rfl) h hf e, m, ?_⟩
  rw [State.withCaller_dev] at i
  exact i

/-- `write` once its range and its buffer are as they should be: the chunks (R109). -/
theorem writeFlash_den {E : Env} {s : State} {offset len : Nat} {buf : List Byte} (hl : len ≤ buf.length)
    (hr : offset + len ≤ rangeLimit E.cfg E.ctrl) : (writeFlash E offset buf len).den s =
      ((writeChunks E (chunkCount len) offset (buf.take len)).den s).bind fun _ t => .ok (.count len []) t := by
  simp only [writeFlash, checkRange, if_neg (Nat.not_lt.mpr hr), if_neg (Nat.not_lt.mpr hl), Prog.den_bind, Prog.den_ret,
    Prog.bind_ret]

theorem Programmed.nil (mem : Memory) (a : Nat) : Programmed mem mem a [] :=
  ⟨fun i hi => absurd hi (Nat.not_lt_zero i), fun _ _ => rfl⟩

/-- Once the frame that `write` leaves open is closed and the device has finished, the data is programmed (R109, R125, R161).
A `write` of no bytes makes no access at all: it leaves whatever frame was open. -/
theorem exec_write_closed {s u : State} {d : RefNor} {offset len : Nat} {buf : List Byte} (h : s.Ready)
    (hf : s.spiCaller = none) (hc : closeFrame s.sel (eagerStep s) = .ok () u)
    (hd : (u.dev s.ctrl.cs).finish = .refNor d) (hw : d.wip = false) (hst : d.stuck = false) (hwf : d.mem.wf = true)
    (hl : len ≤ buf.length) (hr : offset + len ≤ rangeLimit s.cfg s.ctrl)
    (hpage : offset % 256 = 0 ∨ offset % 256 + len ≤ 256) :
    ∃ t v e, exec (.write offset buf len) s = .next t ∧ s.EngineFrame t ∧
      closeFrame t.sel (eagerStep t) = .ok () v ∧ (v.dev s.ctrl.cs).finish = .refNor e ∧ e.wip = false ∧
      Programmed d.mem e.mem offset (buf.take len) := by
  have den := writeFlash_den (E := s.env 0) (s := s.withCaller (some s.ctx)) hl hr
  have returns : ∀ t, (writeFlash (s.env 0) offset buf len).den (s.withCaller (some s.ctx)) = .ok (.count len []) t →
      exec (.write offset buf len) s = .next (t.ended (.instr (.write offset buf len)) (.count len [])) := fun t =>
    exec_ready (p := fun e => writeFlash e offset buf len) rfl (fun _ => rfl) h hf
  rcases Nat.eq_zero_or_pos len with rfl | hpos
  · obtain ⟨v, hv, hdev⟩ := closeFrame_ended hc (some s.ctx) (.instr (.write offset buf 0)) (.count 0 [])
    exact ⟨_, v, d, returns _ den, (State.EngineFrame.refl _).ended hf rfl _, hv, by rw [hdev]; exact hd, hw, .nil _ _⟩
  · have hlen : (buf.take len).length = len := List.length_take_of_le hl
    have hsize : offset + len ≤ s.cfg.flashSize s.ctrl.cs := hr.trans (Nat.min_le_left _ _)
    have haddr : offset + len ≤ 2 ^ (8 * addrBytesOf s.ctrl.addrMode) := hr.trans (Nat.min_le_right _ _)
    have hk : (len - 1) / 256 + 1 = chunkCount len := by simp only [chunkCount, Config.chunk]; omega
    obtain ⟨t, mem, a, data, e, f, pend, _, hne, ha, hfit, _, _, _, hprog⟩ := writeChunks_refNor ((len - 1) / 256)
      (a := offset) (data := buf.take len) h.runs (h.inside _).lanes (closeFrame_inside hc _) (by simpa using hd) hw hst hwf
      (by rw [hlen]; exact hk) (by rw [hlen]; exact hsize) (by rw [hlen]; exact haddr) (by rw [hlen]; exact hpage)
    rw [hk] at e
    rw [e] at den
    have frame := f.ended hf (op := .instr (.write offset buf len)) rfl (.count len [])
    obtain ⟨v, x, hv, hx, hwx, _, hmem, _⟩ := close_pending (cfg := s.cfg) (c := s.ctrl.cs) frame.rest.cfg.symm
      h.eager.cfgOk (by rw [frame.ctrl]) (by rw [frame.ctrl]; exact pend.ended _ _) (by rw [frame.ctrl]; exact ha) hne hfit
    refine ⟨_, v, x, returns t den, frame, hv, by rw [← frame.ctrl]; exact hx, hwx, ?_⟩
    rw [hmem]
    exact hprog _

/-- Data programmed into erased bytes reads back (R125). -/
theorem Programmed.read_back {before after : Memory} {a : Nat} {data : List Byte} (h : Programmed before after a data)
    (he : ∀ i, i < data.length → before.read (a + i) = Config.erasedByte) :
    ((List.range data.length).map fun i => after.read (a + i)) = data := by
  refine List.ext_getElem (by simp) fun i _ hi => ?_
  simp only [List.getElem_map, List.getElem_range]
  rw [h.1 i hi (he i hi), List.getD_eq_getElem _ _ hi]

/-- Settles O50: the `read` closes the frame that the `write` left open, which programs the last chunk. -/
theorem writeThenRead : Obligations.WriteThenRead := by
  intro s u d offset buf len h hf hc hd hw hst hwf hl hr hpage herased
  have hlen : (buf.take len).length = len := List.length_take_of_le hl
  obtain ⟨t, w, x, ewrite, f, hcw, hdw, hwx, hprog⟩ := exec_write_closed h hf hc hd hw hst hwf hl hr hpage
  obtain ⟨v, eread, _, idle⟩ := exec_read (offset := offset) (len := len) (f.ready h) (f.rest.spiCaller.trans hf) hcw
    (by rw [f.ctrl]; exact hdw) hwx (by rw [f.rest.cfg, f.ctrl]; exact hr)
  obtain ⟨e, k, link, _, _, hmem, _⟩ := idle.link
  rw [f.ctrl] at link
  refine ⟨t, _, e, ewrite, eread, ?data, by simpa using link.dev, ?outside⟩
  case data =>
    have back := hprog.read_back (by rw [hlen]; exact herased)
    rw [hlen] at back
    rw [State.ended_result, back]
  case outside =>
    intro a ha
    rw [hmem]
    exact hprog.2 a (by rw [hlen]; exact ha)

/-! `issue_cmd` on any device (R102). -/

/-- Taking the completion steps a second time does nothing, so a gated access answers the same after them. -/
theorem gated32_eagerStep {E : Env} {s : State} (h : Runs E s) (reg : GatedReg) (v : Word) :
    (gated32 E reg v).den (eagerStep s) = (gated32 E reg v).den s := by
  rw [gated32_eager h, gated32_eager ((eagerStep_frame s).runs h)]
  simp only [State.polled, eagerStep_eagerStep]

/-- Asserting the chip-select `c` makes `d` the device inside the frame: a frame opens when no device is selected, and the
open one goes on when `c` is selected already (R87). -/
def Joins (c : ChipSel) (d : Device) (s : State) : Prop :=
  (s.sel = .none ∧ d = (s.dev c).finish.select) ∨ (s.sel = c.sel ∧ d = (s.dev c).finish)

/-- The open frame of `c`, once the devices have taken their own steps. -/
theorem link_eagerStep {s : State} {c : ChipSel} (hs : s.sel = c.sel) :
    Link c s.len (s.dev c).finish (s.dev c.other).finish (eagerStep s) where
  sel := by rw [eagerStep_eq]; exact hs
  len := by rw [eagerStep_eq]
  dev := eagerStep_dev s c
  other := eagerStep_dev s c.other
  settled := Device.finish_finish _
  settled_other := Device.finish_finish _

/-- Setting the width opens the frame of a device, or goes on in it (R54, R87). -/
theorem setWidth_joins {s : State} {c : ChipSel} {d : Device} {E : Env} (h : Runs E s) (hj : Joins c d s) (k : Fin 4) :
    ∃ t, (setWidth E (baseWord E.cfg c) (k.val + 1)).den s = .ok () t ∧ s.EngineFrame t ∧
      Link c (BitVec.ofNat 2 k.val) d (s.dev c.other).finish t := by
  rcases hj with ⟨hs, rfl⟩ | ⟨hs, rfl⟩
  · have parked : Parked (fun c => (s.dev c).finish) s := ⟨hs, fun _ => rfl⟩
    obtain ⟨t, e, m, l⟩ := setWidth_parked h parked c k
    exact ⟨t, e, m.toEngineFrame, l⟩
  · have f := eagerStep_frame s
    obtain ⟨t, e, m, l⟩ := setWidth_link (f.runs h) (link_eagerStep hs) k
    exact ⟨t, (gated32_eagerStep h _ _).symm.trans e, f.trans m.toEngineFrame, l⟩

/-- Sending an address gives the device its bytes, most significant first (R36, R102). -/
theorem sendAddr_link {s : State} {c : ChipSel} {k : BitVec 2} {d e : Device} {E : Env} (h : Runs E s)
    (hb : s.bigEndianLanes = true) (hl : Link c k d e s) (a : Word) :
    ∃ t k', (sendAddr E (baseWord E.cfg c) a).den s = .ok () t ∧ s.EngineFrame t ∧
      Link c k' (d.puts (addressBytes E.ctrl.addrMode a.toNat)) e t := by
  have hlt : addrBytesOf E.ctrl.addrMode - 1 < 4 := by cases E.ctrl.addrMode <;> decide
  have hk : addrBytesOf E.ctrl.addrMode - 1 + 1 = addrBytesOf E.ctrl.addrMode := by cases E.ctrl.addrMode <;> rfl
  have ha : trunc32 a.toNat = a := by simp [trunc32]
  obtain ⟨t1, e1, m1, l1⟩ := setWidth_link h hl ⟨addrBytesOf E.ctrl.addrMode - 1, hlt⟩
  obtain ⟨t2, e2, m2, l2⟩ := gatedSfdr_link (m1.runs h) (m1.lanes hb) l1 (addrWord E.ctrl.addrMode a)
  have lanes := writeLanes_addr E.ctrl.addrMode a.toNat
  rw [ha] at lanes
  simp only [hk] at e1
  refine ⟨t2, _, ?_, m1.toEngineFrame.trans m2.toEngineFrame, lanes ▸ l2⟩
  simp only [sendAddr, Prog.den_bind, e1, Res.bind_ok, e2]

/-- `issue_cmd` gives the device inside the frame the command byte, and the address bytes if there is an address (R102). -/
theorem issue_joins {s : State} {c : ChipSel} {d : Device} {E : Env} (h : Runs E s) (hb : s.bigEndianLanes = true)
    (hj : Joins c d s) (op : Byte) (addr : Option Word) :
    ∃ t k, (issue E (baseWord E.cfg c) op addr).den s = .ok () t ∧ s.EngineFrame t ∧
      Link c k (d.puts (op :: addr.elim [] fun a => addressBytes E.ctrl.addrMode a.toNat)) (s.dev c.other).finish t := by
  obtain ⟨t1, e1, f1, l1⟩ := setWidth_joins h hj 0
  obtain ⟨t2, e2, m2, l2⟩ := gatedSfdr_link (f1.runs h) (f1.lanes hb) l1 (commandWord op)
  have f2 := f1.trans m2.toEngineFrame
  have e1' : (setWidth E (baseWord E.cfg c) 1).den s = .ok () t1 := e1
  have l2' : Link c 0#2 (d.puts [op]) (s.dev c.other).finish t2 := writeLanes_command op ▸ l2
  cases addr with
  | none => exact ⟨t2, _, by simp only [issue, Prog.den_bind, e1', Res.bind_ok, e2, Prog.den_ret], f2, l2'⟩
  | some a =>
    obtain ⟨t3, k, e3, f3, l3⟩ := sendAddr_link (f2.runs h) (f2.lanes hb) l2' a
    exact ⟨t3, k, by simp only [issue, Prog.den_bind, e1', Res.bind_ok, e2, e3], f2.trans f3,
      (Device.puts_append d [op] _).symm ▸ l3⟩

/-- Settles O41: the frame opens or goes on with the first access, and then takes the command and the address. -/
theorem issueCmd : Obligations.IssueCmd := by
  intro s op addr d h hf hj
  have joins : Joins s.ctrl.cs d (s.withCaller (some s.ctx)) := by
    simpa only [Joins, State.withCaller_sel, State.withCaller_dev] using hj
  obtain ⟨t, k, e, f, l⟩ := issue_joins h.runs (h.inside _).lanes joins op addr
  rw [State.withCaller_dev] at l
  have den : (issue (s.env 0) (baseWord s.cfg s.ctrl.cs) op addr).den (s.withCaller (some s.ctx)) = .ok () t := e
  have returns := exec_ready (i := .issueCmd (baseWord s.cfg s.ctrl.cs) op addr) (r := .ok) (t := t)
    (p := fun e => (issue e (baseWord s.cfg s.ctrl.cs) op addr).bind fun _ => .ret .ok) rfl (fun _ => rfl) h hf
    (by rw [Prog.den_bind, den]; rfl)
  refine ⟨_, returns, rfl, by simpa using l.sel, ?device, by simpa using l.other, f.ended hf rfl .ok⟩
  case device =>
    rw [State.ended_dev, l.dev]
    cases addr <;> rfl

end Sys2Proof.Machine

end

/-! The router lock keeps the mask (R35, R42, R159): an `enable` or `disable` that has been called waits at its first step,
`lock`, for as long as the lock is held, whoever steps it. -/

section

namespace Sys2Proof.Machine

/-- The operation is a change of the mask (R71, R72). -/
def Op.changesMask (op : Op) : Prop := ∃ src, src < 32 ∧ (op = .instr (.enable src) ∨ op = .instr (.disable src))

/-- The operation in progress is a change of the mask that has taken no step yet. -/
def Call.waitsForLock (c : Call) : Prop := c.got = [] ∧ c.op.changesMask

/-- A change of the mask begins with the lock (R42). -/
theorem changeMask_eq_lock {src : Nat} (h : src < 32) (f : Word → Word) : ∃ next, changeMask src f = .act .lock next := by
  rw [changeMask, checkSource, if_neg (by omega)]
  exact ⟨_, rfl⟩

/-- An operation that has got no answer yet has its whole program left. -/
theorem State.rest_new (s : State) (ctx : Nat) (op : Op) : s.rest ⟨ctx, op, []⟩ = progOf (s.env 0) op := by
  simp only [State.rest, Prog.after, List.length_nil]

theorem Call.waitsForLock.rest {c : Call} (h : c.waitsForLock) (s : State) : ∃ next, s.rest c = .act .lock next := by
  obtain ⟨ctx, op, got⟩ := c
  obtain ⟨rfl, src, hs, rfl | rfl⟩ := h <;> rw [State.rest_new]
  · exact changeMask_eq_lock hs (maskSet src)
  · exact changeMask_eq_lock hs (maskClear src)

theorem Op.changesMask.usesSpi {op : Op} (h : op.changesMask) : op.usesSpi = false := by
  obtain ⟨src, _, rfl | rfl⟩ := h <;> rfl

theorem Op.changesMask.wellFormed {op : Op} (h : op.changesMask) (cfg : Cfg) : op.wellFormed cfg = true := by
  obtain ⟨src, hs, rfl | rfl⟩ := h <;> exact decide_eq_true (by omega)

/-- A change of the mask that is called stays before its first step: taking the lock is no test of R97. -/
theorem called_waits {c : Call} (h : c.waitsForLock) (s : State) : called c s = .ok () (s.keepCall c) := by
  obtain ⟨next, e⟩ := h.rest s
  simp only [called, settle, e, Prog.beginsWithTest, Act.isTest, Bool.false_eq_true, if_false]

/-- While the lock is held, a change of the mask that is stepped stays before its first step (R42). -/
theorem advance_waits {c : Call} (h : c.waitsForLock) {s : State} (hl : s.irqLock ≠ .free) :
    advance c s = .ok () (s.keepCall c) := by
  obtain ⟨next, e⟩ := h.rest s
  have closed : Act.lock.mayGo s = false := beq_eq_false_iff_ne.mpr hl
  simp only [advance, e, closed, Bool.false_eq_true, if_false]

/-- A context calls a change of the mask, if it may call anything. -/
theorem start_waits {op : Op} (h : op.changesMask) (ctx : Nat) (s : State) : agentStep (.start ctx op) s =
    if ctx ≠ s.ctx ∧ s.callOf ctx = none then .ok () (s.keepCall ⟨ctx, op, []⟩) else .ok () s := by
  simp only [agentStep, h.wellFormed, and_true, enterOp_other h.usesSpi, Res.bind_ok,
    called_waits (c := ⟨ctx, op, []⟩) ⟨rfl, h⟩]

/-- A context steps its change of the mask while the lock is held. -/
theorem go_waits {c : Call} (h : c.waitsForLock) {ctx : Nat} {s : State} (hl : s.irqLock ≠ .free)
    (hc : s.callOf ctx = some c) : agentStep (.go ctx) s = .ok () ((s.dropCall ctx).keepCall c) := by
  simp only [agentStep, hc]
  exact advance_waits h hl

/-! An interleaving point at which nothing else but the environment acts. -/

/-- The step is one of the environment, a call of a change of the mask, or a step of an operation in progress. -/
def AgentStep.leavesMask (a : AgentStep) : Prop :=
  a.isHost = false ∨ (∃ ctx, a = .go ctx) ∨ ∃ ctx op, Op.changesMask op ∧ a = .start ctx op

/-- The lock is held, as in `s`, the mask is that of `s`, and all operations in progress wait for the lock. -/
structure State.LockedOut (s t : State) : Prop where
  held : s.irqLock ≠ .free
  irqLock : t.irqLock = s.irqLock
  gimr : t.gimr = s.gimr
  calls : ∀ c, c ∈ t.calls → c.waitsForLock

theorem State.LockedOut.congr {s t u : State} (h : s.LockedOut t) (hl : u.irqLock = t.irqLock) (hg : u.gimr = t.gimr)
    (hc : ∀ c, c ∈ u.calls → c.waitsForLock) : s.LockedOut u :=
  ⟨h.held, hl.trans h.irqLock, hg.trans h.gimr, hc⟩

theorem State.LockedOut.devFinish {s t : State} (h : s.LockedOut t) (c : ChipSel) : s.LockedOut (devFinish c t) :=
  h.congr (State.setDev_irqLock ..) (State.setDev_gimr ..)
    (by simpa only [Machine.devFinish, State.setDev_calls] using h.calls)

/-- Such a step is answered, and nobody gets past the lock. -/
theorem agentStep_lockedOut {a : AgentStep} (ha : a.leavesMask) {s t : State} (h : s.LockedOut t) :
    ∃ u, agentStep a t = .ok () u ∧ s.LockedOut u := by
  have hheld : t.irqLock ≠ .free := h.irqLock ▸ h.held
  rcases ha with he | ⟨ctx, rfl⟩ | ⟨ctx, op, hop, rfl⟩
  · cases a with
    | setSource src level => exact ⟨_, rfl, h.congr rfl rfl h.calls⟩
    | spiComplete =>
      refine ⟨_, rfl, ?_⟩
      simp only [Machine.spiComplete]
      split
      · exact h.congr rfl rfl h.calls
      · exact h
    | finish c => exact ⟨_, rfl, h.devFinish c⟩
    | start _ _ | go _ | takeMutex _ | releaseMutex _ => cases he
  · cases hc : t.callOf ctx with
    | none => exact ⟨t, by simp only [agentStep, hc], h⟩
    | some c =>
      have hw := h.calls c (callOf_mem hc).1
      refine ⟨_, go_waits hw hheld hc, h.congr rfl rfl fun d hd => ?_⟩
      rcases List.mem_append.mp hd with hd | hd
      · exact h.calls d (List.mem_of_mem_filter hd)
      · exact List.mem_singleton.mp hd ▸ hw
  · rw [start_waits hop]
    split
    · refine ⟨_, rfl, h.congr rfl rfl fun d hd => ?_⟩
      rcases List.mem_append.mp hd with hd | hd
      · exact h.calls d hd
      · exact List.mem_singleton.mp hd ▸ ⟨rfl, hop⟩
    · exact ⟨t, rfl, h⟩

theorem runBatch_lockedOut (batch : List AgentStep) : ∀ {s t : State}, (∀ a, a ∈ batch → a.leavesMask) → s.LockedOut t →
    ∃ u, runBatch batch t = .ok () u ∧ s.LockedOut u := by
  induction batch with
  | nil => exact fun {s t} _ h => ⟨t, rfl, h⟩
  | cons a rest ih =>
    intro s t ha h
    obtain ⟨u, e, hu⟩ := agentStep_lockedOut (ha a (List.mem_cons_self ..)) h
    obtain ⟨v, e', hv⟩ := ih (fun b hb => ha b (List.mem_cons_of_mem a hb)) hu
    exact ⟨v, by rw [runBatch, e, Res.bind_ok, e'], hv⟩

/-- The interleaving point is answered, and nobody gets past the lock. -/
theorem point_lockedOut {s : State} (hs : ∀ batch, batch ∈ s.schedule → ∀ a, a ∈ batch → a.leavesMask)
    (h : s.LockedOut s) : ∃ t, s.point = .ok () t ∧ s.LockedOut t := by
  cases hb : s.schedule with
  | nil =>
    refine ⟨_, point_of_empty hb, ?_⟩
    rw [eagerStep_eq]
    exact h.congr rfl rfl h.calls
  | cons batch rest =>
    rw [State.point, hb]
    exact runBatch_lockedOut batch (hs batch (by rw [hb]; exact List.mem_cons_self ..)) (h.congr rfl rfl h.calls)

/-- Settles O24: each step of an `enable` or `disable` finds it before the lock, and leaves it there. -/
theorem lockExcludes : Obligations.LockExcludes := by
  intro s hheld
  refine ⟨fun ctx src i hs hi => ?_, fun hcalls hsched => ?_⟩
  · have hop : (Op.instr i).changesMask := ⟨src, hs, hi.imp (congrArg Op.instr) (congrArg Op.instr)⟩
    refine ⟨fun hctx hnone => ?_, fun hsome => go_waits ⟨rfl, hop⟩ hheld hsome⟩
    rw [start_waits hop, if_pos ⟨hctx, hnone⟩]
    rfl
  · have point : ∃ t, s.point = .ok () t ∧ s.LockedOut t := by
      refine point_lockedOut (fun batch hb a ha => ?_) ⟨hheld, rfl, rfl, hcalls⟩
      rcases hsched batch hb a ha with he | hgo | ⟨ctx, src, hs, hi⟩
      · exact .inl he
      · exact .inr (.inl hgo)
      · rcases hi with rfl | rfl
        · exact .inr (.inr ⟨ctx, _, ⟨src, hs, .inl rfl⟩, rfl⟩)
        · exact .inr (.inr ⟨ctx, _, ⟨src, hs, .inr rfl⟩, rfl⟩)
    obtain ⟨t, e, h⟩ := point
    exact ⟨t, e, h.gimr, h.irqLock⟩

end Sys2Proof.Machine

end

/-! Bus transactions (R28, R30, R33): where an address lies, and which operation an access there is. -/

section

namespace Sys2Proof

/-- An address in the router's range lies in the router's block (R30). -/
theorem locate_router {b0 addr : Word} (spiBase : Option Word) (hlo : b0.toNat ≤ addr.toNat)
    (hhi : addr.toNat < b0.toNat + 0x18) : locate (some b0) spiBase addr = some (.router, addr.toNat - b0.toNat) := by
  simp only [locate, Config.routerSpan, hlo, hhi, and_self, if_true]

/-- An address in the SPI controller's range, and not in the router's, lies in the SPI block (R30). -/
theorem locate_spi {b0 b1 addr : Word} (hout : ¬ (b0.toNat ≤ addr.toNat ∧ addr.toNat < b0.toNat + 0x18))
    (hlo : b1.toNat ≤ addr.toNat) (hhi : addr.toNat < b1.toNat + 0x10) :
    locate (some b0) (some b1) addr = some (.spi, addr.toNat - b1.toNat) := by
  simp only [locate, Config.routerSpan, Config.spiSpan, hout, hlo, hhi, and_self, if_true, if_false]

/-- An address in neither range lies in no block (R30). -/
theorem locate_outside {intcBase spiBase : Option Word} {addr : Word}
    (h0 : ∀ b, intcBase = some b → addr.toNat < b.toNat ∨ b.toNat + 0x18 ≤ addr.toNat)
    (h1 : ∀ b, spiBase = some b → addr.toNat < b.toNat ∨ b.toNat + 0x10 ≤ addr.toNat) :
    locate intcBase spiBase addr = none := by
  have out : ∀ (base : Option Word) (span : Nat),
      (∀ b, base = some b → addr.toNat < b.toNat ∨ b.toNat + span ≤ addr.toNat) →
      ∀ b, base = some b → ¬ (b.toNat ≤ addr.toNat ∧ addr.toNat < b.toNat + span) := by
    intro base span h b hb
    have := h b hb
    omega
  cases intcBase with
  | none =>
    cases spiBase with
    | none => rfl
    | some b1 => simp only [locate, Config.spiSpan, out _ 0x10 h1 b1 rfl, if_false]
  | some b0 =>
    cases spiBase with
    | none => simp only [locate, Config.routerSpan, out _ 0x18 h0 b0 rfl, if_false]
    | some b1 =>
      simp only [locate, Config.routerSpan, Config.spiSpan, out _ 0x18 h0 b0 rfl, out _ 0x10 h1 b1 rfl, if_false]

/-- The operation of a register in a direction (R10). -/
def accessInstr (v : Word) (r : Reg) : Dir → Instr
  | .read => readInstr r
  | .write => writeInstr v r

/-- The code of a register is its operation's (R47); what stands as the word of a read does not matter. -/
theorem decodeMmio_mmioCode {cfg : Cfg} (h : cfg.ok = true) (d : Dir) (r : Reg) (v : Word) :
    decodeMmio cfg (mmioCode r.block d (r.offset cfg)) v = .ok (accessInstr v r d) := by
  rw [decodeMmio, regOfCode_mmioCode h]
  cases d <;> rfl

/-- An aligned 32-bit access that lies at a register's offset in its block is the register's operation (R28, R47). -/
theorem decodeBus_located {cfg : Cfg} (h : cfg.ok = true) {addr : Word} (halign : addr.toNat % 4 = 0) {r : Reg}
    (hloc : locate cfg.intcBase cfg.spiBase addr = some (r.block, (r.offset cfg).toNat)) (d : Dir) (v : Word) :
    decodeBus cfg ⟨d, addr, 32, v⟩ = .ok (accessInstr v r d) := by
  simp only [decodeBus, halign, hloc, ne_eq, not_true_eq_false, if_false, BitVec.ofNat_toNat, BitVec.setWidth_eq,
    decodeMmio_mmioCode h]
  cases d <;> rfl

/-- The address of an offset in a range that ends within the address space (row 43). -/
theorem address_toNat {base : Word} {off : Byte} {span : Nat} (hoff : off.toNat < span) (hend : base.toNat + span ≤ 2 ^ 32) :
    (base + off.setWidth 32).toNat = base.toNat + off.toNat := by
  have := off.isLt
  rw [BitVec.toNat_add, BitVec.toNat_setWidth, Nat.mod_eq_of_lt (a := off.toNat) (by omega)]
  exact Nat.mod_eq_of_lt (by omega)

/-- A register of the router is accessed at its offset from the router's base (R28, R30). -/
theorem decodeBus_router {cfg : Cfg} (hok : cfg.ok = true) {b0 : Word} (h0 : cfg.intcBase = some b0)
    (halign : b0.toNat % 4 = 0) (hend : b0.toNat + 0x18 ≤ 2 ^ 32) {r : Reg} (hb : r.block = .router) (d : Dir) (v : Word) :
    decodeBus cfg ⟨d, b0 + (r.offset cfg).setWidth 32, 32, v⟩ = .ok (accessInstr v r d) := by
  obtain ⟨hmod, hrange⟩ := Reg.offset_range hok r
  have hspan : (r.offset cfg).toNat < 0x18 := by simpa only [hb] using hrange
  have haddr := address_toNat hspan hend
  refine decodeBus_located hok (by omega) ?_ d v
  rw [h0, hb, locate_router _ (by omega) (by omega), haddr, Nat.add_sub_cancel_left]

/-- A register of the SPI controller is accessed at its offset from the controller's base, when the router's range is apart
(R28, R30, row 41). -/
theorem decodeBus_spi {cfg : Cfg} (hok : cfg.ok = true) {b0 b1 : Word} (h0 : cfg.intcBase = some b0)
    (h1 : cfg.spiBase = some b1) (halign : b1.toNat % 4 = 0) (hend : b1.toNat + 0x10 ≤ 2 ^ 32)
    (hapart : b0.toNat + 0x18 ≤ b1.toNat ∨ b1.toNat + 0x10 ≤ b0.toNat) {r : Reg} (hb : r.block = .spi) (d : Dir) (v : Word) :
    decodeBus cfg ⟨d, b1 + (r.offset cfg).setWidth 32, 32, v⟩ = .ok (accessInstr v r d) := by
  obtain ⟨hmod, hrange⟩ := Reg.offset_range hok r
  have hspan : (r.offset cfg).toNat < 0x10 := by simpa only [hb] using hrange
  have haddr := address_toNat hspan hend
  refine decodeBus_located hok (by omega) ?_ d v
  rw [h0, h1, hb, locate_spi (by omega) (by omega) (by omega), haddr, Nat.add_sub_cancel_left]

/-- Settles O8: the address of a register is located at its offset; every test of the decoder refuses with its error. -/
theorem busSelectsRegister : Obligations.BusSelectsRegister := by
  refine ⟨?selects, ?refuses⟩
  case selects =>
    intro cfg b0 b1 d r v hok h0 h1 a0 a1 e0 e1 hapart
    have access : accessInstr v r d = (match d with | .read => readInstr r | .write => writeInstr v r) := by
      cases d <;> rfl
    cases hb : r.block with
    | router => exact (decodeBus_router hok h0 a0 e0 hb d v).trans (congrArg Except.ok access)
    | spi => exact (decodeBus_spi hok h0 h1 a1 e1 hapart hb d v).trans (congrArg Except.ok access)
  case refuses =>
    intro cfg t h
    by_cases hwidth : t.width = 32
    · by_cases halign : t.addr.toNat % 4 = 0
      · obtain ⟨r0, r1⟩ := (h.resolve_left (not_not_intro hwidth)).resolve_left (not_not_intro halign)
        exact ⟨.outsideBlocks, by
          simp only [decodeBus, hwidth, halign, locate_outside r0 r1, ne_eq, not_true_eq_false, if_false]⟩
      · exact ⟨.misaligned, by rw [decodeBus, if_neg (not_not_intro hwidth), if_pos halign]⟩
    · exact ⟨.badWidth, by rw [decodeBus, if_pos hwidth]⟩

end Sys2Proof

end

/-! The encoder's bytes read back as the operation they spell (R47, R59, R62), format by format; then what a step does with
the item at the head of the program (R39, R40). -/

section

namespace Sys2Proof

/-! MMIO32. -/

/-- The bytes of a register access spell its code and its word. -/
theorem parse_mmioBytes {cfg : Cfg} (h : cfg.ok = true) (d : Dir) (r : Reg) (v : Word) :
    parse cfg .mmio32 (mmioBytes cfg d r v).bytes = .ok (accessInstr v r d) := by
  have hcode : natAt (mmioBytes cfg d r v).bytes 0 2 = (mmioCode r.block d (r.offset cfg)).toNat :=
    natAt_append [] (wordBytes v) (mmioCode r.block d (r.offset cfg)).isLt
  have hword : wordAt (mmioBytes cfg d r v).bytes 2 = v := bytesWord_wordBytes v
  rw [parse, if_pos (by simp [mmioBytes]), hcode, hword, BitVec.ofNat_toNat, BitVec.setWidth_eq, decodeMmio_mmioCode h]

/-! CALL: the operand bytes of each call. -/

theorem exactly_of_length {k : Nat} {args : List Byte} (h : args.length = k) (f : List Byte → Except DecodeError Instr) :
    exactly k args f = f args := by rw [exactly, if_pos h]

/-- The operands of fixed length, and the buffer after them. -/
theorem atLeast_append {k : Nat} {pre : List Byte} (h : pre.length = k) (buf : List Byte)
    (f : List Byte → List Byte → Except DecodeError Instr) : atLeast k (pre ++ buf) f = f pre buf := by
  subst h
  rw [atLeast, if_pos (by simp), List.take_left, List.drop_left]

theorem natAt_natBytes {k n : Nat} (h : n < 256 ^ k) : natAt (natBytes k n) 0 k = n := by
  simpa using natAt_append [] [] h

/-- A number after an operand byte. -/
theorem natAt_cons_natBytes (b : Byte) {k n : Nat} (h : n < 256 ^ k) : natAt (b :: natBytes k n) 1 k = n := by
  simpa using natAt_append [b] [] h

/-- Two numbers of 64 bits, one after the other. -/
theorem natAt_natBytes_pair {m n : Nat} (hm : m < 2 ^ 64) (hn : n < 2 ^ 64) :
    natAt (natBytes 8 m ++ natBytes 8 n) 0 8 = m ∧ natAt (natBytes 8 m ++ natBytes 8 n) 8 8 = n :=
  ⟨natAt_append [] (natBytes 8 n) (k := 8) hm, by simpa using natAt_append (natBytes 8 m) [] (k := 8) hn⟩

theorem decodeLine_lineBytes (line : Fin 8) (f : Fin 8 → Instr) :
    decodeLine (byteAt (lineBytes line) 0) f = .ok (f line) := by
  have hb : (byteAt (lineBytes line) 0).toNat = line.val := Nat.mod_eq_of_lt (line.isLt.trans (by decide))
  simp only [decodeLine, hb, line.isLt, dif_pos]

theorem decodeAttach_bytes (family : Family) (cs : Byte) (straps : Straps) :
    decodeAttach (familyByte family :: cs :: (wordBytes straps.w0 ++ wordBytes straps.w1 ++ wordBytes straps.w2)) =
      .ok (.attach family cs straps) := by
  have h0 := bytesWord_wordBytes straps.w0
  have h1 := bytesWord_wordBytes straps.w1
  have h2 := bytesWord_wordBytes straps.w2
  have hstraps : (⟨bytesWord (wordBytes straps.w0), bytesWord (wordBytes straps.w1), bytesWord (wordBytes straps.w2)⟩ :
    Straps) = straps := by rw [h0, h1, h2]
  cases family
  · exact congrArg (fun s => Except.ok (Instr.attach .rtl838x cs s)) hstraps
  · exact congrArg (fun s => Except.ok (Instr.attach .rtl839x cs s)) hstraps

theorem decodeW32_bytes (reg : GatedReg) (v : Word) : decodeW32 (gatedByte reg :: wordBytes v) = .ok (.w32 reg v) := by
  have hv := bytesWord_wordBytes v
  cases reg
  · exact congrArg (fun v => Except.ok (Instr.w32 .sfcsr v)) hv
  · exact congrArg (fun v => Except.ok (Instr.w32 .sfdr v)) hv

theorem decodeIssueCmd_bytes (base : Word) (op : Byte) (addr : Option Word) :
    decodeIssueCmd (wordBytes base ++ op :: addrBytes addr) = .ok (.issueCmd base op addr) := by
  have hbase := bytesWord_wordBytes base
  cases addr with
  | none => exact congrArg (fun b => Except.ok (Instr.issueCmd b op none)) hbase
  | some a =>
    have ha := bytesWord_wordBytes a
    exact congrArg₂ (fun b a => Except.ok (Instr.issueCmd b op (some a))) hbase ha

theorem decodeCall_writeReg (op : Byte) (buf : List Byte) {len : Nat} (h : fits64 len = true) :
    decodeCall 0x19#8 (op :: (natBytes 8 len ++ buf)) = .ok (.writeReg op buf len) :=
  calc decodeCall 0x19#8 (op :: (natBytes 8 len ++ buf))
    _ = atLeast 9 ((op :: natBytes 8 len) ++ buf) fun a buf => .ok (.writeReg (byteAt a 0) buf (natAt a 1 8)) := rfl
    _ = .ok (.writeReg op buf (natAt (op :: natBytes 8 len) 1 8)) := atLeast_append (by simp) buf _
    _ = .ok (.writeReg op buf len) := by rw [natAt_cons_natBytes op (k := 8) (of_decide_eq_true h)]

theorem decodeCall_write {offset len : Nat} (buf : List Byte) (ho : fits64 offset = true) (hl : fits64 len = true) :
    decodeCall 0x1B#8 (natBytes 8 offset ++ natBytes 8 len ++ buf) = .ok (.write offset buf len) := by
  obtain ⟨eoff, elen⟩ := natAt_natBytes_pair (of_decide_eq_true ho) (of_decide_eq_true hl)
  calc decodeCall 0x1B#8 (natBytes 8 offset ++ natBytes 8 len ++ buf)
    _ = atLeast 16 (natBytes 8 offset ++ natBytes 8 len ++ buf) fun a buf =>
        .ok (.write (natAt a 0 8) buf (natAt a 8 8)) := rfl
    _ = .ok (.write (natAt (natBytes 8 offset ++ natBytes 8 len) 0 8) buf
        (natAt (natBytes 8 offset ++ natBytes 8 len) 8 8)) := atLeast_append (by simp) buf _
    _ = .ok (.write offset buf len) := by rw [eoff, elen]

/-! NORFRAME. -/

/-- The bytes of a frame spell its chip-select, its reads and the bytes it sends. -/
theorem parse_frameBytes (cfg : Cfg) (op : Byte) (c : ChipSel) (sent : List Byte) {reads : Nat} (h : fits16 reads = true) :
    parse cfg .norframe (frameBytes op c sent reads).bytes = frameInstr cfg op c sent reads := by
  have hreads : natAt (chipSelByte c :: natBytes 2 reads) 1 2 = reads :=
    natAt_cons_natBytes _ (k := 2) (of_decide_eq_true h)
  have happ : parse cfg .norframe (frameBytes op c sent reads).bytes =
    decodeFrame cfg op ((chipSelByte c :: natBytes 2 reads) ++ sent) := rfl
  rw [happ, decodeFrame, atLeast_append (by simp), hreads]
  cases c <;> rfl

/-! Every operation. -/

/-- The parser reads an encoding back: a register access by its code, a call by its operand bytes, a frame by its command
byte. -/
theorem parse_encode {cfg : Cfg} (h : cfg.ok = true) {i : Instr} (hw : WellFormed i = true) :
    parse cfg (encode cfg i).format (encode cfg i).bytes = .ok i := by
  cases i with
  | gimrR => exact parse_mmioBytes h .read .gimr _
  | gimrW v => exact parse_mmioBytes h .write .gimr v
  | gisrR => exact parse_mmioBytes h .read .gisr _
  | gisrW v => exact parse_mmioBytes h .write .gisr v
  | irr0R => exact parse_mmioBytes h .read (.irr 0) _
  | irr0W v => exact parse_mmioBytes h .write (.irr 0) v
  | irr1R => exact parse_mmioBytes h .read (.irr 1) _
  | irr1W v => exact parse_mmioBytes h .write (.irr 1) v
  | irr2R => exact parse_mmioBytes h .read (.irr 2) _
  | irr2W v => exact parse_mmioBytes h .write (.irr 2) v
  | irr3R => exact parse_mmioBytes h .read (.irr 3) _
  | irr3W v => exact parse_mmioBytes h .write (.irr 3) v
  | sfcrR => exact parse_mmioBytes h .read .sfcr _
  | sfcrW v => exact parse_mmioBytes h .write .sfcr v
  | sfcr2R => exact parse_mmioBytes h .read .sfcr2 _
  | sfcr2W v => exact parse_mmioBytes h .write .sfcr2 v
  | sfcsrR => exact parse_mmioBytes h .read .sfcsr _
  | sfcsrW v => exact parse_mmioBytes h .write .sfcsr v
  | sfdrR => exact parse_mmioBytes h .read .sfdr _
  | sfdrW v => exact parse_mmioBytes h .write .sfdr v
  | routeInit | spiPrep | waitReady | r32 | readStatus | waitWip | writeEnable => rfl
  | enable src => exact congrArg (fun n => Except.ok (Instr.enable n)) (natAt_natBytes (k := 4) (of_decide_eq_true hw))
  | disable src => exact congrArg (fun n => Except.ok (Instr.disable n)) (natAt_natBytes (k := 4) (of_decide_eq_true hw))
  | dispatch line => exact decodeLine_lineBytes line .dispatch
  | irqEntry pending => rfl
  | registerHandler src handler =>
    exact congrArg₂ (fun n w => Except.ok (Instr.registerHandler n w))
      (natAt_append [] (wordBytes handler) (k := 4) (of_decide_eq_true hw)) (bytesWord_wordBytes handler)
  | handlerReturn line => exact decodeLine_lineBytes line .handlerReturn
  | attach family cs straps => exact decodeAttach_bytes family cs straps
  | w32 reg v => exact decodeW32_bytes reg v
  | readReg op len =>
    exact congrArg (fun n => Except.ok (Instr.readReg op n)) (natAt_cons_natBytes op (k := 8) (of_decide_eq_true hw))
  | writeReg op buf len => exact decodeCall_writeReg op buf (Bool.and_eq_true_iff.mp hw).1
  | read offset len =>
    obtain ⟨hoff, hlen⟩ := Bool.and_eq_true_iff.mp hw
    obtain ⟨eoff, elen⟩ := natAt_natBytes_pair (of_decide_eq_true hoff) (of_decide_eq_true hlen)
    exact congrArg₂ (fun m n => Except.ok (Instr.read m n)) eoff elen
  | write offset buf len =>
    obtain ⟨hnums, _⟩ := Bool.and_eq_true_iff.mp hw
    obtain ⟨hoff, hlen⟩ := Bool.and_eq_true_iff.mp hnums
    exact decodeCall_write buf hoff hlen
  | erase offset => exact congrArg (fun n => Except.ok (Instr.erase n)) (natAt_natBytes (k := 8) (of_decide_eq_true hw))
  | issueCmd base op addr =>
    exact (exactly_of_length (k := 10) (by cases addr <;> rfl) _).trans (decodeIssueCmd_bytes base op addr)
  | wrsr c sent reads | pp c sent reads | rdsr c sent reads | wren c sent reads | fastRead c sent reads
  | fastRead4b c sent reads | pp4b c sent reads | se c sent reads | se4b c sent reads =>
    refine (parse_frameBytes cfg _ c sent hw).trans ?_
    simp only [frameInstr_command h]

/-- The decoder reads the encoding of a well-formed operation back (R46). -/
theorem decode_encode {cfg : Cfg} (h : cfg.ok = true) {i : Instr} (hw : WellFormed i = true) :
    decode cfg (encode cfg i) = .ok i := by
  simp only [decode, parse_encode h hw, hw, if_true]

end Sys2Proof

namespace Sys2Proof.Machine

/-! The item at the head of the program. -/

/-- The head of the program is picked when its context has no operation in progress and it does not ask for the mutex
(row 16). -/
theorem pick_head {s : State} {item : Issue} (rest : List Issue) (hctx : ∀ c, c ∈ s.calls → c.ctx ≠ issueCtx item)
    (hm : asksMutex item = false) : s.pick [] (item :: rest) = some (item, rest) := by
  have hcalls : (s.calls.any fun c => c.ctx == issueCtx item) = false := by simpa using hctx
  simp only [State.pick, State.waits, hcalls, hm, List.contains_nil, Bool.false_and, Bool.or_self, Bool.false_eq_true,
    if_false]

/-- A step with such an item runs it, after the other agents' batch (rows 11, 16). -/
theorem step_head {s p : State} {item : Issue} {rest : List Issue} (hok : s.cfg.ok = true) (hp : s.point = .ok () p)
    (hprog : p.program = item :: rest) (hctx : ∀ c, c ∈ p.calls → c.ctx ≠ issueCtx item) (hm : asksMutex item = false) :
    step s = runItem item rest p := by
  rw [step, if_pos hok, hp, Res.finish_ok, runNext, hprog, pick_head rest hctx hm]

/-- The interleaving point keeps the configuration (row 1). -/
theorem point_cfg {s p : State} (hp : s.point = .ok () p) : p.cfg = s.cfg := by
  have kept := point_all (keepsRecord_closed s) (.refl s)
  rw [hp] at kept
  exact kept.cfg

theorem fetchCode_of_decode {cfg : Cfg} {code : Code} {i : Instr} (h : decode cfg code = .ok i) :
    fetchCode cfg code = .ok (.instr i) := by
  simp only [fetchCode, h]

theorem fetchBus_of_decodeBus {cfg : Cfg} {a : BusAccess} {i : Instr} (h : decodeBus cfg a = .ok i) :
    fetchBus cfg a = .ok (.instr i) := by
  simp only [fetchBus, h]

/-- Settles O5: the item is picked and fetched; an encoding is one of the items that decode. -/
theorem stepRunsDecoded : Obligations.StepRunsDecoded := by
  intro s p ctx rest hok hp hctx
  have runs : ∀ (code : Code) (i : Instr), p.program = .op ctx code :: rest → decode p.cfg code = .ok i →
      step s = exec i { p with ctx := ctx, program := rest } := by
    intro code i hprog hdec
    rw [step_head hok hp hprog hctx rfl, runItem, fetchCode_of_decode hdec]
    rfl
  refine ⟨runs, fun i hw hprog => runs _ i hprog ?_, fun a i hprog hdec => ?_⟩
  · exact decode_encode (by rw [point_cfg hp]; exact hok) hw
  · rw [step_head hok hp hprog hctx rfl, runItem, fetchBus_of_decodeBus hdec]
    rfl

end Sys2Proof.Machine

end

/-! The encoding at its edges (R46, R47, R59, R62): every operation reads back, and a frame with a command byte that is none
of the nine spells none. -/

section

namespace Sys2Proof

/-- Settles O7: the parser reads back the bytes of each format, and the operation they spell is well formed. -/
theorem decodeEncode : Obligations.DecodeEncode := fun _ _ hok hw => decode_encode hok hw

/-! Command bytes that are none of the nine (R61, R62). -/

/-- A command byte that is none of the nine selects no frame operation (R62). -/
theorem frameInstr_unknown {cfg : Cfg} {cmd : Byte} (h : cmd ∉ cfg.commandBytes) (c : ChipSel) (sent : List Byte)
    (reads : Nat) : frameInstr cfg cmd c sent reads = .error .unknownCommand := by
  simp only [Cfg.commandBytes, List.mem_cons, List.not_mem_nil, or_false, not_or] at h
  simp only [frameInstr, h, if_false]

/-- The bytes of a frame with such a command byte spell no operation (R61, R62). -/
theorem decode_unknown {cfg : Cfg} {cmd : Byte} (h : cmd ∉ cfg.commandBytes) (c : ChipSel) (sent : List Byte) {reads : Nat}
    (hr : fits16 reads = true) : decode cfg (frameBytes cmd c sent reads) = .error .unknownCommand := by
  have hparse : parse cfg (frameBytes cmd c sent reads).format (frameBytes cmd c sent reads).bytes =
      .error .unknownCommand := (parse_frameBytes cfg cmd c sent hr).trans (frameInstr_unknown h c sent reads)
  simp only [decode, hparse]

/-! Numbers of the opcode table. -/

/-- Settles O6: each number is the encoding of its operation with the values of R6; the command byte 0x9F is none of the
nine. -/
theorem literalCodes : Obligations.LiteralCodes := by
  refine ⟨?irr2W, ?sfdrR, ?dispatch, ?erase, ?se, ?unknown⟩
  case irr2W => exact decode_encode reference_ok (i := .irr2W 0x87654321#32) rfl
  case sfdrR => exact decode_encode reference_ok (i := .sfdrR) rfl
  case dispatch => exact decode_encode reference_ok (i := .dispatch 5) rfl
  case erase => exact decode_encode reference_ok (i := .erase 0x10000) rfl
  case se => exact decode_encode reference_ok (i := .se .cs1 [0x01#8, 0x23#8, 0x45#8] 0) rfl
  case unknown => exact decode_unknown (cmd := 0x9F#8) (by decide) .cs0 [] (reads := 0) rfl

end Sys2Proof

end

/-! What `route_init` leaves in the routing registers when no other agent acts (R49, R70). -/

section

namespace Sys2Proof.Machine

/-- Writing the routing words of `rs` with no other agent acting: each register of `rs` then holds its word, the others what
they held (R69, R70). -/
theorem writeRouting_den {c : Cfg} (hok : c.ok = true) (f : Family) : ∀ (rs : List (Fin 4)) {s : State}, s.schedule = [] →
    ∃ t, (writeRouting c f rs).den s = .ok () t ∧ t.schedule = [] ∧ t.cfg = s.cfg ∧
      ∀ r : Fin 4, t.irr[r] = if r ∈ rs then packRouting c f r else s.irr[r] := by
  intro rs
  induction rs with
  | nil => exact fun {s} hs => ⟨s, rfl, hs, rfl, fun r => (if_neg List.not_mem_nil).symm⟩
  | cons q rs ih =>
    intro s hs
    have write : ∃ u, (Prog.writing (.irr q) (packRouting c f q)).den s = .ok () u ∧ u.schedule = [] ∧ u.cfg = s.cfg ∧
        u.irr = s.irr.set q (packRouting c f q) := by
      simp only [Prog.den_writing, point_of_empty hs, Res.bind_ok, regWrite, irrWrite, packRouting_legal hok, if_true,
        eagerStep_eq]
      exact ⟨_, rfl, hs, rfl, rfl⟩
    obtain ⟨u, eu, su, cu, iu⟩ := write
    obtain ⟨t, et, st, ct, it⟩ := ih su
    refine ⟨t, ?_, st, ct.trans cu, fun r => ?_⟩
    · rw [writeRouting, Prog.den_bind, eu, Res.bind_ok, et]
    · rw [it r, iu]
      by_cases hr : r = q
      · subst hr; simp
      · have hne : q.val ≠ r.val := fun e => hr (Fin.ext e.symm)
        simp [hr, hne]

/-- `route_init` leaves its word in each routing register (R70). -/
theorem exec_routeInit_irr {s : State} {f : Family} {b : Word} (hs : s.schedule = []) (hok : s.cfg.ok = true)
    (hf : s.cfg.family = some f) (hb : s.cfg.intcBase = some b) :
    ∃ t, exec .routeInit s = .next t ∧ t.cfg = s.cfg ∧ ∀ r : Fin 4, t.irr[r] = packRouting s.cfg f r := by
  obtain ⟨u, eu, su, cu, iu⟩ := writeRouting_den hok f [0, 1, 2, 3] hs
  have all : ∀ r : Fin 4, r ∈ ([0, 1, 2, 3] : List (Fin 4)) := by decide
  have program : progInstr (s.env 0) .routeInit = initRouting s.cfg f := by
    simp only [progInstr, progRouteInit, State.env, hf, hb]
  have mask : ∃ t, (Prog.writing .gimr (bootstrapMask s.cfg)).den u = .ok () t ∧ t.cfg = u.cfg ∧ t.irr = u.irr := by
    simp only [Prog.den_writing, point_of_empty su, Res.bind_ok, regWrite, gimrWrite, eagerStep_eq]
    exact ⟨_, rfl, rfl, rfl⟩
  obtain ⟨t, et, ct, it⟩ := mask
  have den : (progInstr (s.env 0) .routeInit).den s = .ok .ok t := by
    rw [program, initRouting, Prog.den_bind, eu, Res.bind_ok, Prog.den_bind, et, Res.bind_ok, Prog.den_ret]
  refine ⟨t.ended (.instr .routeInit) .ok, ?_, ct.trans cu, fun r => ?_⟩
  · rw [exec_call rfl]
    exact call_ok (enterOp_other rfl s.ctx s) den
  · rw [State.ended_irr, it, iu r, if_pos (all r)]

/-- Settles O22: the routing word of each source's register holds the source's level at its nibble. -/
theorem everySourceIsRouted : Obligations.EverySourceIsRouted := by
  intro s f b hs hok hf hb
  obtain ⟨t, e, hcfg, hirr⟩ := exec_routeInit_irr hs hok hf hb
  refine ⟨t, e, fun src hsrc => ?_⟩
  rw [State.route, hirr, hcfg]
  exact packRouting_level hok f hsrc

end Sys2Proof.Machine

end

/-! Whole frames as operations (R57, R81, row 19), and the frames that the reference device ignores (R61, R129). -/

section

namespace Sys2Proof.Machine

theorem State.issued_sameRouter (s : State) (ctx : Nat) (rest : List Issue) : s.SameRouter (s.issued ctx rest) :=
  ⟨rfl, rfl, rfl, rfl, rfl, rfl, rfl, rfl, rfl⟩

/-- A frame whose command byte is none of the nine commits nothing (R129). -/
theorem inert_unknown {cfg : Cfg} {cmd : Byte} (h : cmd ∉ cfg.commandBytes) (sent : List Byte) :
    InertFrame cfg (cmd :: sent) := by
  intro d hd size sector draws
  simp only [Cfg.commandBytes, List.mem_cons, List.not_mem_nil, or_false, not_or] at h
  simp only [RefNor.commit, hd, h, if_false]

/-- Closing an inert frame changes only `open`, whether the device is busy or not (R119). -/
theorem deselect_ignored {cfg : Cfg} {d : RefNor} (hi : InertFrame cfg d.rx) (size sector draws : Nat) :
    (Device.refNor d).deselect cfg size sector draws = .ok (.refNor { d with frameOpen := false }, draws) := by
  by_cases hw : d.wip = true
  · simp only [Device.deselect, RefNor.deselect, hw, if_true]
  · exact deselect_inert (eq_false_of_ne_true hw) hi size sector draws

/-- A whole inert frame on the reference device changes only its frame buffer (R119). -/
theorem frame_inert {cfg : Cfg} (d : RefNor) {bs : List Byte} (hi : InertFrame cfg bs) (reads size sector draws : Nat) :
    (Device.advances reads ((Device.refNor d).select.puts bs)).deselect cfg size sector draws =
      .ok (.refNor { d with rx := bs, rdcount := reads, frameOpen := false }, draws) := by
  rw [select_puts, advances_inFrame, Nat.zero_add]
  exact deselect_ignored hi size sector draws

/-- An operation that is a whole frame returns the bytes it takes, and leaves the device as its `deselect` does; this needs
the device to accept the frame (R57, R87, R119). -/
theorem call_runFrame {s u : State} {op : Op} {p : Env → Prog Result} {c : ChipSel} {cmd : Byte} {sent : List Byte}
    {reads : Nat} {d : Device} (he : s.Eager) (hf : s.spiCaller = none) (hb : s.bigEndianLanes = true)
    (hc : closeFrame s.sel (eagerStep s) = .ok () u) (ho : op.usesSpi = true)
    (hp : p (s.env 0) = runFrame (s.env 0) c cmd sent reads)
    (hd : ∀ draws, ∃ n, (Device.advances reads ((u.dev c).finish.select.puts (cmd :: sent))).deselect s.cfg
      (s.cfg.flashSize c) s.cfg.eraseSize draws = .ok (d, n)) :
    ∃ t bs, call op p s = .next (t.ended op (.bytes bs)) ∧
      Answers s.cfg (s.cfg.flashSize c) ((u.dev c).finish.select.puts (cmd :: sent)) reads bs ∧
      t.dev c = d ∧ t.dev c.other = (u.dev c.other).finish ∧ t.csb0 = true ∧ t.csb1 = true ∧ t.len = 0#2 ∧
      t.busy = true ∧ State.Moves (frameTouches s.cfg c cmd sent reads) (s.withCaller (some s.ctx)) t := by
  have runs : Runs (s.env 0) (s.withCaller (some s.ctx)) := (he.inside (some s.ctx)).runs 0
  obtain ⟨bs, draws, answers, _, accepted⟩ := runFrame_spec runs hb (closeFrame_inside hc (some s.ctx)) c cmd sent reads
  rw [State.withCaller_dev] at answers accepted
  obtain ⟨n, hn⟩ := hd draws
  obtain ⟨t, den, hdev, hother, hrest⟩ := accepted d n hn
  rw [State.withCaller_dev] at hother
  refine ⟨t, bs, call_ok (enterOp_spi ho hf s.ctx) ?_, answers, hdev, hother, hrest⟩
  rw [hp]; exact den

/-- The operand bytes of a frame spell its chip-select, its reads and the bytes it sends (R57, row 17). -/
theorem unknownFrame_bytes (cmd : Byte) (c : ChipSel) (sent : List Byte) {reads : Nat} (hr : fits16 reads = true) :
    unknownFrame cmd (chipSelByte c :: (natBytes 2 reads ++ sent)) = .ok (.frame cmd c sent reads) := by
  have hlen : 3 ≤ (chipSelByte c :: (natBytes 2 reads ++ sent)).length := by simp
  have hreads : natAt (chipSelByte c :: (natBytes 2 reads ++ sent)) 1 2 = reads :=
    natAt_append [chipSelByte c] sent (k := 2) (of_decide_eq_true hr)
  rw [unknownFrame, if_pos hlen, hreads]
  cases c <;> rfl

/-- The bytes of a frame whose command byte is none of the nine ask for that frame (R61, R129). -/
theorem fetchCode_unknown {cfg : Cfg} {cmd : Byte} (h : cmd ∉ cfg.commandBytes) (c : ChipSel) (sent : List Byte)
    {reads : Nat} (hr : fits16 reads = true) :
    fetchCode cfg (frameBytes cmd c sent reads) = .ok (.frame cmd c sent reads) := by
  have hdecode := decode_unknown h c sent hr
  rw [fetchCode, hdecode]
  exact unknownFrame_bytes cmd c sent hr

/-- A step whose head is such a frame runs it (R61, R129). -/
theorem step_unknownFrame {s p : State} {ctx : Nat} {rest : List Issue} {cmd : Byte} {c : ChipSel} {sent : List Byte}
    {reads : Nat} (hok : s.cfg.ok = true) (hp : s.point = .ok () p) (hctx : ∀ k, k ∈ p.calls → k.ctx ≠ ctx)
    (h : cmd ∉ p.cfg.commandBytes) (hr : fits16 reads = true)
    (hprog : p.program = .op ctx (frameBytes cmd c sent reads) :: rest) :
    step s = runUnknown cmd c sent reads (p.issued ctx rest) := by
  rw [step_head hok hp hprog hctx rfl, runItem, fetchCode_unknown h c sent hr]
  rfl

/-- Such a frame returns as many bytes as it takes, and the reference device ignores it, busy or not (R129). -/
theorem runUnknown_refNor {s u : State} {cmd : Byte} {c : ChipSel} {d : RefNor} (he : s.Eager) (hf : s.spiCaller = none)
    (hb : s.bigEndianLanes = true) (hcmd : cmd ∉ s.cfg.commandBytes) (hc : closeFrame s.sel (eagerStep s) = .ok () u)
    (hd : (u.dev c).finish = .refNor d) (sent : List Byte) (reads : Nat) :
    ∃ t bs new, runUnknown cmd c sent reads s = .next t ∧ t.result = .bytes bs ∧ bs.length = reads ∧
      t.dev c = .refNor { d with rx := cmd :: sent, rdcount := reads, frameOpen := false } ∧
      t.dev c.other = (u.dev c.other).finish ∧ t.csb0 = true ∧ t.csb1 = true ∧
      t.log = s.log ++ new ∧ touches new = frameTouches s.cfg c cmd sent reads ∧ s.EngineFrame t := by
  obtain ⟨t, bs, run, ⟨hlen, _⟩, hdev, hother, h0, h1, _, _, moves⟩ := call_runFrame
    (op := .frame cmd c sent reads) (p := fun e => progUnknown e cmd c sent reads) he hf hb hc rfl rfl
    (fun draws => ⟨draws, by rw [hd]; exact frame_inert d (inert_unknown hcmd sent) reads _ _ draws⟩)
  obtain ⟨new, hlog, hnew⟩ := moves.log
  exact ⟨_, bs, new, run, rfl, hlen, by simpa using hdev, by simpa using hother, by simpa using h0, by simpa using h1,
    by simpa using hlog, hnew, moves.toEngineFrame.ended hf rfl _⟩

/-- The state in which an item runs under an eager schedule: the completion steps are taken, and the item is consumed
(rows 11, 16). -/
def State.fetched (s : State) (ctx : Nat) (rest : List Issue) : State := (eagerStep s).issued ctx rest

/-- The open frame closes there as it does before the item is consumed. -/
theorem closeFrame_fetched {s u : State} (hc : closeFrame s.sel (eagerStep s) = .ok () u) (ctx : Nat) (rest : List Issue) :
    ∃ v, closeFrame (s.fetched ctx rest).sel (eagerStep (s.fetched ctx rest)) = .ok () v ∧ ∀ x, v.dev x = u.dev x := by
  have hsel : (s.fetched ctx rest).sel = s.sel := by rw [State.fetched, eagerStep_eq]; rfl
  obtain ⟨v, hv, hdev, _⟩ := closeFrame_congr (t := eagerStep (s.fetched ctx rest)) hc
    (fun x => by simp [State.fetched, eagerStep_dev]) (by simp [State.fetched]) (by simp [State.fetched])
  exact ⟨v, by rw [hsel]; exact hv, hdev⟩

/-- Settles O58: the item is fetched as a frame of its own, which the device ignores. -/
theorem unknownFrameIgnored : Obligations.UnknownFrameIgnored := by
  intro s u ctx rest cmd c sent reads d hok he hf hb hctx hcmd hreads hprog hc hd
  have run : step s = runUnknown cmd c sent reads (s.fetched ctx rest) :=
    step_unknownFrame hok (point_of_empty he.schedule) (by rw [eagerStep_eq]; exact hctx) (by rw [eagerStep_cfg]; exact hcmd)
      (decide_eq_true hreads) (by rw [eagerStep_eq]; exact hprog)
  have before : s.EngineFrame (eagerStep s) := eagerStep_frame s
  have eager : (s.fetched ctx rest).Eager := ⟨(before.eager he).1, (before.eager he).2, (before.eager he).3⟩
  have hcfg : (s.fetched ctx rest).cfg = s.cfg := before.rest.cfg
  have hlog : (s.fetched ctx rest).log = s.log := by rw [State.fetched, eagerStep_eq]; rfl
  obtain ⟨v, hv, hdev⟩ := closeFrame_fetched hc ctx rest
  obtain ⟨t, bs, new, out, result, len, dev, other, h0, h1, log, touched, frame⟩ := runUnknown_refNor eager
    (before.rest.spiCaller.trans hf) (before.lanes hb) (hcfg ▸ hcmd) hv ((hdev c).symm ▸ hd) sent reads
  refine ⟨t, bs, new, run.trans out, result, len, dev, ?_, h0, h1, frame.rest.ctx, frame.rest.program, ?_, ?_, ?_⟩
  · rw [other, hdev]
  · rw [log, hlog]
  · rw [touched, hcfg]
  · exact (before.router.trans (State.issued_sameRouter _ ctx rest)).trans frame.router

end Sys2Proof.Machine

end

/-! Every step of the machine keeps the invariant, and the exclusion of the SPI primitives (R43, R69, R77, R88, R94). -/

section

namespace Sys2Proof.Machine

/-- The invariant is kept by each step of an operation, by the environment, and by the bookkeeping of who runs what. -/
theorem inv_closed : Closed State.Inv where
  perform a _ h := perform_inv a h
  source _ _ _ h := h.congr rfl rfl rfl rfl h.routing h.lines
  complete _ h := spiComplete_inv h
  finish _ c h := devFinish_inv h c
  model _ _ _ _ _ _ _ _ _ h := h.congr rfl rfl rfl rfl h.routing h.lines

/-- The moves of the other agents keep the exclusion (R40, R43). -/
theorem point_exclusive {s : State} (h : s.Exclusive) : s.point.All State.Exclusive :=
  (point_held (r := []) (by simp) (exclusive_iff.mp h)).mono fun _ ⟨_, held⟩ => exclusive_iff.mpr held

/-- What was fetched keeps the exclusion, when its context has no operation in progress (R43, row 16). -/
theorem runFetched_exclusive {s t : State} {f : Except Refusal Op} (h : s.Exclusive)
    (hn : ∀ c, c ∈ s.calls → c.ctx ≠ s.ctx) (e : runFetched s f = .next t) : t.Exclusive := by
  match f, e with
  | .ok (.instr i), e => exact exec_exclusive h hn e
  | .ok (.frame cmd c sent reads), e => exact call_exclusive (p := fun e => progUnknown e cmd c sent reads) h hn e

/-- An item that does not wait keeps the exclusion: an operation as above, and a move of the mutex touches neither the
operations in progress nor who is inside (R43). -/
theorem runItem_exclusive {s t : State} {item : Issue} {rest : List Issue} (h : s.Exclusive)
    (hn : ∀ c, c ∈ s.calls → c.ctx ≠ issueCtx item) (e : runItem item rest s = .next t) : t.Exclusive := by
  cases item with
  | op ctx code => exact runFetched_exclusive (s := s.issued ctx rest) (h.congr rfl rfl) hn e
  | bus ctx b => exact runFetched_exclusive (s := s.issued ctx rest) (h.congr rfl rfl) hn e
  | takeMutex ctx => cases e; exact h.congr rfl rfl
  | releaseMutex ctx =>
    simp only [runItem, moveReleaseMutex] at e
    split at e
    · cases e; exact h.congr rfl rfl
    · cases e

/-- What the host contexts do in a step keeps the exclusion: an item is run only if its context has no operation in
progress; otherwise an operation in progress goes on (R43, rows 14, 16). -/
theorem runNext_exclusive {s t : State} (h : s.Exclusive) (e : runNext s = .next t) : t.Exclusive := by
  simp only [runNext] at e
  split at e
  · rename_i item rest hp
    exact runItem_exclusive h (pick_ready hp) e
  · cases hc : s.calls with
    | nil => simp only [resumeFirst, hc] at e; cases e; exact h
    | cons c rest => simp only [resumeFirst, hc] at e; exact resume_exclusive h hc e

/-- The step of the machine keeps the exclusion (R43). -/
theorem step_exclusive {s t : State} (h : s.Exclusive) (e : step s = .next t) : t.Exclusive := by
  simp only [step] at e
  split at e
  · have hp := point_exclusive h
    have settled := (point_settled s).1
    cases hs : s.point with
    | ok u a => rw [hs] at e hp; exact runNext_exclusive hp e
    | raised c a | pending a => rw [hs] at settled; exact settled.elim
    | refused r | fault f => rw [hs] at e; cases e
  · cases e

/-- Settles O3: the invariant is a closed property; the exclusion holds of the operations in progress, the running
context's among them, throughout the step. -/
theorem stepKeepsInvariant : Obligations.StepKeepsInvariant := fun _ _ e =>
  ⟨fun h => step_keeps inv_closed h e, fun h => step_exclusive h e⟩

end Sys2Proof.Machine

end

/-! Register accesses of the router (R64 to R69): `exec` on the operation of a register is the access. -/

section

namespace Sys2Proof.Machine

/-- A register read is its access, whose value is returned (R10). -/
theorem exec_readInstr (r : Reg) (s : State) : exec (readInstr r) s = (regRead r s).returnValue := by
  match r with
  | .gimr | .gisr | .sfcr | .sfcr2 | .sfcsr | .sfdr | .irr 0 | .irr 1 | .irr 2 | .irr 3 => rfl

/-- A register write is its access (R10). -/
theorem exec_writeInstr (r : Reg) (v : Word) (s : State) : exec (writeInstr v r) s = (regWrite r v s).returnOk := by
  match r with
  | .gimr | .gisr | .sfcr | .sfcr2 | .sfcsr | .sfdr | .irr 0 | .irr 1 | .irr 2 | .irr 3 => rfl

/-- A read of a routing register (R68). -/
theorem exec_readIrr (n : Fin 4) (s : State) : exec (readInstr (.irr n)) s =
    .next { s with log := s.log ++ [⟨.read, .irr n, s.irr[n]⟩], result := .value s.irr[n] } :=
  exec_readInstr (.irr n) s

/-- A write of a legal word to a routing register (R69). -/
theorem exec_writeIrr_legal {v : Word} (h : legalNibbles v = true) (n : Fin 4) (s : State) :
    exec (writeInstr v (.irr n)) s =
      .next { s with irr := s.irr.set n v, log := s.log ++ [⟨.write, .irr n, v⟩], result := .ok } := by
  rw [exec_writeInstr, regWrite, irrWrite, if_pos h]
  rfl

/-- A write of a word with a reserved nibble is refused (R69). -/
theorem exec_writeIrr_reserved {v : Word} (h : legalNibbles v ≠ true) (n : Fin 4) (s : State) :
    exec (writeInstr v (.irr n)) s = .refused .reservedNibble := by
  rw [exec_writeInstr, regWrite, irrWrite, if_neg h]
  rfl

/-- Settles O9: each read is the access of its register, which answers at once. -/
theorem routerReads : Obligations.RouterReads := by
  refine ⟨by decide, fun s => ⟨?gimr, ?gisr, ?irr0, ?irr1, ?irr2, ?irr3⟩⟩
  case gimr => exact exec_readInstr .gimr s
  case gisr => exact exec_readInstr .gisr s
  case irr0 => exact exec_readIrr 0 s
  case irr1 => exact exec_readIrr 1 s
  case irr2 => exact exec_readIrr 2 s
  case irr3 => exact exec_readIrr 3 s

/-- Settles O10: each write is the access of its register. -/
theorem maskAndStatusWrites : Obligations.MaskAndStatusWrites :=
  ⟨by decide, fun s v => ⟨exec_writeInstr .gimr v s, exec_writeInstr .gisr v s⟩⟩

/-- Settles O11: the two clauses are the two sides of the test of the nibbles. -/
theorem routingWrites : Obligations.RoutingWrites := by
  refine ⟨by decide, fun s v => ⟨fun legal => ?legal, fun ⟨k, hk, reserved⟩ => ?reserved⟩⟩
  case legal =>
    have h : legalNibbles v = true := (legalNibbles_iff v).mpr legal
    exact ⟨exec_writeIrr_legal h 0 s, exec_writeIrr_legal h 1 s, exec_writeIrr_legal h 2 s, exec_writeIrr_legal h 3 s⟩
  case reserved =>
    have h : legalNibbles v ≠ true := fun legal => Nat.not_lt.mpr ((legalNibbles_iff v).mp legal k hk) reserved
    exact ⟨exec_writeIrr_reserved h 0 s, exec_writeIrr_reserved h 1 s, exec_writeIrr_reserved h 2 s,
      exec_writeIrr_reserved h 3 s⟩

end Sys2Proof.Machine

end

/-! The output function (R63): which sources drive which line. -/

section

namespace Sys2Proof.Machine

/-- Collecting bits of a byte: bit `k` is there when it was there, or is collected. -/
theorem foldl_bits_getLsbD (p : Nat → Bool) (ks : List Nat) {k : Nat} (hk : k < 8) : ∀ acc : Byte,
    (ks.foldl (fun acc k => if p k then acc ||| (1#8 <<< k) else acc) acc).getLsbD k =
      (acc.getLsbD k || (ks.contains k && p k)) := by
  induction ks with
  | nil => simp
  | cons m ks ih =>
    intro acc
    rw [List.foldl_cons, ih]
    by_cases hm : k = m
    · subst hm
      cases hp : p k <;> simp [hk]
    · have bit : (1#8 <<< m).getLsbD k = false := by
        simp only [BitVec.getLsbD_shiftLeft, BitVec.getLsbD_one]
        by_cases hlt : k < m
        · simp [hlt]
        · simp; omega
      cases hp : p m <;> simp [hm, bit]

/-- Bit `k` of the CPU lines is the level of line `k` (R15). -/
theorem cpuLines_getLsbD (s : State) {k : Nat} (hk : k < 8) : s.cpuLines.getLsbD k = s.lineLevel k := by
  have mem : [0, 1, 2, 3, 4, 5, 6, 7].contains k = true := by
    simp only [List.contains_eq_mem, List.mem_cons, List.not_mem_nil, or_false, decide_eq_true_eq]; omega
  rw [State.cpuLines, foldl_bits_getLsbD s.lineLevel _ hk, mem]
  simp

/-- A level is active when a source routed to it is requesting and enabled (R63). -/
theorem levelActive_iff {s : State} {level : Nat} : s.levelActive level = true ↔
    ∃ src, src < 32 ∧ (s.route src).toNat = level ∧ s.src.getLsbD src = true ∧ s.gimr.getLsbD src = true := by
  simp only [State.levelActive, State.active, List.any_eq_true, List.mem_range, Config.numSources, Bool.and_eq_true,
    beq_iff_eq]

/-- The cascade levels (R63). -/
theorem mem_levels {l : Nat} : l ∈ [1, 2, 3, 4, 5] ↔ 1 ≤ l ∧ l ≤ 5 := by
  simp only [List.mem_cons, List.not_mem_nil, or_false]
  omega

/-- A line is high when a source is active whose level is one of 1 to 5 and drives the line (R63). -/
theorem lineLevel_iff {s : State} {k : Nat} : s.lineLevel k = true ↔
    ∃ src, src < 32 ∧ (1 ≤ (s.route src).toNat ∧ (s.route src).toNat ≤ 5) ∧
      s.cfg.lineOfLevel (s.route src).toNat = some k ∧ s.src.getLsbD src = true ∧ s.gimr.getLsbD src = true := by
  simp only [State.lineLevel, List.any_eq_true, Bool.and_eq_true, beq_iff_eq, levelActive_iff, mem_levels]
  constructor
  · rintro ⟨_, hl, hline, src, hsrc, rfl, active⟩; exact ⟨src, hsrc, hl, hline, active⟩
  · rintro ⟨src, hsrc, hl, hline, active⟩; exact ⟨_, hl, hline, src, hsrc, rfl, active⟩

/-- With a legal configuration only the levels 1 to 5 drive lines (R7, R63). -/
theorem cpuLines_iff {s : State} (hok : s.cfg.ok = true) {k : Nat} (hk : k < 8) : s.cpuLines.getLsbD k = true ↔
    ∃ src, src < 32 ∧ s.cfg.lineOfLevel (s.route src).toNat = some k ∧ s.src.getLsbD src = true ∧
      s.gimr.getLsbD src = true := by
  rw [cpuLines_getLsbD s hk, lineLevel_iff]
  constructor
  · rintro ⟨src, hsrc, _, hline, active⟩; exact ⟨src, hsrc, hline, active⟩
  · rintro ⟨src, hsrc, hline, active⟩
    obtain ⟨h1, h5, _⟩ := Cfg.lineOfLevel_range hok hline
    exact ⟨src, hsrc, ⟨h1, h5⟩, hline, active⟩

/-- The decided lines: level `l` of 1 to 5 drives line `l + 1` (D6). -/
theorem lineOfLevel_decided {cfg : Cfg} (h : cfg.levelLines = Cfg.decidedLines) {l k : Nat} (h1 : 1 ≤ l) (h5 : l ≤ 5) :
    cfg.lineOfLevel l = some k ↔ l + 1 = k := by
  obtain ⟨m, rfl⟩ := Nat.exists_eq_add_of_le' h1
  simp only [Cfg.lineOfLevel, h, Cfg.decidedLines]
  match m, h5 with
  | 0, _ | 1, _ | 2, _ | 3, _ | 4, _ => simp

/-- Settles O20: the lines are the OR over the levels that drive them; the decided lines give the line of each level. -/
theorem cpuLines : Obligations.CpuLines := by
  intro s k hk
  refine ⟨fun hok => cpuLines_iff hok hk, fun hdecided => ?_⟩
  rw [cpuLines_getLsbD s hk, lineLevel_iff]
  constructor
  · rintro ⟨src, hsrc, ⟨h1, h5⟩, hline, active⟩
    have hlevel := (lineOfLevel_decided hdecided h1 h5).mp hline
    exact ⟨by omega, by omega, src, hsrc, hlevel, active⟩
  · rintro ⟨h2, h6, src, hsrc, hlevel, active⟩
    have h1 : 1 ≤ (s.route src).toNat := by omega
    have h5 : (s.route src).toNat ≤ 5 := by omega
    exact ⟨src, hsrc, ⟨h1, h5⟩, (lineOfLevel_decided hdecided h1 h5).mpr hlevel, active⟩

end Sys2Proof.Machine

end

/-! The router's calls as their callers run them: no call of the router is an SPI primitive, so `exec` is what its program
answers. A call that does not wait is settled by the answer of the program; a call whose first step waits takes
interleaving points until the step can be taken, or stays in progress without any answer (rows 14, 15, 21). -/

section

namespace Sys2Proof.Machine

/-- A call that is no SPI primitive and does not wait comes to what its program answers (R43, R116). -/
theorem call_eq_toOutcome {op : Op} (ho : op.usesSpi = false) {p : Env → Prog Result} {s : State}
    (hw : ∀ t, (p (s.env 0)).den s ≠ .pending t) : call op p s = ((p (s.env 0)).den s).toOutcome := by
  have enter := enterOp_other ho s.ctx s
  cases h : (p (s.env 0)).den s with
  | ok r t => rw [call_ok enter h, State.ended_other ho]; rfl
  | raised c t => rw [call_raised enter h, State.ended_other ho]; rfl
  | pending t => exact absurd h (hw t)
  | refused r => exact call_refused enter h
  | fault f => exact call_fault enter h

theorem call_returns {op : Op} (ho : op.usesSpi = false) {p : Env → Prog Result} {s t : State} {r : Result}
    (h : (p (s.env 0)).den s = .ok r t) : call op p s = .next { t with result := r } := by
  rw [call_eq_toOutcome ho (by rw [h]; exact fun _ => nofun), h, Res.toOutcome_ok]

/-- The condition is returned as its result (R116). -/
theorem call_raises {op : Op} (ho : op.usesSpi = false) {p : Env → Prog Result} {s t : State} {c : Condition}
    (h : (p (s.env 0)).den s = .raised c t) : call op p s = .next { t with result := raisedResult t.cfg c } := by
  rw [call_eq_toOutcome ho (by rw [h]; exact fun _ => nofun), h, Res.toOutcome_raised]

/-- With no agent left to act, a step that cannot be taken waits (rows 14, 15). -/
theorem Act.step_waits {a : Act} {s : State} (ha : a.isAccess = false) (hr : a.mayRun s = false) (hs : s.schedule = []) :
    a.step s = .pending s := by
  have wait : waitTurn a s.schedule.length s = .pending s := by
    simp only [hs, List.length_nil, waitTurn, hr, Bool.false_eq_true, if_false]
  cases a <;> first | contradiction | simp only [Act.step, Act.before, wait, Res.bind_pending]

/-- A step that cannot be taken waits for the next interleaving point (R40, row 15). -/
theorem Act.step_point {a : Act} {s p : State} (ha : a.isAccess = false) (hr : a.mayRun s = false) (hs : s.schedule ≠ [])
    (hp : s.point = .ok () p) : a.step s = a.step p := by
  have tail : p.schedule = s.schedule.tail := by
    have h := (point_settled s).2
    rw [hp] at h
    exact h
  have wait : waitTurn a s.schedule.length s = waitTurn a p.schedule.length p := by
    obtain ⟨batch, rest, e⟩ := List.exists_cons_of_ne_nil hs
    rw [tail, e, List.length_cons, List.tail_cons]
    simp only [waitTurn, hr, Bool.false_eq_true, if_false, hp, Res.bind_ok]
  cases a <;> first | contradiction | simp only [Act.step, Act.before, wait]

/-- A call whose first step waits stays in progress, having got no answer (R137). -/
theorem call_waits {op : Op} (ho : op.usesSpi = false) {p : Env → Prog Result} {s t : State} {a : Act}
    {next : Word → Prog Result} (hp : p (s.env 0) = .act a next) (h : a.step s = .pending t) :
    call op p s = .next (t.suspend op []) := by
  rw [call, enterOp_other ho, Res.finish_ok, hp, Prog.run, h]
  rfl

/-- A call depends on its state only through its program and the first step of that. -/
theorem call_congr_step {op : Op} (ho : op.usesSpi = false) {p : Env → Prog Result} {s t : State} {a : Act}
    {next : Word → Prog Result} (hs : p (s.env 0) = .act a next) (ht : p (t.env 0) = .act a next)
    (h : a.step s = a.step t) : call op p s = call op p t := by
  rw [call, call, enterOp_other ho, enterOp_other ho, Res.finish_ok, Res.finish_ok, hs, ht, Prog.run, Prog.run, h]

end Sys2Proof.Machine

end

/-! The read-modify-write of the mask (R71, R72), and the source numbers it and `register_handler` raise for (R135). -/

section

namespace Sys2Proof.Machine

/-- A source number above 31 is raised before any step (R135). -/
theorem checkSource_bind_raised {α : Type} {src : Nat} (h : 31 < src) (f : Unit → Prog α) (s : State) :
    ((checkSource src).bind f).den s = .raised (.invalidArgument [src]) s := by
  rw [checkSource, if_pos h]
  rfl

theorem checkSource_bind_ok {α : Type} {src : Nat} (h : src < 32) (f : Unit → Prog α) : (checkSource src).bind f = f () := by
  rw [checkSource, if_neg (by omega), Prog.bind_ret]

/-- The program of a call that begins with the check of its source raises, and nothing else changes (R133, R135). -/
theorem call_badSource {op : Op} (ho : op.usesSpi = false) {src : Nat} (h : 31 < src) (f : Unit → Prog Result) (s : State) :
    call op (fun _ => (checkSource src).bind f) s =
      .next { s with result := .raised s.cfg.eInval (.invalidArgument [src]) } := by
  have raises := call_raises ho (p := fun _ => (checkSource src).bind f) (checkSource_bind_raised h f s)
  exact raises

/-- Settles O25: the three calls begin with the check of their source. -/
theorem badSourceRaises : Obligations.BadSourceRaises := fun s src h hsrc =>
  ⟨call_badSource (op := .instr (.enable src)) rfl hsrc _ s, call_badSource (op := .instr (.disable src)) rfl hsrc _ s,
    call_badSource (op := .instr (.registerHandler src h)) rfl hsrc _ s⟩

/-- A change of the mask that finds the lock free: the lock is taken, the mask is read, written back changed, and the lock
released, with an interleaving point before each access (R42, R71, R72). -/
theorem changeMask_den {src : Nat} (hsrc : src < 32) (f : Word → Word) {s a b : State} (hfree : s.irqLock = .free)
    (ha : (takeLock s).point = .ok () a) (hb : (a.logged .read .gimr a.gimr).point = .ok () b) :
    (changeMask src f).den s =
      .ok .ok (dropLock ({ b with gimr := f a.gimr }.logged .write .gimr (f a.gimr))) := by
  have lock : Act.lock.step s = .ok 0#32 (takeLock s) := Act.step_ready rfl (beq_iff_eq.mpr hfree)
  simp only [changeMask, checkSource_bind_ok hsrc, Prog.den_bind, Prog.den_doing, lock, Res.bind_ok, Prog.den_reading, ha,
    regRead, gimrRead, Prog.den_writing, hb, regWrite, gimrWrite, Act.step_unlock, Prog.den_ret]

/-- The change of the mask as a call that finds the lock free (R71, R72). -/
theorem call_changeMask {op : Op} (ho : op.usesSpi = false) {src : Nat} (hsrc : src < 32) (f : Word → Word) {s a b : State}
    (hfree : s.irqLock = .free) (ha : (takeLock s).point = .ok () a) (hb : (a.logged .read .gimr a.gimr).point = .ok () b) :
    call op (fun _ => changeMask src f) s = .next { b with
      gimr := f a.gimr, log := b.log ++ [⟨.write, .gimr, f a.gimr⟩], irqLock := .free, result := .ok } := by
  have returns := call_returns ho (p := fun _ => changeMask src f) (changeMask_den hsrc f hfree ha hb)
  exact returns

/-- The change of the mask as a call that finds the lock held: it stays in progress when no agent is left to act, and
otherwise waits for the next interleaving point (R42, row 15). -/
theorem call_changeMask_held {op : Op} (ho : op.usesSpi = false) {src : Nat} (hsrc : src < 32) (f : Word → Word) {s : State}
    (hheld : s.irqLock ≠ .free) :
    (s.schedule = [] → call op (fun _ => changeMask src f) s = .next (s.suspend op [])) ∧
    (s.schedule ≠ [] → ∀ p, s.point = .ok () p →
      call op (fun _ => changeMask src f) s = call op (fun _ => changeMask src f) p) := by
  obtain ⟨next, first⟩ := changeMask_eq_lock hsrc f
  have hr : Act.lock.mayRun s = false := beq_eq_false_iff_ne.mpr hheld
  exact ⟨fun hs => call_waits ho first (Act.step_waits rfl hr hs),
    fun hs _ hp => call_congr_step ho first first (Act.step_point rfl hr hs hp)⟩

/-- Settles O23: `enable` and `disable` are the two changes of the mask. -/
theorem maskChangesUnderLock : Obligations.MaskChangesUnderLock := by
  refine ⟨fun s a b src hsrc hfree ha hb => ⟨?enable, ?disable⟩, fun s src hsrc hheld => ?held⟩
  case enable => exact call_changeMask (op := .instr (.enable src)) rfl hsrc (maskSet src) hfree ha hb
  case disable => exact call_changeMask (op := .instr (.disable src)) rfl hsrc (maskClear src) hfree ha hb
  case held =>
    obtain ⟨enable_stays, enable_waits⟩ :=
      call_changeMask_held (op := .instr (.enable src)) rfl hsrc (maskSet src) hheld
    obtain ⟨disable_stays, disable_waits⟩ :=
      call_changeMask_held (op := .instr (.disable src)) rfl hsrc (maskClear src) hheld
    exact ⟨fun hs => ⟨enable_stays hs, disable_stays hs⟩,
      fun hs p hp => ⟨enable_waits hs p hp, disable_waits hs p hp⟩⟩

end Sys2Proof.Machine

end

/-! The dispatch path as its callers run it (R73, R74, R77): the outcome of `dispatch` and of `irq_entry` for every schedule,
and with no agent left to act. -/

section

namespace Sys2Proof.Machine

/-- The monitored lines are those that a level drives (D11, R74). -/
theorem driven_iff {cfg : Cfg} {k : Fin 8} : Driven cfg k ↔ monitored cfg k = true := by
  simp only [Driven, monitored, List.any_eq_true, beq_iff_eq, mem_levels, and_assoc]

/-- Once its line is routing, `dispatch` does not wait. -/
theorem routeLine_settled (k : Fin 8) (s : State) : ((routeLine k).den s).Settled := by
  rw [routeLine_den]
  exact (point_settled s).1.bind fun _ a _ => (point_settled _).1.bind fun _ _ _ => trivial

theorem Res.Settled.not_pending {α : Type} {r : Res α} (h : r.Settled) (t : State) : r ≠ .pending t := by
  rintro rfl
  exact h

/-- A call that comes to the rest of a `dispatch` on `k` from the state `u`: the mask is read in `a`, the status in `b`
(R73). -/
theorem call_routeLine {op : Op} (ho : op.usesSpi = false) {p : Env → Prog Result} {s u a b : State} {k : Fin 8}
    (hd : (p (s.env 0)).den s = (routeLine k).den u) (ha : u.point = .ok () a)
    (hb : (a.logged .read .gimr a.gimr).point = .ok () b) :
    call op p s = .next { endRoute k (a.gimr &&& b.src) (b.logged .read .gisr b.src) with
      result := routeResult (a.gimr &&& b.src) } := by
  have den := routeLine_den k u
  rw [ha, Res.bind_ok, hb, Res.bind_ok] at den
  exact call_returns ho (hd.trans den)

/-- When such a call answers a next state, both interleaving points have answered. -/
theorem call_routeLine_next {op : Op} (ho : op.usesSpi = false) {p : Env → Prog Result} {s u t : State} {k : Fin 8}
    (hd : (p (s.env 0)).den s = (routeLine k).den u) (e : call op p s = .next t) :
    ∃ a b, u.point = .ok () a ∧ (a.logged .read .gimr a.gimr).point = .ok () b ∧
      t = { endRoute k (a.gimr &&& b.src) (b.logged .read .gisr b.src) with
        result := routeResult (a.gimr &&& b.src) } := by
  have out := call_eq_toOutcome ho (p := p) (s := s) (by rw [hd]; exact (routeLine_settled k u).not_pending)
  rw [hd, routeLine_den, e] at out
  have settled_a := (point_settled u).1
  cases ha : u.point with
  | ok _ a =>
    rw [ha, Res.bind_ok] at out
    have settled_b := (point_settled (a.logged .read .gimr a.gimr)).1
    cases hb : (a.logged .read .gimr a.gimr).point with
    | ok _ b =>
      rw [hb, Res.bind_ok, Res.toOutcome_ok] at out
      injection out with out
      exact ⟨a, b, rfl, hb, out⟩
    | raised _ _ | pending _ => rw [hb] at settled_b; exact settled_b.elim
    | refused _ | fault _ => rw [hb] at out; cases out
  | raised _ _ | pending _ => rw [ha] at settled_a; exact settled_a.elim
  | refused _ | fault _ => rw [ha] at out; cases out

/-! `dispatch`. -/

/-- A line that `dispatch` may not enter is refused (R73). -/
theorem exec_dispatch_refused {s : State} {k : Fin 8} (hp : s.pathFree k = true) :
    (monitored s.cfg k = false → exec (.dispatch k) s = .refused .unmonitoredLine) ∧
    (monitored s.cfg k = true → s.lineState[k] = .dispatched → exec (.dispatch k) s = .refused .lineDispatched) := by
  have enter := enterOp_other (op := .instr (.dispatch k)) rfl s.ctx s
  obtain ⟨unmonitored, dispatched⟩ := dispatchLine_refused hp
  exact ⟨fun hm => call_refused (p := fun _ => progDispatch k) enter (unmonitored hm),
    fun hm hl => call_refused (p := fun _ => progDispatch k) enter (dispatched hm hl)⟩

/-- `dispatch` on a line that it may enter, whatever the other agents do before its two reads (R73). -/
theorem exec_dispatch {s a b : State} {k : Fin 8} (hk : Driven s.cfg k) (hl : s.lineState[k] ≠ .dispatched)
    (hp : s.pathFree k = true) (ha : (s.setLine k .routing).point = .ok () a)
    (hb : (a.logged .read .gimr a.gimr).point = .ok () b) :
    exec (.dispatch k) s = .next { endRoute k (a.gimr &&& b.src) (b.logged .read .gisr b.src) with
      result := routeResult (a.gimr &&& b.src) } :=
  call_routeLine (op := .instr (.dispatch k)) (p := fun _ => progDispatch k) rfl
    (dispatchLine_den (driven_iff.mp hk) hl hp) ha hb

/-- `dispatch` with no agent left to act (R73, R170). -/
theorem exec_dispatch_eager {s : State} {k : Fin 8} (hs : s.schedule = []) (hk : Driven s.cfg k)
    (hl : s.lineState[k] ≠ .dispatched) (hp : s.pathFree k = true) :
    ∃ t, exec (.dispatch k) s = .next t ∧ t.result = routeResult (s.gimr &&& s.src) ∧
      t.lineState[k] = (if s.gimr &&& s.src = 0#32 then .idle else .dispatched) := by
  have hm : monitored s.cfg k = true := driven_iff.mp hk
  obtain ⟨t, den, lines, _⟩ := routeLine_eager (k := k) (s := s.setLine k .routing) hs hm
  have den : (progDispatch k).den s = .ok (routeResult (s.gimr &&& s.src)) t := (dispatchLine_den hm hl hp).trans den
  refine ⟨_, call_returns (op := .instr (.dispatch k)) (p := fun _ => progDispatch k) rfl den, rfl, ?_⟩
  show t.lineState[k] = _
  rw [lines]
  exact Vector.getElem_set_self _

/-- The interleaving points before the two reads keep the configuration, and so the monitored lines (row 1). -/
theorem cfg_after_reads {s a b : State} {k : Fin 8} (ha : (s.setLine k .routing).point = .ok () a)
    (hb : (a.logged .read .gimr a.gimr).point = .ok () b) : (b.logged .read .gisr b.src).cfg = s.cfg := by
  rw [State.logged_cfg, point_cfg hb, State.logged_cfg, point_cfg ha, State.setLine_cfg]

/-- The lowest source that is set in mask and status (R73). -/
theorem ctz32_and {m st : Word} (h : m &&& st ≠ 0#32) : m.getLsbD (ctz32 (m &&& st)) = true ∧
    st.getLsbD (ctz32 (m &&& st)) = true ∧
    ∀ n, n < ctz32 (m &&& st) → m.getLsbD n = false ∨ st.getLsbD n = false := by
  obtain ⟨_, set, lower⟩ := ctz32_spec h
  rw [BitVec.getLsbD_and, Bool.and_eq_true] at set
  exact ⟨set.1, set.2, fun n hn => by simpa only [BitVec.getLsbD_and, Bool.and_eq_false_iff] using lower n hn⟩

/-- Settles O26: the line is entered, the mask and the status are read, and the path ends by what is set in both. -/
theorem dispatch : Obligations.Dispatch := by
  refine ⟨by decide, fun s k => ⟨fun hk hl hp a b ha hb => ⟨_, rfl, fun hz => ?spurious, fun hnz => ?selected⟩,
    fun hk hp => ?undriven, fun hk hl => ?dispatched⟩⟩
  case undriven => exact (exec_dispatch_refused hp).1 (by rwa [driven_iff, Bool.not_eq_true] at hk)
  case dispatched =>
    have hp : s.pathFree k = true := pathFree_of_not_routing (by rw [hl]; decide)
    exact (exec_dispatch_refused hp).2 (driven_iff.mp hk) hl
  all_goals
    have run := exec_dispatch hk hl hp ha hb
    have cfg : (b.logged .read .gisr b.src).cfg = s.cfg := cfg_after_reads (s := s) (k := k) ha hb
    have hm : monitored (b.logged .read .gisr b.src).cfg k = true := by rw [cfg]; exact driven_iff.mp hk
    rw [endRoute_monitored hm, routeResult] at run
  case spurious =>
    rw [if_pos hz, if_pos hz] at run
    exact run
  case selected =>
    rw [if_neg hnz, if_neg hnz] at run
    have hlt := (ctz32_spec hnz).1
    obtain ⟨mask, status, lower⟩ := ctz32_and hnz
    have handler : (b.setLine k .dispatched).handlerOf (ctz32 (a.gimr &&& b.src)) = b.handler[ctz32 (a.gimr &&& b.src)] :=
      dif_pos hlt
    refine ⟨_, hlt, mask, status, lower, run.trans ?_⟩
    rw [← handler]
    rfl

/-! `irq_entry`. -/

/-- Without a pending, monitored, idle line `irq_entry` is spurious (R74). -/
theorem exec_irqEntry_spurious {s : State} {pending : Byte} (h : s.entryLines pending = []) :
    exec (.irqEntry pending) s = .next { s with spuriousCount := s.spuriousCount + 1, result := .spurious } := by
  have den : (enterIrq pending).den s = .ok .spurious s.countSpurious := by
    rcases enterIrq_cases pending s with ⟨_, den⟩ | ⟨k, _, hk, _⟩
    · exact den
    · rw [h] at hk; cases hk
  exact call_returns (op := .instr (.irqEntry pending)) (p := fun _ => progIrqEntry pending) rfl den

/-- With such lines `irq_entry` is what is left of the `dispatch` of one of them once that is routing, which is its `dispatch`
(R74, row 10). -/
theorem enterIrq_dispatches {s : State} {pending : Byte} (h : s.entryLines pending ≠ []) :
    ∃ k n, k ∈ s.entryLines pending ∧
      (enterIrq pending).den s = (routeLine k).den ((s.withPicks n).setLine k .routing) ∧
      (dispatchLine k).den (s.withPicks n) = (routeLine k).den ((s.withPicks n).setLine k .routing) := by
  rcases enterIrq_cases pending s with ⟨none, _⟩ | ⟨k, n, hk, den⟩
  · exact absurd none h
  · obtain ⟨_, hm, hl⟩ := mem_entryLines.mp hk
    exact ⟨k, n, hk, den, dispatchLine_den hm (by rw [State.withPicks_lineState, hl]; decide)
      (pathFree_of_not_routing (by rw [State.withPicks_lineState, hl]; decide))⟩

/-- `irq_entry` is the `dispatch` of one of its lines (R74, row 10). -/
theorem exec_irqEntry_dispatches {s : State} {pending : Byte} (h : s.entryLines pending ≠ []) :
    ∃ k n, k ∈ s.entryLines pending ∧ exec (.irqEntry pending) s = exec (.dispatch k) (s.withPicks n) := by
  obtain ⟨k, n, hk, entry, disp⟩ := enterIrq_dispatches h
  refine ⟨k, n, hk, ?_⟩
  have settled := routeLine_settled k ((s.withPicks n).setLine k .routing)
  have entry_out := call_eq_toOutcome (op := .instr (.irqEntry pending)) rfl (p := fun _ => progIrqEntry pending) (s := s)
    (by simp only [progIrqEntry, entry]; exact settled.not_pending)
  have disp_out := call_eq_toOutcome (op := .instr (.dispatch k)) rfl (p := fun _ => progDispatch k) (s := s.withPicks n)
    (by simp only [progDispatch, disp]; exact settled.not_pending)
  simp only [progIrqEntry, entry] at entry_out
  simp only [progDispatch, disp] at disp_out
  exact entry_out.trans disp_out.symm

/-- A line that `irq_entry` may choose, in the words of the statements (R74). -/
theorem mem_entryLines_driven {s : State} {pending : Byte} {k : Fin 8} :
    k ∈ s.entryLines pending ↔ Driven s.cfg k ∧ pending.getLsbD k = true ∧ s.lineState[k] = .idle := by
  rw [mem_entryLines, driven_iff]
  exact and_left_comm

/-- `irq_entry` with a line to enter and no agent left to act (R74, R170). -/
theorem exec_irqEntry_eager {s : State} {pending : Byte} (h : s.entryLines pending ≠ []) :
    ∃ k n, k ∈ s.entryLines pending ∧ exec (.irqEntry pending) s = exec (.dispatch k) (s.withPicks n) ∧
      (s.schedule = [] → ∃ t, exec (.irqEntry pending) s = .next t ∧ t.result = routeResult (s.gimr &&& s.src) ∧
        t.lineState[k] = (if s.gimr &&& s.src = 0#32 then .idle else .dispatched)) := by
  obtain ⟨k, n, hk, e⟩ := exec_irqEntry_dispatches h
  obtain ⟨driven, _, idle⟩ := mem_entryLines_driven.mp hk
  refine ⟨k, n, hk, e, fun hs => ?_⟩
  rw [e]
  exact exec_dispatch_eager (s := s.withPicks n) hs driven (by rw [State.withPicks_lineState, idle]; decide)
    (pathFree_of_not_routing (by rw [State.withPicks_lineState, idle]; decide))

/-- Settles O27: the lines that `irq_entry` may choose are the pending, driven, idle ones. -/
theorem irqEntry : Obligations.IrqEntry := by
  refine ⟨by decide, fun s pending => ⟨fun none => ?spurious, fun ⟨l, hl⟩ => ?dispatched⟩⟩
  case spurious =>
    refine exec_irqEntry_spurious (List.eq_nil_iff_forall_not_mem.mpr fun k hk => ?_)
    obtain ⟨driven, pend, idle⟩ := mem_entryLines_driven.mp hk
    exact none k driven pend idle
  case dispatched =>
    obtain ⟨k, n, hk, same, eager⟩ := exec_irqEntry_eager (List.ne_nil_of_mem (mem_entryLines_driven.mpr hl))
    obtain ⟨driven, pend, idle⟩ := mem_entryLines_driven.mp hk
    refine ⟨k, n, driven, pend, idle, same, fun hs => ?_⟩
    obtain ⟨t, run, result, line⟩ := eager hs
    rw [routeResult] at result
    refine ⟨t, run, fun hz => ?_, fun hnz => ?_⟩
    · rw [if_pos hz] at result line
      exact ⟨result, line⟩
    · rw [if_neg hnz] at result line
      exact ⟨_, result, line⟩

end Sys2Proof.Machine

end

/-! `route_init` with no other agent acting (R70): the whole next state. -/

section

namespace Sys2Proof.Machine

/-- With no agent left to act, a write finds the state in which the completion steps are taken (R170). -/
theorem den_writing_eager {s : State} (hs : s.schedule = []) (r : Reg) (v : Word) :
    (Prog.writing r v).den s = regWrite r v (eagerStep s) := by
  rw [Prog.den_writing, point_of_empty hs, Res.bind_ok]

/-- The state with the routing registers and the log replaced: what writes of routing registers change (R69). -/
def State.withRouting (s : State) (irr : Vector Word 4) (log : List LogEntry) : State := { s with irr := irr, log := log }

@[simp] theorem State.withRouting_same (s : State) : s.withRouting s.irr s.log = s := rfl
@[simp] theorem State.withRouting_schedule (s : State) (irr : Vector Word 4) (log : List LogEntry) :
    (s.withRouting irr log).schedule = s.schedule := rfl

/-- The completion steps do not read the routing registers or the log. -/
@[simp] theorem eagerStep_withRouting (s : State) (irr : Vector Word 4) (log : List LogEntry) :
    eagerStep (s.withRouting irr log) = (eagerStep s).withRouting irr log := by
  simp [eagerStep_eq, State.withRouting]

/-- A write of a legal word to a routing register (R69). -/
theorem irrWrite_withRouting {v : Word} (h : legalNibbles v = true) (n : Fin 4) (s : State) (irr : Vector Word 4)
    (log : List LogEntry) :
    irrWrite n v (s.withRouting irr log) = .ok () (s.withRouting (irr.set n v) (log ++ [⟨.write, .irr n, v⟩])) := by
  rw [irrWrite, if_pos h]
  rfl

/-- The routing registers once the words of `rs` are written. -/
def routedBy (c : Cfg) (f : Family) (rs : List (Fin 4)) (irr : Vector Word 4) : Vector Word 4 :=
  rs.foldl (fun (irr : Vector Word 4) (r : Fin 4) => irr.set r (packRouting c f r)) irr

/-- Once all four words are written nothing is left of what the registers held. -/
theorem routedBy_all (c : Cfg) (f : Family) (irr : Vector Word 4) : routedBy c f [0, 1, 2, 3] irr =
    #v[packRouting c f 0, packRouting c f 1, packRouting c f 2, packRouting c f 3] := by
  ext i hi
  match i, hi with
  | 0, _ | 1, _ | 2, _ | 3, _ => simp [routedBy]

/-- No agent is left to act after the completion steps either. -/
theorem withRouting_idle {s : State} (hs : s.schedule = []) (irr : Vector Word 4) (log : List LogEntry) :
    ((eagerStep s).withRouting irr log).schedule = [] := by
  rw [State.withRouting_schedule, eagerStep_eq]
  exact hs

/-- Writing the routing words of `rs` changes the routing registers, and is logged in the order of `rs` (R69, R70). -/
theorem writeRouting_den_withRouting {c : Cfg} (hok : c.ok = true) (f : Family) {s : State} (hs : s.schedule = []) :
    ∀ (rs : List (Fin 4)) (irr : Vector Word 4) (log : List LogEntry),
      (writeRouting c f rs).den ((eagerStep s).withRouting irr log) =
        .ok () ((eagerStep s).withRouting (routedBy c f rs irr)
          (log ++ rs.map fun r => ⟨.write, .irr r, packRouting c f r⟩)) := by
  intro rs
  induction rs with
  | nil => intro irr log; rw [List.map_nil, List.append_nil]; rfl
  | cons r rs ih =>
    intro irr log
    rw [writeRouting, Prog.den_bind, den_writing_eager (withRouting_idle hs irr log), eagerStep_withRouting,
      eagerStep_eagerStep, regWrite, irrWrite_withRouting (packRouting_legal hok f r), Res.bind_ok, ih, List.append_assoc]
    rfl

/-- The five writes of `route_init` with no agent left to act (R70). -/
theorem initRouting_den_eager {c : Cfg} (hok : c.ok = true) (f : Family) {s : State} (hs : s.schedule = []) :
    (initRouting c f).den s = .ok .ok { eagerStep s with
      irr := #v[packRouting c f 0, packRouting c f 1, packRouting c f 2, packRouting c f 3]
      gimr := bootstrapMask c
      log := s.log ++
        [⟨.write, .irr 0, packRouting c f 0⟩, ⟨.write, .irr 1, packRouting c f 1⟩, ⟨.write, .irr 2, packRouting c f 2⟩,
          ⟨.write, .irr 3, packRouting c f 3⟩, ⟨.write, .gimr, bootstrapMask c⟩] } := by
  have idle : (eagerStep s).schedule = [] := withRouting_idle hs (eagerStep s).irr (eagerStep s).log
  have settled : (writeRouting c f [0, 1, 2, 3]).den s = (writeRouting c f [0, 1, 2, 3]).den (eagerStep s) := by
    simp only [writeRouting, Prog.den_bind, den_writing_eager hs, den_writing_eager idle, eagerStep_eagerStep]
  have words := writeRouting_den_withRouting hok f hs [0, 1, 2, 3] (eagerStep s).irr (eagerStep s).log
  rw [State.withRouting_same, routedBy_all] at words
  rw [initRouting, Prog.den_bind, settled, words, Res.bind_ok, Prog.den_bind, den_writing_eager (withRouting_idle hs _ _),
    eagerStep_withRouting, eagerStep_eagerStep]
  simp [regWrite, gimrWrite, State.logged, State.withRouting, eagerStep_eq]

/-- Settles O21: the five writes, and the tests before them (R139). -/
theorem routeInit : Obligations.RouteInit := by
  refine ⟨fun s f b hs hok hf hb => ?runs, fun s => ⟨fun hf => ?family, fun hf hb => ?base⟩⟩
  case runs =>
    have program : progRouteInit (s.env 0) = initRouting s.cfg f := by simp only [progRouteInit, State.env, hf, hb]
    have den : (progRouteInit (s.env 0)).den s = _ := program ▸ initRouting_den_eager hok f hs
    exact call_returns (op := .instr .routeInit) (p := progRouteInit) rfl den
  all_goals refine call_refused (p := progRouteInit) (enterOp_other (op := .instr .routeInit) rfl s.ctx s) ?_
  case family => simp only [progRouteInit, State.env, hf, Prog.den_refuse]
  case base =>
    obtain ⟨f, hf⟩ := Option.ne_none_iff_exists'.mp hf
    simp only [progRouteInit, State.env, hf, hb, Prog.den_refuse]

end Sys2Proof.Machine

end

/-! The handler table and the return of a handler (R75, R76), and a dispatch path that is taken (R77, row 21). -/

section

namespace Sys2Proof.Machine

/-- The return of a handler is one step, which never waits (R76). -/
theorem exec_handlerReturn (k : Fin 8) (s : State) :
    exec (.handlerReturn k) s = .next { endHandler k s with result := .ok } := by
  have den : (handlerReturn k).den s = .ok .ok (endHandler k s) := by
    simp only [handlerReturn, Prog.den_bind, Prog.den_doing, Act.step_handled, Res.bind_ok, Prog.den_ret]
  exact call_returns (op := .instr (.handlerReturn k)) (p := fun _ => progHandlerReturn k) rfl den

/-- The return of the handler of a dispatched line (R76). -/
theorem exec_handlerReturn_dispatched {k : Fin 8} {s : State} (h : s.lineState[k] = .dispatched) :
    exec (.handlerReturn k) s = .next { s with lineState := s.lineState.set k .idle, result := .ok } := by
  rw [exec_handlerReturn, endHandler, if_pos h]
  rfl

/-- A line on the dispatch path of an operation in progress is not free (R77). -/
theorem pathFree_of_routes {k : Fin 8} {s : State} (hl : s.lineState[k] = .routing) {c : Call} (hc : c ∈ s.calls)
    (hr : c.routes k = true) : s.pathFree k = false := by
  have taken : s.calls.any (·.routes k) = true := List.any_eq_true.mpr ⟨c, hc, hr⟩
  simp only [State.pathFree, hl, taken, beq_self_eq_true, Bool.and_self, Bool.not_true]

/-- Settles O28: the store and the return are one step each; the entry of a line whose path is taken waits. -/
theorem handlerTableAndReturn : Obligations.HandlerTableAndReturn := by
  refine ⟨fun s src h => ?register, fun s k hl => exec_handlerReturn_dispatched hl, fun s k hl => ?other,
    fun s k c hs hl hc hop => ?taken⟩
  case register =>
    have den : (registerHandler src h).den s = .ok .ok (s.setHandler src h) := by
      simp only [registerHandler, checkSource_bind_ok src.isLt, Prog.den_bind, Prog.den_doing, Act.step_register,
        Res.bind_ok, Prog.den_ret]
    rw [State.setHandler, dif_pos src.isLt] at den
    exact call_returns (op := .instr (.registerHandler src h)) (p := fun _ => progRegisterHandler src h) rfl den
  case other =>
    rw [exec_handlerReturn, endHandler, if_neg hl]
  case taken =>
    have hr : c.routes k = true := by
      obtain hop | ⟨p, hop⟩ := hop <;> simp [Call.routes, hop]
    have wait : (Act.enter k).step s = .pending s := Act.step_waits rfl (pathFree_of_routes hl hc hr) hs
    exact call_waits (op := .instr (.dispatch k)) (p := fun _ => progDispatch k) rfl rfl wait

end Sys2Proof.Machine

end

/-! The router with no agent left to act (R78, R80): a change of the mask, then the dispatch of a line. -/

section

namespace Sys2Proof.Machine

/-- What a change of the mask to `mask` leaves when no agent is left to act: the mask is `mask`, the lock is free, and the
rest of what the router's calls read is as before (R71, R72). -/
structure State.MaskChanged (s : State) (mask : Word) (t : State) : Prop where
  gimr : t.gimr = mask
  irqLock : t.irqLock = .free
  src : t.src = s.src
  lineState : t.lineState = s.lineState
  calls : t.calls = s.calls
  cfg : t.cfg = s.cfg
  schedule : t.schedule = []

/-- A change of the mask with the lock free and no agent left to act (R71, R72). -/
theorem call_changeMask_eager {op : Op} (ho : op.usesSpi = false) {src : Nat} (hsrc : src < 32) (f : Word → Word) {s : State}
    (hfree : s.irqLock = .free) (hs : s.schedule = []) :
    ∃ t, call op (fun _ => changeMask src f) s = .next t ∧ s.MaskChanged (f s.gimr) t := by
  have idle : (eagerStep (takeLock s)).schedule = [] := by rw [eagerStep_eq]; exact hs
  have run := call_changeMask ho hsrc f hfree (point_of_empty (s := takeLock s) hs)
    (point_of_empty (s := (eagerStep (takeLock s)).logged .read .gimr (eagerStep (takeLock s)).gimr) idle)
  simp only [eagerStep_eq] at run
  exact ⟨_, run, rfl, rfl, rfl, rfl, rfl, rfl, hs⟩

theorem exec_enable_eager {s : State} {src : Nat} (hsrc : src < 32) (hfree : s.irqLock = .free) (hs : s.schedule = []) :
    ∃ t, exec (.enable src) s = .next t ∧ s.MaskChanged (maskSet src s.gimr) t :=
  call_changeMask_eager (op := .instr (.enable src)) rfl hsrc (maskSet src) hfree hs

theorem exec_disable_eager {s : State} {src : Nat} (hsrc : src < 32) (hfree : s.irqLock = .free) (hs : s.schedule = []) :
    ∃ t, exec (.disable src) s = .next t ∧ s.MaskChanged (maskClear src s.gimr) t :=
  call_changeMask_eager (op := .instr (.disable src)) rfl hsrc (maskClear src) hfree hs

theorem maskClear_getLsbD (src n : Nat) (v : Word) :
    (maskClear src v).getLsbD n = (v.getLsbD n && !decide (src = n)) := by
  rw [maskClear, BitVec.getLsbD_and, BitVec.getLsbD_not, bit_getLsbD]
  by_cases hn : n < 32
  · simp [hn]
  · simp [hn, BitVec.getLsbD_of_ge v n (by omega)]

theorem maskClear_maskClear (src : Nat) (v : Word) : maskClear src (maskClear src v) = maskClear src v := by
  rw [maskClear, maskClear, BitVec.and_assoc, BitVec.and_self]

/-- A word of one bit has that bit as its lowest. -/
theorem ctz32_bit {src : Nat} (h : src < 32) : ctz32 (bit src) = src := by
  have nonzero : bit src ≠ 0#32 := fun e => by simpa [e, h] using bit_getLsbD src src
  obtain ⟨_, set, _⟩ := ctz32_spec nonzero
  simp only [bit_getLsbD, Bool.and_eq_true, decide_eq_true_eq] at set
  exact set.1.symm

/-- The answer for a word of one bit is its source (R73). -/
theorem routeResult_bit {src : Nat} (h : src < 32) : bit src ≠ 0#32 ∧ routeResult (bit src) = .selected src := by
  have nonzero : bit src ≠ 0#32 := fun e => by simpa [e, h] using bit_getLsbD src src
  exact ⟨nonzero, by rw [routeResult, if_neg nonzero, ctz32_bit h]⟩

/-- Settles O30: after `enable` the bit is alone in the mask, and so in mask AND status. -/
theorem enabledSourceIsSelected : Obligations.EnabledSourceIsSelected := by
  intro s src k hsrc hs hfree hmask hstatus hk hl hp
  obtain ⟨t, enable, ht⟩ := exec_enable_eager hsrc hfree hs
  have path : t.pathFree k = true := by simpa only [State.pathFree, ht.lineState, ht.calls] using hp
  obtain ⟨u, run, result, line⟩ := exec_dispatch_eager ht.schedule (by rwa [ht.cfg]) (by rwa [ht.lineState]) path
  have lone : t.gimr &&& t.src = bit src := by
    rw [ht.gimr, ht.src, maskSet, hmask, hstatus, BitVec.zero_or]
    exact BitVec.and_self
  obtain ⟨nonzero, selected⟩ := routeResult_bit hsrc
  rw [lone] at result line
  rw [if_neg nonzero] at line
  exact ⟨t, u, enable, run, result.trans selected, line⟩

/-- Settles O31: clearing the bit of a source a second time changes nothing. -/
theorem disableIsIdempotent : Obligations.DisableIsIdempotent := by
  intro s src hsrc hs hfree
  obtain ⟨t, first, ht⟩ := exec_disable_eager hsrc hfree hs
  obtain ⟨u, second, hu⟩ := exec_disable_eager hsrc ht.irqLock ht.schedule
  refine ⟨t, u, first, second, ?again, ?clear, fun n hn => ?others, ht.src⟩
  case again => rw [hu.gimr, ht.gimr, maskClear_maskClear]
  case clear => simp [ht.gimr, maskClear_getLsbD]
  case others => simp [ht.gimr, maskClear_getLsbD, Ne.symm hn]

/-- A pending word of one line offers `irq_entry` that line alone (R74). -/
theorem entryLines_bit {s : State} {k l : Fin 8} (h : l ∈ s.entryLines (1#8 <<< k.val)) : l = k := by
  have pend := (mem_entryLines.mp h).1
  revert pend
  clear h
  revert k l
  decide

/-- Settles O32: the return moves only the line, so the line is as high as before, and `irq_entry` finds it idle. -/
theorem lineReFires : Obligations.LineReFires := by
  intro s k src hok hs hl hsrc hline hrequest henabled
  have returned := exec_handlerReturn_dispatched hl
  generalize ht : ({ s with lineState := s.lineState.set k .idle, result := .ok } : State) = t at returned
  have lines : t.cpuLines = s.cpuLines := by rw [← ht]; rfl
  have high : t.cpuLines.getLsbD k = true := by
    rw [lines, cpuLines_iff hok k.isLt]
    exact ⟨src, hsrc, hline, hrequest, henabled⟩
  have entry : k ∈ t.entryLines (1#8 <<< k.val) := by
    rw [← ht, mem_entryLines, monitored_iff hok]
    exact ⟨by simp, ⟨_, hline⟩, Vector.getElem_set_self _⟩
  obtain ⟨l, _, hmem, _, eager⟩ := exec_irqEntry_eager (List.ne_nil_of_mem entry)
  obtain rfl : l = k := entryLines_bit hmem
  obtain ⟨u, run, result, dispatched⟩ := eager (by rw [← ht]; exact hs)
  have nonzero : t.gimr &&& t.src ≠ 0#32 := by
    rw [← ht]
    intro e
    have bit := congrArg (BitVec.getLsbD · src) e
    simp [hrequest, henabled] at bit
  rw [routeResult, if_neg nonzero] at result
  rw [if_neg nonzero] at dispatched
  exact ⟨t, u, _, returned, high, lines, run, result, dispatched⟩

end Sys2Proof.Machine

end

/-! A source whose mask bit is clear is never selected (R72, R73, R80), while no other host context acts and, for the dispatch
path, whatever other contexts do. -/

section

namespace Sys2Proof.Machine

/-- With no other host context acting, an interleaving point is answered and hands nothing to the framework (R40). -/
theorem point_alone_frameworkCalls {s : State} (h : s.alone = true) :
    ∃ t, s.point = .ok () t ∧ t.alone = true ∧ t.frameworkCalls = s.frameworkCalls := by
  obtain ⟨t, e, ta, kept, _⟩ := point_alone (P := fun t => t.frameworkCalls = s.frameworkCalls)
    (fun _ _ _ h => h) (fun s h => by simp only [spiComplete]; split <;> exact h) (fun s c h => by cases c <;> exact h)
    (fun _ _ h => h) h rfl
  exact ⟨t, e, ta, kept⟩

/-- `disable` clears the mask bit, also when source lines and completions move meanwhile (R72). -/
theorem exec_disable_alone {s : State} {src : Nat} (hsrc : src < 32) (ha : s.alone = true) (hfree : s.irqLock = .free) :
    ∃ t, exec (.disable src) s = .next t ∧ t.gimr.getLsbD src = false ∧ t.alone = true ∧
      t.frameworkCalls = s.frameworkCalls := by
  obtain ⟨a, ea, alone_a, calls_a⟩ := point_alone_frameworkCalls (s := takeLock s) ha
  obtain ⟨b, eb, alone_b, calls_b⟩ := point_alone_frameworkCalls (s := a.logged .read .gimr a.gimr) alone_a
  refine ⟨_, call_changeMask (op := .instr (.disable src)) rfl hsrc (maskClear src) hfree ea eb, ?clear, alone_b,
    calls_b.trans calls_a⟩
  case clear => show (maskClear src a.gimr).getLsbD src = false; simp [maskClear_getLsbD]

/-! Every operation but the few that may set the bit keeps the source masked. -/

theorem readOnce_neverSelects (src : Nat) (r : Reg) : (readOnce r).NeverSelects src :=
  .bind _ fun _ => nofun

theorem writeOnce_neverSelects (src : Nat) (r : Reg) (v : Word) : (writeOnce r v).NeverSelects src :=
  .bind _ fun _ => nofun

theorem withController_neverSelects {src : Nat} {p : Prog Result} (h : p.NeverSelects src) :
    (withController p).NeverSelects src := .bind _ fun _ => h

theorem runFrame_neverSelects (src : Nat) (e : Env) (c : ChipSel) (op : Byte) (sent : List Byte) (reads : Nat) :
    (runFrame e c op sent reads).NeverSelects src :=
  .bind _ fun _ => .bind _ fun _ => .bind _ fun _ => .bind _ fun _ => .bind _ fun _ => nofun

theorem readReg_neverSelects (src : Nat) (e : Env) (op : Byte) (len : Nat) : (readReg e op len).NeverSelects src := by
  simp only [readReg]
  split
  · exact .bind _ fun _ => nofun
  · trivial

theorem writeReg_neverSelects (src : Nat) (e : Env) (op : Byte) (buf : List Byte) (len : Nat) :
    (writeReg e op buf len).NeverSelects src := by
  simp only [writeReg]
  split
  · trivial
  · split
    · trivial
    · exact .bind _ fun _ => nofun

theorem writeFlash_neverSelects (src : Nat) (e : Env) (offset : Nat) (buf : List Byte) (len : Nat) :
    (writeFlash e offset buf len).NeverSelects src := by
  refine .bind _ fun _ => ?_
  split
  · trivial
  · exact .bind _ fun _ => nofun

theorem progAttach_neverSelects (src : Nat) (e : Env) (family : Family) (cs : Byte) (straps : Straps) :
    (progAttach e family cs straps).NeverSelects src := by
  simp only [progAttach]
  split
  · trivial
  · trivial
  · refine .bind _ fun _ => ?_
    simp only [attachController]
    split
    · trivial
    · exact .bind _ fun _ => .bind _ fun _ => .bind _ fun _ => nofun

/-- An operation of the SPI side answers no source. -/
theorem progInstr_neverSelects (src : Nat) (e : Env) {i : Instr} (h : isRouterOp i = false) :
    (progInstr e i).NeverSelects src := by
  cases i with
  | gimrR | gimrW _ | gisrR | gisrW _ | irr0R | irr0W _ | irr1R | irr1W _ | irr2R | irr2W _ | irr3R | irr3W _ => cases h
  | routeInit | enable _ | disable _ | dispatch _ | irqEntry _ | registerHandler _ _ | handlerReturn _ => cases h
  | sfcrR | sfcr2R | sfcsrR | sfdrR => exact readOnce_neverSelects src _
  | sfcrW v | sfcr2W v | sfcsrW v | sfdrW v => exact writeOnce_neverSelects src _ v
  | attach family cs straps => exact progAttach_neverSelects src e family cs straps
  | spiPrep | readStatus | waitWip | writeEnable | issueCmd _ _ _ =>
    exact withController_neverSelects (.bind _ fun _ => nofun)
  | waitReady | w32 _ _ | r32 => exact .bind _ fun _ => nofun
  | readReg op len => exact withController_neverSelects (readReg_neverSelects src e op len)
  | writeReg op buf len => exact withController_neverSelects (writeReg_neverSelects src e op buf len)
  | read offset len =>
    exact withController_neverSelects (.bind _ fun _ => .bind _ fun _ => .bind _ fun _ => nofun)
  | write offset buf len => exact withController_neverSelects (writeFlash_neverSelects src e offset buf len)
  | erase offset =>
    exact withController_neverSelects (.bind _ fun _ => .bind _ fun _ => .bind _ fun _ => .bind _ fun _ => nofun)
  | wrsr c sent reads | pp c sent reads | rdsr c sent reads | wren c sent reads | fastRead c sent reads
  | fastRead4b c sent reads | pp4b c sent reads | se c sent reads | se4b c sent reads =>
    exact runFrame_neverSelects src e c _ sent reads

/-- A register read keeps the source masked and does not return it. -/
theorem read_masked {src : Nat} {F : List (Nat × Option Word)} {r : Reg} {s t : State} (h : s.Masked src F)
    (e : (regRead r s).returnValue = .next t) : t.Masked src F ∧ t.result ≠ .selected src := by
  have hp : (regRead r s).All (State.Masked src F) := perform_masked (a := .rd r) trivial h
  have settled := regRead_settled r s
  cases hr : regRead r s with
  | ok v u =>
    rw [hr] at e hp
    cases e
    exact ⟨⟨hp.alone, hp.clear, hp.handed⟩, nofun⟩
  | raised _ _ | pending _ => rw [hr] at settled; exact settled.elim
  | refused _ | fault _ => rw [hr] at e; cases e

/-- A register write that does not set the bit keeps the source masked and does not return it. -/
theorem write_masked {src : Nat} {F : List (Nat × Option Word)} {r : Reg} {v : Word} {s t : State}
    (hv : (Act.wr r v).masks src) (h : s.Masked src F) (e : (regWrite r v s).returnOk = .next t) :
    t.Masked src F ∧ t.result ≠ .selected src := by
  have hp : ((regWrite r v s).bind fun _ u => .ok 0#32 u).All (State.Masked src F) := perform_masked hv h
  have settled := regWrite_settled r v s
  cases hr : regWrite r v s with
  | ok _ u =>
    rw [hr] at e hp
    cases e
    exact ⟨⟨hp.alone, hp.clear, hp.handed⟩, nofun⟩
  | raised _ _ | pending _ => rw [hr] at settled; exact settled.elim
  | refused _ | fault _ => rw [hr] at e; cases e

/-- A write of another register than the mask masks every source. -/
theorem Act.masks_wr {src : Nat} {r : Reg} (h : r ≠ .gimr) (v : Word) : (Act.wr r v).masks src := by
  cases r with
  | gimr => exact absurd rfl h
  | _ => trivial

/-- An operation of the SPI side keeps a source masked (R2). -/
theorem exec_masked_spi {src : Nat} {F : List (Nat × Option Word)} {i : Instr} {s t : State} (hi : isRouterOp i = false)
    (h : s.Masked src F) (e : exec i s = .next t) : t.Masked src F ∧ t.result ≠ .selected src := by
  rcases exec_cases i s with ⟨r, _, he⟩ | ⟨r, v, hr, he⟩ | ⟨he, polls⟩
  · exact read_masked h (he.symm.trans e)
  · have other : r ≠ .gimr := by rintro rfl; rw [hi] at hr; cases hr
    exact write_masked (Act.masks_wr other v) h (he.symm.trans e)
  · have masks : (progInstr (s.env 0) i).Masks src :=
      Prog.Masks.of_polls _ (hi ▸ polls (s.env 0)) (progInstr_neverSelects src (s.env 0) hi)
    exact call_masked masks h (he.symm.trans e)

/-- `register_handler` masks every source: it touches no mask. -/
theorem registerHandler_masks (src m : Nat) (x : Word) : (registerHandler m x).Masks src := by
  simp only [registerHandler, checkSource]
  split
  · trivial
  · exact ⟨trivial, fun _ _ => nofun⟩

/-- `irq_entry` is a `dispatch` once it has chosen its line, and masks every source (R73, R74). -/
theorem enterIrq_masks (src : Nat) (pending : Byte) : (enterIrq pending).Masks src := by
  refine ⟨trivial, fun w _ => ?_⟩
  show Prog.Masks src (match lineOf w with | none => .ret .spurious | some k => routeLine k)
  split
  · exact nofun
  · exact routeLine_masks src _

/-- `enable` of another source leaves the bit as it is (R71). -/
theorem maskSet_getLsbD_other {src m : Nat} (h : m ≠ src) (v : Word) : (maskSet m v).getLsbD src = v.getLsbD src := by
  simp [maskSet, h]

/-- An operation of the router that may not set the mask bit of a source keeps it masked (R80). -/
theorem exec_masked_router {src : Nat} {F : List (Nat × Option Word)} {i : Instr} {s t : State} (hi : isRouterOp i = true)
    (henable : i ≠ .enable src) (hinit : i ≠ .routeInit) (hwrite : ∀ v, i = .gimrW v → v.getLsbD src = false)
    (h : s.Masked src F) (e : exec i s = .next t) : t.Masked src F ∧ t.result ≠ .selected src := by
  have masked {i : Instr} (masks : (progInstr (s.env 0) i).Masks src)
      (e : call (.instr i) (fun e => progInstr e i) s = .next t) : t.Masked src F ∧ t.result ≠ .selected src :=
    call_masked masks h e
  cases i with
  | gimrR => exact read_masked (r := .gimr) h e
  | gisrR => exact read_masked (r := .gisr) h e
  | irr0R => exact read_masked (r := .irr 0) h e
  | irr1R => exact read_masked (r := .irr 1) h e
  | irr2R => exact read_masked (r := .irr 2) h e
  | irr3R => exact read_masked (r := .irr 3) h e
  | gimrW v => exact write_masked (r := .gimr) (v := v) (hwrite v rfl) h e
  | gisrW v => exact write_masked (r := .gisr) (v := v) trivial h e
  | irr0W v => exact write_masked (r := .irr 0) (v := v) trivial h e
  | irr1W v => exact write_masked (r := .irr 1) (v := v) trivial h e
  | irr2W v => exact write_masked (r := .irr 2) (v := v) trivial h e
  | irr3W v => exact write_masked (r := .irr 3) (v := v) trivial h e
  | routeInit => exact absurd rfl hinit
  | enable m =>
    have other : m ≠ src := fun same => henable (by rw [same])
    exact masked (i := .enable m) (changeMask_masks fun _ v hv => (maskSet_getLsbD_other other v).trans hv) e
  | disable m => exact masked (i := .disable m) (changeMask_masks fun _ v hv => by rw [maskClear_getLsbD, hv]; rfl) e
  | dispatch k => exact masked (i := .dispatch k) ⟨trivial, fun _ _ => routeLine_masks src k⟩ e
  | irqEntry pending => exact masked (i := .irqEntry pending) (enterIrq_masks src pending) e
  | registerHandler m x => exact masked (i := .registerHandler m x) (registerHandler_masks src m x) e
  | handlerReturn k => exact masked (i := .handlerReturn k) ⟨trivial, fun _ _ => nofun⟩ e
  | _ => cases hi

/-! The dispatch path, whatever other contexts do. -/

/-- A call that comes to the rest of a `dispatch` and finds the bit clear when it reads the mask does not select the source,
and hands it to the framework no more than the others did meanwhile (R73). -/
theorem call_routeLine_masked {op : Op} (ho : op.usesSpi = false) {p : Env → Prog Result} {s u t : State} {k : Fin 8}
    {src : Nat} (hd : (p (s.env 0)).den s = (routeLine k).den u) (e : call op p s = .next t)
    (hclear : ∀ a, u.point = .ok () a → a.gimr.getLsbD src = false) :
    t.result ≠ .selected src ∧ ∀ a b, u.point = .ok () a → (a.logged .read .gimr a.gimr).point = .ok () b →
      ∀ x, (src, x) ∈ t.frameworkCalls → (src, x) ∈ b.frameworkCalls := by
  obtain ⟨a, b, ha, hb, rfl⟩ := call_routeLine_next ho hd e
  have clear := hclear a ha
  refine ⟨routeResult_masked clear, fun a' b' ha' hb' x hx => ?_⟩
  obtain rfl : a = a' := by rw [ha] at ha'; injection ha'
  obtain rfl : b = b' := by rw [hb] at hb'; injection hb'
  exact endRoute_masked (s := b.logged .read .gisr b.src) (by rw [BitVec.getLsbD_and, clear, Bool.false_and]) hx

/-- Settles O29: `disable` clears the bit; the other operations keep it clear; and the mask that a dispatch path reads decides
what it selects. -/
theorem maskWinsOverPending : Obligations.MaskWinsOverPending := by
  intro src hsrc
  refine ⟨fun s => exec_disable_alone hsrc, fun i s t ha hclear henable hinit hwrite e => ?keeps,
    fun s a b t k hp ha hclear hb e => ?dispatch, fun s t pending hclear e => ?entry⟩
  case keeps =>
    have h : s.Masked src s.frameworkCalls := ⟨ha, hclear, fun _ hx => hx⟩
    have kept : t.Masked src s.frameworkCalls ∧ t.result ≠ .selected src := by
      cases hi : isRouterOp i with
      | true => exact exec_masked_router hi henable hinit hwrite h e
      | false => exact exec_masked_spi hi h e
    obtain ⟨masked, result⟩ := kept
    exact ⟨masked.clear, masked.alone, result, masked.handed⟩
  case dispatch =>
    have enters : monitored s.cfg k = true ∧ s.lineState[k] ≠ .dispatched := by
      obtain ⟨unmonitored, dispatched⟩ := exec_dispatch_refused hp
      have hm : monitored s.cfg k = true := by
        by_contra hm
        rw [unmonitored (by simpa using hm)] at e
        cases e
      exact ⟨hm, fun hl => by rw [dispatched hm hl] at e; cases e⟩
    obtain ⟨result, handed⟩ := call_routeLine_masked (op := .instr (.dispatch k)) (p := fun _ => progDispatch k) rfl
      (dispatchLine_den enters.1 enters.2 hp) e (src := src) fun a' ha' => by
        obtain rfl : a = a' := by rw [show (s.setLine k .routing).point = .ok () a from ha] at ha'; injection ha'
        exact hclear
    exact ⟨result, handed a b ha hb⟩
  case entry =>
    by_cases none : s.entryLines pending = []
    · rw [exec_irqEntry_spurious none] at e
      cases e
      exact nofun
    · obtain ⟨k, n, _, entry, _⟩ := enterIrq_dispatches none
      exact (call_routeLine_masked (op := .instr (.irqEntry pending)) (p := fun _ => progIrqEntry pending) rfl entry e
        (hclear k n)).1

end Sys2Proof.Machine

end

/-! Register accesses of the SPI controller (R82 to R90): what an access of SFCR, SFCR2, SFCSR and SFDR does, and where it
stops. -/

section

namespace Sys2Proof.Machine

/-- Settles O12: each access of a configuration register is that of storage. -/
theorem configAccesses : Obligations.ConfigAccesses :=
  ⟨by decide, fun s v => ⟨exec_readInstr .sfcr s, exec_writeInstr .sfcr v s, exec_readInstr .sfcr2 s,
    exec_writeInstr .sfcr2 v s⟩⟩

/-- A write of SFCSR, a read and a write of SFDR as operations (R87, R89, R90). -/
theorem exec_sfcsrW (v : Word) (s : State) : exec (.sfcsrW v) s = (sfcsrWrite v s).returnOk := exec_writeInstr .sfcsr v s
theorem exec_sfdrW (v : Word) (s : State) : exec (.sfdrW v) s = (sfdrWrite v s).returnOk := exec_writeInstr .sfdr v s
theorem exec_sfdrR (s : State) : exec .sfdrR s = ((sfdrRead s).bind fun lanes t => .ok lanes.word t).returnValue :=
  exec_readInstr .sfdr s

/-! Reading SFCSR (R52, R86). -/

/-- The positions of SFCSR are pairwise distinct bits of a word, those of LEN adjacent (R7, R52). -/
structure Cfg.StatusBits (cfg : Cfg) : Prop where
  nodup : cfg.sfcsrBits.Nodup
  word : ∀ n, n ∈ cfg.sfcsrBits → n < 32
  adjacent : cfg.lenHi = cfg.lenLo + 1

theorem Cfg.StatusBits.of_ok {cfg : Cfg} (h : cfg.ok = true) : Cfg.StatusBits cfg := by
  have bits := (Cfg.ok_parts h).2.2.2.1
  simp only [Cfg.bitsOk, Bool.and_eq_true, decide_eq_true_eq, beq_iff_eq, List.all_eq_true] at bits
  obtain ⟨⟨⟨nodup, adjacent⟩, word⟩, _⟩ := bits
  exact ⟨nodup, word, adjacent⟩

/-- SFCSR reads as its fields and RDY at their positions, and zeros (R52, R86). -/
theorem State.sfcsr_fields {s : State} (h : Cfg.StatusBits s.cfg) :
    s.sfcsr.getLsbD s.cfg.bitCsb0 = s.csb0 ∧ s.sfcsr.getLsbD s.cfg.bitCsb1 = s.csb1 ∧
      s.sfcsr.extractLsb' s.cfg.lenLo 2 = s.len ∧ s.sfcsr.getLsbD s.cfg.bitRdy = !s.busy ∧ OnlyFields s.cfg s.sfcsr := by
  obtain ⟨nodup, word, adjacent⟩ := h
  simp only [Cfg.sfcsrBits, adjacent, List.nodup_cons, List.mem_cons, List.not_mem_nil, or_false, not_or] at nodup
  simp only [Cfg.sfcsrBits, adjacent, List.forall_mem_cons] at word
  obtain ⟨⟨c0c1, c0hi, c0lo, c0rdy⟩, ⟨c1hi, c1lo, c1rdy⟩, ⟨_, hirdy⟩, lordy, _⟩ := nodup
  obtain ⟨c0, c1, hi, lo, rdy, _⟩ := word
  have outside : ∀ n, n ≠ s.cfg.lenLo → n ≠ s.cfg.lenLo + 1 →
      (decide (s.cfg.lenLo ≤ n) && s.len.getLsbD (n - s.cfg.lenLo)) = false := by
    intro n hlo hhi
    by_cases hn : s.cfg.lenLo ≤ n
    · rw [BitVec.getLsbD_of_ge _ _ (by omega), Bool.and_false]
    · simp [hn]
  refine ⟨?csb0, ?csb1, field_eq ?len0 ?len1, ?rdy, ?zeros⟩
  case csb0 => rw [s.sfcsr_getLsbD c0, outside _ c0lo c0hi]; simp [Ne.symm c0c1, Ne.symm c0rdy]
  case csb1 => rw [s.sfcsr_getLsbD c1, outside _ c1lo c1hi]; simp [c0c1, Ne.symm c1rdy]
  case len0 => rw [s.sfcsr_getLsbD lo]; simp [c0lo, c1lo, Ne.symm lordy]
  case len1 => rw [s.sfcsr_getLsbD hi]; simp [c0hi, c1hi, Ne.symm hirdy]
  case rdy => rw [s.sfcsr_getLsbD rdy, outside _ (Ne.symm lordy) (Ne.symm hirdy)]; simp [c0rdy, c1rdy]
  case zeros =>
    intro n hn free
    simp only [Cfg.sfcsrBits, adjacent, List.mem_cons, List.not_mem_nil, or_false, not_or] at free
    obtain ⟨f0, f1, fhi, flo, frdy⟩ := free
    rw [s.sfcsr_getLsbD hn, outside _ flo fhi]
    simp [Ne.symm f0, Ne.symm f1, Ne.symm frdy]

/-- The word of a status read is zero below the decided positions (D14). -/
theorem lowBits_eq_zero {cfg : Cfg} (h : cfg.sfcsrBits = [31, 30, 29, 28, 27]) {v : Word} (hv : OnlyFields cfg v) :
    v.extractLsb' 0 27 = 0#27 := by
  apply BitVec.eq_of_getLsbD_eq
  intro i hi
  have zero : v.getLsbD i = false := hv i (by omega) (by rw [h]; simp; omega)
  simp [zero]

/-- Settles O13: the value read is `State.sfcsr`; the decided positions are distinct too. -/
theorem statusRead : Obligations.StatusRead := by
  refine ⟨by decide, fun s => ⟨s.sfcsr, exec_readInstr .sfcsr s, fun ok => s.sfcsr_fields (.of_ok ok), fun decided => ?_⟩⟩
  obtain ⟨e0, e1, ehi, elo, erdy⟩ : s.cfg.bitCsb0 = 31 ∧ s.cfg.bitCsb1 = 30 ∧ s.cfg.lenHi = 29 ∧ s.cfg.lenLo = 28 ∧
      s.cfg.bitRdy = 27 := by simpa [Cfg.sfcsrBits] using decided
  have bits : Cfg.StatusBits s.cfg := ⟨by rw [decided]; decide, by rw [decided]; decide, by rw [ehi, elo]⟩
  obtain ⟨csb0, csb1, len, rdy, zeros⟩ := s.sfcsr_fields bits
  exact ⟨e0 ▸ csb0, e1 ▸ csb1, elo ▸ len, erdy ▸ rdy, lowBits_eq_zero decided zeros⟩

/-! Writing SFCSR (R87). -/

/-- The test for reserved bits passes exactly the words with no bit but those of the fields (R52, R61). -/
theorem reservedSet_eq_false_iff {cfg : Cfg} {v : Word} : reservedSet cfg v = false ↔ OnlyFields cfg v := by
  simp [reservedSet, OnlyFields]

/-- The selection says which chip-selects are asserted (R24). -/
theorem selOf_eq_iff {a b c d : Bool} : selOf a b = selOf c d ↔ a = c ∧ b = d := by
  revert a b c d; decide

theorem selOf_eq_both_iff {a b : Bool} : selOf a b = .both ↔ a = false ∧ b = false := by
  revert a b; decide

/-- A write of SFCSR while the controller is busy faults (R93). -/
theorem sfcsrWrite_busy {s : State} (h : s.busy = true) (v : Word) :
    sfcsrWrite v s = .fault (.accessWhileBusy .write .sfcsr) := by
  rw [sfcsrWrite, if_pos h]

/-- A write of SFCSR that sets a reserved bit is refused (R87). -/
theorem sfcsrWrite_reserved {s : State} {v : Word} (h : s.busy = false) (hv : ¬ OnlyFields s.cfg v) :
    sfcsrWrite v s = .refused .reservedBits := by
  have set : reservedSet s.cfg v = true := by simpa [← reservedSet_eq_false_iff] using hv
  simp only [sfcsrWrite, h, set, Bool.false_eq_true, if_false, if_true]

/-- A write of SFCSR that asserts both chip-selects is refused (R94). -/
theorem sfcsrWrite_both {s : State} {v : Word} (h : s.busy = false) (hv : OnlyFields s.cfg v)
    (h0 : v.getLsbD s.cfg.bitCsb0 = false) (h1 : v.getLsbD s.cfg.bitCsb1 = false) :
    sfcsrWrite v s = .refused .bothSelected := by
  simp only [sfcsrWrite, h, reservedSet_eq_false_iff.mpr hv, h0, h1, Bool.false_eq_true, if_false, and_self, if_true]

/-- The selection that a value of SFCSR asks for (R24, R87). -/
abbrev selWanted (cfg : Cfg) (v : Word) : Sel := selOf (v.getLsbD cfg.bitCsb0) (v.getLsbD cfg.bitCsb1)

/-- A write of SFCSR of a legal value moves the chip-selects, then sets the width (R87). -/
theorem sfcsrWrite_legal {s : State} {v : Word} (h : s.busy = false) (hv : OnlyFields s.cfg v)
    (hb : selWanted s.cfg v ≠ .both) : sfcsrWrite v s =
      (setSelects (v.getLsbD s.cfg.bitCsb0) (v.getLsbD s.cfg.bitCsb1) s).bind fun _ t =>
        .ok () ((t.withWidth (v.extractLsb' s.cfg.lenLo 2)).logged .write .sfcsr v) := by
  rw [Ne, selOf_eq_both_iff] at hb
  simp only [sfcsrWrite, h, reservedSet_eq_false_iff.mpr hv, hb, Bool.false_eq_true, if_false]

/-- Selects that are there already move nothing (R87). -/
theorem setSelects_same {s : State} {a b : Bool} (h : s.sel = selOf a b) : setSelects a b s = .ok () s := by
  obtain ⟨rfl, rfl⟩ := selOf_eq_iff.mp (h : selOf s.csb0 s.csb1 = selOf a b)
  exact if_pos rfl

/-- A change of the selects closes the open frame, then opens the new one (R87, R88). -/
theorem setSelects_moves {s : State} {a b : Bool} (h : s.sel ≠ selOf a b) : setSelects a b s =
    (closeFrame s.sel (s.withSelects a b)).bind fun _ t => .ok () (openFrame (selOf a b) t) := if_neg h

/-- Settles O14: the chip-selects stay as they are, and no frame is closed or opened. -/
theorem statusWriteKeepsFrame : Obligations.StatusWriteKeepsFrame := by
  intro s v ready legal notBoth same
  rw [exec_sfcsrW, sfcsrWrite_legal ready legal (fun both => notBoth (same.trans both)), setSelects_same same]
  rfl

/-- Opening a frame begins it on the device that becomes selected, and changes nothing else (R87, R119). -/
theorem openFrame_dev (new : Sel) (s : State) (c : ChipSel) :
    (openFrame new s).dev c = if new = c.sel then (s.dev c).select else s.dev c := by
  cases new <;> cases c <;> rfl

theorem openFrame_frame (new : Sel) (s : State) : s.EngineFrame (openFrame new s) := by
  cases new with
  | none | both => exact .refl s
  | cs0 => exact setDev_frame s .cs0 _
  | cs1 => exact setDev_frame s .cs1 _

@[simp] theorem openFrame_csb0 (new : Sel) (s : State) : (openFrame new s).csb0 = s.csb0 := by cases new <;> rfl
@[simp] theorem openFrame_csb1 (new : Sel) (s : State) : (openFrame new s).csb1 = s.csb1 := by cases new <;> rfl
@[simp] theorem openFrame_log (new : Sel) (s : State) : (openFrame new s).log = s.log := by cases new <;> rfl
@[simp] theorem openFrame_draws (new : Sel) (s : State) : (openFrame new s).draws = s.draws := by cases new <;> rfl

/-- Closing the frame open on `c` stops where the device refuses to commit it (R125). -/
theorem closeFrame_refused {c : ChipSel} {s : State} {r : Refusal}
    (h : (s.dev c).deselect s.cfg (s.cfg.flashSize c) s.cfg.eraseSize s.draws = .error r) :
    closeFrame c.sel s = .refused r := by
  cases c <;> simp only [closeFrame, ChipSel.sel, devDeselect, h]

/-- A write of SFCSR that changes the selection: the open frame is closed, the next one opened, the fields written (R87). -/
theorem sfcsrWrite_moves {s u : State} {v : Word} (ready : s.busy = false) (legal : OnlyFields s.cfg v)
    (moved : s.sel ≠ selWanted s.cfg v) (notBoth : selWanted s.cfg v ≠ .both) (closed : closeFrame s.sel s = .ok () u) :
    ∃ t, sfcsrWrite v s = .ok () t ∧ t.csb0 = v.getLsbD s.cfg.bitCsb0 ∧ t.csb1 = v.getLsbD s.cfg.bitCsb1 ∧
      t.len = v.extractLsb' s.cfg.lenLo 2 ∧ t.busy = true ∧ t.log = s.log ++ [⟨.write, .sfcsr, v⟩] ∧
      (∀ c, t.dev c = if selWanted s.cfg v = c.sel then (u.dev c).select else u.dev c) ∧ t.draws = u.draws ∧
      s.EngineFrame t := by
  obtain ⟨w, hw, dev, frame, csb0, csb1, _, _, draws, log⟩ := closeFrame_congr
    (t := s.withSelects (v.getLsbD s.cfg.bitCsb0) (v.getLsbD s.cfg.bitCsb1)) closed (State.withSelects_dev s _ _) rfl rfl
  refine ⟨((openFrame (selWanted s.cfg v) w).withWidth (v.extractLsb' s.cfg.lenLo 2)).logged .write .sfcsr v,
    ?write, by simp [csb0], by simp [csb1], rfl, rfl, by simp [log], fun c => ?dev, by simp [draws], ?frame⟩
  case write => rw [sfcsrWrite_legal ready legal notBoth, setSelects_moves moved, hw]; rfl
  case dev => simp only [State.logged_dev, State.withWidth_dev, openFrame_dev, dev]
  case frame =>
    exact (withSelects_frame s _ _).trans (frame.trans ((openFrame_frame _ w).trans
      ((withWidth_frame _ _).trans (logged_frame _ _ _ _))))

/-- Settles O15: the write closes and opens by `closeFrame` and `openFrame`; `closeFrame` is the device's `deselect`. -/
theorem statusWriteMovesFrame : Obligations.StatusWriteMovesFrame := by
  refine ⟨fun s u v ready legal moved notBoth closed => ?moves, fun s none => ?none, fun s c d n sel des => ?deselect⟩
  case none => rw [none]; rfl
  case deselect => rw [sel]; exact closeFrame_link des
  case moves =>
    obtain ⟨t, write, csb0, csb1, len, busy, log, dev, draws, frame⟩ := sfcsrWrite_moves ready legal moved notBoth closed
    have sel : t.sel = selWanted s.cfg v := by rw [State.sel, csb0, csb1]
    refine ⟨{ t with result := .ok }, ?exec, rfl, csb0, csb1, len, busy, log, fun c => ?dev, draws, frame.withResult .ok⟩
    case exec => rw [exec_sfcsrW, write, Res.returnOk_ok]
    case dev =>
      rw [← sel] at dev
      cases c with
      | cs0 => exact dev .cs0
      | cs1 => exact dev .cs1

/-! Where the accesses stop (R93, R94, R96). -/

/-- A write of SFCSR stops where the device refuses to commit the frame that it would close (R125). -/
theorem sfcsrWrite_unclosed {s : State} {c : ChipSel} {v : Word} {r : Refusal} (sel : s.sel = c.sel)
    (ready : s.busy = false) (legal : OnlyFields s.cfg v) (moved : s.sel ≠ selWanted s.cfg v)
    (notBoth : selWanted s.cfg v ≠ .both)
    (h : (s.dev c).deselect s.cfg (s.cfg.flashSize c) s.cfg.eraseSize s.draws = .error r) :
    sfcsrWrite v s = .refused r := by
  rw [sfcsrWrite_legal ready legal notBoth, setSelects_moves moved, sel, closeFrame_refused (by simpa using h)]
  rfl

/-- An access of SFDR while the controller is busy faults (R93). -/
theorem sfdrWrite_busy {s : State} (h : s.busy = true) (v : Word) :
    sfdrWrite v s = .fault (.accessWhileBusy .write .sfdr) := by
  rw [sfdrWrite, if_pos h]

theorem sfdrRead_busy {s : State} (h : s.busy = true) : sfdrRead s = .fault (.accessWhileBusy .read .sfdr) := by
  rw [sfdrRead, if_pos h]

/-- An access of SFDR while the byte-ordering bit is clear is refused (R96). -/
theorem sfdrWrite_orderOff {s : State} (h : s.busy = false) (hb : s.sfcr.getLsbD s.cfg.bitBo = false) (v : Word) :
    sfdrWrite v s = .refused .byteOrderOff := by
  simp only [sfdrWrite, h, State.bigEndianLanes, hb, Bool.false_eq_true, if_false, if_true]

theorem sfdrRead_orderOff {s : State} (h : s.busy = false) (hb : s.sfcr.getLsbD s.cfg.bitBo = false) :
    sfdrRead s = .refused .byteOrderOff := by
  simp only [sfdrRead, h, State.bigEndianLanes, hb, Bool.false_eq_true, if_false, if_true]

/-- With both devices selected an access of SFDR that would be made is refused (row 23). -/
theorem sfdrWrite_both {s : State} (h : s.busy = false) (hb : s.sfcr.getLsbD s.cfg.bitBo = true) (hs : s.sel = .both)
    (v : Word) : sfdrWrite v s = .refused .bothSelected := by
  simp only [sfdrWrite, h, State.bigEndianLanes, hb, sfdrTarget, hs, Bool.false_eq_true, Bool.true_eq_false, if_false]

theorem sfdrRead_both {s : State} (h : s.busy = false) (hb : s.sfcr.getLsbD s.cfg.bitBo = true) (hs : s.sel = .both) :
    sfdrRead s = .refused .bothSelected := by
  simp only [sfdrRead, h, State.bigEndianLanes, hb, sfdrTarget, hs, Bool.false_eq_true, Bool.true_eq_false, if_false]

/-- Settles O16: each clause is one of the stops of `sfcsrWrite`, `sfdrWrite` and `sfdrRead`. -/
theorem spiAccessStops : Obligations.SpiAccessStops := by
  intro s v
  simp only [exec_sfcsrW, exec_sfdrW, exec_sfdrR]
  refine ⟨fun busy => ?busy, fun ready reserved => ?reserved, fun ready legal h0 h1 => ?both,
    fun c sel ready legal moved notBoth des => ?unclosed, fun ready order sel => ⟨?write, ?read⟩⟩
  case busy => rw [sfcsrWrite_busy busy]; rfl
  case reserved => rw [sfcsrWrite_reserved ready reserved]; rfl
  case both => rw [sfcsrWrite_both ready legal h0 h1]; rfl
  case unclosed => rw [sfcsrWrite_unclosed sel ready legal moved notBoth des]; rfl
  case write => rw [sfdrWrite_both ready order sel]; rfl
  case read => rw [sfdrRead_both ready order sel]; rfl

/-! Writing SFDR (R89). -/

/-- A write of SFDR that is made shifts the lanes of its value out (R32, R89). -/
theorem sfdrWrite_target {s : State} (h : s.busy = false) (hb : s.sfcr.getLsbD s.cfg.bitBo = true)
    {target : Option ChipSel} (ht : sfdrTarget s = .ok target) (v : Word) :
    sfdrWrite v s = .ok () ((shiftOutAll target (writeLanes s.len v) s).markBusy.logged .write .sfdr v) := by
  simp only [sfdrWrite, h, State.bigEndianLanes, hb, ht, Bool.false_eq_true, Bool.true_eq_false, if_false]

/-- With no device selected the bytes go nowhere (R89). -/
theorem shiftOutAll_none (bs : List Byte) (s : State) : shiftOutAll none bs s = s := by
  induction bs with
  | nil => rfl
  | cons b bs ih => exact ih

/-- The bytes of a write are the first `LEN + 1` of its value, from the top byte down (R32). -/
theorem writeLanes_eq (len : BitVec 2) (v : Word) :
    writeLanes len v = (List.range (len.toNat + 1)).map fun k => v.extractLsb' (24 - 8 * k) 8 := by
  have first : [0, 1, 2, 3].take (len.toNat + 1) = List.range (len.toNat + 1) := by revert len; decide
  rw [writeLanes, first]
  rfl

/-- Settles O17: the bytes are the lanes of the write, and each target takes them. -/
theorem dataWrite : Obligations.DataWrite := by
  refine ⟨by decide, fun s v => ?_⟩
  simp only [exec_sfdrW]
  refine ⟨fun busy => ?busy, fun ready order => ?order, fun ready order => ⟨fun c sel => ?device, fun sel => ?none⟩⟩
  case busy => rw [sfdrWrite_busy busy]; rfl
  case order => rw [sfdrWrite_orderOff ready order]; rfl
  case device =>
    rw [sfdrWrite_target ready order (sfdrTarget_sel sel), shiftOutAll_eq, writeLanes_eq]
    cases c <;> rfl
  case none =>
    rw [sfdrWrite_target ready order (by rw [sfdrTarget, sel]), shiftOutAll_none]
    rfl

/-! Reading SFDR (R90). -/

/-- A read of SFDR that is made shifts the lanes of its value in (R90). -/
theorem sfdrRead_target {s : State} (h : s.busy = false) (hb : s.sfcr.getLsbD s.cfg.bitBo = true)
    {target : Option ChipSel} (ht : sfdrTarget s = .ok target) : sfdrRead s =
      .ok (readLanes target s).1 ((readLanes target s).2.markBusy.logged .read .sfdr (readLanes target s).1.word) := by
  simp only [sfdrRead, h, State.bigEndianLanes, hb, ht, Bool.false_eq_true, Bool.true_eq_false, if_false]

/-- With no device selected every byte is free (R90). -/
theorem readLanes_none (s : State) : (readLanes none s).2 = s.withDraws (s.draws + 4) := by
  have free : ∀ k t, readLane none k t = t.draw := fun k t => by simp only [readLane, shiftIn, ite_self]
  simp only [readLanes, free]
  rfl

/-- The first lanes of a value are its bytes, from the top byte down (R32). -/
theorem extract_of_firsts {l : Lanes} {n k : Nat} {b : Byte} (h : (l.firsts n)[k]? = some b) :
    l.word.extractLsb' (24 - 8 * k) 8 = b := by
  obtain ⟨h0, h1, h2, h3⟩ := byteLane_word l
  have lane : [l.b0, l.b1, l.b2, l.b3][k]? = some b := by
    rw [Lanes.firsts, List.getElem?_take] at h
    split at h
    · exact h
    · cases h
  match k, lane with
  | 0, lane => exact h0.trans (Option.some.inj lane)
  | 1, lane => exact h1.trans (Option.some.inj lane)
  | 2, lane => exact h2.trans (Option.some.inj lane)
  | 3, lane => exact h3.trans (Option.some.inj lane)

/-- The lanes of a read leave the fields of SFCSR and the log alone (R90). -/
theorem readLanes_keeps (target : Option ChipSel) (s : State) :
    (readLanes target s).2.csb0 = s.csb0 ∧ (readLanes target s).2.csb1 = s.csb1 ∧ (readLanes target s).2.len = s.len ∧
      (readLanes target s).2.log = s.log := by
  cases target with
  | none => rw [readLanes_none]; exact ⟨rfl, rfl, rfl, rfl⟩
  | some c =>
    obtain ⟨_, _, _, sel, len, log, _⟩ := readLanes_spec c s
    obtain ⟨csb0, csb1⟩ := selOf_eq_iff.mp sel
    exact ⟨csb0, csb1, len, log⟩

/-- A read of SFDR that is made returns its lanes, and leaves the devices as the lanes were shifted in (R90). -/
theorem exec_sfdrR_made {s : State} (h : s.busy = false) (hb : s.sfcr.getLsbD s.cfg.bitBo = true)
    {target : Option ChipSel} (ht : sfdrTarget s = .ok target) :
    ∃ t, exec .sfdrR s = .next t ∧ t.result = .value (readLanes target s).1.word ∧ t.busy = true ∧
      t.log = s.log ++ [⟨.read, .sfdr, (readLanes target s).1.word⟩] ∧ t.csb0 = s.csb0 ∧ t.csb1 = s.csb1 ∧
      t.len = s.len ∧ s.EngineFrame t ∧ ∀ c, t.dev c = (readLanes target s).2.dev c := by
  have frame := readLanes_frame target s
  obtain ⟨csb0, csb1, len, log⟩ := readLanes_keeps target s
  rw [exec_sfdrR, sfdrRead_target h hb ht]
  generalize readLanes target s = lanes at *
  refine ⟨_, Res.returnValue_ok lanes.1.word _, rfl, rfl, by simp [log], csb0, csb1, len, ?frame, fun c => ?dev⟩
  case frame => exact (frame.trans ((markBusy_frame _).trans (logged_frame _ _ _ _))).withResult _
  case dev => cases c <;> rfl

/-- The device that an access of SFDR moves bytes to and from is the one that is selected (R89, R90). -/
theorem sfdrTarget_cases {s : State} (h : s.sel ≠ .both) :
    (s.sel = .none ∧ sfdrTarget s = .ok none) ∨ ∃ c : ChipSel, s.sel = c.sel ∧ sfdrTarget s = .ok (some c) := by
  cases hs : s.sel with
  | none => exact .inl ⟨rfl, by rw [sfdrTarget, hs]⟩
  | cs0 => exact .inr ⟨.cs0, rfl, by rw [sfdrTarget, hs]⟩
  | cs1 => exact .inr ⟨.cs1, rfl, by rw [sfdrTarget, hs]⟩
  | both => exact absurd hs h

theorem ChipSel.sel_injective {c d : ChipSel} (h : c.sel = d.sel) : c = d := by
  cases c <;> cases d <;> first | rfl | cases h

theorem ChipSel.sel_ne_none (c : ChipSel) : c.sel ≠ .none := by cases c <;> decide

/-- Settles O18: `readLanes_spec` for a device, free bytes without one. -/
theorem dataRead : Obligations.DataRead := by
  refine ⟨by decide, fun s busy => ?busy, fun s ready order => ?order, fun s ready order notBoth => ?made⟩
  case busy => rw [exec_sfdrR, sfdrRead_busy busy]; rfl
  case order => rw [exec_sfdrR, sfdrRead_orderOff ready order]; rfl
  case made =>
    rcases sfdrTarget_cases notBoth with ⟨sel, target⟩ | ⟨c, sel, target⟩
    · obtain ⟨t, outcome, result, busy, log, csb0, csb1, len, frame, dev⟩ := exec_sfdrR_made ready order target
      rw [readLanes_none] at dev
      exact ⟨t, _, outcome, result, busy, log, csb0, csb1, len, frame,
        fun c selected => absurd (selected.symm.trans sel) (ChipSel.sel_ne_none c), fun _ => ⟨dev .cs0, dev .cs1⟩⟩
    · obtain ⟨t, outcome, result, busy, log, csb0, csb1, len, frame, dev⟩ := exec_sfdrR_made ready order target
      obtain ⟨_, read, other, _, _, _, _, bytes⟩ := readLanes_spec c s
      refine ⟨t, _, outcome, result, busy, log, csb0, csb1, len, frame, fun d selected => ?_,
        fun none => absurd (sel.symm.trans none) (ChipSel.sel_ne_none c)⟩
      obtain rfl := ChipSel.sel_injective (selected.symm.trans sel)
      exact ⟨(dev d).trans read, (dev d.other).trans other, fun k hk b answer => extract_of_firsts (bytes k hk b answer)⟩

end Sys2Proof.Machine

end

/-! Faults (R93): with no other host context acting, none but the raw accesses of SFCSR and SFDR on a busy controller. -/

section

namespace Sys2Proof.Machine

/-! Operations that poll before each gated access (R98 to R100). -/

/-- The configuration is that of `s`, and no other host context acts. -/
structure State.AloneAs (s t : State) : Prop where
  cfg : t.cfg = s.cfg
  alone : t.alone = true

theorem State.AloneAs.sameRest {s t u : State} (h : s.AloneAs t) (k : t.SameRest u) : s.AloneAs u where
  cfg := k.cfg.trans h.cfg
  alone := by rw [State.alone, k.schedule]; exact h.alone

/-- With no other host context acting, an interleaving point is answered and leaves a ready controller ready (R40). -/
theorem point_aloneAs {s t : State} (h : s.AloneAs t) :
    ∃ u, t.point = .ok () u ∧ s.AloneAs u ∧ (t.busy = false → u.busy = false) := by
  obtain ⟨u, answered, alone, cfg, ready⟩ := point_alone (P := fun u => u.cfg = s.cfg) (fun _ _ _ h => h)
    (fun u h => by simp only [spiComplete]; split <;> exact h) (fun u c h => (State.setDev_cfg u c _).trans h)
    (fun _ _ h => h) h.alone h.cfg
  exact ⟨u, answered, ⟨cfg, alone⟩, ready⟩

/-- The steps of either block, and the interleaving points, keep it so. -/
theorem aloneAs_tame {s : State} (hok : s.cfg.ok = true) (router : Bool) : Tame s.cfg router s.AloneAs where
  ok := hok
  cfg _ h := h.cfg
  point t h := by
    obtain ⟨u, answered, kept, ready⟩ := point_aloneAs h
    rw [answered]
    exact ⟨kept, ready⟩
  perform a t h ha hg := by
    cases router with
    | true => exact (perform_router ha).mono fun _ f => h.sameRest f.rest
    | false => exact (perform_spi ha hg).mono fun _ f => h.sameRest f.rest

/-- The program of an SPI primitive or of a frame polls before each gated access (R98, R81). -/
theorem progInstr_polls (e : Env) {i : Instr} (h : isSpiPrimitive i = true) : (progInstr e i).Polls e.cfg false := by
  cases i with
  | attach family cs straps => exact progAttach_polls e family cs straps
  | spiPrep => exact withController_polls ((prep_polls e).bind fun _ => .ret _)
  | waitReady => exact (waitReady_polls e).bind fun _ => .ret _
  | w32 reg v => exact (gated32_polls e reg v).bind fun _ => .ret _
  | r32 => exact (readGated_polls e).bind fun _ => .ret _
  | readStatus => exact withController_polls ((status_polls e).bind fun _ => .ret _)
  | waitWip => exact withController_polls ((waitIdle_polls e).bind fun _ => .ret _)
  | writeEnable => exact withController_polls ((handshake_polls e).bind fun _ => .ret _)
  | readReg op len => exact withController_polls (readReg_polls e op len)
  | writeReg op buf len => exact withController_polls (writeReg_polls e op buf len)
  | read offset len => exact withController_polls (readFlash_polls e offset len)
  | write offset buf len => exact withController_polls (writeFlash_polls e offset buf len)
  | erase offset => exact withController_polls (eraseFlash_polls e offset)
  | issueCmd base op addr => exact withController_polls ((issue_polls e base op addr).bind fun _ => .ret _)
  | wrsr c sent reads | pp c sent reads | rdsr c sent reads | wren c sent reads | fastRead c sent reads
  | fastRead4b c sent reads | pp4b c sent reads | se c sent reads | se4b c sent reads =>
    exact runFrame_polls e c _ sent reads
  | _ => cases h

/-- With no other host context acting, a call whose program polls does not fault (R93, R98). -/
theorem call_not_fault {i : Instr} {router : Bool} {s : State} (hok : s.cfg.ok = true) (ha : s.alone = true)
    (hp : (progInstr (s.env 0) i).Polls s.cfg router) (f : Fault) :
    call (.instr i) (fun e => progInstr e i) s ≠ .fault f := by
  have enter : ∀ u, enterOp (.instr i) s.ctx s = .ok () u → s.AloneAs u := by
    intro u hu
    rcases enterOp_cases (.instr i) s.ctx s with ⟨_, _, e⟩ | ⟨c, e, _⟩ <;> rw [e] at hu <;> cases hu
    exact ⟨rfl, ha⟩
  exact (call_tame (aloneAs_tame hok router) hp enter).1 f

/-! Accesses (R93). -/

theorem Res.Safe.ne_fault {α : Type} {P : State → Prop} {r : Res α} (h : r.Safe P) (f : Fault) : r ≠ .fault f := by
  rintro rfl
  exact h

/-- An access as an operation faults exactly when the access does. -/
theorem returnValue_eq_fault_iff {r : Res Word} {f : Fault} : r.returnValue = .fault f ↔ r = .fault f := by
  cases r <;> simp [Res.returnValue, Res.toOutcome, Res.bind]

theorem returnOk_eq_fault_iff {r : Res Unit} {f : Fault} : r.returnOk = .fault f ↔ r = .fault f := by
  cases r <;> simp [Res.returnOk, Res.toOutcome, Res.bind]

theorem bind_ok_eq_fault_iff {α β : Type} {r : Res α} {g : α → β} {f : Fault} :
    (r.bind fun a s => .ok (g a) s) = .fault f ↔ r = .fault f := by
  cases r <;> simp [Res.bind]

/-- An operation of the router does not fault, with no other host context acting (R2, R93). -/
theorem exec_router_not_fault {i : Instr} {s : State} (hi : isRouterOp i = true) (hok : s.cfg.ok = true)
    (ha : s.alone = true) (f : Fault) : exec i s ≠ .fault f := by
  rcases exec_cases i s with ⟨r, hr, e⟩ | ⟨r, v, hr, e⟩ | ⟨e, hp⟩ <;> rw [e]
  · have safe := perform_router (a := .rd r) (s := s) (hr.trans hi)
    exact fun fault => safe.ne_fault f (returnValue_eq_fault_iff.mp fault)
  · have safe := perform_router (a := .wr r v) (s := s) (hr.trans hi)
    exact fun fault => safe.ne_fault f (bind_ok_eq_fault_iff.mpr (returnOk_eq_fault_iff.mp fault))
  · exact call_not_fault hok ha (hp (s.env 0)) f

/-- An SPI primitive or a frame does not fault, with no other host context acting (R93, R98). -/
theorem exec_primitive_not_fault {i : Instr} {s : State} (hi : isSpiPrimitive i = true) (hok : s.cfg.ok = true)
    (ha : s.alone = true) (f : Fault) : exec i s ≠ .fault f := by
  rw [exec_spi hi]
  exact call_not_fault hok ha (progInstr_polls (s.env 0) hi) f

/-- An access that faults while the controller is busy, and only then, faults exactly then. -/
theorem fault_iff_busy {α : Type} {r : Res α} {s : State} {P : State → Prop} {g f : Fault}
    (busy : s.busy = true → r = .fault g) (ready : s.busy = false → r.Safe P) :
    r = .fault f ↔ s.busy = true ∧ f = g := by
  cases h : s.busy with
  | true => rw [busy h]; simp [eq_comm]
  | false => simpa using (ready h).ne_fault f

theorem exec_sfcsrW_fault_iff (v : Word) (s : State) (f : Fault) :
    exec (.sfcsrW v) s = .fault f ↔ s.busy = true ∧ f = .accessWhileBusy .write .sfcsr := by
  rw [exec_sfcsrW, returnOk_eq_fault_iff]
  exact fault_iff_busy (fun h => sfcsrWrite_busy h v) (sfcsrWrite_frame v)

theorem exec_sfdrW_fault_iff (v : Word) (s : State) (f : Fault) :
    exec (.sfdrW v) s = .fault f ↔ s.busy = true ∧ f = .accessWhileBusy .write .sfdr := by
  rw [exec_sfdrW, returnOk_eq_fault_iff]
  exact fault_iff_busy (fun h => sfdrWrite_busy h v) (sfdrWrite_frame v)

theorem exec_sfdrR_fault_iff (s : State) (f : Fault) :
    exec .sfdrR s = .fault f ↔ s.busy = true ∧ f = .accessWhileBusy .read .sfdr := by
  rw [exec_sfdrR, returnValue_eq_fault_iff, bind_ok_eq_fault_iff]
  exact fault_iff_busy sfdrRead_busy sfdrRead_frame

/-- Settles O19: each gated access directly follows a poll that shows ready, and with no other host context acting the
controller is still ready at the access; what is left are the accesses that no poll guards. -/
theorem faultsExactlyWhileBusy : Obligations.FaultsExactlyWhileBusy := by
  intro i s f hok ha
  cases i with
  | sfcsrW v => simp [exec_sfcsrW_fault_iff]
  | sfdrW v => simp [exec_sfdrW_fault_iff]
  | sfdrR => simp [exec_sfdrR_fault_iff]
  | sfcrR | sfcrW _ | sfcr2R | sfcr2W _ | sfcsrR => exact iff_of_false nofun (by simp)
  | gimrR | gimrW _ | gisrR | gisrW _ | irr0R | irr0W _ | irr1R | irr1W _ | irr2R | irr2W _ | irr3R | irr3W _
  | routeInit | enable _ | disable _ | dispatch _ | irqEntry _ | registerHandler _ _ | handlerReturn _ =>
    simpa using exec_router_not_fault rfl hok ha f
  | _ => simpa using exec_primitive_not_fault rfl hok ha f

end Sys2Proof.Machine

end

/-! The ready poll on a wedged, busy controller (R92, R98, R136, R137): every read shows busy, so a finite budget is used up
and a loop without a bound never ends. -/

section

namespace Sys2Proof.Machine

/-- No agent is left to act, and the controller is busy and will not complete (R92). -/
structure State.StuckBusy (s : State) : Prop where
  cfgOk : s.cfg.ok = true
  schedule : s.schedule = []
  wedged : s.wedged = true
  busy : s.busy = true

/-- Who runs what does not matter. -/
theorem State.StuckBusy.withCaller {s : State} (h : s.StuckBusy) (c : Option Nat) : (s.withCaller c).StuckBusy :=
  ⟨h.cfgOk, h.schedule, h.wedged, h.busy⟩

theorem State.StuckBusy.withCtx {s : State} (h : s.StuckBusy) (ctx : Nat) : (s.withCtx ctx).StuckBusy :=
  ⟨h.cfgOk, h.schedule, h.wedged, h.busy⟩

/-- Completion steps leave a wedged controller busy (R91, R92), so SFCSR keeps its value. -/
theorem State.StuckBusy.eagerStep_sfcsr {s : State} (h : s.StuckBusy) : (eagerStep s).sfcsr = s.sfcsr := by
  simp only [eagerStep_eq, State.sfcsr, h.busy, h.wedged, Bool.and_self]

theorem State.StuckBusy.polled {s : State} (h : s.StuckBusy) : s.polled.StuckBusy where
  cfgOk := (polled_frame s).rest.cfg ▸ h.cfgOk
  schedule := (polled_frame s).rest.schedule.trans h.schedule
  wedged := (polled_frame s).wedged.trans h.wedged
  busy := by rw [State.polled_eq, h.busy, h.wedged]; rfl

theorem State.StuckBusy.polled_sfcsr {s : State} (h : s.StuckBusy) : s.polled.sfcsr = s.sfcsr :=
  h.eagerStep_sfcsr

/-- A read of SFCSR shows the controller busy, and completes nothing (R86, R92). -/
theorem State.StuckBusy.step_poll {s : State} (h : s.StuckBusy) : (Act.rd .sfcsr).step s = .ok s.sfcsr s.polled := by
  simp only [Act.step, Act.before, point_of_empty h.schedule, Res.bind_ok, Act.perform, regRead, sfcsrRead, State.polled,
    h.eagerStep_sfcsr]

theorem State.StuckBusy.not_ready {s : State} (h : s.StuckBusy) : s.sfcsr.getLsbD s.cfg.bitRdy = false := by
  rw [State.sfcsr_rdy h.cfgOk, h.busy]; rfl

/-! Polls in a row. -/

theorem State.polled_iterate_frame (n : Nat) : ∀ s : State, s.EngineFrame (State.polled^[n] s) := by
  induction n with
  | zero => exact .refl
  | succ n ih => exact fun s => (polled_frame s).trans (ih s.polled)

theorem State.StuckBusy.polled_iterate {s : State} (h : s.StuckBusy) (n : Nat) : (State.polled^[n] s).StuckBusy := by
  induction n generalizing s with
  | zero => exact h
  | succ n ih => exact ih h.polled

theorem State.StuckBusy.polled_iterate_log {s : State} (h : s.StuckBusy) (n : Nat) :
    (State.polled^[n] s).log = s.log ++ List.replicate n ⟨.read, .sfcsr, s.sfcsr⟩ := by
  induction n generalizing s with
  | zero => simp
  | succ n ih =>
    rw [Function.iterate_succ_apply, ih h.polled, h.polled_sfcsr, List.replicate_succ]
    simp [State.polled_eq, h.eagerStep_sfcsr]

/-- Each iteration of the poll loop reads that the controller is busy, and goes on (R92, R98). -/
theorem pollReady_run_stuck {s : State} (h : s.StuckBusy) {e : Env} (he : e.cfg = s.cfg) (f : Unit → Prog Result) (op : Op)
    (n : Nat) (got : List Word) : ((pollReady e n).bind f).run op got s =
      ((e.exhausted .ready).bind f).run op (got ++ List.replicate n s.sfcsr) (State.polled^[n] s) := by
  induction n generalizing s got with
  | zero => simp [pollReady]
  | succ n ih =>
    have busy : s.sfcsr.getLsbD e.cfg.bitRdy = false := he ▸ h.not_ready
    simp only [pollReady, Prog.reading, Prog.bind_act, Prog.bind_ret, Prog.run, h.step_poll, Res.finish_ok, busy,
      Bool.false_eq_true, if_false]
    rw [ih h.polled (he.trans (polled_frame s).rest.cfg.symm), h.polled_sfcsr, Function.iterate_succ_apply,
      List.replicate_succ, List.append_assoc]
    rfl

/-- Reads that showed the controller busy leave the rest of the poll loop to do (R160). -/
theorem pollReady_after {e : Env} (f : Unit → Prog Result) (m : Nat) {got : List Word}
    (h : ∀ w, w ∈ got → w.getLsbD e.cfg.bitRdy = false) :
    ((pollReady e (got.length + m)).bind f).after got = (pollReady e m).bind f := by
  induction got with
  | nil => simp [Prog.after]
  | cons w got ih =>
    have busy : w.getLsbD e.cfg.bitRdy = false := h w List.mem_cons_self
    rw [List.length_cons, Nat.add_right_comm]
    simp only [pollReady, Prog.reading, Prog.bind_act, Prog.bind_ret, Prog.after, busy, Bool.false_eq_true, if_false]
    exact ih fun x hx => h x (List.mem_cons_of_mem w hx)

/-! The budget (R136, R137). -/

/-- With a finite budget the loop raises `Timeout` once it is used up (R136). -/
theorem exhausted_run_finite {e : Env} {b : Nat} (hb : e.cfg.pollBudget = some b) (p : Poll) (f : Unit → Prog Result)
    (op : Op) (got : List Word) (s : State) : ((e.exhausted p).bind f).run op got s =
      .next (s.ended op (raisedResult s.cfg (.timeout p))) := by
  simp only [Env.exhausted, hb, Prog.bind, Prog.run]

/-- Without a budget the operation stays in progress (R137). -/
theorem exhausted_run_unbounded {e : Env} (hb : e.cfg.pollBudget = none) (p : Poll) (f : Unit → Prog Result)
    (op : Op) (got : List Word) (s : State) : ((e.exhausted p).bind f).run op got s = .next (s.suspend op got) := by
  simp only [Env.exhausted, hb, Prog.bind, Prog.run]

theorem pollLimit_finite {e : Env} {b : Nat} (hb : e.cfg.pollBudget = some b) : e.pollLimit = b := by
  simp only [Env.pollLimit, hb]

theorem pollLimit_unbounded {e : Env} (hb : e.cfg.pollBudget = none) : e.pollLimit = e.fuel := by
  simp only [Env.pollLimit, hb]

/-- What a call of the ready poll comes to on a wedged, busy controller: the loop is used up, its caller inside. -/
theorem exec_waitReady_stuck {s : State} (h : s.StuckBusy) (hf : s.spiCaller = none) :
    exec .waitReady s = (((s.env 0).exhausted .ready : Prog Unit).bind fun _ => .ret .ok).run (.instr .waitReady)
      (List.replicate (s.env 0).pollLimit s.sfcsr) (State.polled^[(s.env 0).pollLimit] (s.withCaller (some s.ctx))) := by
  rw [exec_spi rfl, call, enterOp_spi rfl hf, Res.finish_ok]
  exact pollReady_run_stuck (h.withCaller _) rfl _ _ _ []

/-- What the ready poll comes to when it goes on there (R160). -/
theorem resume_waitReady_stuck {s : State} (h : s.StuckBusy) (hb : s.cfg.pollBudget = none) (ctx : Nat) {got : List Word}
    (hgot : ∀ w, w ∈ got → w.getLsbD s.cfg.bitRdy = false) : resume ⟨ctx, .instr .waitReady, got⟩ s =
      .next ((State.polled^[s.patience + 1] (s.withCtx ctx)).suspend (.instr .waitReady)
        (got ++ List.replicate (s.patience + 1) s.sfcsr)) := by
  have limit : (s.env got.length).pollLimit = got.length + (s.patience + 1) := by
    rw [pollLimit_unbounded hb]
    show got.length + s.schedule.length + 1 + s.patience = _
    rw [h.schedule, List.length_nil]
    omega
  have rest : s.rest ⟨ctx, .instr .waitReady, got⟩ =
      (pollReady (s.env got.length) (s.patience + 1)).bind fun _ => .ret .ok := by
    show ((pollReady _ (s.env got.length).pollLimit).bind _).after got = _
    rw [limit]
    exact pollReady_after _ _ hgot
  rw [resume, rest, pollReady_run_stuck (h.withCtx ctx) rfl, exhausted_run_unbounded hb]
  rfl

/-- Settles O35: the polls use the budget up, or leave the operation in progress with reads that all show busy. -/
theorem wedgedControllerNeverReady : Obligations.WedgedControllerNeverReady := by
  intro s ok schedule wedged busy
  have stuck : s.StuckBusy := ⟨ok, schedule, wedged, busy⟩
  have unready : ∀ n w, w ∈ List.replicate n s.sfcsr → w.getLsbD s.cfg.bitRdy = false := fun n w hw =>
    (List.eq_of_mem_replicate hw) ▸ stuck.not_ready
  refine ⟨fun b budget free => ?timeout, fun budget => ⟨fun free => ?hang, fun ctx got seen => ?resume⟩⟩
  case timeout =>
    have inside := stuck.withCaller (some s.ctx)
    have frame := State.polled_iterate_frame (b + 1) (s.withCaller (some s.ctx))
    refine ⟨_, (exec_waitReady_stuck stuck free).trans (exhausted_run_finite budget _ _ _ _ _), ?_⟩
    rw [pollLimit_finite budget]
    refine ⟨?_, ?_, ?_⟩
    · rw [State.ended_result, raisedResult_timeout, frame.rest.cfg]
      rfl
    · rw [State.ended_busy, (inside.polled_iterate (b + 1)).busy]
    · rw [State.ended_log, inside.polled_iterate_log]
      rfl
  case hang =>
    have inside := stuck.withCaller (some s.ctx)
    have frame := State.polled_iterate_frame (s.env 0).pollLimit (s.withCaller (some s.ctx))
    refine ⟨_, List.replicate (s.env 0).pollLimit s.sfcsr,
      (exec_waitReady_stuck stuck free).trans (exhausted_run_unbounded budget _ _ _ _ _), rfl,
      (inside.polled_iterate _).busy, ?_, frame.rest.spiCaller, unready _⟩
    rw [State.suspend_calls, frame.rest.calls, frame.rest.ctx]
    rfl
  case resume =>
    have inside := stuck.withCtx ctx
    have frame := State.polled_iterate_frame (s.patience + 1) (s.withCtx ctx)
    refine ⟨_, List.replicate (s.patience + 1) s.sfcsr, resume_waitReady_stuck stuck budget ctx seen, rfl,
      (inside.polled_iterate _).busy, ?_, frame.rest.spiCaller, List.cons_ne_nil _ _, unready _⟩
    rw [State.suspend_calls, frame.rest.calls, frame.rest.ctx]
    rfl

end Sys2Proof.Machine

end

/-! Calls of the SPI primitives (R43, R97, R115): what `exec` and the call of another context come to when a precondition
fails, when a context is inside a primitive, and when an argument is none that the primitive supports. -/

section

namespace Sys2Proof.Machine

/-! A primitive whose preconditions are those of R97. -/

/-- The primitives of R101 to R110. -/
def Instr.NeedsController (i : Instr) : Prop :=
  i = .spiPrep ∨ i = .readStatus ∨ i = .waitWip ∨ i = .writeEnable ∨ (∃ op len, i = .readReg op len) ∨
    (∃ op buf len, i = .writeReg op buf len) ∨ (∃ offset len, i = .read offset len) ∨
    (∃ offset buf len, i = .write offset buf len) ∨ (∃ offset, i = .erase offset) ∨
    (∃ base op addr, i = .issueCmd base op addr)

/-- Each of them is an SPI primitive whose program tests the preconditions first. -/
theorem Instr.NeedsController.program {i : Instr} (h : NeedsController i) :
    isSpiPrimitive i = true ∧ ∃ p : Env → Prog Result, ∀ e, progInstr e i = withController (p e) := by
  rcases h with rfl | rfl | rfl | rfl | ⟨_, _, rfl⟩ | ⟨_, _, _, rfl⟩ | ⟨_, _, rfl⟩ | ⟨_, _, _, rfl⟩ | ⟨_, rfl⟩ |
    ⟨_, _, _, rfl⟩ <;> exact ⟨rfl, _, fun _ => rfl⟩

/-- What a call comes to while no context is inside a primitive: what its program answers with the caller inside. -/
theorem exec_free {i : Instr} (hi : isSpiPrimitive i = true) {s : State} (hf : s.spiCaller = none) : ∃ got,
    exec i s = ((progInstr (s.env 0) i).den (s.withCaller (some s.ctx))).outcome (.instr i) got := by
  rw [exec_spi hi]
  exact call_eq (enterOp_spi (op := .instr i) hi hf s.ctx) _

/-- The program refuses, and so does the call. -/
theorem exec_refused {i : Instr} (hi : isSpiPrimitive i = true) {s : State} (hf : s.spiCaller = none) {r : Refusal}
    (e : (progInstr (s.env 0) i).den (s.withCaller (some s.ctx)) = .refused r) : exec i s = .refused r := by
  obtain ⟨got, outcome⟩ := exec_free hi hf
  rw [outcome, e]
  rfl

/-- The program answers, and so does the call. -/
theorem exec_returns {i : Instr} (hi : isSpiPrimitive i = true) {s t : State} (hf : s.spiCaller = none) {r : Result}
    (e : (progInstr (s.env 0) i).den (s.withCaller (some s.ctx)) = .ok r t) : exec i s = .next (t.ended (.instr i) r) := by
  obtain ⟨got, outcome⟩ := exec_free hi hf
  rw [outcome, e]
  rfl

/-- The program raises a condition, and the call returns its code (R116). -/
theorem exec_raises {i : Instr} (hi : isSpiPrimitive i = true) {s t : State} (hf : s.spiCaller = none) {c : Condition}
    (e : (progInstr (s.env 0) i).den (s.withCaller (some s.ctx)) = .raised c t) :
    exec i s = .next (t.ended (.instr i) (raisedResult t.cfg c)) := by
  obtain ⟨got, outcome⟩ := exec_free hi hf
  rw [outcome, e]
  rfl

/-- The program has not returned, and the call stays in progress (R137). -/
theorem exec_waits {i : Instr} (hi : isSpiPrimitive i = true) {s t : State} (hf : s.spiCaller = none)
    (e : (progInstr (s.env 0) i).den (s.withCaller (some s.ctx)) = .pending t) :
    ∃ got, exec i s = .next (t.suspend (.instr i) got) := by
  obtain ⟨got, outcome⟩ := exec_free hi hf
  exact ⟨got, by rw [outcome, e]; rfl⟩

/-- A primitive that makes no step changes the result alone. -/
theorem State.ended_withCaller {s : State} (hf : s.spiCaller = none) {op : Op} (ho : op.usesSpi = true) (c : Option Nat)
    (r : Result) : (s.withCaller c).ended op r = { s with result := r } := by
  rw [State.ended_spi ho, ← hf]
  rfl

/-- The program of a primitive runs with its caller inside, when no agent is left to act. -/
theorem State.Eager.runsInside {s : State} (h : s.Eager) : Runs (s.env 0) (s.withCaller (some s.ctx)) :=
  (h.inside (some s.ctx)).runs 0

/-- What the tests of R97 refuse: a state without `attach`, or with it for a second one; a caller without the mutex. -/
theorem perform_needController_refused {s : State} :
    (s.ctrl.attached = false → Act.needController.perform s = .refused .notAttached) ∧
      (s.ctrl.attached = true → s.spiMutex ≠ .held s.ctx → Act.needController.perform s = .refused .mutexNotHeld) :=
  ⟨fun ha => by simp [Act.perform, checkController, ha],
    fun ha hm => by simp [Act.perform, checkController, checkMutex, ha, hm]⟩

theorem perform_needDetached_refused {s : State} :
    (s.ctrl.attached = true → Act.needDetached.perform s = .refused .alreadyAttached) ∧
      (s.ctrl.attached = false → s.spiMutex ≠ .held s.ctx → Act.needDetached.perform s = .refused .mutexNotHeld) :=
  ⟨fun ha => by simp [Act.perform, checkDetached, ha],
    fun ha hm => by simp [Act.perform, checkDetached, checkMutex, ha, hm]⟩

/-- A program whose first step is a test that refuses is refused. -/
theorem den_test_refused {α : Type} {a : Act} {next : Word → Prog α} {s : State} {r : Refusal} (ht : a.isTest = true)
    (h : a.perform s = .refused r) : (Prog.act a next).den s = .refused r := by
  have step : a.step s = a.perform s := by
    cases a with
    | needController | needDetached => exact Act.step_ready rfl rfl
    | _ => cases ht
  rw [Prog.den_act, step, h, Res.bind_refused]

/-! Programs that begin with a poll (R98). -/

/-- The first step is a read of SFCSR. -/
def Prog.BeginsWithPoll {α : Type} (p : Prog α) : Prop := ∃ next, p = .act (.rd .sfcsr) next

theorem Prog.BeginsWithPoll.bind {α β : Type} {p : Prog α} (h : p.BeginsWithPoll) (f : α → Prog β) :
    (p.bind f).BeginsWithPoll := by
  obtain ⟨next, rfl⟩ := h
  exact ⟨_, rfl⟩

/-- A legal budget, or none, lets a poll loop make an iteration (R98). -/
theorem State.pollLimit_pos {s : State} (h : s.cfg.pollBudget ≠ some 0) (n : Nat) : ∃ m, (s.env n).pollLimit = m + 1 := by
  apply Nat.exists_eq_succ_of_ne_zero
  simp only [Env.pollLimit, State.env]
  cases hb : s.cfg.pollBudget with
  | none => exact Nat.ne_of_gt (by simp only; omega)
  | some b => exact fun hz => h (hb.trans (congrArg some hz))

section

variable {e : Env} (h : ∃ m, e.pollLimit = m + 1)
include h

theorem waitReady_beginsWithPoll : (waitReady e).BeginsWithPoll := by
  obtain ⟨m, hm⟩ := h
  rw [waitReady, hm]
  exact ⟨_, rfl⟩

theorem gated32_beginsWithPoll (reg : GatedReg) (v : Word) : (gated32 e reg v).BeginsWithPoll :=
  (waitReady_beginsWithPoll h).bind _

theorem prep_beginsWithPoll : (prep e).BeginsWithPoll := (gated32_beginsWithPoll h _ _).bind _

theorem issue_beginsWithPoll (base : Word) (op : Byte) (addr : Option Word) : (issue e base op addr).BeginsWithPoll :=
  (gated32_beginsWithPoll h _ _).bind _

theorem status_beginsWithPoll : (status e).BeginsWithPoll := ((prep_beginsWithPoll h).bind _).bind _

theorem waitIdle_beginsWithPoll : (waitIdle e).BeginsWithPoll := by
  have status := status_beginsWithPoll h
  obtain ⟨m, hm⟩ := h
  rw [waitIdle, hm]
  exact status.bind _

end

/-- The primitives that poll as soon as their preconditions are tested: they have no argument to check. -/
def Instr.PollsFirst (i : Instr) : Prop :=
  i = .spiPrep ∨ i = .readStatus ∨ i = .waitWip ∨ i = .writeEnable ∨ ∃ base op addr, i = .issueCmd base op addr

theorem Instr.PollsFirst.program {i : Instr} (h : PollsFirst i) : isSpiPrimitive i = true ∧ ∃ p : Env → Prog Result,
    (∀ e, progInstr e i = withController (p e)) ∧ ∀ e, (∃ m, e.pollLimit = m + 1) → (p e).BeginsWithPoll := by
  rcases h with rfl | rfl | rfl | rfl | ⟨base, op, addr, rfl⟩
  · exact ⟨rfl, _, fun _ => rfl, fun _ h => (prep_beginsWithPoll h).bind _⟩
  · exact ⟨rfl, _, fun _ => rfl, fun _ h => (status_beginsWithPoll h).bind _⟩
  · exact ⟨rfl, _, fun _ => rfl, fun _ h => (waitIdle_beginsWithPoll h).bind _⟩
  · exact ⟨rfl, _, fun _ => rfl, fun _ h => ((waitIdle_beginsWithPoll h).bind _).bind _⟩
  · exact ⟨rfl, _, fun _ => rfl, fun _ h => (issue_beginsWithPoll h base op addr).bind _⟩

/-- A program that begins with a poll is refused where the interleaving point before the poll is (R40). -/
theorem Prog.BeginsWithPoll.den_refused {α : Type} {p : Prog α} (h : p.BeginsWithPoll) {s : State} {r : Refusal}
    (e : s.point = .refused r) : p.den s = .refused r := by
  obtain ⟨next, rfl⟩ := h
  simp only [Prog.den_act, Act.step, Act.before, e, Res.bind_refused]

/-- The next batch begins with another context's call of an SPI primitive, while a context is inside one (R43). -/
theorem point_twoInPrimitives {s : State} {ctx : Nat} {j : Instr} {batch : List AgentStep} {rest : List (List AgentStep)}
    (hs : s.schedule = (.start ctx (.instr j) :: batch) :: rest) (hj : isSpiPrimitive j = true) (hw : WellFormed j = true)
    (hx : ctx ≠ s.ctx) (hn : s.callOf ctx = none) (hc : s.spiCaller ≠ none) : s.point = .refused .twoInPrimitives := by
  have start := start_twoInPrimitives (s := { s with schedule := rest }) hj hw hx hn hc
  simp only [State.point, hs, runBatch, start, Res.bind_refused]

/-- The program of `attach` once its resources are there: its preconditions, then the controller (R97, R139). -/
theorem attach_program {s : State} {base : Word} (hg : s.cfg.family ≠ none) (hb : s.cfg.spiBase = some base) (f : Family)
    (cs : Byte) (straps : Straps) : progInstr (s.env 0) (.attach f cs straps) =
      .act .needDetached fun _ => attachController s.cfg base f cs straps := by
  obtain ⟨g, hg⟩ := Option.ne_none_iff_exists'.mp hg
  show progAttach (s.env 0) f cs straps = _
  rw [progAttach, show (s.env 0).cfg = s.cfg from rfl, hg, hb]
  rfl

/-! Calls of another context (R43, R97). -/

/-- Another context that may call an SPI primitive is inside it from then on (R43). -/
theorem start_free {s : State} {ctx : Nat} {i : Instr} (hi : isSpiPrimitive i = true) (hw : WellFormed i = true)
    (hx : ctx ≠ s.ctx) (hn : s.callOf ctx = none) (hf : s.spiCaller = none) :
    agentStep (.start ctx (.instr i)) s = called ⟨ctx, .instr i, []⟩ (s.withCaller (some ctx)) := by
  have enter : enterOp (.instr i) ctx s = .ok () (s.withCaller (some ctx)) :=
    enterOp_spi (op := .instr i) hi hf ctx
  simp only [agentStep, Op.wellFormed, hx, hn, hw, ne_eq, not_false_eq_true, and_self, if_true, enter, Res.bind_ok]

/-- An operation that begins with a test makes it at its call (R97). -/
theorem called_test {s : State} {c : Call} {a : Act} {next : Word → Prog Result} (h : s.rest c = .act a next)
    (ht : a.isTest = true) : called c s =
      (a.perform (s.withCtx c.ctx)).bind fun w t => settle { c with got := c.got ++ [w] } (t.withCtx s.ctx) := by
  have turn : a.mayGo s = true := by
    cases a with
    | needController | needDetached => rfl
    | _ => cases ht
  simp only [called, advance, h, Prog.beginsWithTest, ht, turn, if_true]

/-- A test that fails refuses the call. -/
theorem start_refused {s : State} {ctx : Nat} {i : Instr} (hi : isSpiPrimitive i = true) (hw : WellFormed i = true)
    (hx : ctx ≠ s.ctx) (hn : s.callOf ctx = none) (hf : s.spiCaller = none) {a : Act} {next : Word → Prog Result}
    (hp : progInstr (s.env 0) i = .act a next) (ht : a.isTest = true) {r : Refusal}
    (hr : a.perform ((s.withCaller (some ctx)).withCtx ctx) = .refused r) :
    agentStep (.start ctx (.instr i)) s = .refused r := by
  rw [start_free hi hw hx hn hf, called_test (a := a) (next := next) ?rest ht, hr, Res.bind_refused]
  case rest => rw [State.rest_new]; exact hp

/-- A primitive whose tests another context's call passes is in progress, before its first poll (R97). -/
theorem start_polls {s : State} {ctx : Nat} {i : Instr} (hi : Instr.PollsFirst i) (hw : WellFormed i = true)
    (hx : ctx ≠ s.ctx) (hn : s.callOf ctx = none) (hf : s.spiCaller = none) (ha : s.ctrl.attached = true)
    (hm : s.spiMutex = .held ctx) (hb : s.cfg.pollBudget ≠ some 0) : agentStep (.start ctx (.instr i)) s =
      .ok () { s with spiCaller := some ctx, calls := s.calls ++ [⟨ctx, .instr i, [0#32]⟩] } := by
  obtain ⟨spi, p, program, polls⟩ := hi.program
  obtain ⟨next, hnext⟩ := polls (s.env 1) (s.pollLimit_pos hb 1)
  have first : (s.withCaller (some ctx)).rest ⟨ctx, .instr i, []⟩ = .act .needController fun _ => p (s.env 0) := by
    rw [State.rest_new]
    exact program _
  have pass : Act.needController.perform ((s.withCaller (some ctx)).withCtx ctx) =
      .ok 0#32 ((s.withCaller (some ctx)).withCtx ctx) := by
    simp [Act.perform, checkController, checkMutex, ha, hm]
  have left : (s.withCaller (some ctx)).rest ⟨ctx, .instr i, [0#32]⟩ = .act (.rd .sfcsr) next := by
    show (progInstr (s.env 1) i).after [0#32] = _
    rw [program, hnext]
    rfl
  rw [start_free spi hw hx hn hf, called_test first rfl, pass]
  show settle ⟨ctx, .instr i, [0#32]⟩ (s.withCaller (some ctx)) = _
  simp only [settle, left]
  rfl

/-- Settles O38: each refusal is that of the first test that fails; the exclusion is tested before all others. -/
theorem primitivesNeedController : Obligations.PrimitivesNeedController := by
  refine ⟨fun i s hf hi => ?called, fun i s hi hc => ?inside, fun i j s ctx batch rest hf hb hi hj hw hx hn hs => ?race,
    fun i s ctx hf hx hn hw => ⟨fun hi => ?otherCalls, ?otherAttaches, fun hi ha hm hb => ?otherPolls⟩⟩
  case called =>
    obtain ⟨spi, p, program⟩ := Instr.NeedsController.program hi
    have refused : ∀ {r}, Act.needController.perform (s.withCaller (some s.ctx)) = .refused r → exec i s = .refused r :=
      fun h => exec_refused spi hf (by rw [program]; exact den_test_refused rfl h)
    exact ⟨fun ha => refused (perform_needController_refused.1 ha),
      fun ha hm => refused (perform_needController_refused.2 ha hm)⟩
  case inside =>
    refine ⟨?_, fun ctx hx hn hw => start_twoInPrimitives hi hw hx hn hc⟩
    rw [exec_spi hi]
    exact call_twoInPrimitives (op := .instr i) hi hc _
  case race =>
    have limit := s.pollLimit_pos hb 0
    have point : (s.withCaller (some s.ctx)).point = .refused .twoInPrimitives :=
      point_twoInPrimitives (s := s.withCaller (some s.ctx)) hs hj hw hx hn (Option.some_ne_none _)
    have ready := waitReady_beginsWithPoll limit
    rcases hi with rfl | ⟨reg, v, rfl⟩ | rfl | ⟨ha, hm, hi⟩
    · exact exec_refused rfl hf ((ready.bind _).den_refused point)
    · exact exec_refused rfl hf (((ready.bind _).bind _).den_refused point)
    · exact exec_refused rfl hf (((ready.bind _).bind _).den_refused point)
    · obtain ⟨spi, p, program, polls⟩ := Instr.PollsFirst.program hi
      refine exec_refused spi hf ?_
      rw [program, withController_ready (s := s.withCaller (some s.ctx)) _ ha hm]
      exact (polls _ limit).den_refused point
  case otherCalls =>
    obtain ⟨spi, p, program⟩ := Instr.NeedsController.program hi
    exact ⟨fun ha => start_refused spi hw hx hn hf (program _) rfl (perform_needController_refused.1 ha),
      fun ha hm => start_refused spi hw hx hn hf (program _) rfl (perform_needController_refused.2 ha hm)⟩
  case otherAttaches =>
    rintro ⟨f, cs, straps, rfl⟩ family base
    obtain ⟨b, hb⟩ := Option.ne_none_iff_exists'.mp base
    have program := attach_program family hb f cs straps
    exact ⟨fun ha => start_refused rfl hw hx hn hf program rfl (perform_needDetached_refused.1 ha),
      fun ha hm => start_refused rfl hw hx hn hf program rfl (perform_needDetached_refused.2 ha hm)⟩
  case otherPolls => exact start_polls hi hw hx hn hf ha hm hb

/-! Arguments that no primitive supports (R106, R107, R115). -/

/-- A primitive that raises before any step changes the result alone (R133, R135). -/
theorem exec_invalidArgument {i : Instr} {p : Env → Prog Result} (hi : isSpiPrimitive i = true)
    (hp : ∀ e, progInstr e i = withController (p e)) {s : State} (ha : s.ctrl.attached = true)
    (hm : s.spiMutex = .held s.ctx) (hf : s.spiCaller = none) {args : List Nat}
    (e : p (s.env 0) = .raise (.invalidArgument args)) :
    exec i s = .next { s with result := .raised s.cfg.eInval (.invalidArgument args) } := by
  have raised : (progInstr (s.env 0) i).den (s.withCaller (some s.ctx)) =
      .raised (.invalidArgument args) (s.withCaller (some s.ctx)) := by
    rw [hp, withController_ready (s := s.withCaller (some s.ctx)) _ ha hm, e, Prog.den_raise]
  rw [exec_raises hi hf raised, State.ended_withCaller (op := .instr i) hf hi]
  rfl

/-- A range that leaves the device or the addressing mode ends the operation (R115). -/
theorem checkRange_bind {e : Env} {offset len : Nat} (h : rangeLimit e.cfg e.ctrl < offset + len) {α : Type}
    (f : Unit → Prog α) : (checkRange e offset len).bind f = .raise (.invalidArgument [offset, len]) := by
  rw [checkRange, if_pos h]
  rfl

/-- Settles O39: the length and the range are tested before any access. -/
theorem badArgumentRaises : Obligations.BadArgumentRaises := by
  intro s ha hm hf
  refine ⟨fun op len h0 h1 h2 h4 => ?readReg, fun op buf len h => ?writeReg,
    fun offset len h => ⟨?read, fun buf => ?write⟩, fun offset h => ?erase⟩
  case readReg =>
    refine exec_invalidArgument (i := .readReg op len) (p := fun e => readReg e op len) rfl (fun _ => rfl) ha hm hf ?_
    have bad : readRegLengthOk len = false := by simp [readRegLengthOk, h0, h1, h2, h4]
    simp only [readReg, bad, Bool.false_eq_true, if_false]
  case writeReg =>
    exact exec_invalidArgument (p := fun e => writeReg e op buf len) rfl (fun _ => rfl) ha hm hf (if_pos h)
  case read =>
    exact exec_invalidArgument (p := fun e => readFlash e offset len) rfl (fun _ => rfl) ha hm hf (checkRange_bind h _)
  case write =>
    exact exec_invalidArgument (p := fun e => writeFlash e offset buf len) rfl (fun _ => rfl) ha hm hf (checkRange_bind h _)
  case erase =>
    exact exec_invalidArgument (p := fun e => eraseFlash e offset) rfl (fun _ => rfl) ha hm hf (checkRange_bind h _)

end Sys2Proof.Machine

end

/-! Primitives on any device (R101, R103, R106, R107): `spi_prep`, `read_reg`, `write_reg` and `read_status` with no other
agent left to act, from a state whose open frame may be closed. -/

section

namespace Sys2Proof.Machine

/-! `spi_prep` (R101). -/

/-- The words of R54 as shifted bits. -/
theorem deselectWord_eq (cfg : Cfg) : deselectWord cfg = 1#32 <<< cfg.bitCsb0 ||| 1#32 <<< cfg.bitCsb1 := by
  rw [deselectWord, lenField_one, BitVec.or_zero]
  rfl

theorem baseWord_cs0 (cfg : Cfg) : baseWord cfg .cs0 = 1#32 <<< cfg.bitCsb1 := by
  rw [baseWord, lenField_one, BitVec.or_zero]
  rfl

theorem baseWord_cs1 (cfg : Cfg) : baseWord cfg .cs1 = 1#32 <<< cfg.bitCsb0 := by
  rw [baseWord, lenField_one, BitVec.or_zero]
  rfl

/-- `spi_prep` as its caller runs it: the open frame is closed, no device is selected (R101). -/
theorem exec_spiPrep {s u : State} (h : s.Eager) (ha : s.ctrl.attached = true) (hm : s.spiMutex = .held s.ctx)
    (hf : s.spiCaller = none) (hc : closeFrame s.sel (eagerStep s) = .ok () u) :
    ∃ t, exec .spiPrep s = .next (t.ended (.instr .spiPrep) (.value (baseWord s.cfg s.ctrl.cs))) ∧
      (s.withCaller (some s.ctx)).EngineFrame t ∧ t.sel = .none ∧ t.len = 0#2 ∧ t.busy = true ∧
      (∀ c, t.dev c = u.dev c) ∧ t.draws = u.draws ∧
      t.log = s.log ++ [⟨.read, .sfcsr, (eagerStep s).sfcsr⟩, ⟨.write, .sfcsr, deselectWord s.cfg⟩] := by
  obtain ⟨t, den, moves, sel, len, busy, dev, draws, log⟩ :=
    prep_eager h.runsInside (closeFrame_inside hc (some s.ctx))
  refine ⟨t, exec_returns rfl hf ?program, moves.toEngineFrame, sel, len, busy, fun c => ?dev, draws, ?log⟩
  case program =>
    have body : (prep (s.env 0)).den (s.withCaller (some s.ctx)) = .ok (baseWord s.cfg s.ctrl.cs) t := den
    show (progSpiPrep (s.env 0)).den _ = _
    rw [progSpiPrep, withController_ready (s := s.withCaller (some s.ctx)) _ ha hm, Prog.den_bind, body]
    rfl
  case dev => rw [dev c, State.withCaller_dev]
  case log => rw [log, eagerStep_withCaller]; rfl

/-- Settles O40: `spi_prep` is its one gated access. -/
theorem spiPrep : Obligations.SpiPrep := by
  intro s u h ha hm hf hc
  obtain ⟨t, outcome, frame, sel, len, busy, dev, draws, log⟩ := exec_spiPrep h ha hm hf hc
  obtain ⟨csb0, csb1⟩ := sel_none_csb sel
  refine ⟨_, outcome, ?result, by simpa using csb0, by simpa using csb1, by simpa using len, by simpa using busy,
    fun c => by simpa using dev c, by simpa using draws, ?log, frame.ended hf rfl _⟩
  case result =>
    rw [State.ended_result]
    cases s.ctrl.cs with
    | cs0 => exact congrArg Result.value (baseWord_cs0 _)
    | cs1 => exact congrArg Result.value (baseWord_cs1 _)
  case log => rw [State.ended_log, log, deselectWord_eq]

/-! `read_reg` (R106). -/

/-- The lengths that `read_reg` supports fit the width field, when there is a data phase (R54, R106). -/
theorem readReg_lengths {len : Nat} (h : len = 0 ∨ len = 1 ∨ len = 2 ∨ len = 4) :
    len = 0 ∨ ∃ n : Fin 4, len = n.val + 1 := by
  rcases h with h | rfl | rfl | rfl
  · exact .inl h
  · exact .inr ⟨0, rfl⟩
  · exact .inr ⟨1, rfl⟩
  · exact .inr ⟨3, rfl⟩

/-- The accesses of `read_reg`: the bytes a new frame with the command byte gives, the frame left open (R106). -/
theorem readRegBytes_link {s u : State} {E : Env} (h : Runs E s) (hb : s.bigEndianLanes = true)
    (hc : closeFrame s.sel (eagerStep s) = .ok () u) (op : Byte) {len : Nat}
    (hl : len = 0 ∨ len = 1 ∨ len = 2 ∨ len = 4) :
    ∃ bs t k, (readRegBytes E op len).den s = .ok bs t ∧ s.EngineFrame t ∧
      Link s.ctrl.cs k (Device.advances len ((u.dev s.ctrl.cs).finish.select.put op)) (u.dev s.ctrl.cs.other).finish t ∧
      Answers E.cfg (E.cfg.flashSize s.ctrl.cs) ((u.dev s.ctrl.cs).finish.select.put op) len bs := by
  rcases readReg_lengths hl with rfl | ⟨n, rfl⟩
  · obtain ⟨t, den, moves, link⟩ := readRegBytes_zero h hb hc op
    exact ⟨[], t, _, den, moves.toEngineFrame, link, rfl, fun k hk => absurd hk (Nat.not_lt_zero k)⟩
  · obtain ⟨bs, t, den, moves, link, length, bytes⟩ := readRegBytes_succ h hb hc op n
    exact ⟨bs, t, _, den, moves.toEngineFrame, link, length, fun k hk => bytes k (Nat.le_of_lt_succ hk)⟩

/-- `read_reg` as its caller runs it (R106). -/
theorem exec_readReg {s u : State} (h : s.Ready) (hf : s.spiCaller = none)
    (hc : closeFrame s.sel (eagerStep s) = .ok () u) (op : Byte) {len : Nat}
    (hl : len = 0 ∨ len = 1 ∨ len = 2 ∨ len = 4) :
    ∃ bs t k, exec (.readReg op len) s = .next (t.ended (.instr (.readReg op len)) (.bytes bs)) ∧
      (s.withCaller (some s.ctx)).EngineFrame t ∧
      Link s.ctrl.cs k (Device.advances len ((u.dev s.ctrl.cs).finish.select.put op)) (u.dev s.ctrl.cs.other).finish t ∧
      Answers s.cfg (s.cfg.flashSize s.ctrl.cs) ((u.dev s.ctrl.cs).finish.select.put op) len bs := by
  obtain ⟨bs, t, k, den, frame, link, bytes⟩ :=
    readRegBytes_link h.runs (h.inside _).lanes (closeFrame_inside hc _) op hl
  rw [State.withCaller_dev, State.withCaller_dev] at link
  rw [State.withCaller_dev] at bytes
  have supported : readRegLengthOk len = true := by rcases hl with rfl | rfl | rfl | rfl <;> rfl
  exact ⟨bs, t, k, exec_ready (p := fun e => readReg e op len) rfl (fun _ => rfl) h hf
    (by rw [readReg, if_pos supported, Prog.den_bind, den]; rfl), frame, link, bytes⟩

/-! `write_reg` (R107). -/

/-- The accesses of `write_reg`: a new frame takes the lanes of its word, and is left open (R107). -/
theorem writeRegWords_link {s u : State} {E : Env} (h : Runs E s) (hb : s.bigEndianLanes = true)
    (hc : closeFrame s.sel (eagerStep s) = .ok () u) (op : Byte) (buf : List Byte) {len : Nat} (hl : len ≤ 2) :
    ∃ t, (writeRegWords E op buf len).den s = .ok () t ∧ s.EngineFrame t ∧
      Link s.ctrl.cs (BitVec.ofNat 2 len) ((u.dev s.ctrl.cs).finish.select.puts
        (writeLanes (BitVec.ofNat 2 len) (writeRegWord E.cfg op buf len))) (u.dev s.ctrl.cs.other).finish t := by
  obtain ⟨t1, e1, m1, parked, _⟩ := prep_parked h hc
  obtain ⟨t2, e2, m2, l2⟩ := setWidth_parked (m1.runs h) parked s.ctrl.cs ⟨len, by omega⟩
  have m12 := m1.trans m2
  obtain ⟨t3, e3, m3, l3⟩ := gatedSfdr_link (m12.runs h) (m12.lanes hb) l2 (writeRegWord E.cfg op buf len)
  exact ⟨t3, by simp only [writeRegWords, Prog.den_bind, e1, Res.bind_ok, e2, e3], (m12.trans m3).toEngineFrame, l3⟩

/-- `write_reg` as its caller runs it (R107). -/
theorem exec_writeReg {s u : State} (h : s.Ready) (hf : s.spiCaller = none)
    (hc : closeFrame s.sel (eagerStep s) = .ok () u) (op : Byte) {buf : List Byte} {len : Nat} (hl : len ≤ 2)
    (hbuf : len ≤ buf.length) :
    ∃ t, exec (.writeReg op buf len) s = .next (t.ended (.instr (.writeReg op buf len)) .ok) ∧
      (s.withCaller (some s.ctx)).EngineFrame t ∧
      Link s.ctrl.cs (BitVec.ofNat 2 len) ((u.dev s.ctrl.cs).finish.select.puts
        (writeLanes (BitVec.ofNat 2 len) (writeRegWord s.cfg op buf len))) (u.dev s.ctrl.cs.other).finish t := by
  obtain ⟨t, den, frame, link⟩ := writeRegWords_link h.runs (h.inside _).lanes (closeFrame_inside hc _) op buf hl
  rw [State.withCaller_dev, State.withCaller_dev] at link
  exact ⟨t, exec_ready (p := fun e => writeReg e op buf len) rfl (fun _ => rfl) h hf (by
    rw [writeReg, if_neg (Nat.not_lt.mpr hl), if_neg (Nat.not_lt.mpr hbuf), Prog.den_bind, den]
    rfl), frame, link⟩

/-! `read_status` (R103). -/

/-- `read_status` answers on any device: one byte of a new frame (R103). -/
theorem status_link {s u : State} {E : Env} (h : Runs E s) (hb : s.bigEndianLanes = true)
    (hc : closeFrame s.sel (eagerStep s) = .ok () u) :
    ∃ b t, (status E).den s = .ok b t ∧ s.EngineFrame t ∧ t.dev s.ctrl.cs.other = (u.dev s.ctrl.cs.other).finish := by
  obtain ⟨bs, t, k, den, frame, link, _⟩ := readRegBytes_link h hb hc E.cfg.opRdsr (len := 1) (.inr (.inl rfl))
  exact ⟨bs.headD 0#8, t, by rw [status, Prog.den_bind, den]; rfl, frame, link.other⟩

/-- The status byte has no bit but WIP and WEL (R118). -/
theorem statusByte_zero (cfg : Cfg) (d : RefNor) {n : Nat} (hw : n ≠ cfg.srWip) (he : n ≠ cfg.srWel) :
    (d.statusByte cfg).getLsbD n = false := by
  have one : ∀ (p : Nat) (b : Bool), n ≠ p → ((BitVec.ofBool b).setWidth 8 <<< p).getLsbD n = false := by
    intro p b hp
    simp only [BitVec.getLsbD_shiftLeft, BitVec.getLsbD_setWidth, BitVec.getLsbD_ofBool]
    by_cases hn : n < p
    · simp [hn]
    · simp [show n - p ≠ 0 by omega]
  rw [RefNor.statusByte, BitVec.getLsbD_or, one _ _ he, one _ _ hw]
  rfl

/-- Settles O45: on the reference device the one byte is its status byte. -/
theorem readStatus : Obligations.ReadStatus := by
  intro s u h hf hc
  have closed := closeFrame_inside hc (some s.ctx)
  obtain ⟨b, t, den, frame, other⟩ := status_link h.runs (h.inside _).lanes closed
  have returns := exec_ready (i := .readStatus) (p := fun e => (status e).bind fun b => .ret (.status b)) (r := .status b)
    rfl (fun _ => rfl) h hf (by rw [Prog.den_bind, den]; rfl)
  refine ⟨_, b, returns, rfl, frame.ended hf rfl _, by simpa using other, fun d hd => ?_⟩
  obtain ⟨t', den', _, link⟩ := status_refNor h.runs (h.inside _).lanes closed (d := d) (by simpa using hd)
  obtain ⟨rfl, rfl⟩ : b = d.statusByte s.cfg ∧ t = t' := by
    rw [den] at den'
    injection den' with hb ht
    exact ⟨hb, ht⟩
  obtain ⟨wip, wel⟩ := statusByte_bits h.eager.cfgOk d
  exact ⟨wip, wel, fun n hw he => statusByte_zero s.cfg d hw he, (State.ended_dev ..).trans link.dev⟩

end Sys2Proof.Machine

namespace Sys2Proof

open Sys2Proof.Machine

/-- Settles O42: the bytes are those that the frame of `read_reg` takes. -/
theorem readReg : Obligations.ReadReg := by
  intro s u op len h hf hc hl
  obtain ⟨bs, t, k, returns, frame, link, length, bytes⟩ := exec_readReg h hf hc op hl
  exact ⟨_, bs, returns, rfl, rfl, length, by simpa using link.sel, by simpa using link.dev, by simpa using link.other,
    frame.ended hf rfl _, bytes⟩

/-- Settles O43: the frame takes the lanes of the word, which by default are the command and the payload. -/
theorem writeReg : Obligations.WriteReg := by
  intro s u op buf len h hf hc hl hbuf
  obtain ⟨t, returns, frame, link⟩ := exec_writeReg h hf hc op hl hbuf
  exact ⟨⟨_, returns, rfl, rfl, by simpa using link.sel, by simpa using link.dev, by simpa using link.other,
    frame.ended hf rfl _⟩, writeLanes_writeReg op hl hbuf⟩

end Sys2Proof

end

/-! Primitives on the reference device (R104, R105, R108 to R110): the polls of its status, on a device that never finishes
and on an idle one; what `read`, `write` and `erase` return, and the frame that each leaves open. -/

section

namespace Sys2Proof.Machine

/-! The poll for WIP on a device that never finishes (R104, R130). -/

/-- The device is in an operation that it does not finish (R130). -/
structure RefNor.NeverFinishes (d : RefNor) : Prop where
  wip : d.wip = true
  stuck : d.stuck = true

/-- Its own step is not enabled (R130). -/
theorem RefNor.NeverFinishes.finish {d : RefNor} (h : d.NeverFinishes) : (Device.refNor d).finish = .refNor d := by
  simp [Device.finish, RefNor.finish, h.stuck]

/-- Closing a frame changes only `open`, whatever the frame holds (R129). -/
theorem RefNor.NeverFinishes.deselect {d : RefNor} (h : d.NeverFinishes) (cfg : Cfg) (size sector draws : Nat) :
    (Device.refNor d).deselect cfg size sector draws = .ok (.refNor { d with frameOpen := false }, draws) := by
  simp [Device.deselect, RefNor.deselect, h.wip]

/-- A status read shows WIP there, and closing its frame leaves the device as it was but for the frame (R104, R129). -/
theorem status_neverFinishes {E : Env} {s u : State} {d : RefNor} (h : Runs E s) (hb : s.bigEndianLanes = true)
    (hc : closeFrame s.sel (eagerStep s) = .ok () u) (hd : u.dev s.ctrl.cs = .refNor d) (busy : d.NeverFinishes) :
    ∃ b t v e f, (status E).den s = .ok b t ∧ b.getLsbD E.cfg.srWip = true ∧ s.EngineFrame t ∧
      t.dev s.ctrl.cs = .refNor e ∧ e.NeverFinishes ∧
      closeFrame t.sel (eagerStep t) = .ok () v ∧ v.dev t.ctrl.cs = .refNor f ∧ f.NeverFinishes := by
  obtain ⟨t, den, m, l⟩ := status_refNor h hb hc (d := d) (by rw [hd, busy.finish])
  have inFrame : (d.inFrame [E.cfg.opRdsr] 1).NeverFinishes := ⟨busy.wip, busy.stuck⟩
  obtain ⟨v, closed, dev, _⟩ := close_link (m.runs h).cfg l (inFrame.deselect _ _ _ _)
  rw [← m.ctrl] at dev
  exact ⟨_, t, v, _, _, den, (statusByte_bits h.ok d).1.trans busy.wip, m.toEngineFrame, l.dev, inFrame, closed, dev,
    ⟨busy.wip, busy.stuck⟩⟩

/-- Each status read shows WIP, so the poll loop is used up (R104, R130). -/
theorem pollWip_neverFinishes {E : Env} (n : Nat) : ∀ {s u : State} {d : RefNor}, Runs E s → s.bigEndianLanes = true →
    closeFrame s.sel (eagerStep s) = .ok () u → u.dev s.ctrl.cs = .refNor d → d.NeverFinishes →
    ∃ t e, (pollWip E (n + 1)).den s = (E.exhausted .wip : Prog Unit).den t ∧ s.EngineFrame t ∧
      t.dev s.ctrl.cs = .refNor e ∧ e.NeverFinishes := by
  induction n with
  | zero =>
    intro s u d h hb hc hd busy
    obtain ⟨b, t, _, e, _, den, wip, frame, dev, still, _⟩ := status_neverFinishes h hb hc hd busy
    refine ⟨t, e, ?_, frame, dev, still⟩
    rw [pollWip, Prog.den_bind, den, Res.bind_ok, if_pos wip, pollWip]
  | succ n ih =>
    intro s u d h hb hc hd busy
    obtain ⟨b, t, _, _, _, den, wip, frame, _, _, closed, dev, still⟩ := status_neverFinishes h hb hc hd busy
    obtain ⟨w, e, used, f, hw, last⟩ := ih (frame.runs h) (frame.lanes hb) closed dev still
    refine ⟨w, e, ?_, frame.trans f, by rw [← frame.ctrl]; exact hw, last⟩
    rw [pollWip, Prog.den_bind, den, Res.bind_ok, if_pos wip, used]

/-- `wait_wip` uses its poll loop up there. -/
theorem waitIdle_neverFinishes {E : Env} {s u : State} {d : RefNor} (h : Runs E s) (hb : s.bigEndianLanes = true)
    (hc : closeFrame s.sel (eagerStep s) = .ok () u) (hd : u.dev s.ctrl.cs = .refNor d) (busy : d.NeverFinishes) :
    ∃ t e, (waitIdle E).den s = (E.exhausted .wip : Prog Unit).den t ∧ s.EngineFrame t ∧
      t.dev s.ctrl.cs = .refNor e ∧ e.NeverFinishes := by
  obtain ⟨n, hn⟩ := h.limit
  rw [waitIdle, hn]
  exact pollWip_neverFinishes n h hb hc hd busy

/-- Settles O46: with a budget the used-up loop raises `Timeout`, without one the operation stays in progress. -/
theorem stuckDeviceTimesOut : Obligations.StuckDeviceTimesOut := by
  intro s u d h hf hc hd wip stuck
  obtain ⟨t, e, den, frame, dev, busy⟩ := waitIdle_neverFinishes h.runs (h.inside (some s.ctx)).lanes
    (closeFrame_inside hc _) (by simpa using hd) ⟨wip, stuck⟩
  have program : (progInstr (s.env 0) .waitWip).den (s.withCaller (some s.ctx)) =
      (((s.env 0).exhausted .wip : Prog Unit).den t).bind fun _ t => .ok .ok t := by
    have inside := h.inside (some s.ctx)
    show (progWaitWip (s.env 0)).den _ = _
    rw [progWaitWip, withController_ready _ inside.attached inside.mutex, Prog.den_bind, den]
    rfl
  refine ⟨fun b budget => ?finite, fun budget => ?unbounded⟩
  case finite =>
    have raised : (progInstr (s.env 0) .waitWip).den (s.withCaller (some s.ctx)) = .raised (.timeout .wip) t := by
      rw [program, Env.exhausted, show (s.env 0).cfg = s.cfg from rfl, budget]
      rfl
    exact ⟨_, exec_raises rfl hf raised, by rw [State.ended_result, frame.rest.cfg]; rfl, rfl⟩
  case unbounded =>
    have waits : (progInstr (s.env 0) .waitWip).den (s.withCaller (some s.ctx)) = .pending t := by
      rw [program, Env.exhausted, show (s.env 0).cfg = s.cfg from rfl, budget]
      rfl
    obtain ⟨got, outcome⟩ := exec_waits rfl hf waits
    refine ⟨_, got, e, outcome, rfl, ?_, frame.spiMutex.trans h.mutex, frame.rest.spiCaller, by simpa using dev, busy.wip,
      busy.stuck⟩
    rw [State.suspend_calls, frame.rest.calls, frame.rest.ctx]
    rfl

/-! `wait_wip` and `write_enable` on an idle device (R104, R105). -/

/-- What a primitive leaves in the frame of its last status read. -/
theorem ended_inFrame {s t : State} {k : BitVec 2} {d : RefNor} {e : Device} {T : List Touch} {op : Op} {r : Result}
    (m : State.Moves T (s.withCaller (some s.ctx)) t) (hf : s.spiCaller = none) (ho : op.usesSpi = true)
    (l : Link s.ctrl.cs k (.refNor d) e t) : ∃ new, (t.ended op r).log = s.log ++ new ∧ touches new = T ∧
      (t.ended op r).dev s.ctrl.cs = .refNor d ∧ (t.ended op r).dev s.ctrl.cs.other = e ∧
      s.EngineFrame (t.ended op r) := by
  obtain ⟨new, log, touched⟩ := m.log
  exact ⟨new, by simpa using log, touched, by simpa using l.dev, by simpa using l.other, m.toEngineFrame.ended hf ho r⟩

/-- Settles O47: each poll of the handshake ends at its first status read. -/
theorem writeEnableHandshake : Obligations.WriteEnableHandshake := by
  intro s u d h hf hc hd hw
  have closed := closeFrame_inside hc (some s.ctx)
  have lanes := (h.inside (some s.ctx)).lanes
  refine ⟨?waitWip, ?writeEnable⟩
  case waitWip =>
    obtain ⟨t, den, m, l⟩ := waitIdle_refNor h.runs lanes closed (d := d) (by simpa using hd) hw
    rw [State.withCaller_dev] at l
    obtain ⟨new, left⟩ := ended_inFrame (op := .instr .waitWip) (r := .ok) m hf rfl l
    exact ⟨_, new, exec_ready (p := fun e => (waitIdle e).bind fun _ => .ret .ok) rfl (fun _ => rfl) h hf
      (by rw [Prog.den_bind, den]; rfl), rfl, left⟩
  case writeEnable =>
    obtain ⟨t, den, m, l⟩ := handshake_refNor h.runs lanes closed (d := d) (by simpa using hd) hw
    rw [State.withCaller_dev] at l
    obtain ⟨new, left⟩ := ended_inFrame (op := .instr .writeEnable) (r := .ok) m hf rfl l
    exact ⟨_, new, exec_ready (p := fun e => (handshake e).bind fun _ => .ret .ok) rfl (fun _ => rfl) h hf
      (by rw [Prog.den_bind, den]; rfl), rfl, left⟩

/-! `read` and `write` (R108, R109). -/

/-- Settles O48: `exec_read`, with the accesses and the device that it leaves. -/
theorem readReturnsArray : Obligations.ReadReturnsArray := by
  intro s u d offset len h hf hc hd hw hr
  obtain ⟨t, returns, m, idle⟩ := exec_read h hf hc hd hw hr
  obtain ⟨e, k, link, wip, wel, mem, _⟩ := idle.link
  obtain ⟨new, log, touched, dev, other, frame⟩ := ended_inFrame (op := .instr (.read offset len)) m hf rfl link
  exact ⟨_, e, new, returns, rfl, rfl, log, touched, dev, mem, wip, wel, other, frame⟩

/-- Settles O49: the last frame of `write` is left open, and those before it are committed. -/
theorem writeLeavesLastChunkOpen : Obligations.WriteLeavesLastChunkOpen := by
  intro s u d offset buf len h hf hc hd hw hst hwf hpos hl hr hpage
  have hlen : (buf.take len).length = len := List.length_take_of_le hl
  have hsize : offset + len ≤ s.cfg.flashSize s.ctrl.cs := hr.trans (Nat.min_le_left _ _)
  have haddr : offset + len ≤ 2 ^ (8 * addrBytesOf s.ctrl.addrMode) := hr.trans (Nat.min_le_right _ _)
  have chunks : (len - 1) / 256 + 1 = chunkCount len := by simp only [chunkCount, Config.chunk]; omega
  obtain ⟨t, mem, a, data, den, frame, pending, _, _, _, _, ha, _, outside, _⟩ := writeChunks_refNor ((len - 1) / 256)
    (a := offset) (data := buf.take len) h.runs (h.inside _).lanes (closeFrame_inside hc _) (by simpa using hd) hw hst hwf
    (by rw [hlen]; exact chunks) (by rw [hlen]; exact hsize) (by rw [hlen]; exact haddr) (by rw [hlen]; exact hpage)
  rw [chunks] at den
  obtain ⟨e, k, link, wip, wel, rfl, _⟩ := pending.link
  rw [State.withCaller_dev] at link
  have returns := exec_ready (i := .write offset buf len) (p := fun e => writeFlash e offset buf len) rfl (fun _ => rfl)
    h hf ((writeFlash_den hl hr).trans (by rw [den]; rfl))
  refine ⟨_, _, returns, rfl, rfl, by simpa using link.sel, (State.ended_dev ..).trans link.dev, wip, wel,
    fun x hx => ?array, by simpa using link.other, frame.ended hf rfl _⟩
  case array => exact outside x (by rw [ha, Nat.mul_comm]; exact hx)

/-! `erase` (R110, R127). -/

/-- Closing an erase frame whose address lies in the device erases its sector and starts an operation (R127, R128). -/
theorem deselect_erase {cfg : Cfg} (h : cfg.ok = true) {d : RefNor} {m : AddrMode} {a size sector draws : Nat}
    (hw : d.wip = false) (hwel : d.wel = true) (ha : a < 2 ^ (8 * addrBytesOf m)) (hs : a < size) :
    (Device.refNor (d.inFrame (cfg.opSe m :: addressBytes m a) 0)).deselect cfg size sector draws =
      .ok (.refNor { d.inFrame (cfg.opSe m :: addressBytes m a) 0 with
        frameOpen := false, mem := d.mem.eraseRange (a - a % sector) sector, wip := true }, draws) := by
  have commit : ∀ e : RefNor, e.wel = true → e.commitErase size sector (addrBytesOf m) (addressBytes m a) =
      { e with mem := e.mem.eraseRange (a - a % sector) sector, wip := true } := by
    intro e he
    simp only [RefNor.commitErase, bigEndian_addressBytes ha, addressBytes_length]
    rw [if_neg (by simp [he, hs])]
  simp only [Device.deselect, RefNor.deselect, RefNor.inFrame, hw, Bool.false_eq_true, if_false, RefNor.commit]
  cases m with
  | three =>
    simp only [Cfg.opSe, Cfg.commands_distinct h, if_false, if_true, RefNor.commitSe]
    rw [show (3 : Nat) = addrBytesOf .three from rfl, commit]
    exact hwel
  | four =>
    simp only [Cfg.opSe, Cfg.commands_distinct h, if_false, if_true, RefNor.commitSe4b]
    rw [show (4 : Nat) = addrBytesOf .four from rfl, commit]
    exact hwel

/-- `erase` as its caller runs it: a frame with the command and the address is left open (R110, R161). -/
theorem exec_erase {s u : State} {d : RefNor} {offset : Nat} (h : s.Ready) (hf : s.spiCaller = none)
    (hc : closeFrame s.sel (eagerStep s) = .ok () u) (hd : (u.dev s.ctrl.cs).finish = .refNor d) (hw : d.wip = false)
    (hr : offset + 1 ≤ rangeLimit s.cfg s.ctrl) :
    ∃ t, exec (.erase offset) s = .next (t.ended (.instr (.erase offset)) .ok) ∧
      (s.withCaller (some s.ctx)).EngineFrame t ∧
      Pending s.ctrl.cs d.mem d.stuck (s.cfg.opSe s.ctrl.addrMode) (addressBytes s.ctrl.addrMode offset)
        (u.dev s.ctrl.cs.other).finish t := by
  obtain ⟨t1, t2, t, e1, e2, e3, _, frame, pending⟩ := openCommand_refNor h.runs (h.inside _).lanes
    (closeFrame_inside hc _) (d := d) (by simpa using hd) hw (s.cfg.opSe s.ctrl.addrMode) offset
  rw [State.withCaller_dev] at pending
  refine ⟨t, exec_ready (p := fun e => eraseFlash e offset) rfl (fun _ => rfl) h hf ?_, frame, pending⟩
  have range : ¬ rangeLimit (s.env 0).cfg (s.env 0).ctrl < offset + 1 := Nat.not_lt.mpr hr
  have issued : (issue (s.env 0) (baseWord (s.env 0).cfg s.ctrl.cs) ((s.env 0).cfg.opSe (s.env 0).ctrl.addrMode)
    (some (trunc32 offset))).den t2 = .ok () t := e3
  simp only [eraseFlash, checkRange, if_neg range, Prog.den_bind, Prog.den_ret, Res.bind_ok, e1, e2]
  exact congrArg (fun r => r.bind fun _ t => .ok Result.ok t) issued

/-- Settles O51: the `spi_prep` closes the frame that `erase` left open, which erases the sector. -/
theorem eraseTakesEffectAtNextPrep : Obligations.EraseTakesEffectAtNextPrep := by
  intro s u d offset h hf hc hd hw hr
  have hsize : offset < s.cfg.flashSize s.ctrl.cs := (Nat.lt_of_succ_le hr).trans_le (Nat.min_le_left _ _)
  have haddr : offset < 2 ^ (8 * addrBytesOf s.ctrl.addrMode) := (Nat.lt_of_succ_le hr).trans_le (Nat.min_le_right _ _)
  obtain ⟨t, erased, inside, pending⟩ := exec_erase h hf hc hd hw hr
  have frame : s.EngineFrame (t.ended (.instr (.erase offset)) .ok) := inside.ended hf rfl _
  have ready := frame.ready h
  obtain ⟨e, k, link, wip, wel, mem, _⟩ := (pending.ended (.instr (.erase offset)) .ok).link
  obtain ⟨w, closed, dev, _⟩ := close_link frame.rest.cfg.symm link (deselect_erase h.eager.cfgOk wip wel haddr hsize)
  obtain ⟨v, prepared, _, _, _, _, kept, _⟩ := exec_spiPrep ready.eager ready.attached ready.mutex
    (frame.rest.spiCaller.trans hf) closed
  refine ⟨_, _, _, _, erased, rfl, rfl, link.dev, mem, link.other, frame, prepared,
    (State.ended_dev ..).trans ((kept _).trans dev), rfl, fun a => ?_⟩
  rw [← mem]
  exact Memory.read_eraseRange e.mem _ _ a

end Sys2Proof.Machine

end

/-! Polls and gated accesses (R98 to R100): the ready poll with no other host context acting, and what `wait_ready`, `w32`
and `r32` come to when no agent is left to act; then `attach` (R111). -/

section

namespace Sys2Proof.Machine

/-! The ready poll with no other host context acting (R98, R136, R137). -/

/-- What the environment's steps leave alone, so that a poll loop sees nothing of them but the values it reads. -/
structure State.EnvFrame (s t : State) : Prop where
  cfg : t.cfg = s.cfg
  ctx : t.ctx = s.ctx
  calls : t.calls = s.calls
  spiCaller : t.spiCaller = s.spiCaller
  log : t.log = s.log

theorem point_envFrame {s : State} (h : s.alone = true) : ∃ t, s.point = .ok () t ∧ t.alone = true ∧ s.EnvFrame t := by
  have finish : ∀ t c, s.EnvFrame t → s.EnvFrame (devFinish c t) := by
    intro t c h
    cases c <;> exact ⟨h.cfg, h.ctx, h.calls, h.spiCaller, h.log⟩
  have complete : ∀ t, s.EnvFrame t → s.EnvFrame (spiComplete t) := by
    intro t h
    simp only [spiComplete]
    split
    · exact ⟨h.cfg, h.ctx, h.calls, h.spiCaller, h.log⟩
    · exact h
  obtain ⟨t, answered, alone, frame, _⟩ := point_alone (P := s.EnvFrame)
    (fun _ _ _ h => ⟨h.cfg, h.ctx, h.calls, h.spiCaller, h.log⟩) complete finish
    (fun _ _ h => ⟨h.cfg, h.ctx, h.calls, h.spiCaller, h.log⟩) h ⟨rfl, rfl, rfl, rfl, rfl⟩
  exact ⟨t, answered, alone, frame⟩

/-- `t` is `s` after polls that read the values `ws`, with no other host context acting. -/
structure State.PolledAs (s : State) (ws : List Word) (t : State) : Prop where
  alone : t.alone = true
  cfg : t.cfg = s.cfg
  ctx : t.ctx = s.ctx
  calls : t.calls = s.calls
  spiCaller : t.spiCaller = s.spiCaller
  log : t.log = s.log ++ ws.map fun w => ⟨.read, .sfcsr, w⟩

theorem State.PolledAs.refl {s : State} (h : s.alone = true) : s.PolledAs [] s :=
  ⟨h, rfl, rfl, rfl, rfl, (List.append_nil _).symm⟩

/-- One more poll. -/
theorem State.PolledAs.step {s t : State} {ws : List Word} (h : s.PolledAs ws t) :
    ∃ w u, (Act.rd .sfcsr).step t = .ok w u ∧ s.PolledAs (ws ++ [w]) u := by
  obtain ⟨v, answered, alone, frame⟩ := point_envFrame h.alone
  refine ⟨v.sfcsr, v.logged .read .sfcsr v.sfcsr, ?step, alone, frame.cfg.trans h.cfg, frame.ctx.trans h.ctx,
    frame.calls.trans h.calls, frame.spiCaller.trans h.spiCaller, ?log⟩
  case step => simp only [Act.step, Act.before, answered, Res.bind_ok, Act.perform, regRead, sfcsrRead]
  case log => simp [frame.log, h.log]

/-- What a poll loop does with no other host context acting: it ends at the first read that shows ready, or it uses its
iterations up (R98). -/
theorem pollReady_run {s : State} {e : Env} (he : e.cfg = s.cfg) (f : Unit → Prog Result) (op : Op) (n : Nat) :
    ∀ {ws : List Word} {t : State}, s.PolledAs ws t → (∀ w, w ∈ ws → w.getLsbD s.cfg.bitRdy = false) →
    (∃ polls u, polls.length = ws.length + n ∧ (∀ w, w ∈ polls → w.getLsbD s.cfg.bitRdy = false) ∧ s.PolledAs polls u ∧
      ((pollReady e n).bind f).run op ws t = ((e.exhausted .ready).bind f).run op polls u) ∨
    ∃ polls w u, polls.length < ws.length + n ∧ (∀ v, v ∈ polls → v.getLsbD s.cfg.bitRdy = false) ∧
      w.getLsbD s.cfg.bitRdy = true ∧ s.PolledAs (polls ++ [w]) u ∧
      ((pollReady e n).bind f).run op ws t = (f ()).run op (polls ++ [w]) u := by
  induction n with
  | zero => exact fun {ws t} polled unready => .inl ⟨ws, t, rfl, unready, polled, rfl⟩
  | succ n ih =>
    intro ws t polled unready
    obtain ⟨w, u, step, next⟩ := polled.step
    have run : ((pollReady e (n + 1)).bind f).run op ws t =
        ((if w.getLsbD s.cfg.bitRdy then .ret () else pollReady e n).bind f).run op (ws ++ [w]) u := by
      simp only [pollReady, Prog.reading, Prog.bind_act, Prog.bind_ret, Prog.run, step, Res.finish_ok, he]
    rw [run]
    cases hw : w.getLsbD s.cfg.bitRdy with
    | true => exact .inr ⟨ws, w, u, by omega, unready, hw, next, rfl⟩
    | false =>
      have length : (ws ++ [w]).length + n = ws.length + (n + 1) := by simp; omega
      rw [← length]
      exact ih next fun v hv => (List.mem_append.mp hv).elim (unready v) fun hv => List.mem_singleton.mp hv ▸ hw

/-- What a call of the ready poll comes to with no other host context acting: its iterations are used up by reads that all
show busy, or it returns `ok` after a first read that shows ready (R98). -/
theorem exec_waitReady_alone {s : State} (alone : s.alone = true) (free : s.spiCaller = none) :
    (∃ polls u, polls.length = (s.env 0).pollLimit ∧ (∀ w, w ∈ polls → w.getLsbD s.cfg.bitRdy = false) ∧
      (s.withCaller (some s.ctx)).PolledAs polls u ∧ exec .waitReady s =
        (((s.env 0).exhausted .ready : Prog Unit).bind fun _ => .ret .ok).run (.instr .waitReady) polls u) ∨
    ∃ polls w u, polls.length < (s.env 0).pollLimit ∧ (∀ v, v ∈ polls → v.getLsbD s.cfg.bitRdy = false) ∧
      w.getLsbD s.cfg.bitRdy = true ∧ (s.withCaller (some s.ctx)).PolledAs (polls ++ [w]) u ∧
      exec .waitReady s = .next (u.ended (.instr .waitReady) .ok) := by
  have loop : exec .waitReady s = ((pollReady (s.env 0) (s.env 0).pollLimit).bind fun _ => .ret .ok).run
      (.instr .waitReady) [] (s.withCaller (some s.ctx)) := by
    rw [exec_spi rfl, call, enterOp_spi rfl free, Res.finish_ok]
    rfl
  have ended := pollReady_run (e := s.env 0) (s := s.withCaller (some s.ctx)) rfl (fun _ => .ret .ok) (.instr .waitReady)
    (s.env 0).pollLimit (.refl alone) (by simp)
  rw [List.length_nil, Nat.zero_add] at ended
  rw [loop]
  exact ended

/-- Settles O34: the loop ends at a read that shows ready, or its iterations, which are the budget, are used up. -/
theorem readyPoll : Obligations.ReadyPoll := by
  intro s ok alone free
  rcases exec_waitReady_alone alone free with ⟨polls, u, length, unready, polled, outcome⟩ |
    ⟨polls, w, u, length, unready, ready, polled, outcome⟩
  · obtain ⟨m, limit⟩ := s.pollLimit_pos (Cfg.inputs ok).budget 0
    obtain ⟨polls, last, rfl⟩ : ∃ init last, polls = init ++ [last] :=
      (List.eq_nil_or_concat' polls).resolve_left fun h => by rw [h, limit] at length; simp at length
    have busy : last.getLsbD s.cfg.bitRdy = false := unready last (by simp)
    have notReady : last.getLsbD s.cfg.bitRdy ≠ true := by simp [busy]
    have before : ∀ v, v ∈ polls → v.getLsbD s.cfg.bitRdy = false := fun v hv => unready v (by simp [hv])
    cases budget : s.cfg.pollBudget with
    | some b =>
      have all : polls.length + 1 = b := by
        rw [pollLimit_finite (e := s.env 0) budget] at length
        simpa using length
      rw [exhausted_run_finite (e := s.env 0) budget] at outcome
      refine ⟨_, polls, last, outcome, by simpa using polled.log, before, fun h => absurd h notReady, fun c hc => ?_, nofun⟩
      cases hc
      refine ⟨all.le, fun _ => ⟨all, ?_, by simpa using polled.calls, rfl⟩⟩
      rw [State.ended_result, polled.cfg]
      rfl
    | none =>
      rw [exhausted_run_unbounded (e := s.env 0) budget] at outcome
      refine ⟨_, polls, last, outcome, polled.log, before, fun h => absurd h notReady, nofun,
        fun _ _ => ⟨rfl, ?_, polled.spiCaller⟩⟩
      rw [State.suspend_calls, polled.calls, polled.ctx]
      rfl
  · have notBusy : w.getLsbD s.cfg.bitRdy ≠ false := by simp [ready]
    refine ⟨_, polls, w, outcome, by simpa using polled.log, unready, fun _ => ⟨rfl, by simpa using polled.calls, rfl⟩,
      fun b budget => ⟨?_, fun h => absurd h notBusy⟩, fun _ h => absurd h notBusy⟩
    rw [pollLimit_finite (e := s.env 0) budget] at length
    exact length

/-! Accesses do not see who is inside an SPI primitive (R43). -/

theorem openFrame_withCaller (new : Sel) (s : State) (c : Option Nat) :
    openFrame new (s.withCaller c) = (openFrame new s).withCaller c := by cases new <;> rfl

theorem setSelects_withCaller (csb0 csb1 : Bool) (s : State) (c : Option Nat) : setSelects csb0 csb1 (s.withCaller c) =
    (setSelects csb0 csb1 s).bind fun a t => .ok a (t.withCaller c) := by
  by_cases same : s.sel = selOf csb0 csb1
  · rw [setSelects_same same, setSelects_same (s := s.withCaller c) same]
    rfl
  · rw [setSelects_moves same, setSelects_moves (s := s.withCaller c) same, State.withCaller_sel,
      show (s.withCaller c).withSelects csb0 csb1 = (s.withSelects csb0 csb1).withCaller c from rfl, closeFrame_caller]
    simp only [Res.bind_assoc, Res.bind_ok, openFrame_withCaller]

theorem sfcsrWrite_withCaller (v : Word) (s : State) (c : Option Nat) : sfcsrWrite v (s.withCaller c) =
    (sfcsrWrite v s).bind fun a t => .ok a (t.withCaller c) := by
  simp only [sfcsrWrite, State.withCaller_busy, State.withCaller_cfg, setSelects_withCaller]
  split
  · rfl
  · split
    · rfl
    · split
      · rfl
      · simp only [Res.bind_assoc, Res.bind_ok]
        rfl

theorem shiftOutAll_withCaller (target : Option ChipSel) (bs : List Byte) (s : State) (c : Option Nat) :
    shiftOutAll target bs (s.withCaller c) = (shiftOutAll target bs s).withCaller c := by
  cases target with
  | none => simp only [shiftOutAll_none]
  | some x => simp only [shiftOutAll_eq]; cases x <;> rfl

theorem sfdrWrite_withCaller (v : Word) (s : State) (c : Option Nat) : sfdrWrite v (s.withCaller c) =
    (sfdrWrite v s).bind fun a t => .ok a (t.withCaller c) := by
  simp only [sfdrWrite, State.withCaller_busy, show (s.withCaller c).bigEndianLanes = s.bigEndianLanes from rfl,
    show sfdrTarget (s.withCaller c) = sfdrTarget s from rfl, shiftOutAll_withCaller, State.withCaller_len]
  split
  · rfl
  · split
    · rfl
    · split <;> rfl

theorem readLane_withCaller (target : Option ChipSel) (k : Nat) (s : State) (c : Option Nat) :
    readLane target k (s.withCaller c) = ((readLane target k s).1, (readLane target k s).2.withCaller c) := by
  have get : ∀ x, devGet x (s.withCaller c) = ((devGet x s).1, (devGet x s).2.withCaller c) := by
    intro x
    simp only [devGet, State.withCaller_dev, State.withCaller_cfg]
    cases (s.dev x).answer s.cfg (s.cfg.flashSize x) <;> cases x <;> rfl
  by_cases hk : k ≤ s.len.toNat
  · simp only [readLane, State.withCaller_len, hk, if_true]
    cases target with
    | none => rfl
    | some x => exact get x
  · simp only [readLane, State.withCaller_len, hk, if_false]
    rfl

theorem readLanes_withCaller (target : Option ChipSel) (s : State) (c : Option Nat) :
    readLanes target (s.withCaller c) = ((readLanes target s).1, (readLanes target s).2.withCaller c) := by
  simp only [readLanes, readLane_withCaller]

theorem sfdrRead_withCaller (s : State) (c : Option Nat) :
    sfdrRead (s.withCaller c) = (sfdrRead s).bind fun a t => .ok a (t.withCaller c) := by
  simp only [sfdrRead, State.withCaller_busy, show (s.withCaller c).bigEndianLanes = s.bigEndianLanes from rfl,
    show sfdrTarget (s.withCaller c) = sfdrTarget s from rfl, readLanes_withCaller]
  split
  · rfl
  · split
    · rfl
    · split <;> rfl

/-- A primitive that is one access, made with its caller inside, comes to what the access comes to. -/
theorem outcome_withCaller {r : Res Result} (settled : r.Settled) (free : r.All fun t => t.spiCaller = none) {op : Op}
    (ho : op.usesSpi = true) (c : Option Nat) (got : List Word) :
    (r.bind fun a t => .ok a (t.withCaller c)).outcome op got = r.toOutcome := by
  cases r with
  | ok a t => exact congrArg Host.Outcome.next (State.ended_withCaller free ho c a)
  | raised c t | pending t => exact settled.elim
  | refused _ | fault _ => rfl

/-! `wait_ready`, `w32` and `r32` when no agent is left to act (R98 to R100, R170). -/

/-- With no context inside an SPI primitive before a poll, none is after the access that follows it. -/
theorem polled_free {s t : State} (hf : s.spiCaller = none) (f : s.polled.EngineFrame t) :
    t.spiCaller = none := f.rest.spiCaller.trans ((polled_frame s).rest.spiCaller.trans hf)

/-- A write of SFCSR or SFDR that follows its poll leaves the engine's frame, or stops. -/
theorem regWrite_gated_frame {s : State} (h : s.busy = false) (reg : GatedReg) (v : Word) :
    (regWrite (gatedReg reg) v s).Safe s.EngineFrame := by
  cases reg with
  | sfcsr => exact sfcsrWrite_frame v h
  | sfdr => exact sfdrWrite_frame v h

theorem regWrite_gated_withCaller (reg : GatedReg) (v : Word) (s : State) (c : Option Nat) :
    regWrite (gatedReg reg) v (s.withCaller c) = (regWrite (gatedReg reg) v s).bind fun a t => .ok a (t.withCaller c) := by
  cases reg with
  | sfcsr => exact sfcsrWrite_withCaller v s c
  | sfdr => exact sfdrWrite_withCaller v s c

/-- `w32` is the poll and then the write (R99). -/
theorem exec_w32 {s : State} (h : s.Eager) (hf : s.spiCaller = none) (reg : GatedReg) (v : Word) :
    exec (.w32 reg v) s = (regWrite (gatedReg reg) v s.polled).returnOk := by
  obtain ⟨got, outcome⟩ := exec_free (i := .w32 reg v) rfl hf
  have program : (progInstr (s.env 0) (.w32 reg v)).den (s.withCaller (some s.ctx)) =
      ((regWrite (gatedReg reg) v s.polled).bind fun _ t => .ok Result.ok t).bind fun a t =>
        .ok a (t.withCaller (some s.ctx)) := by
    show (progW32 (s.env 0) reg v).den _ = _
    rw [progW32, Prog.den_bind, gated32_eager h.runsInside, polled_withCaller, regWrite_gated_withCaller]
    simp only [Res.bind_assoc, Res.bind_ok, Prog.den_ret]
  have settled : ((regWrite (gatedReg reg) v s.polled).bind fun _ t => .ok Result.ok t).Settled :=
    (regWrite_settled _ v s.polled).bind fun _ _ _ => trivial
  have free : ((regWrite (gatedReg reg) v s.polled).bind fun _ t => .ok Result.ok t).All fun t => t.spiCaller = none :=
    ((regWrite_gated_frame h.polled_busy reg v).mono fun t f => polled_free hf f).all.bind fun _ _ _ h => h
  rw [outcome, program, outcome_withCaller settled free rfl]
  rfl

/-- `r32` is the poll and then the read (R100). -/
theorem exec_r32 {s : State} (h : s.Eager) (hf : s.spiCaller = none) : exec .r32 s = exec .sfdrR s.polled := by
  obtain ⟨got, outcome⟩ := exec_free (i := .r32) rfl hf
  have program : (progInstr (s.env 0) .r32).den (s.withCaller (some s.ctx)) =
      ((sfdrRead s.polled).bind fun lanes t => .ok (Result.value lanes.word) t).bind fun a t =>
        .ok a (t.withCaller (some s.ctx)) := by
    show (progR32 (s.env 0)).den _ = _
    rw [progR32, Prog.den_bind, readGated_eager h.runsInside, polled_withCaller, regRead, sfdrRead_withCaller]
    simp only [Res.bind_assoc, Res.bind_ok, Prog.den_ret]
  have settled : ((sfdrRead s.polled).bind fun lanes t => .ok (Result.value lanes.word) t).Settled :=
    (sfdrRead_settled s.polled).bind fun _ _ _ => trivial
  have free : ((sfdrRead s.polled).bind fun lanes t => .ok (Result.value lanes.word) t).All fun t => t.spiCaller = none :=
    ((sfdrRead_frame h.polled_busy).mono fun t f => polled_free hf f).all.bind fun _ _ _ h => h
  rw [outcome, program, outcome_withCaller settled free rfl, exec_sfdrR, Res.returnValue, Res.bind_assoc]
  rfl

/-- The ready poll ends at its first read (R98, R170). -/
theorem exec_waitReady_eager {s : State} (h : s.Eager) (hf : s.spiCaller = none) :
    exec .waitReady s = .next { s.polled with result := .ok } := by
  have program : (progInstr (s.env 0) .waitReady).den (s.withCaller (some s.ctx)) =
      .ok .ok (s.polled.withCaller (some s.ctx)) := by
    show (progWaitReady (s.env 0)).den _ = _
    rw [progWaitReady, Prog.den_bind, waitReady_eager h.runsInside, polled_withCaller]
    rfl
  rw [exec_returns rfl hf program, State.ended_withCaller ((polled_frame s).rest.spiCaller.trans hf) rfl]

theorem shiftOutAll_log (target : Option ChipSel) (bs : List Byte) (s : State) :
    (shiftOutAll target bs s).log = s.log := by
  cases target with
  | none => rw [shiftOutAll_none]
  | some c => rw [shiftOutAll_eq, State.setDev_log]

theorem State.polled_log (s : State) : s.polled.log = s.log ++ [⟨.read, .sfcsr, (eagerStep s).sfcsr⟩] := by
  rw [State.polled_eq]

/-- After a poll SFDR moves bytes, when the byte order is set and at most one device is selected (R96). -/
theorem polled_moves {s : State} (hb : s.sfcr.getLsbD s.cfg.bitBo = true) (hs : s.sel ≠ .both) :
    ∃ target, sfdrTarget s.polled = .ok target ∧ s.polled.sfcr.getLsbD s.polled.cfg.bitBo = true := by
  have order : s.polled.sfcr.getLsbD s.polled.cfg.bitBo = true := by
    rw [(polled_frame s).sfcr, (polled_frame s).rest.cfg, hb]
  rw [← State.polled_sel] at hs
  rcases sfdrTarget_cases hs with ⟨_, ht⟩ | ⟨_, _, ht⟩ <;> exact ⟨_, ht, order⟩

/-- A gated write of SFDR completes (R89, R99). -/
theorem exec_w32_sfdr {s : State} (h : s.Eager) (hf : s.spiCaller = none) (hb : s.sfcr.getLsbD s.cfg.bitBo = true)
    (hs : s.sel ≠ .both) (v : Word) : ∃ t, exec (.w32 .sfdr v) s = .next t ∧ t.result = .ok ∧ s.EngineFrame t ∧
      t.log = s.log ++ [⟨.read, .sfcsr, (eagerStep s).sfcsr⟩, ⟨.write, .sfdr, v⟩] := by
  obtain ⟨target, ht, order⟩ := polled_moves hb hs
  refine ⟨{ (shiftOutAll target (writeLanes s.polled.len v) s.polled).markBusy.logged .write .sfdr v with result := .ok },
    ?outcome, rfl, State.EngineFrame.withResult ?frame .ok, ?log⟩
  case outcome => rw [exec_w32 h hf, gatedReg, regWrite, sfdrWrite_target h.polled_busy order ht, Res.returnOk_ok]
  case frame =>
    exact (polled_frame s).trans ((shiftOutAll_frame _ _ _).trans ((markBusy_frame _).trans (logged_frame _ _ _ _)))
  case log => simp [shiftOutAll_log, State.polled_log]

/-- A gated read of SFDR completes (R90, R100). -/
theorem exec_r32_made {s : State} (h : s.Eager) (hf : s.spiCaller = none) (hb : s.sfcr.getLsbD s.cfg.bitBo = true)
    (hs : s.sel ≠ .both) : ∃ t v, exec .r32 s = .next t ∧ t.result = .value v ∧ s.EngineFrame t ∧
      t.log = s.log ++ [⟨.read, .sfcsr, (eagerStep s).sfcsr⟩, ⟨.read, .sfdr, v⟩] := by
  obtain ⟨target, ht, order⟩ := polled_moves hb hs
  obtain ⟨t, outcome, result, _, log, _, _, _, frame, _⟩ := exec_sfdrR_made h.polled_busy order ht
  exact ⟨t, _, (exec_r32 h hf).trans outcome, result, (polled_frame s).trans frame, by simp [log, State.polled_log]⟩

/-- A write of SFCSR that moves nothing sets the width (R87). -/
theorem sfcsrWrite_stays {s : State} {v : Word} (ready : s.busy = false) (legal : OnlyFields s.cfg v)
    (notBoth : selWanted s.cfg v ≠ .both) (same : s.sel = selWanted s.cfg v) :
    sfcsrWrite v s = .ok () ((s.withWidth (v.extractLsb' s.cfg.lenLo 2)).logged .write .sfcsr v) := by
  rw [sfcsrWrite_legal ready legal notBoth, setSelects_same same]
  rfl

/-- A write of SFCSR with a legal value completes, when the frame that it may close can be closed (R87). -/
theorem sfcsrWrite_completes {s u : State} {v : Word} (ready : s.busy = false) (legal : OnlyFields s.cfg v)
    (notBoth : selWanted s.cfg v ≠ .both) (closed : closeFrame s.sel s = .ok () u) :
    ∃ t, sfcsrWrite v s = .ok () t ∧ t.sel = selWanted s.cfg v ∧ t.len = v.extractLsb' s.cfg.lenLo 2 ∧ t.busy = true ∧
      t.log = s.log ++ [⟨.write, .sfcsr, v⟩] ∧ s.EngineFrame t := by
  by_cases same : s.sel = selWanted s.cfg v
  · exact ⟨_, sfcsrWrite_stays ready legal notBoth same, same, rfl, rfl, rfl,
      (withWidth_frame _ _).trans (logged_frame _ _ _ _)⟩
  · obtain ⟨t, write, csb0, csb1, len, busy, log, _, _, frame⟩ := sfcsrWrite_moves ready legal same notBoth closed
    exact ⟨t, write, by rw [State.sel, csb0, csb1], len, busy, log, frame⟩

/-- A gated write of SFCSR with a legal value completes, when the open frame may be closed (R87, R99). -/
theorem exec_w32_sfcsr {s u : State} (h : s.Eager) (hf : s.spiCaller = none) {v : Word} (legal : OnlyFields s.cfg v)
    (notBoth : selWanted s.cfg v ≠ .both) (hc : closeFrame s.sel (eagerStep s) = .ok () u) :
    ∃ t, exec (.w32 .sfcsr v) s = .next t ∧ t.result = .ok ∧ t.len = v.extractLsb' s.cfg.lenLo 2 ∧ t.busy = true ∧
      t.sel = selWanted s.cfg v ∧ s.EngineFrame t ∧
      t.log = s.log ++ [⟨.read, .sfcsr, (eagerStep s).sfcsr⟩, ⟨.write, .sfcsr, v⟩] := by
  have cfg := (polled_frame s).rest.cfg
  obtain ⟨w, closed, _⟩ := closeFrame_congr (t := s.polled) hc (fun c => by rw [State.polled_dev, eagerStep_dev])
    (by rw [cfg, eagerStep_cfg]) (by rw [State.polled_eq, eagerStep_draws])
  rw [← State.polled_sel] at closed
  obtain ⟨t, write, sel, len, busy, log, frame⟩ := sfcsrWrite_completes h.polled_busy (cfg ▸ legal) (cfg ▸ notBoth) closed
  rw [cfg] at sel len
  refine ⟨{ t with result := .ok }, ?outcome, rfl, len, busy, sel, ((polled_frame s).trans frame).withResult .ok, ?log⟩
  case outcome => rw [exec_w32 h hf, gatedReg, regWrite, write, Res.returnOk_ok]
  case log => simp [log, State.polled_log]

/-- Settles O36: each gated access is its poll, which ends at once, and the access. -/
theorem gatedAccesses : Obligations.GatedAccesses := by
  intro s h hf
  have ready : (eagerStep s).sfcsr.getLsbD s.cfg.bitRdy = true := by
    rw [← eagerStep_cfg s, State.sfcsr_rdy (by rw [eagerStep_cfg]; exact h.cfgOk), eagerStep_eq]
    simp [h.wedged]
  refine ⟨ready, ?waitReady, fun v => ?sfcsrW, fun v => ?sfdrW, exec_r32 h hf,
    fun hb hs => ⟨exec_w32_sfdr h hf hb hs, exec_r32_made h hf hb hs⟩,
    fun v u legal notBoth _ hc => exec_w32_sfcsr h hf legal notBoth hc⟩
  case waitReady => rw [exec_waitReady_eager h hf, State.polled_eq, eagerStep_eq]
  case sfcsrW => rw [exec_w32 h hf, exec_sfcsrW]; rfl
  case sfdrW => rw [exec_w32 h hf, exec_sfdrW]; rfl

/-! `attach` (R111). -/

/-- `attach` once its preconditions hold: what the controller's part answers. -/
theorem attach_ready {s : State} {base : Word} (hg : s.cfg.family ≠ none) (hb : s.cfg.spiBase = some base)
    (ha : s.ctrl.attached = false) (hm : s.spiMutex = .held s.ctx) (f : Family) (cs : Byte) (straps : Straps) :
    (progInstr (s.env 0) (.attach f cs straps)).den (s.withCaller (some s.ctx)) =
      (attachController s.cfg base f cs straps).den (s.withCaller (some s.ctx)) := by
  rw [attach_program hg hb, Prog.den_act, Act.step_needDetached]
  simp [checkDetached, checkMutex, ha, hm]

/-- A chip-select above 1 is none (R111). -/
theorem chipSelOf_above {cs : Byte} (h : 1 < cs.toNat) : chipSelOf cs = none := by
  have h0 : cs ≠ 0#8 := by rintro rfl; exact absurd h (by decide)
  have h1 : cs ≠ 1#8 := by rintro rfl; exact absurd h (by decide)
  rw [chipSelOf, if_neg h0, if_neg h1]

/-- `attach` sets the byte-ordering bit by its two accesses, then fixes the record (R111). -/
theorem attachController_den {cfg : Cfg} {base : Word} {f : Family} {cs : Byte} {straps : Straps} {c : ChipSel}
    (hc : chipSelOf cs = some c) {s a b : State} (ha : s.point = .ok () a)
    (hb : (a.logged .read .sfcr a.sfcr).point = .ok () b) (hn : b.ctrl.attached = false) :
    (attachController cfg base f cs straps).den s = .ok .ok { b with
      sfcr := a.sfcr ||| bit cfg.bitBo, log := b.log ++ [⟨.write, .sfcr, a.sfcr ||| bit cfg.bitBo⟩],
      ctrl := ⟨base, c, modeOf cfg f straps, true⟩ } := by
  simp only [attachController, hc, Prog.den_bind, Prog.den_reading, ha, Res.bind_ok, regRead, sfcrRead, Prog.den_writing, hb,
    regWrite, sfcrWrite, Prog.den_doing, Act.step_record, fixController, State.logged_ctrl, hn, Bool.false_eq_true,
    if_false, Prog.den_ret]
  rfl

/-- Settles O37: the resources, the preconditions, the operand, the two accesses, in this order. -/
theorem attach : Obligations.Attach := by
  refine ⟨by decide, fun s f cs straps free => ⟨fun base family hbase detached mutex => ⟨fun above => ?bad,
    fun c spelled a b ha hb hn => ⟨?attached, rfl⟩⟩, fun family => ?noFamily, fun family hbase => ?noBase,
    fun family hbase attached => ?second, fun family hbase detached mutex => ?noMutex⟩⟩
  case bad =>
    have raised := attach_ready (s := s) family hbase detached mutex f cs straps
    rw [attachController, chipSelOf_above above] at raised
    rw [exec_raises rfl free raised, State.ended_withCaller free rfl]
    rfl
  case attached =>
    have operand : chipSelOf cs = some c := by subst spelled; cases c <;> rfl
    have den := attach_ready (s := s) family hbase detached mutex f cs straps
    rw [attachController_den (s := s.withCaller (some s.ctx)) operand ha hb hn] at den
    rw [exec_returns rfl free den, State.ended_spi rfl]
    rfl
  case noFamily =>
    have program : progInstr (s.env 0) (.attach f cs straps) = .refuse (.fatalBoot .familyRecord) := by
      show progAttach (s.env 0) f cs straps = _
      rw [progAttach, show (s.env 0).cfg = s.cfg from rfl, family]
    exact exec_refused rfl free (by rw [program]; rfl)
  case noBase =>
    obtain ⟨g, hg⟩ := Option.ne_none_iff_exists'.mp family
    have program : progInstr (s.env 0) (.attach f cs straps) = .refuse (.fatalBoot .spiBase) := by
      show progAttach (s.env 0) f cs straps = _
      rw [progAttach, show (s.env 0).cfg = s.cfg from rfl, hg, hbase]
    exact exec_refused rfl free (by rw [program]; rfl)
  case second =>
    obtain ⟨base, hbase⟩ := Option.ne_none_iff_exists'.mp hbase
    refine exec_refused rfl free ?_
    rw [attach_program family hbase]
    exact den_test_refused rfl (perform_needDetached_refused.1 attached)
  case noMutex =>
    obtain ⟨base, hbase⟩ := Option.ne_none_iff_exists'.mp hbase
    refine exec_refused rfl free ?_
    rw [attach_program family hbase]
    exact den_test_refused rfl (perform_needDetached_refused.2 detached mutex)

end Sys2Proof.Machine

end

/-! Whole frames (R57, R81, R119): what each device does with one, what an operation that is one leaves, and the statements
about the command frames on the reference device, the simulated register device and an empty chip-select (R117 to R132). -/

section

namespace Sys2Proof.Machine

/-- A device inside a frame in which it has received `rx` and given `n` bytes (R119). -/
def Device.framed (d : Device) (rx : List Byte) (n : Nat) : Device := Device.advances n (d.select.puts rx)

theorem refNor_framed (d : RefNor) (rx : List Byte) (n : Nat) :
    (Device.refNor d).framed rx n = .refNor (d.inFrame rx n) := by
  rw [Device.framed, select_puts, advances_inFrame, Nat.zero_add]

/-! The reference device: the command that a closed frame commits (R119 to R128). -/

/-- The reference device after a frame of `rx` that gave `n` bytes, but for what the frame commits. -/
def RefNor.afterFrame (d : RefNor) (rx : List Byte) (n : Nat) : RefNor :=
  { d with rx := rx, rdcount := n, frameOpen := false }

/-- Closing a frame of a busy device changes only `open` (R119). -/
theorem deselect_busy {d : RefNor} (hw : d.wip = true) (cfg : Cfg) (size sector draws : Nat) :
    (Device.refNor d).deselect cfg size sector draws = .ok (.refNor { d with frameOpen := false }, draws) := by
  rw [Device.deselect, RefNor.deselect, if_pos hw]

/-- Closing the frame of an idle device commits its command (R119). -/
theorem deselect_idle {d : RefNor} (hw : d.wip = false) (cfg : Cfg) (size sector draws : Nat) :
    (Device.refNor d).deselect cfg size sector draws =
      (RefNor.commit { d with frameOpen := false } cfg size sector draws).map fun p => (.refNor p.1, p.2) := by
  rw [Device.deselect, RefNor.deselect, if_neg (by simp [hw])]
  cases RefNor.commit { d with frameOpen := false } cfg size sector draws <;> rfl

/-- A whole frame on an idle device commits its command (R119). -/
theorem frame_idle {d : RefNor} (hw : d.wip = false) (cfg : Cfg) (rx : List Byte) (n size sector draws : Nat) :
    ((Device.refNor d).framed rx n).deselect cfg size sector draws =
      ((d.afterFrame rx n).commit cfg size sector draws).map fun p => (.refNor p.1, p.2) := by
  rw [refNor_framed]
  exact deselect_idle (d := d.inFrame rx n) hw ..

theorem commit_wren {cfg : Cfg} {d : RefNor} {args : List Byte} (hd : d.rx = cfg.opWren :: args)
    (size sector draws : Nat) : d.commit cfg size sector draws = .ok (d.commitWren args, draws) := by
  simp only [RefNor.commit, hd, if_true]

theorem commit_wrsr {cfg : Cfg} (h : cfg.ok = true) {d : RefNor} {args : List Byte} (hd : d.rx = cfg.opWrsr :: args)
    (size sector draws : Nat) : d.commit cfg size sector draws = .ok (d.commitWrsr args, draws) := by
  simp only [RefNor.commit, hd, Cfg.commands_distinct h, if_false, if_true]

theorem commit_program {cfg : Cfg} (h : cfg.ok = true) {d : RefNor} {m : AddrMode} {args : List Byte}
    (hd : d.rx = cfg.opPp m :: args) (size sector draws : Nat) :
    d.commit cfg size sector draws = d.commitProgram size (addrBytesOf m) args draws := by
  cases m <;>
    simp only [RefNor.commit, hd, Cfg.opPp, Cfg.commands_distinct h, if_false, if_true] <;> rfl

theorem commit_erase {cfg : Cfg} (h : cfg.ok = true) {d : RefNor} {m : AddrMode} {args : List Byte}
    (hd : d.rx = cfg.opSe m :: args) (size sector draws : Nat) :
    d.commit cfg size sector draws = .ok (d.commitErase size sector (addrBytesOf m) args, draws) := by
  cases m <;>
    simp only [RefNor.commit, hd, Cfg.opSe, Cfg.commands_distinct h, if_false, if_true] <;> rfl

/-- A read-status frame commits nothing, whatever follows the command byte (R121). -/
theorem inert_status {cfg : Cfg} (h : cfg.ok = true) (args : List Byte) : InertFrame cfg (cfg.opRdsr :: args) := by
  intro d hd size sector draws
  simp only [RefNor.commit, hd, Cfg.commands_distinct h, if_false]

theorem commitWren_eq (d : RefNor) (args : List Byte) :
    d.commitWren args = { d with wel := if args = [] then true else d.wel } := by
  by_cases hargs : args = [] <;> simp [RefNor.commitWren, hargs]

theorem commitWrsr_eq {d : RefNor} (hw : d.wip = false) (args : List Byte) :
    d.commitWrsr args = { d with wip := d.wel && (args.length == 1 || args.length == 2) } := by
  rw [RefNor.commitWrsr]
  split
  next starts => rw [starts]
  next ignored => rw [eq_false_of_ne_true ignored, ← hw]

/-- With the latch clear or no data a program frame is ignored (R125). -/
theorem commitProgram_ignored {d : RefNor} {n : Nat} {args : List Byte} (h : d.wel = false ∨ args.length ≤ n)
    (size draws : Nat) : d.commitProgram size n args draws = .ok (d, draws) := by
  rw [RefNor.commitProgram, if_pos h]

/-- With the latch set and data, a program frame programs the data where it fits, and is refused elsewhere (R125, R126). -/
theorem commitProgram_data {d : RefNor} {m : AddrMode} {a : Nat} {data : List Byte} (hwel : d.wel = true)
    (ha : a < 2 ^ (8 * addrBytesOf m)) (hne : data ≠ []) (size draws : Nat) :
    d.commitProgram size (addrBytesOf m) (addressBytes m a ++ data) draws =
      if programFits size a data.length then
        .ok ({ d with mem := (programBytes d.mem a data draws).1, wip := true }, (programBytes d.mem a data draws).2)
      else .error .programOutsidePage := by
  have hlen := addressBytes_length m a
  have haddr : (addressBytes m a ++ data).take (addrBytesOf m) = addressBytes m a := by rw [← hlen, List.take_left]
  have hdata : (addressBytes m a ++ data).drop (addrBytesOf m) = data := by rw [← hlen, List.drop_left]
  have hpos : 0 < data.length := List.length_pos_of_ne_nil hne
  have runs : ¬ (d.wel = false ∨ (addressBytes m a ++ data).length ≤ addrBytesOf m) := by
    rintro (clear | short)
    · rw [hwel] at clear; cases clear
    · rw [List.length_append, hlen] at short; omega
  rw [RefNor.commitProgram, if_neg runs, haddr, hdata, bigEndian_addressBytes ha]

/-- With the latch clear, another length or an address beyond the device an erase frame is ignored (R127). -/
theorem commitErase_ignored {d : RefNor} {size n : Nat} {args : List Byte}
    (h : d.wel = false ∨ args.length ≠ n ∨ size ≤ bigEndian args) (sector : Nat) :
    d.commitErase size sector n args = d := by
  rw [RefNor.commitErase, if_pos h]

/-- With the latch set and an address in the device, an erase frame erases the sector of the address (R127, R128). -/
theorem commitErase_address {d : RefNor} {m : AddrMode} {a size : Nat} (hwel : d.wel = true)
    (ha : a < 2 ^ (8 * addrBytesOf m)) (hs : a < size) (sector : Nat) :
    d.commitErase size sector (addrBytesOf m) (addressBytes m a) =
      { d with mem := d.mem.eraseRange (a - a % sector) sector, wip := true } := by
  have runs : ¬ (d.wel = false ∨ (addressBytes m a).length ≠ addrBytesOf m ∨ size ≤ bigEndian (addressBytes m a)) := by
    rintro (clear | length | beyond)
    · rw [hwel] at clear; cases clear
    · exact length (addressBytes_length m a)
    · rw [bigEndian_addressBytes ha] at beyond; omega
  rw [RefNor.commitErase, if_neg runs, bigEndian_addressBytes ha]

theorem commitErase_wel (d : RefNor) (size sector n : Nat) (args : List Byte) :
    (d.commitErase size sector n args).wel = d.wel := by
  rw [RefNor.commitErase]; split <;> rfl

/-! The bytes that a device gives. -/

/-- Where the rules of the device give every byte, those are the bytes. -/
theorem Answers.eq {cfg : Cfg} {size n : Nat} {d : Device} {bs as : List Byte} (h : Answers cfg size d n bs)
    (hlen : as.length = n) (has : ∀ k, k < n → (Device.advances k d).answer cfg size = as[k]?) : bs = as := by
  refine List.ext_getElem (h.1.trans hlen.symm) fun k hbs hk => ?_
  have given : as[k]? = some as[k] := List.getElem?_eq_getElem hk
  have answer := h.2 k (hlen ▸ hk) as[k] ((has k (hlen ▸ hk)).trans given)
  exact Option.some.inj ((List.getElem?_eq_getElem hbs).symm.trans answer)

/-- In a frame of the read-status command alone every byte is the status byte (R121). -/
theorem answer_status (cfg : Cfg) (d : RefNor) (size k : Nat) :
    (Device.refNor (d.inFrame [cfg.opRdsr] k)).answer cfg size = some (d.statusByte cfg) := by
  simp only [Device.answer, RefNor.answer, RefNor.inFrame, RefNor.answerRdsr, if_true]
  rfl

/-! The simulated register device and the empty chip-select (R131, R132). -/

/-- The simulated register device that has received `rx` and given `n` bytes. -/
def SimRegDev.inFrame (d : SimRegDev) (rx : List Byte) (n : Nat) : SimRegDev := { d with rx := rx, rdcount := n }

theorem simReg_puts (d : SimRegDev) (bs : List Byte) : ∀ rx,
    (Device.simReg (d.inFrame rx 0)).puts bs = .simReg (d.inFrame (rx ++ bs) 0) := by
  induction bs with
  | nil => intro rx; rw [List.append_nil]; rfl
  | cons b bs ih =>
    intro rx
    have put : (Device.simReg (d.inFrame rx 0)).put b = .simReg (d.inFrame (rx ++ [b]) 0) := rfl
    rw [Device.puts_cons, put, ih, List.append_assoc, List.singleton_append]

/-- A new frame on the simulated register device holds the bytes received (R131). -/
theorem simReg_select_puts (d : SimRegDev) (bs : List Byte) :
    (Device.simReg d).select.puts bs = .simReg (d.inFrame bs 0) := simReg_puts d bs []

theorem simReg_advances (d : SimRegDev) (rx : List Byte) (n : Nat) : ∀ k,
    Device.advances n (.simReg (d.inFrame rx k)) = .simReg (d.inFrame rx (k + n)) := by
  induction n with
  | zero => intro k; rfl
  | succ n ih =>
    intro k
    have advance : (Device.simReg (d.inFrame rx k)).advance = .simReg (d.inFrame rx (k + 1)) := rfl
    rw [Device.advances, advance, ih, Nat.add_right_comm, Nat.add_assoc]

theorem simReg_framed (d : SimRegDev) (rx : List Byte) (n : Nat) :
    (Device.simReg d).framed rx n = .simReg (d.inFrame rx n) := by
  rw [Device.framed, simReg_select_puts, simReg_advances, Nat.zero_add]

/-- What closing a frame stores (R131). -/
theorem simReg_deselect (d : SimRegDev) (op : Byte) (sent : List Byte) (n : Nat) :
    (d.inFrame (op :: sent) n).deselect =
      { regs := if n = 0 ∧ (sent.length = 1 ∨ sent.length = 2) then regsStore d.regs op sent else d.regs
        rx := op :: sent, rdcount := n } := by
  by_cases stores : n = 0 ∧ (sent.length = 1 ∨ sent.length = 2)
  · rw [if_pos stores]; exact if_pos stores
  · rw [if_neg stores]; exact if_neg stores

/-- In a frame of a command byte alone the device gives the bytes of that register (R131). -/
theorem simReg_answer (d : SimRegDev) (op : Byte) (k : Nat) (cfg : Cfg) (size : Nat) :
    (Device.simReg (d.inFrame [op] k)).answer cfg size = (regsLookup d.regs op)[k]? := rfl

theorem absent_framed (rx : List Byte) (n : Nat) : Device.absent.framed rx n = .absent := by
  have puts : Device.absent.puts rx = .absent := by
    induction rx with
    | nil => rfl
    | cons b rx ih => exact ih
  have advances : Device.advances n .absent = .absent := by
    induction n with
    | zero => rfl
    | succ n ih => exact ih
  rw [Device.framed, show Device.absent.select = .absent from rfl, puts, advances]

/-! An operation that is a whole frame (R57, row 19). -/

/-- The operation `i` is the frame on `c` of the command byte `cmd`, the bytes `sent` and `reads` reads; it is called with no
agent left to act, no context inside a primitive and the byte order set; the open frame closes to `u`. -/
structure FrameCall (s u : State) (i : Instr) (c : ChipSel) (cmd : Byte) (sent : List Byte) (reads : Nat) : Prop where
  eager : s.Eager
  free : s.spiCaller = none
  lanes : s.bigEndianLanes = true
  closed : closeFrame s.sel (eagerStep s) = .ok () u
  spi : isSpiPrimitive i = true
  program : progInstr (s.env 0) i = runFrame (s.env 0) c cmd sent reads

/-- What a frame with the accesses `T` leaves: its result, the devices `d` on `c` and `e` on the other chip-select, both
chip-selects deasserted, the rest as in `s` (R57, R81, R87). -/
structure FrameDone (T : List Touch) (c : ChipSel) (d e : Device) (bs : List Byte) (s t : State) : Prop where
  result : t.result = .bytes bs
  dev : t.dev c = d
  other : t.dev c.other = e
  csb0 : t.csb0 = true
  csb1 : t.csb1 = true
  len : t.len = 0#2
  busy : t.busy = true
  log : ∃ new, t.log = s.log ++ new ∧ touches new = T
  frame : s.EngineFrame t

/-- What is left but for the result and the device of the frame, as the statements say it. -/
theorem FrameDone.rest {T : List Touch} {c : ChipSel} {d e : Device} {bs : List Byte} {s t : State}
    (h : FrameDone T c d e bs s t) : ∃ new, t.dev c.other = e ∧ t.csb0 = true ∧ t.csb1 = true ∧ t.len = 0#2 ∧
      t.busy = true ∧ t.log = s.log ++ new ∧ touches new = T ∧ s.EngineFrame t := by
  obtain ⟨new, log, touched⟩ := h.log
  exact ⟨new, h.other, h.csb0, h.csb1, h.len, h.busy, log, touched, h.frame⟩

section Calls

variable {s u : State} {i : Instr} {c : ChipSel} {cmd : Byte} {sent : List Byte} {reads : Nat}

/-- Everything a frame as an operation can do: it stops where the device refuses the frame, and else returns the bytes the
device gives and leaves the device as its `deselect` does (R57, R119, R125). -/
theorem FrameCall.outcome (h : FrameCall s u i c cmd sent reads) :
    ∃ bs draws, Answers s.cfg (s.cfg.flashSize c) ((u.dev c).finish.framed (cmd :: sent) 0) reads bs ∧
      (∀ r, ((u.dev c).finish.framed (cmd :: sent) reads).deselect s.cfg (s.cfg.flashSize c) s.cfg.eraseSize draws =
        .error r → exec i s = .refused r) ∧
      ∀ d n, ((u.dev c).finish.framed (cmd :: sent) reads).deselect s.cfg (s.cfg.flashSize c) s.cfg.eraseSize draws =
        .ok (d, n) → ∃ t, exec i s = .next t ∧
          FrameDone (frameTouches s.cfg c cmd sent reads) c d (u.dev c.other).finish bs s t := by
  have runs : Runs (s.env 0) (s.withCaller (some s.ctx)) := (h.eager.inside (some s.ctx)).runs 0
  have enters : enterOp (.instr i) s.ctx s = .ok () (s.withCaller (some s.ctx)) :=
    enterOp_spi (op := .instr i) h.spi h.free s.ctx
  obtain ⟨bs, draws, answers, refused, accepted⟩ :=
    runFrame_spec runs h.lanes (closeFrame_inside h.closed (some s.ctx)) c cmd sent reads
  rw [State.withCaller_dev] at answers refused accepted
  rw [exec_spi h.spi]
  refine ⟨bs, draws, answers, fun r hr => call_refused enters (by rw [h.program]; exact refused r hr), fun d n hd => ?_⟩
  obtain ⟨t, den, dev, other, csb0, csb1, len, busy, moves⟩ := accepted d n hd
  rw [State.withCaller_dev] at other
  obtain ⟨new, log, touched⟩ := moves.log
  exact ⟨_, call_ok enters (by rw [h.program]; exact den), rfl, by simpa using dev, by simpa using other,
    by simpa using csb0, by simpa using csb1, by simpa using len, by simpa using busy, ⟨new, by simpa using log, touched⟩,
    moves.toEngineFrame.ended h.free (op := .instr i) h.spi _⟩

/-- A frame whose `deselect` leaves the device the same whatever the free bytes are. -/
theorem FrameCall.returns {d : Device} (h : FrameCall s u i c cmd sent reads)
    (hd : ∀ draws, ((u.dev c).finish.framed (cmd :: sent) reads).deselect s.cfg (s.cfg.flashSize c) s.cfg.eraseSize draws =
      .ok (d, draws)) :
    ∃ t bs, exec i s = .next t ∧
      Answers s.cfg (s.cfg.flashSize c) ((u.dev c).finish.framed (cmd :: sent) 0) reads bs ∧
      FrameDone (frameTouches s.cfg c cmd sent reads) c d (u.dev c.other).finish bs s t := by
  obtain ⟨bs, draws, answers, _, accepted⟩ := h.outcome
  obtain ⟨t, run, done⟩ := accepted d draws (hd draws)
  exact ⟨t, bs, run, answers, done⟩

/-- A frame that commits nothing, on the reference device, busy or not (R119). -/
theorem FrameCall.inert {d : RefNor} (h : FrameCall s u i c cmd sent reads) (hd : (u.dev c).finish = .refNor d)
    (hi : InertFrame s.cfg (cmd :: sent)) :
    ∃ t bs, exec i s = .next t ∧
      Answers s.cfg (s.cfg.flashSize c) (.refNor (d.inFrame (cmd :: sent) 0)) reads bs ∧
      FrameDone (frameTouches s.cfg c cmd sent reads) c (.refNor (d.afterFrame (cmd :: sent) reads))
        (u.dev c.other).finish bs s t := by
  have closes := frame_inert d hi reads (s.cfg.flashSize c) s.cfg.eraseSize
  rw [← hd] at closes
  obtain ⟨t, bs, run, answers, done⟩ := h.returns closes
  rw [hd, refNor_framed] at answers
  exact ⟨t, bs, run, answers, done⟩

/-- A frame on an idle reference device commits its command, or is refused with it (R119, R125). -/
theorem FrameCall.idle {d : RefNor} (h : FrameCall s u i c cmd sent reads) (hd : (u.dev c).finish = .refNor d)
    (hw : d.wip = false) :
    ∃ bs draws, bs.length = reads ∧
      (∀ r, (d.afterFrame (cmd :: sent) reads).commit s.cfg (s.cfg.flashSize c) s.cfg.eraseSize draws = .error r →
        exec i s = .refused r) ∧
      ∀ e n, (d.afterFrame (cmd :: sent) reads).commit s.cfg (s.cfg.flashSize c) s.cfg.eraseSize draws = .ok (e, n) →
        ∃ t, exec i s = .next t ∧
          FrameDone (frameTouches s.cfg c cmd sent reads) c (.refNor e) (u.dev c.other).finish bs s t := by
  obtain ⟨bs, draws, answers, refused, accepted⟩ := h.outcome
  rw [hd, frame_idle hw] at refused accepted
  exact ⟨bs, draws, answers.1, fun r hr => refused r (by rw [hr]; rfl),
    fun e n he => accepted (.refNor e) n (by rw [he]; rfl)⟩

/-- A fast-read frame of either addressing mode (R123, R124). -/
theorem FrameCall.fastRead {m : AddrMode} {d : RefNor} (h : FrameCall s u i c (s.cfg.opRead m) sent reads)
    (hd : (u.dev c).finish = .refNor d) (hw : d.wip = false) :
    ∃ t bs, exec i s = .next t ∧ bs.length = reads ∧
      (∀ (a : Nat) (dummies : List Byte), a < 2 ^ (8 * addrBytesOf m) → dummies.length = s.cfg.numDummy →
        sent = addressBytes m a ++ dummies →
        bs = (List.range reads).map fun k => d.mem.read ((a + k) % s.cfg.flashSize c)) ∧
      FrameDone (frameTouches s.cfg c (s.cfg.opRead m) sent reads) c
        (.refNor (d.afterFrame (s.cfg.opRead m :: sent) reads)) (u.dev c.other).finish bs s t := by
  obtain ⟨t, bs, run, answers, done⟩ := h.inert hd (inert_read h.eager.cfgOk m sent)
  refine ⟨t, bs, run, answers.1, fun a dummies ha hdummies header => ?_, done⟩
  subst header
  refine answers.eq (by simp) fun k hk => ?_
  rw [advances_inFrame, Nat.zero_add, answer_read h.eager.cfgOk hw ha hdummies.ge]
  simp [hk]

end Calls

/-! The command frames on the reference device. -/

/-- Settles O52: a read-status frame commits nothing, and every byte is the answer to it. -/
theorem frameReadStatus : Obligations.FrameReadStatus := by
  intro s u c d sent reads he hf hb hc hd
  have call : FrameCall s u (.rdsr c sent reads) c s.cfg.opRdsr sent reads := ⟨he, hf, hb, hc, rfl, rfl⟩
  obtain ⟨t, bs, run, answers, done⟩ := call.inert hd (inert_status he.cfgOk sent)
  obtain ⟨new, rest⟩ := done.rest
  refine ⟨t, bs, new, run, done.result, answers.1, fun alone => ?_, done.dev, rest⟩
  subst alone
  refine answers.eq List.length_replicate fun k hk => ?_
  rw [advances_inFrame, answer_status, List.getElem?_replicate_of_lt hk]

/-- Settles O53: what the two commands commit. -/
theorem frameLatchCommands : Obligations.FrameLatchCommands := by
  intro s u c d sent reads he hf hb hc hd hw
  constructor
  · have call : FrameCall s u (.wren c sent reads) c s.cfg.opWren sent reads := ⟨he, hf, hb, hc, rfl, rfl⟩
    obtain ⟨bs, draws, length, _, accepted⟩ := call.idle hd hw
    obtain ⟨t, run, done⟩ := accepted _ _ (commit_wren rfl ..)
    obtain ⟨new, rest⟩ := done.rest
    exact ⟨t, bs, new, run, done.result, length, by rw [done.dev, commitWren_eq]; rfl, rest⟩
  · have call : FrameCall s u (.wrsr c sent reads) c s.cfg.opWrsr sent reads := ⟨he, hf, hb, hc, rfl, rfl⟩
    obtain ⟨bs, draws, length, _, accepted⟩ := call.idle hd hw
    obtain ⟨t, run, done⟩ := accepted _ _ (commit_wrsr he.cfgOk rfl ..)
    obtain ⟨new, rest⟩ := done.rest
    exact ⟨t, bs, new, run, done.result, length, by rw [done.dev, commitWrsr_eq (by exact hw)]; rfl, rest⟩

/-- Settles O54: the fast-read frame of each addressing mode. -/
theorem frameFastRead : Obligations.FrameFastRead := by
  intro s u c d sent reads he hf hb hc hd hw
  constructor
  · have call : FrameCall s u (.fastRead c sent reads) c (s.cfg.opRead .three) sent reads := ⟨he, hf, hb, hc, rfl, rfl⟩
    obtain ⟨t, bs, run, length, bytes, done⟩ := call.fastRead hd hw
    obtain ⟨new, rest⟩ := done.rest
    exact ⟨t, bs, new, run, done.result, length, bytes, done.dev, rest⟩
  · have call : FrameCall s u (.fastRead4b c sent reads) c (s.cfg.opRead .four) sent reads := ⟨he, hf, hb, hc, rfl, rfl⟩
    obtain ⟨t, bs, run, length, bytes, done⟩ := call.fastRead hd hw
    obtain ⟨new, rest⟩ := done.rest
    exact ⟨t, bs, new, run, done.result, length, bytes, done.dev, rest⟩

/-- Settles O55: what the page-program frame commits, by its latch, its data and the page it is in. -/
theorem framePageProgram : Obligations.FramePageProgram := by
  intro s u c d m sent he hf hb hc hd hw hwf reads
  have call : FrameCall s u (programFrame m c sent reads) c (s.cfg.opPp m) sent reads := by
    cases m <;> exact ⟨he, hf, hb, hc, rfl, rfl⟩
  obtain ⟨bs, draws, _, refused, accepted⟩ := call.idle hd hw
  rw [commit_program he.cfgOk rfl] at refused accepted
  refine ⟨fun a data ha header hwel hne hpage hcross hsize => ?programs,
    fun a data ha header hwel hne outside => ?outside, fun ignored => ?ignored⟩
  case programs =>
    subst header
    have fits : programFits (s.cfg.flashSize c) a data.length = true := programFits_iff.mpr ⟨hpage, hcross, hsize⟩
    have commits := commitProgram_data (d := d.afterFrame (s.cfg.opPp m :: (addressBytes m a ++ data)) reads) hwel ha hne
      (s.cfg.flashSize c) draws
    rw [if_pos fits] at commits
    obtain ⟨t, run, done⟩ := accepted _ _ commits
    obtain ⟨programmed, kept⟩ := programBytes_programmed hwf a draws data
    exact ⟨t, _, run, done.dev, rfl, hwel, programmed, kept, done.other, done.csb0, done.csb1, done.frame⟩
  case outside =>
    subst header
    have misfit : ¬ programFits (s.cfg.flashSize c) a data.length = true := by rw [programFits_iff]; omega
    refine refused _ ?_
    rw [commitProgram_data (by exact hwel) ha hne, if_neg misfit]
  case ignored =>
    obtain ⟨t, run, done⟩ := accepted _ _ (commitProgram_ignored (by exact ignored) ..)
    exact ⟨t, _, run, done.dev, hw, rfl, rfl, done.other, done.csb0, done.csb1, done.frame⟩

/-- Settles O56: what the sector-erase frame commits. -/
theorem frameSectorErase : Obligations.FrameSectorErase := by
  intro s u c d m sent reads he hf hb hc hd hw
  have call : FrameCall s u (eraseFrame m c sent reads) c (s.cfg.opSe m) sent reads := by
    cases m <;> exact ⟨he, hf, hb, hc, rfl, rfl⟩
  obtain ⟨bs, draws, _, _, accepted⟩ := call.idle hd hw
  obtain ⟨t, run, done⟩ := accepted _ _ (commit_erase he.cfgOk rfl ..)
  refine ⟨t, _, run, done.dev, commitErase_wel .., done.other, done.csb0, done.csb1, done.frame,
    fun a ha header hwel hsize => ?erases, fun ignored => ?ignored⟩
  case erases =>
    subst header
    rw [commitErase_address (by exact hwel) ha hsize]
    exact ⟨rfl, fun x => Memory.read_eraseRange d.mem _ _ x⟩
  case ignored =>
    rw [commitErase_ignored (by exact ignored)]
    exact ⟨hw, rfl⟩

/-- The command frames are calls of `runFrame`, each with its command byte. -/
theorem commandFrame_program {i : Instr} {c : ChipSel} {sent : List Byte} {reads : Nat} (e : Env)
    (hi : i = .wrsr c sent reads ∨ i = .pp c sent reads ∨ i = .wren c sent reads ∨ i = .fastRead c sent reads ∨
      i = .fastRead4b c sent reads ∨ i = .pp4b c sent reads ∨ i = .se c sent reads ∨ i = .se4b c sent reads) :
    ∃ cmd, isSpiPrimitive i = true ∧ progInstr e i = runFrame e c cmd sent reads := by
  rcases hi with rfl | rfl | rfl | rfl | rfl | rfl | rfl | rfl <;> exact ⟨_, rfl, rfl⟩

/-- Settles O57: while WIP is set `deselect` ignores the frame, and a stuck device keeps WIP. -/
theorem busyDeviceIgnores : Obligations.BusyDeviceIgnores := by
  refine ⟨fun cfg d size sector draws hw => deselect_busy hw cfg size sector draws, ?_⟩
  intro s u c d sent reads i he hf hb hc hd hw hstuck hi
  obtain ⟨cmd, spi, program⟩ := commandFrame_program (s.env 0) hi
  have call : FrameCall s u i c cmd sent reads := ⟨he, hf, hb, hc, spi, program⟩
  have framed : (u.dev c).finish.framed (cmd :: sent) reads = .refNor (d.inFrame (cmd :: sent) reads) := by
    rw [hd, RefNor.NeverFinishes.finish ⟨hw, hstuck⟩, refNor_framed]
  have closes := deselect_busy (d := d.inFrame (cmd :: sent) reads) hw s.cfg (s.cfg.flashSize c) s.cfg.eraseSize
  rw [← framed] at closes
  obtain ⟨t, bs, run, _, done⟩ := call.returns closes
  exact ⟨t, _, run, done.dev, hw, rfl, rfl, done.other, done.csb0, done.csb1, done.frame⟩

/-! The command frames on the other devices (R131, R132). -/

/-- Settles O59: an empty chip-select stays empty, and the simulated register device stores what its `deselect` stores. -/
theorem framesOnOtherDevices : Obligations.FramesOnOtherDevices := by
  intro s u c sent reads i op he hf hb hc hi
  have call : FrameCall s u i c op sent reads := by
    rcases hi with ⟨rfl, rfl⟩ | ⟨rfl, rfl⟩ | ⟨rfl, rfl⟩ | ⟨rfl, rfl⟩ | ⟨rfl, rfl⟩ | ⟨rfl, rfl⟩ | ⟨rfl, rfl⟩ | ⟨rfl, rfl⟩ |
      ⟨rfl, rfl⟩ <;> exact ⟨he, hf, hb, hc, rfl, rfl⟩
  refine ⟨fun hd => ?absent, fun d hd => ?simReg⟩
  case absent =>
    have framed : (u.dev c).finish.framed (op :: sent) reads = .absent := by rw [hd]; exact absent_framed ..
    obtain ⟨t, bs, run, answers, done⟩ := call.returns (d := .absent) fun draws => by rw [framed]; rfl
    refine ⟨t, bs, run, done.result, answers.1, fun x => ?_, done.frame⟩
    rcases ChipSel.eq_or_other c x with rfl | rfl
    · rw [hd]; exact done.dev
    · exact done.other
  case simReg =>
    have framed : (u.dev c).finish.framed (op :: sent) reads = .simReg (d.inFrame (op :: sent) reads) := by
      rw [hd]; exact simReg_framed ..
    obtain ⟨t, bs, run, answers, done⟩ := call.returns (d := .simReg (d.inFrame (op :: sent) reads).deselect)
      fun draws => by rw [framed]; rfl
    rw [simReg_deselect] at done
    exact ⟨t, bs, run, done.result, answers.1, done.dev, done.other, done.frame⟩

/-- Settles O44: the frame of `read_reg` closes the frame that `write_reg` left open, which stores the bytes. -/
theorem registerRoundTrip : Obligations.RegisterRoundTrip := by
  intro s u d op buf len h hf hc hd hlen hbuf hpack
  have hle : len ≤ 2 := by omega
  have htake : (buf.take len).length = len := List.length_take_of_le hbuf
  obtain ⟨t, wrote, inside, link⟩ := exec_writeReg h hf hc op hle hbuf
  have received : (u.dev s.ctrl.cs).finish.select.puts (op :: buf.take len) =
      .simReg (d.inFrame (op :: buf.take len) 0) := by rw [hd]; exact simReg_select_puts ..
  rw [writeLanes_writeReg op hle hbuf hpack, received] at link
  have frame : s.EngineFrame (t.ended (.instr (.writeReg op buf len)) .ok) := inside.ended hf rfl _
  obtain ⟨v, closed, stored, _⟩ := close_link (d' := .simReg (d.inFrame (op :: buf.take len) 0).deselect) rfl
    (link.ended (.instr (.writeReg op buf len)) .ok) rfl
  obtain ⟨bs, w, k, read, _, _, answers⟩ := exec_readReg (frame.ready h) (frame.rest.spiCaller.trans hf) closed op
    (len := len) (by omega)
  refine ⟨_, _, wrote, read, congrArg Result.bytes (answers.eq htake fun j hj => ?_)⟩
  rw [frame.ctrl, stored, simReg_deselect, if_pos ⟨rfl, by omega⟩]
  show ((Device.simReg _).framed [op] j).answer _ _ = _
  rw [simReg_framed, simReg_answer, regsLookup_regsStore_self]

end Sys2Proof.Machine

end

/-! The other agents' own steps (R14, R43, R91, R130), between the steps of the running context and as items of the
program. -/

section

namespace Sys2Proof.Machine

/-! The completion steps (R91, R130). -/

/-- `finish` of a device that is not stuck ends its operation (R130). -/
theorem refNor_finish_busy {d : RefNor} (hw : d.wip = true) (hs : d.stuck = false) :
    (Device.refNor d).finish = .refNor { d with wip := false, wel := false } := by
  simp [Device.finish, RefNor.finish, hw, hs]

/-- `finish` is not enabled in an idle or stuck device (R130). -/
theorem refNor_finish_disabled {d : RefNor} (h : d.wip = false ∨ d.stuck = true) :
    (Device.refNor d).finish = .refNor d := by
  rcases h with h | h <;> simp [Device.finish, RefNor.finish, h]

theorem devFinish_of_finish {c : ChipSel} {s : State} {d e : Device} (hd : s.dev c = d) (he : d.finish = e) :
    devFinish c s = s.setDev c e := by
  rw [devFinish, hd, he]

/-- A device that has no step of its own to take stays as it is, and so does the state. -/
theorem devFinish_settled {c : ChipSel} {s : State} {d : Device} (hd : s.dev c = d) (he : d.finish = d) :
    devFinish c s = s := by
  rw [devFinish_of_finish hd he, ← hd, State.setDev_self]

theorem spiComplete_busy {s : State} (hb : s.busy = true) (hw : s.wedged = false) :
    spiComplete s = { s with busy := false } := by
  rw [spiComplete, if_pos (by simp [hb, hw])]

theorem spiComplete_disabled {s : State} (h : s.busy = false ∨ s.wedged = true) : spiComplete s = s := by
  rw [spiComplete, if_neg (by rcases h with h | h <;> simp [h])]

/-! Source lines (R14). -/

/-- The source line that moves has its new level, and every other line its old one (R14). -/
theorem setSource_getLsbD (s : State) {src : Nat} (hsrc : src < 32) (level : Bool) (n : Nat) :
    (setSource src level s).src.getLsbD n = if n = src then level else s.src.getLsbD n := by
  cases level with
  | true =>
    show (maskSet src s.src).getLsbD n = _
    rw [maskSet, BitVec.getLsbD_or, bit_getLsbD]
    by_cases hn : n = src
    · simp only [hn, hsrc, decide_true, Bool.and_self, Bool.or_true, if_true]
    · simp only [hn, Ne.symm hn, decide_false, Bool.false_and, Bool.or_false, if_false]
  | false =>
    show (maskClear src s.src).getLsbD n = _
    rw [maskClear_getLsbD]
    by_cases hn : n = src
    · simp only [hn, decide_true, Bool.not_true, Bool.and_false, if_true]
    · simp only [hn, Ne.symm hn, decide_false, Bool.not_false, Bool.and_true, if_false]

/-! The SPI mutex (R43). -/

theorem callOf_eq_none_iff {s : State} {ctx : Nat} : s.callOf ctx = none ↔ ∀ c, c ∈ s.calls → c.ctx ≠ ctx := by
  simp [State.callOf]

/-- An item that does not wait is picked from the head of the program (row 16). -/
theorem pick_head_ready {s : State} {item : Issue} (rest : List Issue) (h : s.waits item = false) :
    s.pick [] (item :: rest) = some (item, rest) := by
  rw [State.pick, List.contains_nil, h]
  rfl

/-- A program of one item that waits has nothing to run (row 16). -/
theorem pick_waiting {s : State} {item : Issue} (h : s.waits item = true) : s.pick [] [item] = none := by
  rw [State.pick, h, Bool.or_true]
  rfl

/-- Taking the mutex waits while it is held, in a context with no operation in progress (R43). -/
theorem waits_takeMutex {s : State} {ctx : Nat} (hctx : ∀ c, c ∈ s.calls → c.ctx ≠ ctx) :
    s.waits (.takeMutex ctx) = (s.spiMutex != .free) := by
  have hcalls : (s.calls.any fun c => c.ctx == ctx) = false := by simpa using hctx
  simp only [State.waits, issueCtx, hcalls, asksMutex, Bool.false_or, Bool.true_and]

/-- A step runs what is next after the interleaving point (R7, R40). -/
theorem step_of_point {s p : State} (hok : s.cfg.ok = true) (hp : s.point = .ok () p) : step s = runNext p := by
  rw [step, if_pos hok, hp, Res.finish_ok]

/-- The collaborator's moves between the steps of the running context (R43, row 12). -/
theorem agentStep_mutex (s : State) (ctx : Nat) :
    (ctx ≠ s.ctx → s.spiMutex = .free → agentStep (.takeMutex ctx) s = .ok () { s with spiMutex := .held ctx }) ∧
    (ctx = s.ctx ∨ s.spiMutex ≠ .free → agentStep (.takeMutex ctx) s = .ok () s) ∧
    (ctx ≠ s.ctx → s.spiMutex = .held ctx → (∀ c, c ∈ s.calls → c.ctx ≠ ctx) →
      agentStep (.releaseMutex ctx) s = .ok () { s with spiMutex := .free }) ∧
    (ctx = s.ctx ∨ s.spiMutex ≠ .held ctx ∨ (∃ c, c ∈ s.calls ∧ c.ctx = ctx) →
      agentStep (.releaseMutex ctx) s = .ok () s) := by
  simp only [agentStep, callOf_eq_none_iff]
  refine ⟨fun hne hfree => if_pos ⟨hfree, hne⟩, fun h => if_neg fun ⟨hfree, hne⟩ => ?_,
    fun hne hheld hcalls => if_pos ⟨hheld, hne, hcalls⟩, fun h => if_neg fun ⟨hheld, hne, hcalls⟩ => ?_⟩
  · exact h.elim hne fun held => held hfree
  · rcases h with rfl | other | ⟨c, hc, rfl⟩
    · exact hne rfl
    · exact other hheld
    · exact hcalls c hc rfl

/-- The collaborator's moves as items of the program (R43, row 16). -/
theorem step_mutex {s p : State} {ctx : Nat} (rest : List Issue) (hok : s.cfg.ok = true) (hp : s.point = .ok () p)
    (hctx : ∀ c, c ∈ p.calls → c.ctx ≠ ctx) :
    (p.program = .takeMutex ctx :: rest → p.spiMutex = .free →
      step s = .next { p with spiMutex := .held ctx, program := rest }) ∧
    (p.program = [.takeMutex ctx] → p.spiMutex ≠ .free → p.calls = [] → step s = .next p) ∧
    (p.program = .releaseMutex ctx :: rest → p.spiMutex = .held ctx →
      step s = .next { p with spiMutex := .free, program := rest }) ∧
    (p.program = .releaseMutex ctx :: rest → p.spiMutex ≠ .held ctx → step s = .refused .mutexNotHeld) := by
  refine ⟨fun hprog hfree => ?take, fun hprog hheld hcalls => ?wait, fun hprog hheld => ?release,
    fun hprog hother => ?refused⟩
  case take =>
    have ready : p.waits (.takeMutex ctx) = false := by rw [waits_takeMutex hctx, hfree]; rfl
    rw [step_of_point hok hp, runNext, hprog, pick_head_ready rest ready]
    rfl
  case wait =>
    have waits : p.waits (.takeMutex ctx) = true := by rw [waits_takeMutex hctx]; exact bne_iff_ne.mpr hheld
    rw [step_of_point hok hp, runNext, hprog, pick_waiting waits]
    simp only [resumeFirst, hcalls]
  case release =>
    rw [step_head hok hp hprog hctx rfl]
    exact if_pos hheld
  case refused =>
    rw [step_head hok hp hprog hctx rfl]
    exact if_neg hother

/-- Settles O60: each agent's step, by whether it is enabled. -/
theorem deviceFinish : Obligations.DeviceFinish := by
  refine ⟨fun s c => ⟨fun d hd hw hs => ?busy, fun d hd h => ?disabled, fun d hd => ?simReg, fun hd => ?absent⟩,
    fun s => ⟨fun hb hw => ?complete, fun h => ?ready⟩, fun s src level => ⟨_, rfl, fun n _ => ?source⟩, agentStep_mutex,
    fun s p ctx rest => step_mutex rest⟩
  case busy => exact congrArg (Res.ok ()) (devFinish_of_finish hd (refNor_finish_busy hw hs))
  case disabled => exact congrArg (Res.ok ()) (devFinish_settled hd (refNor_finish_disabled h))
  case simReg => exact congrArg (Res.ok ()) (devFinish_settled hd rfl)
  case absent => exact congrArg (Res.ok ()) (devFinish_settled hd rfl)
  case complete => exact congrArg (Res.ok ()) (spiComplete_busy hb hw)
  case ready => exact congrArg (Res.ok ()) (spiComplete_disabled h)
  case source => exact setSource_getLsbD s src.isLt level n

end Sys2Proof.Machine

end

/-! The reset values (R154). -/

section

namespace Sys2Proof.Machine

/-- With every source masked no CPU line is high (R63). -/
theorem cpuLines_of_masked {s : State} (masked : s.gimr = 0#32) : s.cpuLines = 0#8 := by
  refine BitVec.eq_of_getLsbD_eq fun k hk => ?_
  rw [cpuLines_getLsbD s hk, BitVec.getLsbD_zero]
  refine Bool.eq_false_iff.mpr fun high => ?_
  obtain ⟨src, _, _, _, _, enabled⟩ := lineLevel_iff.mp high
  rw [masked, BitVec.getLsbD_zero] at enabled
  exact Bool.false_ne_true enabled

/-- SFCSR with the decided layout, both chip-selects deasserted, width 1 and ready (R52, R154). -/
theorem sfcsr_of_deselected {s : State} (cfg : s.cfg = Cfg.reference) (csb0 : s.csb0 = true) (csb1 : s.csb1 = true)
    (len : s.len = 0#2) (busy : s.busy = false) : s.sfcsr = 0xC8000000#32 := by
  rw [State.sfcsr, cfg, csb0, csb1, len, busy]
  rfl

/-- A reference device of the reset state is at the start of a run: chip-select 1 has no device (row 7). -/
theorem reset_dev_refNor {c : ChipSel} {d : RefNor} (h : State.reset.dev c = .refNor d) : d = RefNor.initial := by
  cases c with
  | cs0 => exact (Device.refNor.inj h).symm
  | cs1 => exact nomatch (h : Device.absent = .refNor d)

/-- Settles O1: the stored values as they stand; no line is high as all sources are masked; SFCSR from its fields; the
devices from `RefNor.initial`. -/
theorem resetValues : Obligations.ResetValues := by
  have irr : State.reset.irr = Vector.replicate 4 0#32 := rfl
  refine ⟨rfl, fun n => ?irr, cpuLines_of_masked rfl, fun k => ?idle, fun src => ?noHandler, rfl, rfl,
    sfcsr_of_deselected rfl rfl rfl rfl rfl, rfl, rfl, rfl, rfl, rfl, fun c d h => ?device⟩
  case irr => rw [irr]; exact Vector.getElem_replicate n.isLt
  case idle => exact Vector.getElem_replicate k.isLt
  case noHandler => exact Vector.getElem_replicate src.isLt
  case device => rw [reset_dev_refNor h]; exact ⟨rfl, rfl, rfl, rfl⟩

end Sys2Proof.Machine

end
